-- ==== Sys2Proof/Word.lean ====
section
/-! DEFINITION. The word types of the HS7212: what crosses its lines as bits. -/

namespace Sys2Proof

/-- One byte on a link, on the host command port or in the profile store. -/
abbrev Byte := BitVec 8

/-- A 32-bit tag: a cell tag, a network tag or a prefix base (R1, R6, R36). -/
abbrev Tag := BitVec 32

/-- A revision 0..63, counted modulo 64 (R13). -/
abbrev Revision := BitVec 6

end Sys2Proof
end

