-- ==== Sys2Proof/Config.lean ====
section
/-! DEFINITION. What is fixed for the device: its capacities and times as the spec states them, and the free
values the spec leaves open (constants with no body; nothing can be proved of their values). -/

namespace Sys2Proof.Config

/-- Slots of the alert directory (R63, Table 5). -/
abbrev entrySlots : Nat := 48
/-- Page slots of one link (R17). -/
abbrev pageSlots : Nat := 6
/-- Segments of the text store (R63, R77). -/
abbrev textSegments : Nat := 160
/-- Records of the retired list (R63, R80). -/
abbrev retiredRecords : Nat := 64
/-- Entries of the profile cache (R49). -/
abbrev cacheEntries : Nat := 6
/-- Regions of the load queue (R53). -/
abbrev loadRegions : Nat := 8
/-- Records of the receipt queue (R151). -/
abbrev receiptRecords : Nat := 16
/-- Where every counter saturates (R187). -/
abbrev counterLimit : Nat := 65535

/-- Reception deadline of a frame, ms after its first byte (R24). -/
abbrev frameMs : Nat := 4
/-- Quarantine of a faulted link, ms (R32). -/
abbrev quarantineMs : Nat := 60000
/-- Wait of a page for its profile, ms after its arrival (R56). -/
abbrev waitMs : Nat := 20000
/-- Wait for the answer to an offered receipt, ms (R157). -/
abbrev offerMs : Nat := 30000
/-- Play time of a reminder, ms (R133). -/
abbrev reminderMs : Nat := 1500
/-- Milliseconds of a minute (R15, R82, R166). -/
abbrev minuteMs : Nat := 60000
/-- Bytes of one profile record (R43, R194). -/
abbrev recordBytes : Nat := 512
/-- Full circle of longitude, 1/100 000 degree (R119). -/
abbrev circle : Int := 36000000

/-- FREE VALUE (logs 6 and 7): a byte the port shifts out whose value the spec does not state. -/
opaque freeByte : Nat → BitVec 8

/-- FREE VALUE (log 3): which of several steps due at one moment is taken first. -/
opaque freeChoice : Nat → Nat

/-- FREE VALUE (log 26): whether an escalated reminder uses, at a count and a time, its leave to yield at the minimum
play (R139). -/
opaque freeEarlyYield : Nat → Nat → Bool

/-- FREE VALUE (log 4): the kind byte that had been read, if any, when a frame times out before its header is
complete. -/
opaque freeKindRead : Nat → Option (BitVec 8)

end Sys2Proof.Config
end

