-- ==== Sys2Proof/Syntax.lean ====
section
/-! DEFINITION. The commands of the HS7212: one constructor per row of spec/opcode_table.json. A command is one
whole step of the block (95_what_each_step_holds): bytes from a modem or the host, the flash's bytes, the reset
pin, or a step of the device's own that the alert clock or a queue of its own brings about. -/

namespace Sys2Proof

/-- The two modem links (00 Table 1). -/
inductive LinkId where
  | la
  | lb
deriving DecidableEq, Repr

/-- The other link (00 Names in the text). -/
def LinkId.other : LinkId → LinkId
  | .la => .lb
  | .lb => .la

/-- A page slot 0..5 of one link (R17). -/
abbrev PageSlot := Fin Config.pageSlots

/-- A slot 0..47 of the alert directory (R63). -/
abbrev EntrySlot := Fin Config.entrySlots

/-- The id 0..15 of a receipt record (R155). -/
abbrev ReceiptId := Fin Config.receiptRecords

/-- The commands. Where a row is a host command, `bytes` is what the transaction holds after the command code:
the length field and the body, as the host sent them, right or wrong (R171, R173, R192). Where a row is the end of
a frame, `body` is the frame's body as it was received (R189). -/
inductive Instr where
  /-- POWER_ON_RESET: RSTN held low, or power applied (R170). -/
  | powerOnReset
  /-- FRAME_START: a byte arrives on a hunting link (R24). -/
  | frameStart (l : LinkId) (b : Byte)
  /-- FRAME_HEADER: kind byte and body length of a frame in progress are complete (R26, R189). -/
  | frameHeader (l : LinkId) (kind : Byte) (len : BitVec 16)
  /-- FRAME_TIMEOUT: the reception deadline expires; `kindRead` is the kind byte if it had been read although the
  header was not complete (R25). -/
  | frameTimeout (l : LinkId) (kindRead : Option Byte)
  /-- HELLO: the last declared byte of a frame of kind HELLO (R19, R20). -/
  | hello (l : LinkId) (body : List Byte)
  /-- GOODBYE: the last declared byte of a frame of kind GOODBYE (R22). -/
  | goodbye (l : LinkId) (body : List Byte)
  /-- PAGE: the last declared byte of a frame of kind PAGE (R30). -/
  | page (l : LinkId) (body : List Byte)
  /-- SERVING: the last declared byte of a frame of kind SERVING (R36). -/
  | serving (l : LinkId) (body : List Byte)
  /-- RECEIPT_RESULT: the last declared byte of a frame of kind RECEIPT-RESULT (R40). -/
  | receiptResult (l : LinkId) (body : List Byte)
  /-- QUARANTINE_EXPIRY: the quarantine deadline of a FAULTED link expires (R35). -/
  | quarantineExpiry (l : LinkId)
  /-- FRAME_SEND: the link's transmitter is idle and takes the next frame of the output queue (R41). -/
  | frameSend (l : LinkId)
  /-- LOAD_COMPLETE: the bytes that complete the record of the load in flight are read (R55). -/
  | loadComplete (data : List Byte)
  /-- WAIT_DEADLINE_EXPIRY: the wait deadline of the pending page in this slot expires (R57). -/
  | waitDeadlineExpiry (l : LinkId) (k : PageSlot)
  /-- EXPIRY: the expiry of the entry in this slot is reached (R83). -/
  | expiry (i : EntrySlot)
  /-- ASSEMBLY_DEADLINE: the assembly deadline of this slot's incoming revision expires (R85, R86). -/
  | assemblyDeadline (i : EntrySlot)
  /-- REDECISION: the handle at the head of the re-decision list is worked (R126). -/
  | redecision
  /-- PLAY_END: the playing request's remaining time is 0 (R141). -/
  | playEnd
  /-- PREEMPTION: a higher request waits and the turn has reached the minimum play (R137). -/
  | preemption
  /-- YIELD: a request of the same level waits and the turn has reached minimum plus maximum play (R138). -/
  | yield
  /-- SILENCED_PLAY_END: a silenced play's total reaches the minimum play (R144). -/
  | silencedPlayEnd
  /-- CADENCE_SEGMENT_END: the current segment of the pattern ends (R145). -/
  | cadenceSegmentEnd
  /-- REMINDER_DEADLINE: the next-reminder deadline of the entry in this slot expires (R167). -/
  | reminderDeadline (i : EntrySlot)
  /-- OFFER_DEADLINE: the deadline of the offered receipt with this id expires (R158). -/
  | offerDeadline (r : ReceiptId)
  /-- RESPONSE_READ: the host reads; `n` is how many bytes it clocks out after the first (R172). -/
  | responseRead (n : Nat)
  /-- BAD_COMMAND: a command transaction with an unknown code (R173). -/
  | badCommand (code : Byte) (bytes : List Byte)
  /-- GET_EVENTS (R179). -/
  | getEvents (bytes : List Byte)
  /-- SET_EVENT_MASK (R180). -/
  | setEventMask (bytes : List Byte)
  /-- SET_WAKE_ENABLE (R181). -/
  | setWakeEnable (bytes : List Byte)
  /-- LIST (R174). -/
  | list (bytes : List Byte)
  /-- READ_ENTRY (R175). -/
  | readEntry (bytes : List Byte)
  /-- READ_TEXT (R176). -/
  | readText (bytes : List Byte)
  /-- ACKNOWLEDGE (R152, R153). -/
  | acknowledge (bytes : List Byte)
  /-- SILENCE (R143, R144). -/
  | silence (bytes : List Byte)
  /-- SET_POSITION (R112). -/
  | setPosition (bytes : List Byte)
  /-- CLEAR_POSITION (R113). -/
  | clearPosition (bytes : List Byte)
  /-- WRITE_SETTINGS (R183, R184). -/
  | writeSettings (bytes : List Byte)
  /-- READ_SETTINGS (R183). -/
  | readSettings (bytes : List Byte)
  /-- READ_LINKS (R42). -/
  | readLinks (bytes : List Byte)
  /-- CLEAR_LINK_FAULT (R34). -/
  | clearLinkFault (bytes : List Byte)
  /-- FLUSH_PROFILES (R61). -/
  | flushProfiles (bytes : List Byte)
  /-- YIELD_STORE (R58). -/
  | yieldStore (bytes : List Byte)
  /-- RETURN_STORE (R60). -/
  | returnStore (bytes : List Byte)
  /-- READ_COUNTERS (R187). -/
  | readCounters (bytes : List Byte)
  /-- UNKNOWN_KIND_FRAME_END: the last declared byte of a frame of unknown kind (R189). -/
  | unknownKindFrameEnd (l : LinkId) (body : List Byte)
deriving DecidableEq, Repr

end Sys2Proof
end

