-- ==== Sys2Proof/WellFormed.lean ====
section
/-! DEFINITION. Which commands can arrive at all. Bytes that break the spec's rules are well-formed commands (the
device answers or faults the link); ill-formed is only what no partner can send as that row. -/

namespace Sys2Proof

/-- A frame body's length is counted by a 16-bit field (R189). -/
abbrev bodyFits (body : List Byte) : Prop := body.length ≤ 65535

/-- The codes of Table 50: 01h to 12h. -/
abbrev knownCommandCode (code : Byte) : Prop := 1 ≤ code.toNat ∧ code.toNat ≤ 18

/-- A command that its row's partner can send. -/
abbrev Instr.WellFormed : Instr → Prop
  | .hello _ body => bodyFits body
  | .goodbye _ body => bodyFits body
  | .page _ body => bodyFits body
  | .serving _ body => bodyFits body
  | .receiptResult _ body => bodyFits body
  | .unknownKindFrameEnd _ body => bodyFits body
  -- a record has 512 bytes, and at least its last byte is read by this command (R54, R55)
  | .loadComplete data => 1 ≤ data.length ∧ data.length ≤ Config.recordBytes
  -- 0FFh begins a response read (R192); a code of Table 50 is its own row
  | .badCommand code _ => ¬ knownCommandCode code ∧ code ≠ 255#8
  | .powerOnReset => True
  | .frameStart _ _ => True
  | .frameHeader _ _ _ => True
  | .frameTimeout _ _ => True
  | .quarantineExpiry _ => True
  | .frameSend _ => True
  | .waitDeadlineExpiry _ _ => True
  | .expiry _ => True
  | .assemblyDeadline _ => True
  | .redecision => True
  | .playEnd => True
  | .preemption => True
  | .yield => True
  | .silencedPlayEnd => True
  | .cadenceSegmentEnd => True
  | .reminderDeadline _ => True
  | .offerDeadline _ => True
  | .responseRead _ => True
  | .getEvents _ => True
  | .setEventMask _ => True
  | .setWakeEnable _ => True
  | .list _ => True
  | .readEntry _ => True
  | .readText _ => True
  | .acknowledge _ => True
  | .silence _ => True
  | .setPosition _ => True
  | .clearPosition _ => True
  | .writeSettings _ => True
  | .readSettings _ => True
  | .readLinks _ => True
  | .clearLinkFault _ => True
  | .flushProfiles _ => True
  | .yieldStore _ => True
  | .returnStore _ => True
  | .readCounters _ => True

end Sys2Proof
end

