-- ==== Sys2Proof/Decode.lean ====
section
/-! DEFINITION. Which command the bytes on a line spell. spec/opcode_table.json gives bits to no row of this block (every
row's "fields" is empty and none has "fixed"), so no table word spells a command (log 17). The first byte of a host
transaction chooses its row (R192). How the bytes that commands carry are read is in Machine/Operands.lean. -/

namespace Sys2Proof

/-- No row of the table has bits: every word answers none. -/
def decodeTableWord (nbits w : Nat) : Option Instr :=
  match nbits, w with
  | _, _ => none

/-- The row of a host transaction by its first byte: 0FFh begins a response read, in which the bytes that follow only
clock (R172); 01h to 12h are the commands of Table 50; any other code is unknown (R192). -/
def hostRow (first : Byte) (rest : List Byte) : Instr :=
  if first = 0xFF#8 then .responseRead rest.length
  else
    match first.toNat with
    | 1 => .getEvents rest
    | 2 => .setEventMask rest
    | 3 => .setWakeEnable rest
    | 4 => .list rest
    | 5 => .readEntry rest
    | 6 => .readText rest
    | 7 => .acknowledge rest
    | 8 => .silence rest
    | 9 => .setPosition rest
    | 10 => .clearPosition rest
    | 11 => .writeSettings rest
    | 12 => .readSettings rest
    | 13 => .readLinks rest
    | 14 => .clearLinkFault rest
    | 15 => .flushProfiles rest
    | 16 => .yieldStore rest
    | 17 => .returnStore rest
    | 18 => .readCounters rest
    | _ => .badCommand first rest

/-- The row that the bytes of a whole host transaction spell; one that ends with no byte at all is none (R173, R192). -/
def decodeTransaction (bytes : List Byte) : Option Instr :=
  match bytes with
  | [] => none
  | first :: rest => some (hostRow first rest)

end Sys2Proof
end

