-- ==== Sys2Proof/Machine/State.lean ====
section
/-! DEFINITION. The state of the HS7212 as plain data: one structure per block of the spec, every item of its state
tables (Tables 11, 16, 19, 20, 27, 32, 33, 36, 38, 40, 44, 45, 46), the queue of waiting commands, and the machine
right after a power-on reset. -/

namespace Sys2Proof.Machine

/-! ### Pages (chapter 1) -/

/-- Reach of an alert number (R1, Table 9). -/
inductive Reach where
  | cell
  | district
  | region
deriving DecidableEq, Repr

/-- Action of a page (R1). -/
inductive PageAction where
  | issue
  | cancel
deriving DecidableEq, Repr

/-- A vertex: latitude and longitude as signed 32-bit values, 1/100 000 degree (R7). -/
structure Vertex where
  lat : Int
  lon : Int
deriving DecidableEq, Repr

/-- An entry of a cell-prefix list (R6). -/
structure PrefixEntry where
  base : Tag
  len : Nat
deriving DecidableEq, Repr

/-- The area block (R6, R7), the polygon with its area-malformed mark (R8). -/
inductive AreaBlock where
  | cells (entries : List PrefixEntry)
  | polygon (vertices : List Vertex) (malformed : Bool)
deriving DecidableEq, Repr

/-- The area-malformed mark of an area block, "no" when there is no polygon (R8, R115). -/
def AreaBlock.mark : Option AreaBlock → Bool
  | some (.polygon _ m) => m
  | some (.cells _) => false
  | none => false

/-- Identity key (R11): the scope value is the cell tag or the district as a plain number, or absent (R12). -/
structure Key where
  region : Nat
  channel : Nat
  alertNo : Nat
  reach : Reach
  scope : Option Nat
deriving DecidableEq, Repr

/-- The page record (R1, Table 6) with the fields of R2. -/
structure Page where
  region : Nat
  carrier : Nat
  cellTag : Tag
  district : Nat
  channel : Nat
  alertNo : Nat
  reach : Reach
  action : PageAction
  revision : Revision
  partIndex : Nat
  partCount : Nat
  language : Nat
  /-- as received until acceptance, then the effective validity (R15) -/
  validity : Nat
  receiptRequested : Bool
  area : Option AreaBlock
  text : List Byte
  link : LinkId
  slot : PageSlot
  arrival : Nat
deriving DecidableEq, Repr

/-- Alert classes (00 Table 4). -/
inductive AlertClass where
  | national
  | extreme
  | severe
  | advisory
  | exercise
deriving DecidableEq, Repr

/-- The class number 1..5 (00 Table 4). -/
def AlertClass.num : AlertClass → Nat
  | .national => 1
  | .extreme => 2
  | .severe => 3
  | .advisory => 4
  | .exercise => 5

/-- Disposition codes (R108, Table 26). -/
inductive Disposition where
  | storedMore
  | storedDone
  | haveAll
  | havePart
  | stale
  | ignored
  | conflict
  | full
deriving DecidableEq, Repr

/-! ### Links (chapter 2) -/

/-- Link states (R17). -/
inductive LinkState where
  | down
  | sync
  | up
  | faulted
deriving DecidableEq, Repr

/-- Frame kinds a modem may send, and unknown (R26, R32, Table 47). -/
inductive FrameKind where
  | hello
  | goodbye
  | page
  | serving
  | receiptResult
  | unknown
deriving DecidableEq, Repr

/-- Fault kinds (R32). -/
inductive FaultKind where
  | malformed
  | overrun
  | timeout
deriving DecidableEq, Repr

/-- A page slot (R17). -/
inductive Slot where
  | free
  | receiving
  | held (p : Page)
deriving DecidableEq, Repr

/-- A slot is occupied when it is RECEIVING or HELD (R17). -/
def Slot.occupied : Slot → Bool
  | .free => false
  | .receiving => true
  | .held _ => true

/-- The header of a frame in progress, once complete (R24, R26). -/
structure FrameHeader where
  kind : FrameKind
  length : Nat
deriving DecidableEq, Repr

/-- The frame in progress (R17, R24, R28). -/
structure FrameProgress where
  firstAt : Nat
  deadline : Nat
  header : Option FrameHeader
  slot : Option PageSlot
deriving DecidableEq, Repr

/-- The serving record (R36). -/
inductive Serving where
  | absent
  | noService
  | service (network : Tag) (region : Nat) (cellTag : Tag) (district : Nat)
deriving DecidableEq, Repr

/-- NO-SERVICE and an absent record have no serving region (R36). -/
def Serving.region : Serving → Option Nat
  | .absent => none
  | .noService => none
  | .service _ r _ _ => some r

/-- The fault record (R32). -/
structure FaultRecord where
  kind : FaultKind
  time : Nat
  frame : FrameKind
deriving DecidableEq, Repr

/-- Frames the device sends (R41, Table 49). A SUBSCRIBE range is its first and last channel (R37). -/
inductive OutFrame where
  | helloRequest
  | credit (n : Nat)
  | subscribe (ranges : List (Nat × Nat))
  | disposition (key : Key) (revision : Revision) (part : Nat) (code : Disposition)
  | receipt (id : ReceiptId) (key : Key) (revision : Revision) (delay : Nat)
deriving DecidableEq, Repr

/-- The link record (R17, Table 11). `txWire` is the model's own: the bytes last sent on TX (log 5). -/
structure Link where
  state : LinkState
  slots : Vector Slot Config.pageSlots
  credits : Nat
  frame : Option FrameProgress
  serving : Serving
  subWaiting : Option Nat
  fault : Option FaultRecord
  quarantine : Option Nat
  outstanding : Option ReceiptId
  outQ : List OutFrame
  txWire : List Byte
deriving DecidableEq, Repr

/-! ### Profile unit (chapter 3) -/

/-- A channel range of a profile (R43). -/
structure ChannelRange where
  first : Nat
  last : Nat
  cls : AlertClass
  receipts : Bool
deriving DecidableEq, Repr

/-- An installed profile, clamped (R43, R45). -/
structure Profile where
  version : Nat
  defaultValidity : Nat
  assemblyLimit : Nat
  reminderInterval : Nat
  reminderLimit : Nat
  ranges : List ChannelRange
deriving DecidableEq, Repr

/-- A cache entry: VALID with its profile, or ABSENT (`none`) (R49). -/
structure CacheEntry where
  region : Nat
  profile : Option Profile
deriving DecidableEq, Repr

/-- The load in flight: the region at the head of the load queue and the bytes read so far (R48). -/
structure Load where
  region : Nat
  bytes : List Byte
deriving DecidableEq, Repr

/-- A record of the pending page queue (R56). -/
structure WaitingPage where
  link : LinkId
  slot : PageSlot
  deadline : Nat
deriving DecidableEq, Repr

/-- Store state (R48). -/
inductive StoreState where
  | owned
  | yielded
deriving DecidableEq, Repr

/-- The profile unit (R48, Table 16). The cache stands from least to most recently used. `pspOut` is the model's
own: the read request last sent (log 5). -/
structure ProfileUnit where
  cache : List CacheEntry
  loadQueue : List Nat
  flight : Option Load
  waiting : List WaitingPage
  store : StoreState
  pspDriven : Bool
  flashSelected : Bool
  pspOut : List Byte
deriving DecidableEq, Repr

/-- The governing values handed on with a judged page (R52, Table 18). They live within one step and are kept by no
field of State but the rules in force. -/
structure Governing where
  provisional : Bool
  version : Nat
  rangeIndex : Nat
  cls : AlertClass
  receiptsAllowed : Bool
  defaultValidity : Nat
  assemblyLimit : Nat
  reminderInterval : Nat
  reminderLimit : Nat
deriving DecidableEq, Repr

/-! ### Alert directory (chapter 4) -/

/-- A handle slot.use (R66). -/
structure Handle where
  slot : EntrySlot
  use : Byte
deriving DecidableEq, Repr

/-- Entry states (R64, R65). -/
inductive EntryState where
  | assembling
  | active
  | held
  | acknowledged
  | cancelled
deriving DecidableEq, Repr

/-- Hold reasons (R64). -/
inductive HoldReason where
  | area
  | near
  | optedOut
deriving DecidableEq, Repr

/-- Rules in force of the current content (R64, R90). -/
structure Rules where
  version : Nat
  rangeIndex : Nat
  receiptsAllowed : Bool
  reminderInterval : Nat
  reminderLimit : Nat
deriving DecidableEq, Repr

/-- The descriptive fields taken from part 1 (R4, R92). -/
structure Descriptive where
  carrier : Nat
  language : Nat
  validity : Nat
  receiptRequested : Bool
  area : Option AreaBlock
deriving DecidableEq, Repr

/-- Current content of an entry (R64); its texts are in the text store (R77). -/
structure Content where
  revision : Revision
  partCount : Nat
  desc : Descriptive
  completedAt : Nat
  rules : Rules
deriving DecidableEq, Repr

/-- Incoming revision of an entry (R64, R92); its texts are in the text store (R77). -/
structure Incoming where
  revision : Revision
  partCount : Nat
  /-- the set of parts present, in order of arrival, none twice -/
  parts : List Nat
  deadline : Nat
  part1 : Option Descriptive
deriving DecidableEq, Repr

/-- Cancel revision with the carrier of the cancelling page (R64). -/
structure CancelMark where
  revision : Revision
  carrier : Nat
deriving DecidableEq, Repr

/-- Links seen and the first link (R64, R107). -/
structure LinksSeen where
  la : Bool
  lb : Bool
  first : LinkId
deriving DecidableEq, Repr

/-- Area decisions (R64, R115). -/
inductive AreaDecision where
  | inside
  | near
  | outside
  | undecided
deriving DecidableEq, Repr

/-- The area decision of an entry with its area-malformed flag (R64). -/
structure AreaResult where
  decision : AreaDecision
  malformed : Bool
deriving DecidableEq, Repr

/-- Kinds of attention request (R131). -/
inductive RequestKind where
  | alert
  | reminder
deriving DecidableEq, Repr

/-- Levels: one per class, and TRICKLE below 5 (R131). -/
inductive Level where
  | cls (c : AlertClass)
  | trickle
deriving DecidableEq, Repr

/-- Levels 1..5 and TRICKLE as 6 (R131, Table 52). -/
def Level.rank : Level → Nat
  | .cls c => c.num
  | .trickle => 6

/-- An attention request (R131, Table 33). -/
structure Request where
  kind : RequestKind
  level : Level
  remaining : Nat
  played : Nat
  silenced : Bool
deriving DecidableEq, Repr

/-- Reasons of a failed receipt kept by an entry (R164). -/
inductive FailReason where
  | queueFull
  | undelivered
deriving DecidableEq, Repr

/-- Receipt state of an entry, with its failure reason when FAILED (R64, R164). -/
inductive ReceiptState where
  | idle
  | queued
  | offered
  | sent
  | failed (why : FailReason)
deriving DecidableEq, Repr

/-- The entry record (R64, Table 20). Its handle is its slot with the slot's use count (R66): State.handleOf. -/
structure Entry where
  key : Key
  cls : AlertClass
  provisional : Bool
  state : EntryState
  hold : Option HoldReason
  createdAt : Nat
  restingAt : Option Nat
  current : Option Content
  incoming : Option Incoming
  cancel : Option CancelMark
  links : LinksSeen
  area : Option AreaResult
  expiry : Option Nat
  request : Option Request
  alerted : Bool
  nextReminder : Option Nat
  backlog : Nat
  given : Nat
  receipt : ReceiptState
  acknowledgedAt : Option Nat
  changed : Bool
deriving DecidableEq, Repr

/-- Which content a segment belongs to (R77). -/
inductive SegmentGroup where
  | current
  | incoming
deriving DecidableEq, Repr

/-- An owned segment of the text store: part `part` of the current content or the incoming revision of the entry in
`slot`, holding that part's text (R77). -/
structure Segment where
  slot : EntrySlot
  group : SegmentGroup
  part : Nat
  text : List Byte
deriving DecidableEq, Repr

/-- The incoming revision that an expiry discarded, and the moment of that expiry: the model's own (log 24), for the page
that reaches the entry together with its expiry (R84, last bullet). -/
structure Discarded where
  revision : Revision
  partCount : Nat
  parts : List Nat
  moment : Nat
deriving DecidableEq, Repr

/-- A retired record: key and revision (R80). `discarded` is the model's own field (log 24): what R84's last bullet asks
of a page taken right after the expiry. It is none after an eviction. -/
structure Retired where
  key : Key
  revision : Revision
  discarded : Option Discarded
deriving DecidableEq, Repr

/-- The alert directory (R63, Table 19). `segs` lists the owned segments; the rest of the 160 are free (log 15). -/
structure Directory where
  entries : Vector (Option Entry) Config.entrySlots
  useCounts : Vector Byte Config.entrySlots
  segs : List Segment
  retired : List Retired
deriving DecidableEq, Repr

/-! ### Area decision unit (chapter 6) -/

/-- The position record (R111, R112). -/
structure Position where
  lat : Int
  lon : Int
  radius : Nat
  fixAge : Nat
  setAt : Nat
deriving DecidableEq, Repr

/-- The area decision unit (R111, Table 27). -/
structure AreaUnit where
  position : Option Position
  redecide : List Handle
deriving DecidableEq, Repr

/-! ### Attention arbiter (chapter 7) -/

/-- Cadence patterns (R145, Table 34). -/
inductive Pattern where
  | p1
  | p2
  | p3
  | pr
deriving DecidableEq, Repr

/-- The play record (R130, Table 32): place is the segment and the time into it. -/
structure Play where
  handle : Handle
  pattern : Pattern
  segment : Nat
  into : Nat
  turn : Nat
deriving DecidableEq, Repr

/-- The attention arbiter (R130, Table 32). The generator is PLAYING exactly while `play` is present. -/
structure Arbiter where
  pointers : Vector EntrySlot 6
  play : Option Play
deriving DecidableEq, Repr

/-! ### Acknowledgement and receipt unit (chapter 8) -/

/-- States of a receipt record (R154, Table 38). -/
inductive RecordState where
  | queued
  | offered
deriving DecidableEq, Repr

/-- A receipt record (R154, Table 38). -/
structure ReceiptRecord where
  id : ReceiptId
  handle : Handle
  key : Key
  revision : Revision
  delay : Nat
  target : LinkId
  attempts : Nat
  state : RecordState
  deadline : Option Nat
deriving DecidableEq, Repr

/-- The acknowledgement and receipt unit (R151, Table 36). -/
structure ReceiptUnit where
  queue : List ReceiptRecord
  lastId : ReceiptId
deriving DecidableEq, Repr

/-! ### Host command port (chapter 9) -/

/-- Event kinds, in the order of their codes 0..9 (R178, Table 52). -/
inductive EventKind where
  | newAlert
  | alertUpdated
  | alertCancelled
  | entryRemoved
  | receiptDone
  | linkFault
  | linkState
  | profileFallback
  | directoryFull
  | storeState
deriving DecidableEq, Repr

/-- A set of event kinds: bit k stands for the kind with event code k (R192). -/
abbrev EventSet := BitVec 10

/-- Result codes of a response (R173, Table 41); BUSY is a status byte, no response (R171). -/
inductive ResultCode where
  | ok
  | badCommand
  | badLength
  | badValue
  | staleHandle
  | wrongState
deriving DecidableEq, Repr

/-- A response frame: result code and body (R170). -/
structure Response where
  code : ResultCode
  body : List Byte
deriving DecidableEq, Repr

/-- Near policy (R116, R182). -/
inductive NearPolicy where
  | present
  | hold
deriving DecidableEq, Repr

/-- The settings record (R182, Table 44); times in seconds as the table has them. -/
structure Settings where
  enable2 : Bool
  enable3 : Bool
  enable4 : Bool
  enable5 : Bool
  nearPolicy : NearPolicy
  nearDistance : Nat
  staleLimit : Nat
  attentionLength : Nat
  minimumPlay : Nat
  maximumPlay : Nat
  toneEnable : Bool
  vibrationEnable : Bool
deriving DecidableEq, Repr

/-- Per-link counters (R185, Table 45). -/
structure LinkCounters where
  pages : Nat
  duplicates : Nat
  stale : Nat
  ignored : Nat
  conflicts : Nat
  full : Nat
  overruns : Nat
  faults : Nat
deriving DecidableEq, Repr

/-- Global counters (R186, Table 46). -/
structure GlobalCounters where
  evictions : Nat
  loads : Nat
  loadFails : Nat
  fallbackPages : Nat
  receiptsSent : Nat
  receiptsFailed : Nat
  directoryPeak : Nat
deriving DecidableEq, Repr

/-- The host command port (R170, Table 40). `hcpOut` is the model's own: the bytes shifted out on MISO in the last
transaction (log 5). -/
structure HostPort where
  txn : Option (List Byte)
  response : Option Response
  events : EventSet
  mask : EventSet
  wakeEn : EventSet
  settings : Settings
  cntLa : LinkCounters
  cntLb : LinkCounters
  cntG : GlobalCounters
  wake : Bool
  hcpOut : List Byte
deriving DecidableEq, Repr

/-! ### The machine -/

/-- The state of the block: the queue of waiting commands, the alert clock, the model's free-value counter (log 6),
the two links and the six other blocks. -/
structure State where
  pending : List Instr
  now : Nat
  freeCtr : Nat
  la : Link
  lb : Link
  prof : ProfileUnit
  dir : Directory
  area : AreaUnit
  arb : Arbiter
  rcpt : ReceiptUnit
  host : HostPort
deriving DecidableEq, Repr

/-- Why the machine stops. The HS7212 never does: the spec's "faults" are link states (R32), so there is no
constructor. -/
inductive Fault where
deriving DecidableEq, Repr

/-- Why a command has no meaning. -/
inductive Refusal where
  /-- A command whose meaning is not written yet; safe (nothing is claimed of it). No arm of exec answers it. -/
  | notModelled (mnemonic : String)
deriving DecidableEq, Repr

/-! ### Reset -/

/-- The link record after a power-on reset (R17, Table 11). -/
def Link.reset : Link where
  state := .down
  slots := Vector.replicate Config.pageSlots .free
  credits := 0
  frame := none
  serving := .absent
  subWaiting := none
  fault := none
  quarantine := none
  outstanding := none
  outQ := []
  txWire := []

/-- The profile unit after a power-on reset (R48, Table 16). -/
def ProfileUnit.reset : ProfileUnit where
  cache := []
  loadQueue := []
  flight := none
  waiting := []
  store := .owned
  pspDriven := true
  flashSelected := false
  pspOut := []

/-- The directory after a power-on reset (R63, R88). -/
def Directory.reset : Directory where
  entries := Vector.replicate Config.entrySlots none
  useCounts := Vector.replicate Config.entrySlots 0#8
  segs := []
  retired := []

/-- The area decision unit after a power-on reset (R111). -/
def AreaUnit.reset : AreaUnit where
  position := none
  redecide := []

/-- The arbiter after a power-on reset (R130). -/
def Arbiter.reset : Arbiter where
  pointers := Vector.replicate 6 47
  play := none

/-- The receipt unit after a power-on reset (R151). -/
def ReceiptUnit.reset : ReceiptUnit where
  queue := []
  lastId := 15

/-- The settings after a power-on reset (R182, Table 44). -/
def Settings.reset : Settings where
  enable2 := true
  enable3 := true
  enable4 := true
  enable5 := false
  nearPolicy := .present
  nearDistance := 500
  staleLimit := 300
  attentionLength := 12
  minimumPlay := 3
  maximumPlay := 5
  toneEnable := true
  vibrationEnable := true

/-- Every per-link counter 0 (R170, R187). -/
def LinkCounters.zero : LinkCounters where
  pages := 0
  duplicates := 0
  stale := 0
  ignored := 0
  conflicts := 0
  full := 0
  overruns := 0
  faults := 0

/-- Every global counter 0 (R170). -/
def GlobalCounters.zero : GlobalCounters where
  evictions := 0
  loads := 0
  loadFails := 0
  fallbackPages := 0
  receiptsSent := 0
  receiptsFailed := 0
  directoryPeak := 0

/-- The host command port after a power-on reset (R170, Table 40): the mask holds all ten kinds; the wake-enable set
is NEW-ALERT, ALERT-UPDATED, ALERT-CANCELLED (codes 0, 1, 2) and LINK-FAULT (code 5). -/
def HostPort.reset : HostPort where
  txn := none
  response := none
  events := 0#10
  mask := 0b1111111111#10
  wakeEn := 0b0000100111#10
  settings := Settings.reset
  cntLa := LinkCounters.zero
  cntLb := LinkCounters.zero
  cntG := GlobalCounters.zero
  wake := false
  hcpOut := []

/-- The machine right after a power-on reset: every block's reset values and the alert clock at 0 (R170). -/
def State.reset : State where
  pending := []
  now := 0
  freeCtr := 0
  la := Link.reset
  lb := Link.reset
  prof := ProfileUnit.reset
  dir := Directory.reset
  area := AreaUnit.reset
  arb := Arbiter.reset
  rcpt := ReceiptUnit.reset
  host := HostPort.reset

end Sys2Proof.Machine
end

