-- ==== Sys2Proof/Machine/Bytes.lean ====
section
/-! DEFINITION. Byte order and byte positions: every multi-byte field is most significant byte first (R188). -/

namespace Sys2Proof.Machine

/-- The low `8 * width` bits of `v` as `width` bytes, most significant first (R188). -/
def bytesOf : Nat → Nat → List Byte
  | 0, _ => []
  | width + 1, v => BitVec.ofNat 8 (v / 256 ^ width) :: bytesOf width v

/-- A signed 32-bit value as 4 bytes in two's complement (R188). -/
def bytesOfSigned (v : Int) : List Byte :=
  bytesOf 4 (BitVec.ofInt 32 v).toNat

/-- A run of bytes as a number, most significant first (R188). -/
def valueOf (b : List Byte) : Nat :=
  b.foldl (fun v x => v * 256 + x.toNat) 0

/-- The bytes `at .. at + width - 1`. -/
def bytesAt (b : List Byte) (pos width : Nat) : List Byte :=
  (b.drop pos).take width

/-- The unsigned field of `width` bytes at a position (R188, R190). -/
def fieldAt (b : List Byte) (pos width : Nat) : Nat :=
  valueOf (bytesAt b pos width)

/-- The signed 32-bit field at a position (R188). -/
def signedAt (b : List Byte) (pos : Nat) : Int :=
  (BitVec.ofNat 32 (fieldAt b pos 4)).toInt

/-- A flag as one byte, 0 or 1 (R193). -/
def flagByte (f : Bool) : Byte :=
  if f then 1#8 else 0#8

/-- `some` of all the values when every one is there. -/
def collect {α : Type} : List (Option α) → Option (List α)
  | [] => some []
  | none :: _ => none
  | some x :: rest => (collect rest).map (x :: ·)

/-- `v` brought into `lo .. hi` (R45, R183). -/
def clamp (lo hi v : Nat) : Nat :=
  if v < lo then lo else if hi < v then hi else v

/-- Ceiling of a quotient (R122); `d` is never 0 where it is used. -/
def ceilDiv (n d : Nat) : Nat :=
  (n + (d - 1)) / d

end Sys2Proof.Machine
end

