-- ==== Sys2Proof/Machine/Operands.lean ====
section
/-! DEFINITION. How the device reads what comes in: frame headers and bodies from the modems with their structural
test (R9, R26, R189, R190), the profile record with its judgement and clamping (R44, R45, R194), and the bodies of host
commands (R173, R183, R192). Every reader is total and answers `none` for what the spec refuses. -/

namespace Sys2Proof.Machine

/-! ### Codes (Table 52) -/

/-- Reach code (Table 52). -/
def readReach (v : Nat) : Option Reach :=
  match v with
  | 1 => some .cell
  | 2 => some .district
  | 3 => some .region
  | _ => none

/-- Action code (Table 52). -/
def readAction (v : Nat) : Option PageAction :=
  match v with
  | 1 => some .issue
  | 2 => some .cancel
  | _ => none

/-- A byte that is 0 or 1 (R190, R192, R194). -/
def readFlag (v : Nat) : Option Bool :=
  match v with
  | 0 => some false
  | 1 => some true
  | _ => none

/-- A class number 1..5 (R44). -/
def readClass (v : Nat) : Option AlertClass :=
  match v with
  | 1 => some .national
  | 2 => some .extreme
  | 3 => some .severe
  | 4 => some .advisory
  | 5 => some .exercise
  | _ => none

/-! ### Frame headers (R189, Table 47) -/

/-- The kind a kind byte from a modem names; a device kind or any other byte is unknown (R26, R189). -/
def readFrameKind (b : Byte) : FrameKind :=
  match b.toNat with
  | 1 => .hello
  | 2 => .goodbye
  | 3 => .page
  | 4 => .serving
  | 5 => .receiptResult
  | _ => .unknown

/-- Body length bounds at the header (Table 47); a frame of unknown kind has none that pass. -/
def lengthInBounds (k : FrameKind) (len : Nat) : Bool :=
  match k with
  | .hello => len == 0
  | .goodbye => len == 0
  | .page => 26 ≤ len && len ≤ 275
  | .serving => 1 ≤ len && len ≤ 13
  | .receiptResult => len == 2
  | .unknown => false

/-! ### PAGE body (R9 Table 7, R190 Table 48) -/

/-- Area bytes of the length criterion: 0, 1 + 5 × count, or 1 + 8 × count (R190). -/
def areaBytes (form count : Nat) : Nat :=
  match form with
  | 1 => 1 + 5 * count
  | 2 => 1 + 8 * count
  | _ => 0

/-- Prefix entry `i` of a cell-prefix list (Table 48). -/
def prefixEntryAt (b : List Byte) (i : Nat) : PrefixEntry :=
  ⟨BitVec.ofNat 32 (fieldAt b (26 + 5 * i) 4), fieldAt b (26 + 5 * i + 4) 1⟩

/-- Vertex `i` of a polygon (Table 48). -/
def vertexAt (b : List Byte) (i : Nat) : Vertex :=
  ⟨signedAt b (26 + 8 * i), signedAt b (26 + 8 * i + 4)⟩

/-- The area block by its form and count, with the count and prefix-length criteria of Table 7. The outer `none` is a
failed criterion; the inner one is "no area block". The mark of R8 is made at acceptance. -/
def readArea (b : List Byte) (form count : Nat) : Option (Option AreaBlock) :=
  match form with
  | 0 => some none
  | 1 =>
    let es := (List.range count).map (prefixEntryAt b)
    if 1 ≤ count ∧ count ≤ 8 ∧ es.all (fun e => e.len ≤ 32) then some (some (.cells es)) else none
  | 2 =>
    if 3 ≤ count ∧ count ≤ 16 then some (some (.polygon ((List.range count).map (vertexAt b)) false)) else none
  | _ => none

/-- The criteria of Table 7 that relate fields to one another: part order, area placement, CANCEL shape. -/
def pageShapeOk (a : PageAction) (index count : Nat) (area : Option AreaBlock) : Bool :=
  decide (index ≤ count) &&
  (area.isNone || (decide (a = .issue) && decide (index = 1))) &&
  (decide (a = .issue) || (decide (count = 1) && area.isNone))

/-- The structural test of a PAGE body, and the page record it delivers (R1, R2, R9, R190). -/
def readPage (l : LinkId) (k : PageSlot) (arrival : Nat) (b : List Byte) : Option Page :=
  let form := fieldAt b 24 1
  let count := if form = 0 then 0 else fieldAt b 25 1
  let textPos := 25 + areaBytes form count
  let textLen := fieldAt b textPos 1
  let region := fieldAt b 0 2
  let carrier := fieldAt b 2 2
  let channel := fieldAt b 10 2
  let revision := fieldAt b 16 1
  let index := fieldAt b 17 1
  let parts := fieldAt b 18 1
  match readReach (fieldAt b 14 1), readAction (fieldAt b 15 1), readFlag (fieldAt b 23 1), readArea b form count with
  | some reach, some action, some receipt, some area =>
    if b.length = 26 + areaBytes form count + textLen ∧ textLen ≤ 120 ∧ region ≤ 1023 ∧ carrier ≤ 1023 ∧
        channel ≤ 1023 ∧ revision ≤ 63 ∧ 1 ≤ index ∧ index ≤ 8 ∧ 1 ≤ parts ∧ parts ≤ 8 ∧
        pageShapeOk action index parts area = true then
      some
        { region := region
          carrier := carrier
          cellTag := BitVec.ofNat 32 (fieldAt b 4 4)
          district := fieldAt b 8 2
          channel := channel
          alertNo := fieldAt b 12 2
          reach := reach
          action := action
          revision := BitVec.ofNat 6 revision
          partIndex := index
          partCount := parts
          language := fieldAt b 19 2
          validity := fieldAt b 21 2
          receiptRequested := receipt
          area := area
          text := bytesAt b (textPos + 1) textLen
          link := l
          slot := k
          arrival := arrival }
    else none
  | _, _, _, _ => none

/-- Whether a vertex lies in the coordinate ranges (R8). -/
def vertexInRange (v : Vertex) : Bool :=
  decide (-9000000 ≤ v.lat) && decide (v.lat ≤ 9000000) && decide (-18000000 ≤ v.lon) && decide (v.lon ≤ 17999999)

/-- The area-malformed mark made at acceptance (R8). -/
def markArea : AreaBlock → AreaBlock
  | .cells es => .cells es
  | .polygon vs _ => .polygon vs (!vs.all vertexInRange)

/-- Acceptance of a page: effective validity (R15) and area-malformed mark (R8). -/
def acceptPage (p : Page) : Page :=
  { p with validity := min p.validity 1440, area := p.area.map markArea }

/-- The identity key of a page, its scope value chosen by the reach (R11, Table 9). -/
def pageKey (p : Page) : Key where
  region := p.region
  channel := p.channel
  alertNo := p.alertNo
  reach := p.reach
  scope :=
    match p.reach with
    | .cell => some p.cellTag.toNat
    | .district => some p.district
    | .region => none

/-- The descriptive fields of a page (R4). -/
def pageDescriptive (p : Page) : Descriptive :=
  ⟨p.carrier, p.language, p.validity, p.receiptRequested, p.area⟩

/-! ### SERVING and RECEIPT-RESULT bodies (R26, R190) -/

/-- A SERVING body: the service flag, and with SERVICE the four fields; the length agrees with the flag (R190). -/
def readServing (b : List Byte) : Option Serving :=
  if fieldAt b 0 1 = 0 ∧ b.length = 1 then some .noService
  else if fieldAt b 0 1 = 1 ∧ b.length = 13 ∧ fieldAt b 5 2 ≤ 1023 then
    some (.service (BitVec.ofNat 32 (fieldAt b 1 4)) (fieldAt b 5 2) (BitVec.ofNat 32 (fieldAt b 7 4)) (fieldAt b 11 2))
  else none

/-- A RECEIPT-RESULT body: the id 0..15, and whether the result is SENT (1) or REFUSED (2) (R190). -/
def readReceiptResult (b : List Byte) : Option (ReceiptId × Bool) :=
  let id := fieldAt b 0 1
  let result := fieldAt b 1 1
  if h : b.length = 2 ∧ id < Config.receiptRecords ∧ (result = 1 ∨ result = 2) then
    some (⟨id, h.2.1⟩, decide (result = 1))
  else none

/-! ### The profile record (R44, R45, R194 Table 53) -/

/-- One bit of the check value computation (R194). -/
def checkBit (r : BitVec 16) (bit : Bool) : BitVec 16 :=
  if r.msb != bit then (r <<< 1) ^^^ 0x1021#16 else r <<< 1

/-- A byte's bits, most significant first (R194). -/
def bitsOf (x : Byte) : List Bool :=
  [x.getLsbD 7, x.getLsbD 6, x.getLsbD 5, x.getLsbD 4, x.getLsbD 3, x.getLsbD 2, x.getLsbD 1, x.getLsbD 0]

/-- The check value over a run of bytes (R194). -/
def checkValue (b : List Byte) : BitVec 16 :=
  b.foldl (fun r x => (bitsOf x).foldl checkBit r) 0xFFFF#16

/-- Range `k` (from 0) of a record, when its channels, class and flag are sound (R44, Table 53). -/
def rangeAt (b : List Byte) (k : Nat) : Option ChannelRange :=
  let pos := 13 + 6 * k
  let first := fieldAt b pos 2
  let last := fieldAt b (pos + 2) 2
  match readClass (fieldAt b (pos + 4) 1), readFlag (fieldAt b (pos + 5) 1) with
  | some c, some r => if first ≤ last ∧ first ≤ 1023 ∧ last ≤ 1023 then some ⟨first, last, c, r⟩ else none
  | _, _ => none

/-- The judgement of a record read for region `n`, with the clamping of Table 14: the profile to install, or `none` for
an invalid record, installed ABSENT (R44, R45). -/
def judgeRecord (n : Nat) (b : List Byte) : Option Profile :=
  let count := fieldAt b 12 1
  if fieldAt b 0 2 = 0x5A3C ∧ fieldAt b 2 2 = n ∧ 1 ≤ count ∧ count ≤ 24 ∧
      (checkValue (b.take 510)).toNat = fieldAt b 510 2 then
    (collect ((List.range count).map (rangeAt b))).map fun ranges =>
      { version := fieldAt b 4 2
        defaultValidity := clamp 1 1440 (fieldAt b 6 2)
        assemblyLimit := clamp 10 600 (fieldAt b 8 2)
        reminderInterval := clamp 0 120 (fieldAt b 10 1)
        reminderLimit := clamp 0 15 (fieldAt b 11 1)
        ranges := ranges }
  else none

/-! ### Host command bodies (R173, R192, Tables 50 to 52) -/

/-- An event-kind field; a set bit among 10..15 names no kind (R192). -/
def readEventSet (b : List Byte) : Option EventSet :=
  if fieldAt b 0 2 < 1024 then some (BitVec.ofNat 10 (fieldAt b 0 2)) else none

/-- A handle; the slot byte must be 0..47, the use-count byte takes any value (R173, R192). -/
def readHandle (b : List Byte) : Option Handle :=
  if h : fieldAt b 0 1 < Config.entrySlots then
    some ⟨⟨fieldAt b 0 1, h⟩, BitVec.ofNat 8 (fieldAt b 1 1)⟩
  else none

/-- The link number of CLEAR-LINK-FAULT (Table 52). -/
def readLinkNumber (b : List Byte) : Option LinkId :=
  match fieldAt b 0 1 with
  | 1 => some .la
  | 2 => some .lb
  | _ => none

/-- LIST's selector: `true` for CHANGED (R174, Table 50). -/
def readSelector (b : List Byte) : Option Bool :=
  match fieldAt b 0 1 with
  | 1 => some false
  | 2 => some true
  | _ => none

/-- The coordinates of SET-POSITION in range, with the time set (R112). -/
def readPosition (b : List Byte) (now : Nat) : Option Position :=
  if vertexInRange ⟨signedAt b 0, signedAt b 4⟩ = true then
    some ⟨signedAt b 0, signedAt b 4, fieldAt b 8 2, fieldAt b 10 2, now⟩
  else none

/-- WRITE-SETTINGS' record (Table 51): the settings taken and whether a numeric field was changed on the way in
(R183). The class-1 enable, byte 0, is not examined. -/
def readSettingsRecord (b : List Byte) : Option (Settings × Bool) :=
  match readFlag (fieldAt b 1 1), readFlag (fieldAt b 2 1), readFlag (fieldAt b 3 1), readFlag (fieldAt b 4 1),
      readFlag (fieldAt b 5 1), readFlag (fieldAt b 13 1), readFlag (fieldAt b 14 1) with
  | some e2, some e3, some e4, some e5, some hold, some tone, some vib =>
    let stale := clamp 30 3600 (fieldAt b 8 2)
    let attention := clamp 4 30 (fieldAt b 10 1)
    let minimum := min (clamp 1 10 (fieldAt b 11 1)) attention
    let maximum := clamp 1 30 (fieldAt b 12 1)
    some
      ({ enable2 := e2
         enable3 := e3
         enable4 := e4
         enable5 := e5
         nearPolicy := if hold then .hold else .present
         nearDistance := fieldAt b 6 2
         staleLimit := stale
         attentionLength := attention
         minimumPlay := minimum
         maximumPlay := maximum
         toneEnable := tone
         vibrationEnable := vib },
       decide (stale ≠ fieldAt b 8 2 ∨ attention ≠ fieldAt b 10 1 ∨ minimum ≠ fieldAt b 11 1 ∨ maximum ≠ fieldAt b 12 1))
  | _, _, _, _, _, _, _ => none

end Sys2Proof.Machine
end

