-- ==== Sys2Proof/Machine/Ops.lean ====
section
/-! DEFINITION. The named operations over the state that every block shares: reading and replacing one block, a link, an
entry; the output queue of a link; the text store; the retired list; the counters. -/

namespace Sys2Proof.Machine

/-! ### One block of the state -/

/-- The link record of a link (R17). -/
def State.link (s : State) : LinkId → Link
  | .la => s.la
  | .lb => s.lb

/-- Replace the link record of a link. -/
def State.setLink (s : State) (l : LinkId) (k : Link) : State :=
  match l with
  | .la => { s with la := k }
  | .lb => { s with lb := k }

/-- Replace the profile unit. -/
def State.setProf (s : State) (p : ProfileUnit) : State := { s with prof := p }

/-- Replace the directory. -/
def State.setDir (s : State) (d : Directory) : State := { s with dir := d }

/-- Replace the area decision unit. -/
def State.setArea (s : State) (a : AreaUnit) : State := { s with area := a }

/-- Replace the arbiter. -/
def State.setArb (s : State) (a : Arbiter) : State := { s with arb := a }

/-- Replace the receipt unit. -/
def State.setRcpt (s : State) (r : ReceiptUnit) : State := { s with rcpt := r }

/-- Replace the host command port. -/
def State.setHost (s : State) (h : HostPort) : State := { s with host := h }

/-- Replace the model's free-value counter (log 6). -/
def State.setFreeCtr (s : State) (n : Nat) : State := { s with freeCtr := n }

/-- Change the link record of a link. -/
def modLink (l : LinkId) (f : Link → Link) (s : State) : State :=
  s.setLink l (f (s.link l))

/-! ### Counters (R185 to R187) -/

/-- A counter counts up and stays at its limit (R187). -/
def bump (n : Nat) : Nat := min (n + 1) Config.counterLimit

/-- The counters of a link. -/
def HostPort.counters (h : HostPort) : LinkId → LinkCounters
  | .la => h.cntLa
  | .lb => h.cntLb

/-- Change the counters of a link (R185). -/
def countLink (l : LinkId) (f : LinkCounters → LinkCounters) (s : State) : State :=
  match l with
  | .la => s.setHost { s.host with cntLa := f s.host.cntLa }
  | .lb => s.setHost { s.host with cntLb := f s.host.cntLb }

/-- Change the global counters (R186). -/
def countGlobal (f : GlobalCounters → GlobalCounters) (s : State) : State :=
  s.setHost { s.host with cntG := f s.host.cntG }

/-! ### Page slots and the output queue of a link (R17, R27, R38, R39, R41) -/

/-- The page slots in number order. -/
def pageSlotList : List PageSlot := List.finRange Config.pageSlots

/-- The occupied count, 0..6 (R17). -/
def Link.occupied (k : Link) : Nat :=
  pageSlotList.countP (fun i => (k.slots[i]).occupied)

/-- The number of FREE slots (R19). -/
def Link.freeCount (k : Link) : Nat := Config.pageSlots - k.occupied

/-- The FREE slot with the lowest number (R28). -/
def Link.lowestFree (k : Link) : Option PageSlot :=
  pageSlotList.find? (fun i => !(k.slots[i]).occupied)

/-- Replace one page slot. -/
def Link.setSlot (k : Link) (i : PageSlot) (v : Slot) : Link :=
  { k with slots := k.slots.set i v }

/-- The page a slot holds, when it is HELD (R2, R17). -/
def Slot.page : Slot → Option Page
  | .free => none
  | .receiving => none
  | .held p => some p

/-- The page held in a slot (R2). -/
def State.heldPage (s : State) (l : LinkId) (i : PageSlot) : Option Page := ((s.link l).slots[i]).page

/-- Whether a frame is a SUBSCRIBE. -/
def OutFrame.isSubscribe : OutFrame → Bool
  | .subscribe _ => true
  | _ => false

/-- Whether a frame is a RECEIPT. -/
def OutFrame.isReceipt : OutFrame → Bool
  | .receipt _ _ _ _ => true
  | _ => false

/-- Whether a frame is a HELLO-REQUEST. -/
def OutFrame.isHelloRequest : OutFrame → Bool
  | .helloRequest => true
  | _ => false

/-- A frame joins the output queue: a SUBSCRIBE takes the place of an earlier one (R38), a RECEIPT removes an earlier
one (R39), every other frame joins at the tail (R41). -/
def pushFrame (q : List OutFrame) (f : OutFrame) : List OutFrame :=
  if f.isSubscribe && q.any OutFrame.isSubscribe then q.map (fun g => if g.isSubscribe then f else g)
  else if f.isReceipt then q.filter (fun g => !g.isReceipt) ++ [f]
  else q ++ [f]

/-- A link queues a frame for its modem (R41). -/
def enqueue (l : LinkId) (f : OutFrame) (s : State) : State :=
  modLink l (fun k => { k with outQ := pushFrame k.outQ f }) s

/-! ### Directory entries (R63 to R68) -/

/-- The directory slots in slot order. -/
def entrySlotList : List EntrySlot := List.finRange Config.entrySlots

/-- The entry in a slot, if the slot is occupied (R64). -/
def State.entryAt (s : State) (i : EntrySlot) : Option Entry := s.dir.entries[i]

/-- Replace what a slot holds. -/
def State.putEntry (s : State) (i : EntrySlot) (e : Option Entry) : State :=
  s.setDir { s.dir with entries := s.dir.entries.set i e }

/-- Change the entry in a slot, if there is one. -/
def modEntry (i : EntrySlot) (f : Entry → Entry) (s : State) : State :=
  match s.entryAt i with
  | none => s
  | some e => s.putEntry i (some (f e))

/-- The handle of the entry in a slot: the slot with its use count, which only allocation changes (R66). -/
def State.handleOf (s : State) (i : EntrySlot) : Handle := ⟨i, s.dir.useCounts[i]⟩

/-- The entry a handle names while the handle is current: the slot is occupied and its use count is the handle's
(R66). -/
def State.named (s : State) (h : Handle) : Option Entry :=
  if s.dir.useCounts[h.slot] = h.use then s.entryAt h.slot else none

/-- Change the entry a handle names; a stale handle is dropped without effect (R67). -/
def modNamed (h : Handle) (f : Entry → Entry) (s : State) : State :=
  match s.named h with
  | none => s
  | some _ => modEntry h.slot f s

/-- The number of occupied slots, 0..48 (R63). -/
def State.occupancy (s : State) : Nat :=
  entrySlotList.countP (fun i => (s.entryAt i).isSome)

/-- The slots whose entry meets a condition, in slot order. -/
def State.slotsWhere (s : State) (p : Entry → Bool) : List EntrySlot :=
  entrySlotList.filter (fun i => (s.entryAt i).any p)

/-- The entry with an identity key, and its slot (R12, R70). -/
def State.entryOfKey (s : State) (k : Key) : Option (EntrySlot × Entry) :=
  entrySlotList.findSome? (fun i => ((s.entryAt i).filter (fun e => decide (e.key = k))).map (fun e => (i, e)))

/-! ### Text store (R77 to R79) -/

/-- Segments that are free (R77). -/
def State.freeSegments (s : State) : Nat := Config.textSegments - s.dir.segs.length

/-- Replace the text store. -/
def State.setSegs (s : State) (v : List Segment) : State := s.setDir { s.dir with segs := v }

/-- Whether an entry owns a segment (R74). -/
def State.ownsSegment (s : State) (i : EntrySlot) : Bool := s.dir.segs.any (fun g => g.slot = i)

/-- Release every segment an entry owns (R79). -/
def releaseAll (i : EntrySlot) (s : State) : State :=
  s.setSegs (s.dir.segs.filter (fun g => !decide (g.slot = i)))

/-- Release the segments of one group of an entry (R79). -/
def releaseGroup (i : EntrySlot) (grp : SegmentGroup) (s : State) : State :=
  s.setSegs (s.dir.segs.filter (fun g => !(decide (g.slot = i) && decide (g.group = grp))))

/-- The segments of the incoming revision pass to the current content (R77, R96). -/
def promoteSegs (i : EntrySlot) (s : State) : State :=
  s.setSegs (s.dir.segs.map (fun g => if g.slot = i then { g with group := .current } else g))

/-- The text of one part of the current content (R77, R176). -/
def State.textOf (s : State) (i : EntrySlot) (part : Nat) : Option (List Byte) :=
  (s.dir.segs.find? (fun g => g.slot = i && g.group = .current && g.part = part)).map (·.text)

/-! ### Retired list (R80, R81) -/

/-- Append a retired record; a full list drops its oldest first (R80). -/
def retire (k : Key) (r : Revision) (d : Option Discarded) (s : State) : State :=
  s.setDir { s.dir with
    retired :=
      (if Config.retiredRecords ≤ s.dir.retired.length then s.dir.retired.drop 1 else s.dir.retired) ++ [⟨k, r, d⟩] }

/-- Remove the retired record of a key and close the gap (R81). -/
def unretire (k : Key) (s : State) : State :=
  s.setDir { s.dir with retired := s.dir.retired.filter (fun r => !decide (r.key = k)) }

/-- The retired record of a key (R71). -/
def State.retiredRecord (s : State) (k : Key) : Option Retired :=
  s.dir.retired.find? (fun r => r.key = k)

/-! ### Revision order (R13, R14) -/

/-- Distance of a candidate from a held revision, modulo 64 (R13). -/
def revDistance (c h : Revision) : Nat := (c - h).toNat

/-- A candidate is newer when it lies 1..31 steps ahead (R13, Table 10). -/
def newer (c h : Revision) : Bool := decide (1 ≤ revDistance c h ∧ revDistance c h ≤ 31)

/-- Every candidate is newer than an absent revision (R13, R14). -/
def newerThan (c : Revision) (h : Option Revision) : Bool :=
  match h with
  | none => true
  | some r => newer c r

/-- No candidate is the same as an absent revision (R14). -/
def sameAs (c : Revision) (h : Option Revision) : Bool :=
  match h with
  | none => false
  | some r => decide (c = r)

end Sys2Proof.Machine
end

