-- ==== Sys2Proof/Machine/Formats.lean ====
section
/-! DEFINITION. The bytes the device sends: frames to the modems (R191, Tables 47 and 49), responses to the host (R192, R193), the
records they carry and the codes in them (Table 52). -/

namespace Sys2Proof.Machine

/-! ### Codes (Tables 47 and 52) -/

/-- A small number as one byte. -/
def byteOf (n : Nat) : Byte := BitVec.ofNat 8 n

/-- Reach code. -/
def Reach.code : Reach → Byte
  | .cell => 1
  | .district => 2
  | .region => 3

/-- Disposition code. -/
def Disposition.code : Disposition → Byte
  | .storedMore => 1
  | .storedDone => 2
  | .haveAll => 3
  | .havePart => 4
  | .stale => 5
  | .ignored => 6
  | .conflict => 7
  | .full => 8

/-- Entry state code. -/
def EntryState.code : EntryState → Byte
  | .assembling => 1
  | .active => 2
  | .held => 3
  | .acknowledged => 4
  | .cancelled => 5

/-- Hold reason code, 0 when absent. -/
def holdCode : Option HoldReason → Byte
  | none => 0
  | some .area => 1
  | some .near => 2
  | some .optedOut => 3

/-- Area decision code. -/
def AreaDecision.code : AreaDecision → Byte
  | .inside => 1
  | .near => 2
  | .outside => 3
  | .undecided => 4

/-- Request kind code. -/
def RequestKind.code : RequestKind → Byte
  | .alert => 1
  | .reminder => 2

/-- Receipt state code. -/
def ReceiptState.code : ReceiptState → Byte
  | .idle => 0
  | .queued => 1
  | .offered => 2
  | .sent => 3
  | .failed _ => 4

/-- Failure reason code, 0 when there is none. -/
def ReceiptState.reason : ReceiptState → Byte
  | .idle => 0
  | .queued => 0
  | .offered => 0
  | .sent => 0
  | .failed .queueFull => 1
  | .failed .undelivered => 2

/-- Link state code. -/
def LinkState.code : LinkState → Byte
  | .down => 0
  | .sync => 1
  | .up => 2
  | .faulted => 3

/-- Fault kind code; an empty fault record has 0 (R193). -/
def FaultKind.code : FaultKind → Byte
  | .malformed => 1
  | .overrun => 2
  | .timeout => 3

/-- Frame kind code, 00h for unknown (Table 47, R193). -/
def FrameKind.code : FrameKind → Byte
  | .unknown => 0
  | .hello => 1
  | .goodbye => 2
  | .page => 3
  | .serving => 4
  | .receiptResult => 5

/-- Store state code. -/
def StoreState.code : StoreState → Byte
  | .owned => 1
  | .yielded => 2

/-- Link code. -/
def linkCode : LinkId → Byte
  | .la => 1
  | .lb => 2

/-- Result code (R192). -/
def ResultCode.code : ResultCode → Byte
  | .ok => 1
  | .badCommand => 2
  | .badLength => 3
  | .badValue => 4
  | .staleHandle => 5
  | .wrongState => 6

/-! ### Fields -/

/-- An alert-clock time: 6 bytes, the 48 bits of the clock (R188). -/
def timeBytes (t : Nat) : List Byte := bytesOf 6 t

/-- An optional time: presence byte and 6 bytes, zeros when absent (R193). -/
def optTimeBytes : Option Nat → List Byte
  | none => List.replicate 7 0
  | some t => 1 :: timeBytes t

/-- A handle: slot, then use count (R188). -/
def handleBytes (h : Handle) : List Byte := [byteOf h.slot.val, h.use]

/-- The identity key, 11 bytes; a scope value the reach leaves out is sent as zero (R191). -/
def keyBytes (k : Key) : List Byte :=
  bytesOf 2 k.region ++ bytesOf 2 k.channel ++ bytesOf 2 k.alertNo ++ [k.reach.code] ++ bytesOf 4 (k.scope.getD 0)

/-- A revision as one byte. -/
def revisionByte (r : Revision) : Byte := byteOf r.toNat

/-- Zeros after a run of bytes, up to a width (R193). -/
def padTo (width : Nat) (b : List Byte) : List Byte := b ++ List.replicate (width - b.length) 0

/-! ### Frames to the modems (R189, R191, Tables 47 and 49) -/

/-- Frame kind byte of a frame the device sends (Table 47). -/
def OutFrame.kindByte : OutFrame → Byte
  | .helloRequest => 0x81
  | .credit _ => 0x82
  | .subscribe _ => 0x83
  | .disposition _ _ _ _ => 0x84
  | .receipt _ _ _ _ => 0x85

/-- Body of a frame the device sends (Table 49). -/
def OutFrame.body : OutFrame → List Byte
  | .helloRequest => []
  | .credit n => [byteOf n]
  | .subscribe rs => byteOf rs.length :: rs.flatMap (fun r => bytesOf 2 r.1 ++ bytesOf 2 r.2)
  | .disposition k r p d => keyBytes k ++ [revisionByte r, byteOf p, d.code]
  | .receipt id k r delay => byteOf id.val :: (keyBytes k ++ [revisionByte r] ++ bytesOf 2 delay)

/-- The frame on the wire: start marker, kind, body length, body (R189). -/
def OutFrame.encode (f : OutFrame) : List Byte :=
  0xA5 :: f.kindByte :: (bytesOf 2 f.body.length ++ f.body)

/-! ### Responses to the host (R192, R193) -/

/-- The pending response as it is clocked out: result code, body length, body (R192). -/
def Response.encode (r : Response) : List Byte :=
  r.code.code :: (bytesOf 2 r.body.length ++ r.body)

/-- A set of event kinds in 2 bytes (R192). -/
def eventBytes (e : EventSet) : List Byte := bytesOf 2 e.toNat

/-- The settings record, 15 bytes, the class-1 enable reported as 1 (Table 51). -/
def settingsBytes (g : Settings) : List Byte :=
  [1, flagByte g.enable2, flagByte g.enable3, flagByte g.enable4, flagByte g.enable5,
    flagByte (decide (g.nearPolicy = .hold))] ++ bytesOf 2 g.nearDistance ++ bytesOf 2 g.staleLimit ++
  [byteOf g.attentionLength, byteOf g.minimumPlay, byteOf g.maximumPlay, flagByte g.toneEnable,
    flagByte g.vibrationEnable]

/-- Eight per-link counters in the order of Table 45. -/
def LinkCounters.bytes (c : LinkCounters) : List Byte :=
  [c.pages, c.duplicates, c.stale, c.ignored, c.conflicts, c.full, c.overruns, c.faults].flatMap (bytesOf 2)

/-- Seven global counters in the order of Table 46. -/
def GlobalCounters.bytes (c : GlobalCounters) : List Byte :=
  [c.evictions, c.loads, c.loadFails, c.fallbackPages, c.receiptsSent, c.receiptsFailed, c.directoryPeak].flatMap
    (bytesOf 2)

/-- Free bytes, one value of the counter each (logs 6 and 7). -/
def freeBytes (at_ count : Nat) : List Byte := (List.range count).map (fun j => Config.freeByte (at_ + j))

/-- The serving record in a READ-LINKS group: kind, then 12 bytes, zeros without SERVICE (R193). -/
def servingBytes : Serving → List Byte
  | .absent => List.replicate 13 0
  | .noService => 1 :: List.replicate 12 0
  | .service network region cell district =>
    2 :: (bytesOf 4 network.toNat ++ bytesOf 2 region ++ bytesOf 4 cell.toNat ++ bytesOf 2 district)

/-- The fault record in a READ-LINKS group: kind 0 when empty, with time and frame kind the spec does not state then
(R193, log 7). -/
def faultBytes (free : Nat) : Option FaultRecord → List Byte
  | none => 0 :: freeBytes free 7
  | some f => f.kind.code :: (timeBytes f.time ++ [f.frame.code])

/-- The 24-byte group of a link in READ-LINKS (R193, R42). -/
def linkBytes (free : Nat) (k : Link) : List Byte :=
  k.state.code :: (servingBytes k.serving ++ faultBytes free k.fault ++ [byteOf k.occupied, byteOf k.credits])

/-! ### The entry record of READ-ENTRY (R193) -/

/-- Area block form code (Table 48). -/
def areaForm : Option AreaBlock → Byte
  | none => 0
  | some (.cells _) => 1
  | some (.polygon _ _) => 2

/-- One place of 8 bytes for each prefix entry or vertex. -/
def areaPlaces : Option AreaBlock → List (List Byte)
  | none => []
  | some (.cells es) => es.map (fun e => padTo 8 (bytesOf 4 e.base.toNat ++ [byteOf e.len]))
  | some (.polygon vs _) => vs.map (fun v => bytesOfSigned v.lat ++ bytesOfSigned v.lon)

/-- The area block of the current content, 131 bytes. -/
def areaBlockBytes (a : Option AreaBlock) : List Byte :=
  padTo 131
    (areaForm a :: byteOf (areaPlaces a).length :: flagByte (AreaBlock.mark a) :: (areaPlaces a).flatten)

/-- The current content, 22 bytes. -/
def contentBytes : Option Content → List Byte
  | none => List.replicate 22 0
  | some c =>
    [1, revisionByte c.revision, byteOf c.partCount] ++ bytesOf 2 c.desc.carrier ++ bytesOf 2 c.desc.language ++
    bytesOf 2 c.desc.validity ++ [flagByte c.desc.receiptRequested] ++ timeBytes c.completedAt ++
    bytesOf 2 c.rules.version ++
    [byteOf c.rules.rangeIndex, flagByte c.rules.receiptsAllowed, byteOf c.rules.reminderInterval,
      byteOf c.rules.reminderLimit]

/-- The set of parts present: bit k − 1 for part k. -/
def partsByte (parts : List Nat) : Byte :=
  parts.foldl (fun b k => b ||| (1#8 <<< (k - 1))) 0

/-- The incoming revision, 10 bytes. -/
def incomingBytes : Option Incoming → List Byte
  | none => List.replicate 10 0
  | some r => [1, revisionByte r.revision, byteOf r.partCount, partsByte r.parts] ++ timeBytes r.deadline

/-- The cancellation, 4 bytes. -/
def cancelBytes : Option CancelMark → List Byte
  | none => List.replicate 4 0
  | some c => [1, revisionByte c.revision] ++ bytesOf 2 c.carrier

/-- The area decision, 3 bytes. -/
def areaResultBytes : Option AreaResult → List Byte
  | none => List.replicate 3 0
  | some r => [1, r.decision.code, flagByte r.malformed]

/-- Links seen (bit 0 LA, bit 1 LB) and the first link, 2 bytes. -/
def linksBytes (x : LinksSeen) : List Byte :=
  [flagByte x.la ||| (flagByte x.lb <<< 1), linkCode x.first]

/-- The attention request, 7 bytes. -/
def requestBytes : Option Request → List Byte
  | none => List.replicate 7 0
  | some r => [1, r.kind.code, byteOf r.level.rank] ++ bytesOf 2 r.remaining ++ bytesOf 2 r.played

/-- The 242-byte record of the entry in a slot (R175, R193). -/
def entryBytes (h : Handle) (now : Nat) (e : Entry) : List Byte :=
  -- identity 17
  handleBytes h ++ keyBytes e.key ++ [e.state.code, holdCode e.hold, byteOf e.cls.num, flagByte e.provisional] ++
  -- times 13
  timeBytes e.createdAt ++ optTimeBytes e.restingAt ++
  -- current content 22, its area block 131
  contentBytes e.current ++ areaBlockBytes (e.current.bind (·.desc.area)) ++
  -- incoming revision 10, cancellation 4, area decision 3, expiry 7, links 2
  incomingBytes e.incoming ++ cancelBytes e.cancel ++ areaResultBytes e.area ++ optTimeBytes e.expiry ++
  linksBytes e.links ++
  -- attention 8
  requestBytes e.request ++ [flagByte e.alerted] ++
  -- reminder schedule 9
  optTimeBytes e.nextReminder ++ [byteOf e.backlog, byteOf e.given] ++
  -- receipt and acknowledgement 9
  [e.receipt.code, e.receipt.reason] ++ optTimeBytes e.acknowledgedAt ++
  -- tail 7
  [flagByte e.changed] ++ timeBytes now

end Sys2Proof.Machine
end

