-- ==== Sys2Proof/Machine/Flags.lean ====
section
/-! DEFINITION. The event set and the lines computed from the state: RDY, ATN, WAKE (R170, R178 to R181) and TONE, VIB,
DWAKE (R145 to R148). -/

namespace Sys2Proof.Machine

/-! ### Events and the host lines -/

/-- Event code (Table 52). -/
def EventKind.code : EventKind → Nat
  | .newAlert => 0
  | .alertUpdated => 1
  | .alertCancelled => 2
  | .entryRemoved => 3
  | .receiptDone => 4
  | .linkFault => 5
  | .linkState => 6
  | .profileFallback => 7
  | .directoryFull => 8
  | .storeState => 9

/-- The set of one kind: bit k for event code k (R192). -/
def EventKind.bit (k : EventKind) : EventSet := 1#10 <<< k.code

/-- Whether a kind is in a set. -/
def EventSet.holds (e : EventSet) (k : EventKind) : Bool := e.getLsbD k.code

/-- Post a kind: it joins the event set, and WAKE latches when the kind is wake-enabled, in the set already or not
(R178, R181). -/
def post (k : EventKind) (s : State) : State :=
  s.setHost { s.host with
    events := s.host.events ||| k.bit
    wake := s.host.wake || EventSet.holds s.host.wakeEn k }

/-- RDY is high while a response is pending (R170). -/
def State.rdy (s : State) : Bool := s.host.response.isSome

/-- ATN is high while the event set and the mask share a kind (R180). -/
def State.atn (s : State) : Bool := decide (s.host.events &&& s.host.mask ≠ 0#10)

/-! ### Cadence (R145, Table 34) -/

/-- Segments of a pattern in order: ON or OFF, and its length in ms (Table 34). -/
def Pattern.segments : Pattern → List (Bool × Nat)
  | .p1 => [(true, 2000), (false, 500), (true, 500), (false, 500)]
  | .p2 => [(true, 1000), (false, 1000)]
  | .p3 => [(true, 500), (false, 2000)]
  | .pr => [(true, 500), (false, 500), (true, 500)]

/-- The segment a play is in. -/
def Play.segmentNow (p : Play) : Bool × Nat :=
  p.pattern.segments.getD (p.segment % p.pattern.segments.length) (true, 500)

/-- The pattern of a request, by its kind and its entry's class (R145, Table 34). -/
def patternOf (k : RequestKind) (c : AlertClass) : Pattern :=
  match k, c with
  | .reminder, _ => .pr
  | .alert, .national => .p1
  | .alert, .extreme => .p1
  | .alert, .severe => .p2
  | .alert, .advisory => .p2
  | .alert, .exercise => .p3

/-! ### The signal outputs (R146, R147) -/

/-- The gate of TONE: none for classes 1 and 2, tone enable for 3..5 (Table 35). -/
def toneGate (g : Settings) : AlertClass → Bool
  | .national => true
  | .extreme => true
  | .severe => g.toneEnable
  | .advisory => g.toneEnable
  | .exercise => g.toneEnable

/-- The gate of VIB: none for class 1, vibration enable for 2..5 (Table 35). -/
def vibGate (g : Settings) : AlertClass → Bool
  | .national => true
  | .extreme => g.vibrationEnable
  | .severe => g.vibrationEnable
  | .advisory => g.vibrationEnable
  | .exercise => g.vibrationEnable

/-- The generator is PLAYING exactly while the play record is present (R130). -/
def State.generatorPlaying (s : State) : Bool := s.arb.play.isSome

/-- The entry whose request plays, with the play record. -/
def State.playing (s : State) : Option (Play × Entry) :=
  match s.arb.play with
  | none => none
  | some p => (s.named p.handle).map (fun e => (p, e))

/-- TONE (R146). -/
def State.tone (s : State) : Bool :=
  match s.playing with
  | none => false
  | some (p, e) => p.segmentNow.1 && toneGate s.host.settings e.cls

/-- VIB (R146). -/
def State.vib (s : State) : Bool :=
  match s.playing with
  | none => false
  | some (p, e) => p.segmentNow.1 && vibGate s.host.settings e.cls

/-- DWAKE is high while an ALERT plays (R147). -/
def State.dwake (s : State) : Bool :=
  match s.playing with
  | none => false
  | some (_, e) =>
    match e.request with
    | none => false
    | some r => decide (r.kind = .alert)

end Sys2Proof.Machine
end

