-- ==== Sys2Proof/Machine/Receipts.lean ====
section
/-! DEFINITION. Receipts and reminders (chapter 8): offering and settling receipt records, the receipt of an entry that
leaves, and the reminder schedule of an entry. -/

namespace Sys2Proof.Machine

/-! ### Receipt records (R154 to R165) -/

/-- Replace the receipt queue. -/
def State.setQueue (s : State) (q : List ReceiptRecord) : State := s.setRcpt { s.rcpt with queue := q }

/-- An entry's receipt state moves, which sets its changed flag (R164, R68). -/
def setReceipt (h : Handle) (r : ReceiptState) (s : State) : State :=
  modNamed h (fun e => { e with receipt := r, changed := true }) s

/-- The oldest QUEUED record that targets a link (R157). -/
def State.nextReceipt (s : State) (l : LinkId) : Option ReceiptRecord :=
  s.rcpt.queue.find? (fun r => decide (r.target = l) && decide (r.state = .queued))

/-- Change the record with an id. -/
def modRecord (id : ReceiptId) (f : ReceiptRecord → ReceiptRecord) (s : State) : State :=
  s.setQueue (s.rcpt.queue.map (fun r => if r.id = id then f r else r))

/-- Remove the record with an id. -/
def dropRecord (id : ReceiptId) (s : State) : State :=
  s.setQueue (s.rcpt.queue.filter (fun r => !decide (r.id = id)))

/-- The offer of a record on its target link (R39, R157). -/
def makeOffer (r : ReceiptRecord) (s : State) : State :=
  let s := modRecord r.id (fun x => { x with state := .offered, deadline := some (s.now + Config.offerMs) }) s
  let s := setReceipt r.handle .offered s
  let s := enqueue r.target (.receipt r.id r.key r.revision r.delay) s
  modLink r.target (fun k => { k with outstanding := some r.id }) s

/-- Offer a link its oldest QUEUED record, when it is UP and has no outstanding receipt (R39, R157). -/
def offer (l : LinkId) (s : State) : State :=
  if (s.link l).state = .up ∧ (s.link l).outstanding = none then
    match s.nextReceipt l with
    | none => s
    | some r => makeOffer r s
  else s

/-- The link has no receipt outstanding any more (R40). -/
def clearOutstanding (l : LinkId) (s : State) : State :=
  modLink l (fun k => { k with outstanding := none }) s

/-- A receipt has failed: RECEIPT-DONE is posted and RECEIPTS-FAILED counted (R154, R161, R165). -/
def receiptFailed (s : State) : State :=
  countGlobal (fun c => { c with receiptsFailed := bump c.receiptsFailed }) (post .receiptDone s)

/-- A refusal of an OFFERED record: retargeted once to the other link if that is UP, else failed UNDELIVERED; then the
links are offered what they may be offered (R160, R161). -/
def refuse (r : ReceiptRecord) (s : State) : State :=
  let s := clearOutstanding r.target s
  let s :=
    if r.attempts + 1 < 2 ∧ (s.link r.target.other).state = .up then
      setReceipt r.handle .queued
        (modRecord r.id
          (fun x => { x with target := r.target.other, attempts := r.attempts + 1, state := .queued, deadline := none })
          s)
    else
      receiptFailed
        (setReceipt r.handle (.failed .undelivered) (dropRecord r.id s))
  offer r.target.other (offer r.target s)

/-- A record settled as sent (R159). -/
def receiptSent (r : ReceiptRecord) (s : State) : State :=
  let s := clearOutstanding r.target s
  let s := setReceipt r.handle .sent (dropRecord r.id s)
  let s := countGlobal (fun c => { c with receiptsSent := bump c.receiptsSent }) (post .receiptDone s)
  offer r.target s

/-- The record with an id. -/
def State.recordOf (s : State) (id : ReceiptId) : Option ReceiptRecord :=
  s.rcpt.queue.find? (fun r => r.id = id)

/-- The outstanding receipt of a link is settled as refused (R20, R21, R160). -/
def refuseOutstanding (l : LinkId) (s : State) : State :=
  match (s.link l).outstanding with
  | none => s
  | some id =>
    match s.recordOf id with
    | none => clearOutstanding l s
    | some r => refuse r (clearOutstanding l s)

/-- The record of an entry that leaves the directory is removed and failed as ENTRY-GONE; a link that had it
outstanding is offered its next record (R165). -/
def entryGone (h : Handle) (s : State) : State :=
  match s.rcpt.queue.find? (fun r => r.handle = h) with
  | none => s
  | some r =>
    let s := receiptFailed (dropRecord r.id s)
    match r.state with
    | .queued => s
    | .offered => offer r.target (clearOutstanding r.target s)

/-! ### The receipt step (R154, R155) -/

/-- The places 0..15 from the one after the last given, wrapping (R155). -/
def idsAfter (last : ReceiptId) : List ReceiptId :=
  (List.range Config.receiptRecords).map (fun k => Fin.ofNat Config.receiptRecords (last.val + 1 + k))

/-- The id a new record takes (R155). -/
def State.nextId (s : State) : Option ReceiptId :=
  (idsAfter s.rcpt.lastId).find? (fun id => s.rcpt.queue.all (fun r => !decide (r.id = id)))

/-- Acknowledgement delay in seconds, saturating (R154). -/
def ackDelay (acknowledged completed : Nat) : Nat :=
  min ((acknowledged - completed) / 1000) 65535

/-- The record of a new receipt (R154, Table 38). -/
def newRecord (h : Handle) (e : Entry) (c : Content) (id : ReceiptId) (now : Nat) : ReceiptRecord where
  id := id
  handle := h
  key := e.key
  revision := c.revision
  delay := ackDelay now c.completedAt
  target := e.links.first
  attempts := 0
  state := .queued
  deadline := none

/-- The receipt step of an acknowledgement taken on the entry of a slot (R154). -/
def receiptStep (i : EntrySlot) (s : State) : State :=
  match s.entryAt i with
  | none => s
  | some e =>
    match e.current with
    | none => s
    | some c =>
      if c.desc.receiptRequested = true ∧ c.rules.receiptsAllowed = true ∧ (e.receipt = .idle ∨ e.receipt = .sent) then
        match (if s.rcpt.queue.length < Config.receiptRecords then s.nextId else none) with
        | none => receiptFailed (modEntry i (fun e => { e with receipt := .failed .queueFull, changed := true }) s)
        | some id =>
          let s := s.setRcpt { queue := s.rcpt.queue ++ [newRecord (s.handleOf i) e c id s.now], lastId := id }
          let s := modEntry i (fun e => { e with receipt := .queued, changed := true }) s
          offer e.links.first s
      else s

/-! ### The reminder schedule (R166 to R168) -/

/-- The reset of the schedule by a completion or a presenting re-decision (R99, R100, R101, R127). -/
def resetReminders (e : Entry) : Entry := { e with nextReminder := none, backlog := 0, given := 0 }

/-- The reminder interval of the rules in force, minutes (R166). -/
def Entry.interval (e : Entry) : Nat :=
  match e.current with
  | none => 0
  | some c => c.rules.reminderInterval

/-- The reminder limit of the rules in force (R166). -/
def Entry.limit (e : Entry) : Nat :=
  match e.current with
  | none => 0
  | some c => c.rules.reminderLimit

/-- The schedule starts after an ALERT play ended or was silenced, when the rules in force allow it (R166). -/
def startReminders (now : Nat) (e : Entry) : Entry :=
  if 0 < e.interval ∧ 0 < e.limit ∧ e.given + e.backlog < e.limit then
    { e with nextReminder := some (now + e.interval * Config.minuteMs) }
  else e

/-- A reminder is given: the count rises, the backlog clears, and at the limit no further one falls due (R168). -/
def giveReminder (e : Entry) : Entry :=
  { e with
    given := e.given + 1
    backlog := 0
    nextReminder := if e.given + 1 = e.limit then none else e.nextReminder }

end Sys2Proof.Machine
end

