-- ==== Sys2Proof/Machine/Attention.lean ====
section
/-! DEFINITION. The attention arbiter and cadence generator (chapter 7): raising, selecting, playing, preempting,
yielding, retriggering, silencing and ending attention requests, and the meanings of the commands that are its own. -/

namespace Sys2Proof.Machine

/-! ### The requests as the arbiter sees them (R131) -/

/-- The attention length in ms (R132, R182). -/
def State.attentionMs (s : State) : Nat := s.host.settings.attentionLength * 1000

/-- The minimum play in ms (R136, R182). -/
def State.minimumMs (s : State) : Nat := s.host.settings.minimumPlay * 1000

/-- The maximum play in ms (R136, R182). -/
def State.maximumMs (s : State) : Nat := s.host.settings.maximumPlay * 1000

/-- Whether the play in progress is that of the entry in a slot. -/
def State.playsAt (s : State) (i : EntrySlot) : Bool :=
  match s.arb.play with
  | none => false
  | some p => decide (p.handle = s.handleOf i)

/-- The request of a slot's entry, when it is waiting: not the one that plays (R131). -/
def State.waitingRequest (s : State) (i : EntrySlot) : Option Request :=
  match s.entryAt i with
  | none => none
  | some e => if s.playsAt i then none else e.request

/-- Whether a request waits in this slot at this level (R134). -/
def State.waitsAt (s : State) (lv : Level) (i : EntrySlot) : Bool :=
  (s.waitingRequest i).any (fun r => decide (r.level = lv))

/-- Whether some request waits at a level that meets a condition on its rank. -/
def State.someWaits (s : State) (p : Nat → Bool) : Bool :=
  entrySlotList.any (fun i => (s.waitingRequest i).any (fun r => p r.level.rank))

/-! ### Selection (R134, R135) -/

/-- The levels from the highest to the lowest (R134). -/
def levelOrder : List Level :=
  [.cls .national, .cls .extreme, .cls .severe, .cls .advisory, .cls .exercise, .trickle]

/-- The place of a level among the six pointers (R130). -/
def Level.index : Level → Fin 6
  | .cls .national => 0
  | .cls .extreme => 1
  | .cls .severe => 2
  | .cls .advisory => 3
  | .cls .exercise => 4
  | .trickle => 5

/-- The slots after a pointer in search order: increasing, wrapping from 47 to 0, the pointer's own slot last
(R134). -/
def slotsAfter (p : EntrySlot) : List EntrySlot :=
  (List.range Config.entrySlots).map (fun k => Fin.ofNat Config.entrySlots (p.val + 1 + k))

/-- The request that plays next, the search of each level starting after `start level` (R134). -/
def State.choice (s : State) (start : Level → EntrySlot) : Option (Level × EntrySlot) :=
  levelOrder.findSome? (fun lv => ((slotsAfter (start lv)).find? (s.waitsAt lv)).map (fun i => (lv, i)))

/-- The round-robin pointer of a level (R130). -/
def State.pointer (s : State) (lv : Level) : EntrySlot := s.arb.pointers[lv.index]

/-- A play begins: the pointer names the slot, and the play record starts its pattern and its turn (R134, R135). -/
def beginPlay (lv : Level) (i : EntrySlot) (s : State) : State :=
  match s.entryAt i with
  | none => s
  | some e =>
    match e.request with
    | none => s
    | some r =>
      s.setArb
        { pointers := s.arb.pointers.set lv.index i
          play := some { handle := s.handleOf i, pattern := patternOf r.kind e.cls, segment := 0, into := 0, turn := 0 } }

/-- Selection with a search start for each level; the generator stays IDLE when no request waits (R134). -/
def selectFrom (start : Level → EntrySlot) (s : State) : State :=
  match s.choice start with
  | none => s
  | some (lv, i) => beginPlay lv i s

/-- Selection from the round-robin pointers (R134). -/
def select (s : State) : State := selectFrom s.pointer s

/-- The play record becomes absent; the outputs, computed from it, are released (R148). -/
def clearPlay (s : State) : State := s.setArb { s.arb with play := none }

/-- Selection is made at once when the generator is IDLE (R132 to R134). -/
def selectIfIdle (s : State) : State :=
  match s.arb.play with
  | none => select s
  | some _ => s

/-! ### Raising, retriggering, removing (R132, R133, R140, R142) -/

/-- Replace an entry's request. -/
def setRequest (r : Option Request) (e : Entry) : Entry := { e with request := r }

/-- A fresh ALERT request at the entry's class level with the full attention length (R132, R140). -/
def alertRequest (s : State) (c : AlertClass) : Request where
  kind := .alert
  level := .cls c
  remaining := s.attentionMs
  played := 0
  silenced := false

/-- A fresh REMINDER request at TRICKLE (R133). -/
def reminderRequest : Request where
  kind := .reminder
  level := .trickle
  remaining := Config.reminderMs
  played := 0
  silenced := false

/-- An ALERT request is raised for the entry of a slot (R132). -/
def raiseAlert (i : EntrySlot) (s : State) : State :=
  match s.entryAt i with
  | none => s
  | some e => selectIfIdle (modEntry i (setRequest (some (alertRequest s e.cls))) s)

/-- The play goes on under a retriggered request: its turn restarts, and its pattern too when it differs (R140). -/
def retriggerPlay (new : Pattern) (p : Play) : Play :=
  if p.pattern = new then { p with turn := 0 } else { p with pattern := new, segment := 0, into := 0, turn := 0 }

/-- A retrigger: the request becomes a new ALERT in place; with no request a new one is raised (R100, R140). -/
def retrigger (i : EntrySlot) (s : State) : State :=
  match s.entryAt i with
  | none => s
  | some e =>
    match e.request with
    | none => raiseAlert i s
    | some _ =>
      let t := modEntry i (setRequest (some (alertRequest s e.cls))) s
      if s.playsAt i then
        t.setArb { t.arb with play := t.arb.play.map (retriggerPlay (patternOf .alert e.cls)) }
      else t

/-- A request is removed at once, without an end of play; if it was playing, the play stops and selection is made
(R142). -/
def dropRequest (i : EntrySlot) (s : State) : State :=
  match s.entryAt i with
  | none => s
  | some _ =>
    let t := modEntry i (setRequest none) s
    if s.playsAt i then select (clearPlay t) else t

/-! ### The end of a play (R141, R143, R144) -/

/-- What the end, or the silencing, of a request does to its entry: an ALERT marks it alerted and starts its
reminders, a REMINDER counts as given (R141, R143, R166, R168). -/
def heardEntry (now : Nat) (k : RequestKind) (e : Entry) : Entry :=
  match k with
  | .alert => startReminders now { e with alerted := true, changed := e.changed || !e.alerted }
  | .reminder => giveReminder e

/-- A request is removed as heard (R141, R143). -/
def hearRequest (i : EntrySlot) (k : RequestKind) (s : State) : State :=
  modEntry i (fun e => heardEntry s.now k (setRequest none e)) s

/-- The play in progress ends or is silenced: request and play record go, the entry is marked, selection follows (R141, R144). -/
def finishPlay (p : Play) (r : Request) (s : State) : State :=
  select (clearPlay (hearRequest p.handle.slot r.kind s))

/-- The playing request, with its play record and entry. -/
def State.playingRequest (s : State) : Option (Play × Entry × Request) :=
  match s.playing with
  | none => none
  | some (p, e) => e.request.map (fun r => (p, e, r))

/-- The remaining time of the playing request is 0 (R141). -/
def playEndDue (r : Request) : Bool := decide (r.remaining = 0)

/-- The point of R137: a strictly higher level holds a waiting request and the turn has reached the minimum play; a
request with nothing left to play ends instead (R136), and a silenced play cannot be preempted (R144). -/
def State.preemptionDue (s : State) (p : Play) (r : Request) : Bool :=
  decide (0 < r.remaining) && !r.silenced && decide (s.minimumMs ≤ p.turn) && s.someWaits (fun k => decide (k < r.level.rank))

/-- What every yield asks: play time left, another request waiting at the same level (R136, R138), and no silenced mark,
since a silenced play cannot yield (R144). -/
def State.yieldOpen (s : State) (r : Request) : Bool :=
  decide (0 < r.remaining) && !r.silenced && s.someWaits (fun k => decide (k = r.level.rank))

/-- The point of R138: the turn has reached minimum plus maximum play with a request waiting at the same level. -/
def State.yieldDue (s : State) (p : Play) (r : Request) : Bool :=
  decide (s.minimumMs + s.maximumMs ≤ p.turn) && s.yieldOpen r

/-- A REMINDER request that has left TRICKLE for its class level (R133). -/
def Request.escalated (r : Request) : Bool := decide (r.kind = .reminder) && decide (r.level ≠ .trickle)

/-- The leave of R139: an escalated reminder that has played its minimum play this turn may yield at once to a request
waiting at its new level. -/
def State.mayYieldEarly (s : State) (p : Play) (r : Request) : Bool :=
  r.escalated && decide (s.minimumMs ≤ p.turn) && s.yieldOpen r

/-- Whether the arbiter makes the play yield now: it must at the point of R138; under the leave of R139 it is free to
(DEDUCED, log 26). -/
def State.yieldsNow (s : State) (p : Play) (r : Request) : Bool :=
  s.yieldDue p r || (s.mayYieldEarly p r && Config.freeEarlyYield s.freeCtr s.now)

/-- The point of R144: a silenced play's total has reached the minimum play. -/
def State.silencedEndDue (s : State) (r : Request) : Bool :=
  r.silenced && decide (s.minimumMs ≤ r.played)

/-- A preemption: the play stops, the request keeps its fields and waits, selection is made (R137). DEDUCED (log 27): no
pointer moves, so the level of a play whose level changed while it played keeps its pointer elsewhere (R134). -/
def preempt (s : State) : State := select (clearPlay s)

/-- A yield: as a preemption, the search of the yielding level starting after the yielding slot (R138, log 12). Where a
higher level is served, the yielding level's pointer stands where it was (log 27). -/
def yieldTurn (p : Play) (r : Request) (s : State) : State :=
  selectFrom (fun lv => if lv = r.level then p.handle.slot else s.pointer lv) (clearPlay s)

/-! ### SILENCE (R143, R144) -/

/-- Whether SILENCE spares a request: class 1, played total below the minimum play (R143, R144). -/
def State.spared (s : State) (e : Entry) (r : Request) : Bool :=
  decide (e.cls = .national) && decide (r.played < s.minimumMs)

/-- SILENCE on the entry of a slot whose request waits (R143). -/
def silenceWaiting (i : EntrySlot) (s : State) : State :=
  match s.entryAt i with
  | none => s
  | some e =>
    match s.waitingRequest i with
    | none => s
    | some r =>
      if s.spared e r then modEntry i (setRequest (some { r with silenced := true })) s
      else hearRequest i r.kind s

/-- SILENCE on the play in progress (R144). -/
def silencePlaying (s : State) : State :=
  match s.playingRequest with
  | none => s
  | some (p, e, r) =>
    if s.spared e r then modEntry p.handle.slot (setRequest (some { r with silenced := true })) s
    else finishPlay p r s

/-- SILENCE: each waiting request, then the play in progress (R143, R144). -/
def silenceAll (s : State) : State :=
  silencePlaying (entrySlotList.foldl (fun t i => silenceWaiting i t) s)

/-! ### The arbiter under a settings write (R139, R144, R184) -/

/-- A lowered minimum play removes a waiting silenced request that has reached it (R144). -/
def silencedWaitingEnd (i : EntrySlot) (s : State) : State :=
  match s.waitingRequest i with
  | none => s
  | some r => if s.silencedEndDue r then hearRequest i r.kind s else s

/-- A lowered minimum play ends a playing silenced request that has reached it (R144). -/
def silencedPlayingEnd (s : State) : State :=
  match s.playingRequest with
  | none => s
  | some (p, _, r) => if s.silencedEndDue r then finishPlay p r s else s

/-- A playing turn already beyond a preemption or yield point whose condition holds acts at once (R139; whether an escalated
reminder below R138's point yields is free, log 26). -/
def comparePlay (s : State) : State :=
  match s.playingRequest with
  | none => s
  | some (p, _, r) =>
    if s.preemptionDue p r then preempt s
    else if s.yieldsNow p r then yieldTurn p r s
    else s

/-- What a settings write does at once to the arbiter, the new values in place (R139, R144, log 18). -/
def arbiterMeets (old : Settings) (s : State) : State :=
  let s :=
    if s.host.settings.minimumPlay < old.minimumPlay then
      silencedPlayingEnd (entrySlotList.foldl (fun t i => silencedWaitingEnd i t) s)
    else s
  if s.host.settings.minimumPlay ≠ old.minimumPlay ∨ s.host.settings.maximumPlay ≠ old.maximumPlay then comparePlay s
  else s

/-! ### Reminders reaching the arbiter (R133, R167) -/

/-- A REMINDER request is raised for an ACTIVE entry that holds no request (R133). -/
def raiseReminder (i : EntrySlot) (s : State) : State :=
  match s.entryAt i with
  | none => s
  | some e =>
    match e.request with
    | some _ => s
    | none => selectIfIdle (modEntry i (setRequest (some reminderRequest)) s)

/-- Escalation moves a REMINDER request to its entry's class level; any other finding changes nothing (R133). -/
def escalateEntry (e : Entry) : Entry :=
  match e.request with
  | none => e
  | some r =>
    match r.kind with
    | .alert => e
    | .reminder => { e with request := some { r with level := .cls e.cls } }

/-- The first two steps of a due reminder: the backlog rises to at most 2, and the next deadline is set while given
plus backlog lie below the limit (R167). -/
def reminderFallsDue (now : Nat) (e : Entry) : Entry :=
  { e with
    backlog := min (e.backlog + 1) 2
    nextReminder :=
      if e.given + min (e.backlog + 1) 2 < e.limit then some (now + e.interval * Config.minuteMs) else none }

/-- A due reminder on the entry of a slot (R167). -/
def remind (i : EntrySlot) (s : State) : State :=
  let s := raiseReminder i (modEntry i (reminderFallsDue s.now) s)
  match s.entryAt i with
  | none => s
  | some e => if e.backlog = 2 then modEntry i escalateEntry s else s

/-! ### The meanings of the arbiter's own commands -/

/-- PLAY_END (R141). -/
def execPlayEnd (s : State) : Host.Outcome State Fault Refusal :=
  .next <|
    match s.playingRequest with
    | none => s
    | some (p, _, r) => if playEndDue r then finishPlay p r s else s

/-- PREEMPTION (R137). -/
def execPreemption (s : State) : Host.Outcome State Fault Refusal :=
  .next <|
    match s.playingRequest with
    | none => s
    | some (p, _, r) => if s.preemptionDue p r then preempt s else s

/-- YIELD, at the point of R138 or, for an escalated reminder, under the leave of R139 (log 26). -/
def execYield (s : State) : Host.Outcome State Fault Refusal :=
  .next <|
    match s.playingRequest with
    | none => s
    | some (p, _, r) => if s.yieldDue p r || s.mayYieldEarly p r then yieldTurn p r s else s

/-- SILENCED_PLAY_END (R144). -/
def execSilencedPlayEnd (s : State) : Host.Outcome State Fault Refusal :=
  .next <|
    match s.playingRequest with
    | none => s
    | some (p, _, r) => if s.silencedEndDue r then finishPlay p r s else s

/-- The next segment of the pattern in use, the first after the last (R145). -/
def nextSegment (p : Play) : Play :=
  { p with segment := (p.segment + 1) % p.pattern.segments.length, into := 0 }

/-- CADENCE_SEGMENT_END (R145). -/
def execCadenceSegmentEnd (s : State) : Host.Outcome State Fault Refusal :=
  .next <|
    match s.arb.play with
    | none => s
    | some p => if p.segmentNow.2 ≤ p.into then s.setArb { s.arb with play := some (nextSegment p) } else s

/-- REMINDER_DEADLINE: the next-reminder deadline of an ACTIVE entry (R167). -/
def execReminderDeadline (i : EntrySlot) (s : State) : Host.Outcome State Fault Refusal :=
  .next <|
    match s.entryAt i with
    | none => s
    | some e =>
      if e.state = .active ∧ e.nextReminder.any (fun t => decide (t ≤ s.now)) = true then remind i s else s

/-- OFFER_DEADLINE: the deadline of an OFFERED record (R158). -/
def execOfferDeadline (id : ReceiptId) (s : State) : Host.Outcome State Fault Refusal :=
  .next <|
    match s.recordOf id with
    | none => s
    | some r =>
      if r.state = .offered ∧ r.deadline.any (fun t => decide (t ≤ s.now)) = true then refuse r s else s

end Sys2Proof.Machine
end

