-- ==== Sys2Proof/Machine/Area.lean ====
section
/-! DEFINITION. The area decision unit (chapter 6): the cell-prefix test, the polygon test with its margin, the decision
of an entry, the re-decision triggers and list, and the meaning of REDECISION. -/

namespace Sys2Proof.Machine

/-! ### The cell-prefix test (R6, R117, R118) -/

/-- The most significant `len` bits of a tag equal those of the base (R6); length 0 matches every tag. -/
def PrefixEntry.covers (p : PrefixEntry) (tag : Tag) : Bool :=
  decide (tag >>> (32 - p.len) = p.base >>> (32 - p.len))

/-- The serving cell tag of a link that is a witness for a region (R117). -/
def Link.witness (k : Link) (region : Nat) : Option Tag :=
  if k.state = .up then
    match k.serving with
    | .service _ r cell _ => if r = region then some cell else none
    | .noService => none
    | .absent => none
  else none

/-- The serving cells of the witnesses (R117). -/
def State.witnesses (s : State) (region : Nat) : List Tag :=
  (s.la.witness region).toList ++ (s.lb.witness region).toList

/-- The cell-prefix test (R118). -/
def cellTest (witnesses : List Tag) (es : List PrefixEntry) : AreaDecision :=
  if witnesses.isEmpty then .undecided
  else if witnesses.any (fun tag => es.any (fun p => p.covers tag)) then .inside
  else .outside

/-! ### The polygon test (R119 to R123) -/

/-- Longitude unwrapped relative to vertex 0: one circle added or subtracted at most (R119). -/
def unwrapLon (v0 x : Int) : Int :=
  if x - v0 < -18000000 then x + Config.circle
  else if 17999999 < x - v0 then x - Config.circle
  else x

/-- A point of the test: unwrapped longitude x and latitude y (R119). -/
structure Point where
  x : Int
  y : Int
deriving DecidableEq, Repr

/-- Unwrap a vertex or the position (R119). -/
def unwrapPoint (v0 : Int) (v : Vertex) : Point := ⟨unwrapLon v0 v.lon, v.lat⟩

/-- The edges: each vertex to the next, the last to vertex 0 (R7, R120). -/
def edgesOf (ps : List Point) : List (Point × Point) := ps.zip (ps.drop 1 ++ ps.take 1)

/-- Whether an edge straddles the point's latitude and counts (R120). -/
def edgeCounts (p : Point) (e : Point × Point) : Bool :=
  let i := e.1
  let j := e.2
  if decide (p.y < i.y) = decide (p.y < j.y) then false
  else if i.y < j.y then decide ((p.x - i.x) * (j.y - i.y) < (p.y - i.y) * (j.x - i.x))
  else decide ((p.x - i.x) * (j.y - i.y) > (p.y - i.y) * (j.x - i.x))

/-- The crossing test: an odd number of counting edges (R120). -/
def crossingInside (p : Point) (ps : List Point) : Bool :=
  decide ((edgesOf ps).countP (edgeCounts p) % 2 = 1)

/-- Longitude factor by latitude band; none for bands 8 and 9 (Table 29). -/
def lonFactor (band : Nat) : Option Nat :=
  match band with
  | 0 => some 1008
  | 1 => some 962
  | 2 => some 886
  | 3 => some 784
  | 4 => some 658
  | 5 => some 512
  | 6 => some 350
  | 7 => some 177
  | _ => none

/-- r′: the radius plus the near distance, at most 65 535 (R122 step 1). -/
def marginRadius (radius near : Nat) : Nat := min (radius + near) 65535

/-- The latitude margin (R122 step 2). -/
def latMargin (r : Nat) : Nat := ceilDiv (r * 1000) 1113

/-- The longitude margin at a latitude (R122 steps 3 and 4). -/
def lonMargin (mlat : Nat) (lat : Int) : Nat :=
  match lonFactor (lat.natAbs / 1000000) with
  | none => 36000000
  | some c => min (ceilDiv (mlat * 1024) c) 36000000

/-- The least of a list that begins with `a`. -/
def leastOf (a : Int) (xs : List Int) : Int := xs.foldl min a

/-- The greatest of a list that begins with `a`. -/
def greatestOf (a : Int) (xs : List Int) : Int := xs.foldl max a

/-- Whether a point lies within the widened box of the vertices, both ends included (R123). -/
def inWidenedBox (p first : Point) (rest : List Point) (mlat mlon : Nat) : Bool :=
  decide (leastOf first.x (rest.map (·.x)) - mlon ≤ p.x) && decide (p.x ≤ greatestOf first.x (rest.map (·.x)) + mlon) &&
  decide (leastOf first.y (rest.map (·.y)) - mlat ≤ p.y) && decide (p.y ≤ greatestOf first.y (rest.map (·.y)) + mlat)

/-- The polygon test for a usable position: inside, near or outside (R119 to R123). -/
def polygonTest (pos : Position) (near : Nat) (vs : List Vertex) : AreaDecision :=
  match vs with
  | [] => .outside
  | v0 :: _ =>
    let p := unwrapPoint v0.lon ⟨pos.lat, pos.lon⟩
    let ps := vs.map (unwrapPoint v0.lon)
    if crossingInside p ps then .inside
    else
      let mlat := latMargin (marginRadius pos.radius near)
      if inWidenedBox p (unwrapPoint v0.lon v0) ps mlat (lonMargin mlat pos.lat) then .near else .outside

/-! ### The decision (R114 to R116) -/

/-- A position record is stale when its elapsed whole seconds plus its fix age exceed the stale limit (R114). -/
def Position.stale (p : Position) (now limit : Nat) : Bool :=
  decide (limit < (now - p.setAt) / 1000 + p.fixAge)

/-- The position while it is usable (R114). -/
def State.usablePosition (s : State) : Option Position :=
  match s.area.position with
  | none => none
  | some p => if p.stale s.now s.host.settings.staleLimit then none else some p

/-- Whether a class is enabled; class 1 has no enable (R115, R182). -/
def Settings.enabled (g : Settings) : AlertClass → Bool
  | .national => true
  | .extreme => g.enable2
  | .severe => g.enable3
  | .advisory => g.enable4
  | .exercise => g.enable5

/-- A decision: what is recorded, and the hold reason, `none` for ACTIVE (R115, R116). -/
structure Verdict where
  result : AreaResult
  hold : Option HoldReason
deriving DecidableEq, Repr

/-- The hold reason that follows from an area decision (Table 28). -/
def holdFor (policy : NearPolicy) : AreaDecision → Option HoldReason
  | .inside => none
  | .near =>
    match policy with
    | .present => none
    | .hold => some .near
  | .outside => some .area
  | .undecided => none

/-- Tests 2 to 4 of R115: no area block, the cell-prefix list, the polygon. -/
def State.areaDecision (s : State) (region : Nat) (area : Option AreaBlock) : AreaDecision :=
  match area with
  | none => .inside
  | some (.cells es) => cellTest (s.witnesses region) es
  | some (.polygon vs malformed) =>
    if malformed then .undecided
    else
      match s.usablePosition with
      | none => .undecided
      | some pos => polygonTest pos s.host.settings.nearDistance vs

/-- The decision for an entry's region, class and area block (R115, R116). -/
def State.decideArea (s : State) (region : Nat) (c : AlertClass) (area : Option AreaBlock) : Verdict :=
  if s.host.settings.enabled c then
    let d := s.areaDecision region area
    ⟨⟨d, AreaBlock.mark area⟩, holdFor s.host.settings.nearPolicy d⟩
  else ⟨⟨.undecided, AreaBlock.mark area⟩, some .optedOut⟩

/-! ### Triggers and the re-decision list (R124, R125) -/

/-- A handle joins the re-decision list: a listed handle keeps its place, a stale one of its slot goes first (R125). -/
def listHandle (q : List Handle) (h : Handle) : List Handle :=
  if h ∈ q then q else q.filter (fun g => !decide (g.slot = h.slot)) ++ [h]

/-- A trigger appends the HELD entries that meet its criteria, in slot order (R124, R125). -/
def trigger (p : Entry → Bool) (s : State) : State :=
  let chosen := (s.slotsWhere (fun e => decide (e.state = .held) && p e)).map s.handleOf
  s.setArea { s.area with redecide := chosen.foldl listHandle s.area.redecide }

/-- The area block of an entry's current content. -/
def Entry.areaBlock (e : Entry) : Option AreaBlock :=
  match e.current with
  | none => none
  | some c => c.desc.area

/-- The position trigger selects AREA or NEAR with a polygon (Table 30). -/
def selectedByPosition (e : Entry) : Bool :=
  (decide (e.hold = some .area) || decide (e.hold = some .near)) &&
    match e.areaBlock with
    | some (.polygon _ _) => true
    | some (.cells _) => false
    | none => false

/-- The serving trigger selects AREA with a cell-prefix list (Table 30). -/
def selectedByServing (e : Entry) : Bool :=
  decide (e.hold = some .area) &&
    match e.areaBlock with
    | some (.cells _) => true
    | some (.polygon _ _) => false
    | none => false

/-- The class-enable trigger selects OPTED-OUT of a class turned on; the near-policy trigger selects NEAR when the
policy turns from HOLD to PRESENT; a write that does both makes one selection (R124). -/
def selectedBySettings (old new : Settings) (e : Entry) : Bool :=
  (decide (e.hold = some .optedOut) && !old.enabled e.cls && new.enabled e.cls) ||
  (decide (e.hold = some .near) && decide (old.nearPolicy = .hold) && decide (new.nearPolicy = .present))

/-- The serving trigger (R21, R19, R36, R124). -/
def servingTrigger (s : State) : State := trigger selectedByServing s

/-! ### Working the list (R126, R127) -/

/-- The record of a decision on an entry, the changed flag set if it differs (R116). -/
def recordArea (r : AreaResult) (e : Entry) : Entry :=
  { e with area := some r, changed := e.changed || decide (e.area ≠ some r) }

/-- A held entry comes forward: ACTIVE, without hold reason and resting time, its reminders reset (R101, R127). -/
def presentEntry (e : Entry) : Entry :=
  resetReminders { e with state := .active, hold := none, restingAt := none, changed := true }

/-- A HELD entry stays HELD, with another reason or the same (Table 31). -/
def rehold (h : HoldReason) (e : Entry) : Entry :=
  { e with hold := some h, changed := e.changed || decide (e.hold ≠ some h) }

/-- A re-decision of a HELD entry (R126, R127). -/
def redecideEntry (i : EntrySlot) (e : Entry) (s : State) : State :=
  let v := s.decideArea e.key.region e.cls e.areaBlock
  match v.hold with
  | none => post .newAlert (raiseAlert i (modEntry i (fun e => presentEntry (recordArea v.result e)) s))
  | some h => modEntry i (fun e => rehold h (recordArea v.result e)) s

/-- REDECISION: the head of the list is removed; a stale handle or an entry not HELD is dropped (R126). -/
def execRedecision (s : State) : Host.Outcome State Fault Refusal :=
  .next <|
    match s.area.redecide with
    | [] => s
    | h :: rest =>
      let t := s.setArea { s.area with redecide := rest }
      match t.named h with
      | none => t
      | some e => if e.state = .held then redecideEntry h.slot e t else t

end Sys2Proof.Machine
end

