-- ==== Sys2Proof/Machine/Directory.lean ====
section
/-! DEFINITION. The alert directory (chapter 4): the eviction order, entries leaving, allocation, segments for parts, and
the meanings of EXPIRY and ASSEMBLY_DEADLINE. -/

namespace Sys2Proof.Machine

/-! ### Entries leaving (R75, R80, R83, R85) -/

/-- The revision an entry is retired with: its current revision, or its cancel revision for a tombstone; an ASSEMBLING
entry is not retired (R75, R80, R83). -/
def Entry.retiredRevision (e : Entry) : Option Revision :=
  match e.state with
  | .assembling => none
  | .cancelled => e.cancel.map (·.revision)
  | .active => e.current.map (·.revision)
  | .held => e.current.map (·.revision)
  | .acknowledged => e.current.map (·.revision)

/-- The incoming revision that the entry of a slot loses if it expires now (R83; log 24). -/
def State.discardedAt (s : State) (i : EntrySlot) : Option Discarded :=
  match s.entryAt i with
  | none => none
  | some e => e.incoming.map (fun r => ⟨r.revision, r.partCount, r.parts, s.now⟩)

/-- Retire the entry of a slot, if its state is retired (R80); `d` is the incoming revision its expiry discards. -/
def retireEntry (i : EntrySlot) (d : Option Discarded) (s : State) : State :=
  match s.entryAt i with
  | none => s
  | some e =>
    match e.retiredRevision with
    | none => s
    | some r => retire e.key r d s

/-- An entry leaves its slot: its request goes (R142), its receipt record fails as ENTRY-GONE (R165), its segments are
released (R79), the slot is free and ENTRY-REMOVED is posted (R87). -/
def departEntry (i : EntrySlot) (s : State) : State :=
  let s := entryGone (s.handleOf i) (dropRequest i s)
  post .entryRemoved ((releaseAll i s).putEntry i none)

/-- Eviction of a victim (R75); its next page starts afresh as a miss (R109). -/
def evict (i : EntrySlot) (s : State) : State :=
  countGlobal (fun c => { c with evictions := bump c.evictions }) (departEntry i (retireEntry i none s))

/-- Expiry of an entry (R83). -/
def expireEntry (i : EntrySlot) (s : State) : State := departEntry i (retireEntry i (s.discardedAt i) s)

/-! ### The eviction order (R74, Table 23) -/

/-- Class 2..5: a class-1 entry is never chosen (R74). -/
def evictableClass (c : AlertClass) : Bool := decide (c ≠ .national)

/-- Age of a candidate at step 1: CANCELLED, class 2..5, by resting time. -/
def ageStep1 (e : Entry) : Option Nat :=
  if e.state = .cancelled ∧ evictableClass e.cls = true then some (e.restingAt.getD 0) else none

/-- Age of a candidate at step 2: ACKNOWLEDGED, class 2..5, no receipt QUEUED or OFFERED. -/
def ageStep2 (e : Entry) : Option Nat :=
  if e.state = .acknowledged ∧ evictableClass e.cls = true ∧ e.receipt ≠ .queued ∧ e.receipt ≠ .offered then
    some (e.restingAt.getD 0)
  else none

/-- Age of a candidate at step 3: HELD, class 2..5. -/
def ageStep3 (e : Entry) : Option Nat :=
  if e.state = .held ∧ evictableClass e.cls = true then some (e.restingAt.getD 0) else none

/-- Age of a candidate at step 4: ASSEMBLING with a class number above the page's, by creation. -/
def ageStep4 (page : AlertClass) (e : Entry) : Option Nat :=
  if e.state = .assembling ∧ page.num < e.cls.num then some e.createdAt else none

/-- Of two candidates in slot order, the one of earlier time; at equal time the lower slot (R74). -/
def elder (a : Option (Nat × EntrySlot)) (b : Nat × EntrySlot) : Option (Nat × EntrySlot) :=
  match a with
  | none => some b
  | some a => if b.1 < a.1 then some b else some a

/-- The victim of one step among the slots that may be candidates (R74). -/
def State.victimOf (s : State) (may : EntrySlot → Bool) (age : Entry → Option Nat) : Option EntrySlot :=
  ((entrySlotList.filterMap (fun i =>
      if may i then ((s.entryAt i).bind age).map (fun t => (t, i)) else none)).foldl elder none).map (·.2)

/-- The eviction order: the first step that finds a candidate gives the victim (R74). -/
def State.victim (s : State) (may : EntrySlot → Bool) (page : AlertClass) : Option EntrySlot :=
  [ageStep1, ageStep2, ageStep3, ageStep4 page].findSome? (s.victimOf may)

/-! ### Allocation (R73) -/

/-- The free slot with the lowest number (R73). -/
def State.lowestFreeEntry (s : State) : Option EntrySlot :=
  entrySlotList.find? (fun i => (s.entryAt i).isNone)

/-- The use count of a slot rises modulo 256 as it is allocated (R66, R73). -/
def bumpUse (i : EntrySlot) (s : State) : State :=
  s.setDir { s.dir with useCounts := s.dir.useCounts.set i (s.dir.useCounts[i] + 1#8) }

/-- Allocation gives a slot, a victim evicted if none is free, or fails (R73). -/
def allocate (page : AlertClass) (s : State) : Option (EntrySlot × State) :=
  match s.lowestFreeEntry with
  | some i => some (i, bumpUse i s)
  | none =>
    match s.victim (fun _ => true) page with
    | some v => some (v, bumpUse v (evict v s))
    | none => none

/-- The occupancy reported for DIRECTORY-PEAK as it rises (R63, R186). -/
def reportOccupancy (s : State) : State :=
  countGlobal (fun c => { c with directoryPeak := max c.directoryPeak s.occupancy }) s

/-- A new entry record takes its slot (R73). -/
def placeEntry (i : EntrySlot) (e : Entry) (s : State) : State :=
  reportOccupancy (s.putEntry i (some e))

/-- The link of arrival as the only link seen, and the first link (R72, R107). -/
def LinksSeen.only (l : LinkId) : LinksSeen where
  la := decide (l = .la)
  lb := decide (l = .lb)
  first := l

/-- A link joins the links seen (R107). -/
def LinksSeen.join (x : LinksSeen) (l : LinkId) : LinksSeen where
  la := x.la || decide (l = .la)
  lb := x.lb || decide (l = .lb)
  first := x.first

/-- The record of a new ASSEMBLING entry, as allocation gives it and R72 sets it. -/
def newEntry (p : Page) (g : Governing) (now : Nat) : Entry where
  key := pageKey p
  cls := g.cls
  provisional := g.provisional
  state := .assembling
  hold := none
  createdAt := now
  restingAt := none
  current := none
  incoming := none
  cancel := none
  links := LinksSeen.only p.link
  area := none
  expiry := none
  request := none
  alerted := false
  nextReminder := none
  backlog := 0
  given := 0
  receipt := .idle
  acknowledgedAt := none
  changed := true

/-- The record of a tombstone made on a miss (R72). -/
def newTombstone (p : Page) (g : Governing) (now : Nat) : Entry :=
  { newEntry p g now with
    state := .cancelled
    restingAt := some now
    cancel := some ⟨p.revision, p.carrier⟩
    expiry := some (now + g.defaultValidity * Config.minuteMs) }

/-! ### Segments for parts (R78) -/

/-- A part's text is placed in a free segment for the incoming revision of an entry (R78). -/
def putSegment (i : EntrySlot) (part : Nat) (text : List Byte) (s : State) : State :=
  s.setSegs (s.dir.segs ++ [⟨i, .incoming, part, text⟩])

/-- A segment for a part of the entry in slot `i`: a free one, or one released by a victim that owns a segment and is
not that entry; `none` when none can be had (R78). -/
def takeSegment (i : EntrySlot) (part : Nat) (text : List Byte) (page : AlertClass) (s : State) : Option State :=
  if s.dir.segs.length < Config.textSegments then some (putSegment i part text s)
  else
    match s.victim (fun v => !decide (v = i) && s.ownsSegment v) page with
    | none => none
    | some v => some (putSegment i part text (evict v s))

/-! ### The meanings of the directory's own commands -/

/-- EXPIRY: the expiry of the entry in a slot is reached (R83). -/
def execExpiry (i : EntrySlot) (s : State) : Host.Outcome State Fault Refusal :=
  .next <|
    match s.entryAt i with
    | none => s
    | some e => if e.expiry.any (fun t => decide (t ≤ s.now)) = true then expireEntry i s else s

/-- The incoming revision alone is dropped (R86). -/
def dropIncoming (i : EntrySlot) (s : State) : State :=
  modEntry i (fun e => { e with incoming := none }) (releaseGroup i .incoming s)

/-- ASSEMBLY_DEADLINE: an ASSEMBLING entry is discarded unretired, another drops its incoming revision (R85, R86). -/
def execAssemblyDeadline (i : EntrySlot) (s : State) : Host.Outcome State Fault Refusal :=
  .next <|
    match s.entryAt i with
    | none => s
    | some e =>
      if e.incoming.any (fun r => decide (r.deadline ≤ s.now)) = true then
        if e.state = .assembling then departEntry i s else dropIncoming i s
      else s

end Sys2Proof.Machine
end

