-- ==== Sys2Proof/Machine/Assembler.lean ====
section
/-! DEFINITION. The assembler (chapter 5): a judged page is worked into the directory and leaves with one disposition. -/

namespace Sys2Proof.Machine

/-! ### Completion (R96 to R102) -/

/-- The rules in force taken from the completing page (R90, R96). -/
def Governing.rules (g : Governing) : Rules where
  version := g.version
  rangeIndex := g.rangeIndex
  receiptsAllowed := g.receiptsAllowed
  reminderInterval := g.reminderInterval
  reminderLimit := g.reminderLimit

/-- Class and provisional mark at a completion (R98, Table 25): `former` is the former current content. -/
def classAfter (e : Entry) (g : Governing) : AlertClass × Bool :=
  match e.current with
  | none => (g.cls, g.provisional)
  | some former =>
    if e.provisional then (g.cls, g.provisional)
    else if g.provisional then (e.cls, false)
    else if g.rangeIndex ≠ former.rules.rangeIndex ∨ g.version ≠ former.rules.version then (g.cls, false)
    else (e.cls, false)

/-- The lifetime of a completed revision in ms: its effective validity, or the resolved default (R15, R97). -/
def lifetime (validity default : Nat) : Nat :=
  (if validity = 0 then default else validity) * Config.minuteMs

/-- The new current content (R96). -/
def contentOf (inc : Incoming) (d : Descriptive) (g : Governing) (now : Nat) : Content where
  revision := inc.revision
  partCount := inc.partCount
  desc := d
  completedAt := now
  rules := g.rules

/-- The exchange of the content with expiry, class and mark, and the decision recorded; the state is set next (R96 to
R98, R116). -/
def exchangeContent (c : Content) (g : Governing) (r : AreaResult) (now : Nat) (e : Entry) : Entry :=
  { e with
    current := some c
    incoming := none
    cls := (classAfter e g).1
    provisional := (classAfter e g).2
    expiry := some (now + lifetime c.desc.validity g.defaultValidity)
    area := some r
    changed := true }

/-- A completed entry is held back with a reason; its resting time is the present (R69, R99, R101). -/
def holdEntry (h : HoldReason) (now : Nat) (e : Entry) : Entry :=
  { e with state := .held, hold := some h, restingAt := some now }

/-- The state after a completion, by the state before it and the decision made (R99, R100, R101). Every completion
resets the reminder schedule (R166); DEDUCED (log 25) for the HELD rows of R101, which do not name the reset. A
tombstone holds no incoming revision, so none completes (Table 21). -/
def settleCompletion (i : EntrySlot) (before : EntryState) (v : Verdict) (s : State) : State :=
  match before with
  | .assembling =>
    match v.hold with
    | none => post .newAlert (raiseAlert i (modEntry i presentEntry s))
    | some h => modEntry i (fun e => holdEntry h s.now (resetReminders e)) s
  | .active => post .alertUpdated (retrigger i (modEntry i resetReminders s))
  | .held =>
    match v.hold with
    | none => post .alertUpdated (raiseAlert i (modEntry i presentEntry s))
    | some h => modEntry i (fun e => holdEntry h s.now (resetReminders e)) s
  | .acknowledged =>
    match v.hold with
    | none => post .alertUpdated (raiseAlert i (modEntry i presentEntry s))
    | some h => modEntry i (fun e => holdEntry h s.now (resetReminders e)) s
  | .cancelled => s

/-- The incoming revision of a slot's entry completes under the governing values of the completing page (R96). -/
def complete (i : EntrySlot) (g : Governing) (s : State) : State :=
  match s.entryAt i with
  | none => s
  | some e =>
    match e.incoming with
    | none => s
    | some inc =>
      match inc.part1 with
      | none => s
      | some d =>
        let c := contentOf inc d g s.now
        let v := s.decideArea e.key.region (classAfter e g).1 d.area
        let t := promoteSegs i (releaseGroup i .current s)
        settleCompletion i e.state v (modEntry i (exchangeContent c g v.result s.now) t)

/-- Whether every part 1..count is present (R96). -/
def allPartsPresent (parts : List Nat) (count : Nat) : Bool :=
  (List.range count).all (fun k => parts.contains (k + 1))

/-! ### ISSUE pages (R91 to R95) -/

/-- The incoming revision a page starts (R92). -/
def startedRevision (p : Page) (g : Governing) (now : Nat) : Incoming where
  revision := p.revision
  partCount := p.partCount
  parts := [p.partIndex]
  deadline := now + g.assemblyLimit * 1000
  part1 := if p.partIndex = 1 then some (pageDescriptive p) else none

/-- A new incoming revision is started from the page; `none` when no segment can be had (R92). -/
def startRevision (i : EntrySlot) (p : Page) (g : Governing) (s : State) : Option (State × Disposition) :=
  match takeSegment i p.partIndex p.text g.cls s with
  | none => none
  | some t =>
    let u := modEntry i (fun e => { e with incoming := some (startedRevision p g t.now) }) t
    if p.partCount = 1 then some (complete i g u, .storedDone) else some (u, .storedMore)

/-- The incoming revision with a part joined (R93). -/
def joinPart (p : Page) (inc : Incoming) : Incoming :=
  { inc with
    parts := inc.parts ++ [p.partIndex]
    part1 := if p.partIndex = 1 then some (pageDescriptive p) else inc.part1 }

/-- The result of a page that needed a segment: FULL leaves everything as it was (R76, R92, R93). -/
def orFull (s : State) (r : Option (State × Disposition)) : State × Disposition :=
  match r with
  | none => (s, .full)
  | some x => x

/-- An ISSUE page at the revision under assembly (R93). -/
def storePart (i : EntrySlot) (inc : Incoming) (p : Page) (g : Governing) (s : State) : State × Disposition :=
  if p.partCount ≠ inc.partCount then (s, .conflict)
  else if inc.parts.contains p.partIndex then (s, .havePart)
  else
    orFull s <|
      (takeSegment i p.partIndex p.text g.cls s).map fun t =>
        let joined := joinPart p inc
        let u := modEntry i (fun e => { e with incoming := some joined }) t
        if allPartsPresent joined.parts joined.partCount then (complete i g u, .storedDone) else (u, .storedMore)

/-- A newer ISSUE restarts the incoming revision, whose segments are released first (R94). -/
def restartRevision (i : EntrySlot) (p : Page) (g : Governing) (s : State) : State × Disposition :=
  orFull s (startRevision i p g (dropIncoming i s))

/-- An ISSUE page at an entry that is not CANCELLED, by the tests of Table 24 (R91). -/
def issueAtLive (i : EntrySlot) (e : Entry) (p : Page) (g : Governing) (s : State) : State × Disposition :=
  let current := e.current.map (·.revision)
  match e.incoming with
  | some inc =>
    if p.revision = inc.revision then storePart i inc p g s
    else if sameAs p.revision current then (s, .haveAll)
    else if newer p.revision inc.revision && newerThan p.revision current then restartRevision i p g s
    else (s, .stale)
  | none =>
    if sameAs p.revision current then (s, .haveAll)
    else if newerThan p.revision current then orFull s (startRevision i p g s)
    else (s, .stale)

/-! ### Cancellation and tombstones (R103 to R106) -/

/-- An entry becomes a tombstone (R65, R104). -/
def cancelEntry (p : Page) (g : Governing) (now : Nat) (e : Entry) : Entry :=
  { e with
    state := .cancelled
    hold := none
    current := none
    incoming := none
    cancel := some ⟨p.revision, p.carrier⟩
    area := none
    nextReminder := none
    backlog := 0
    expiry := some (now + g.defaultValidity * Config.minuteMs)
    restingAt := some now
    changed := true }

/-- A cancellation is taken (R104). -/
def takeCancel (i : EntrySlot) (p : Page) (g : Governing) (s : State) : State :=
  let t := releaseAll i (dropRequest i s)
  post .alertCancelled (modEntry i (cancelEntry p g s.now) t)

/-- A CANCEL page at an entry that is not CANCELLED (R103). -/
def cancelAtLive (i : EntrySlot) (e : Entry) (p : Page) (g : Governing) (s : State) : State × Disposition :=
  let current := e.current.map (·.revision)
  let incoming := e.incoming.map (·.revision)
  if sameAs p.revision current || sameAs p.revision incoming then (s, .conflict)
  else if newerThan p.revision current && newerThan p.revision incoming then (takeCancel i p g s, .storedDone)
  else (s, .stale)

/-- A CANCEL page at a tombstone (R105). -/
def cancelAtTombstone (i : EntrySlot) (k : CancelMark) (p : Page) (s : State) : State × Disposition :=
  if p.revision = k.revision then (s, .haveAll)
  else if newer p.revision k.revision then
    (modEntry i (fun e => { e with cancel := some ⟨p.revision, p.carrier⟩, changed := true }) s, .storedDone)
  else (s, .stale)

/-- A tombstone revived into ASSEMBLING (R65, R106). -/
def reviveEntry (g : Governing) (now : Nat) (e : Entry) : Entry :=
  { e with
    state := .assembling
    cancel := none
    expiry := none
    restingAt := none
    createdAt := now
    cls := g.cls
    provisional := g.provisional
    changed := true }

/-- An ISSUE page at a tombstone (R106). -/
def issueAtTombstone (i : EntrySlot) (k : CancelMark) (p : Page) (g : Governing) (s : State) : State × Disposition :=
  if p.revision = k.revision then (s, .conflict)
  else if newer p.revision k.revision then orFull s (startRevision i p g (modEntry i (reviveEntry g s.now) s))
  else (s, .stale)

/-! ### A judged page at the directory (R70 to R72, R89, R107) -/

/-- A link joins an entry's links seen, the changed flag set when the set grows (R107). -/
def joinLink (l : LinkId) (e : Entry) : Entry :=
  { e with links := e.links.join l, changed := e.changed || decide (e.links.join l ≠ e.links) }

/-- A page that hit an entry is worked by the entry's state and its own action (R70, R91, R103, R105, R106). -/
def workHit (i : EntrySlot) (e : Entry) (p : Page) (g : Governing) (s : State) : State × Disposition :=
  match p.action, e.cancel with
  | .issue, none => issueAtLive i e p g s
  | .cancel, none => cancelAtLive i e p g s
  | .issue, some k => issueAtTombstone i k p g s
  | .cancel, some k => cancelAtTombstone i k p s

/-- A page that hit an entry adds its link unless it earned FULL (R107). -/
def joinUnlessFull (i : EntrySlot) (p : Page) (r : State × Disposition) : State × Disposition :=
  if r.2 = .full then r else (modEntry i (joinLink p.link) r.1, r.2)

/-- A page that missed obtains a new entry: an ISSUE an ASSEMBLING one, undone when it gets no segment; a CANCEL a
tombstone (R72). -/
def workMiss (p : Page) (g : Governing) (s : State) : State × Disposition :=
  match allocate g.cls s with
  | none => (s, .full)
  | some (i, t) =>
    match p.action with
    | .issue =>
      let u := placeEntry i (newEntry p g t.now) t
      match startRevision i p g u with
      | none => (u.putEntry i none, .full)
      | some r => r
    | .cancel => (post .alertCancelled (placeEntry i (newTombstone p g t.now) t), .storedDone)

/-- A page that meets the retired record in the moment of the expiry and would have earned HAVE-PART before it: a part
held of the incoming revision discarded there (R84, last bullet, with R93). DEDUCED (log 24): from the next moment on R71
alone answers it. -/
def State.repeatsDiscarded (s : State) (p : Page) (r : Retired) : Bool :=
  r.discarded.any fun d => decide (d.moment = s.now ∧ p.action = .issue ∧ p.revision = d.revision ∧
    p.partCount = d.partCount ∧ p.partIndex ∈ d.parts)

/-- A judged page at the directory: the entry table, then the retired list, then a miss (R70, R71, R72); a page that
reaches an entry together with its expiry and is taken after it, by R84. -/
def workPage (p : Page) (g : Governing) (s : State) : State × Disposition :=
  match s.entryOfKey (pageKey p) with
  | some (i, e) => joinUnlessFull i p (workHit i e p g s)
  | none =>
    match s.retiredRecord (pageKey p) with
    | none => workMiss p g s
    | some r =>
      if newer p.revision r.revision && !s.repeatsDiscarded p r then workMiss p g (unretire (pageKey p) s)
      else (s, .haveAll)

end Sys2Proof.Machine
end

