-- ==== Sys2Proof/Machine/Profiles.lean ====
section
/-! DEFINITION. The profile unit (chapter 3): dispositions of held pages, judging a page under a profile, the cache, the
load queue and the pending page queue, the store, and the meanings of LOAD_COMPLETE and WAIT_DEADLINE_EXPIRY. -/

namespace Sys2Proof.Machine

/-! ### The disposition of a held page (R31, R185) -/

/-- The link counter of a disposition code (Tables 26 and 45). -/
def countCode (d : Disposition) (c : LinkCounters) : LinkCounters :=
  match d with
  | .storedMore => c
  | .storedDone => c
  | .haveAll => { c with duplicates := bump c.duplicates }
  | .havePart => { c with duplicates := bump c.duplicates }
  | .stale => { c with stale := bump c.stale }
  | .ignored => { c with ignored := bump c.ignored }
  | .conflict => { c with conflicts := bump c.conflicts }
  | .full => { c with full := bump c.full }

/-- DIRECTORY-FULL is posted for every page that earns FULL (R76). -/
def postIfFull (d : Disposition) (s : State) : State :=
  if d = .full then post .directoryFull s else s

/-- A slot is freed by its disposition; on an UP link that returns one credit (R27, R31). -/
def freeSlot (l : LinkId) (k : PageSlot) (s : State) : State :=
  modLink l
    (fun x => { x.setSlot k .free with credits := if x.state = .up then x.credits + 1 else x.credits }) s

/-- The disposition of a HELD page is chosen: counted on the link of arrival, queued on an UP link or discarded, and the
slot freed (R31). -/
def dispose (l : LinkId) (k : PageSlot) (d : Disposition) (s : State) : State :=
  match s.heldPage l k with
  | none => s
  | some p =>
    let s := postIfFull d (countLink l (countCode d) s)
    let s :=
      if (s.link l).state = .up then enqueue l (.disposition (pageKey p) p.revision p.partIndex d) s else s
    freeSlot l k s

/-! ### Judging a page (R46, R47, R52) -/

/-- The fallback profile (R47, Table 15); its version is reported as 0. -/
def fallbackProfile : Profile where
  version := 0
  defaultValidity := 60
  assemblyLimit := 120
  reminderInterval := 0
  reminderLimit := 0
  ranges := [⟨0, 1023, .severe, false⟩]

/-- The governing range of a channel with its place 1..24: the first in table order that contains it (R46). -/
def governingRange (rs : List ChannelRange) (c : Nat) : Option (Nat × ChannelRange) :=
  ((rs.zipIdx 1).find? (fun r => decide (r.1.first ≤ c) && decide (c ≤ r.1.last))).map (fun r => (r.2, r.1))

/-- The governing values of Table 18 (R52). -/
def governing (fallback : Bool) (f : Profile) (index : Nat) (r : ChannelRange) : Governing where
  provisional := fallback
  version := f.version
  rangeIndex := index
  cls := r.cls
  receiptsAllowed := r.receipts
  defaultValidity := f.defaultValidity
  assemblyLimit := f.assemblyLimit
  reminderInterval := f.reminderInterval
  reminderLimit := f.reminderLimit

/-- A page judged under the fallback profile is counted and announced (R52, R62). -/
def noteFallback (s : State) : State :=
  post .profileFallback (countGlobal (fun c => { c with fallbackPages := bump c.fallbackPages }) s)

/-- A page is judged under a profile, IGNORED or worked, and disposed of (R52, R31). -/
def judgeUnder (fallback : Bool) (f : Profile) (l : LinkId) (k : PageSlot) (s : State) : State :=
  match s.heldPage l k with
  | none => s
  | some p =>
    match governingRange f.ranges p.channel with
    | none => dispose l k .ignored s
    | some (n, r) =>
      let w := workPage p (governing fallback f n r) s
      dispose l k w.2 w.1

/-- Judge a held page under a VALID profile, or under the fallback profile when there is none (R47, R52). -/
def judge (profile : Option Profile) (l : LinkId) (k : PageSlot) (s : State) : State :=
  match profile with
  | some f => judgeUnder false f l k s
  | none => judgeUnder true fallbackProfile l k (noteFallback s)

/-! ### The cache (R49, R51) -/

/-- The cache entry of a region (R49). -/
def State.cached (s : State) (n : Nat) : Option CacheEntry :=
  s.prof.cache.find? (fun c => decide (c.region = n))

/-- An entry as the most recently used (R49). -/
def mostRecent (q : List CacheEntry) (c : CacheEntry) : List CacheEntry :=
  q.filter (fun x => !decide (x.region = c.region)) ++ [c]

/-- A lookup is a use of the entry it finds (R49). -/
def useCache (c : CacheEntry) (s : State) : State :=
  s.setProf { s.prof with cache := mostRecent s.prof.cache c }

/-- Room for one more entry: the least recently used one leaves a full cache (R51). -/
def makeRoom (q : List CacheEntry) : List CacheEntry :=
  if Config.cacheEntries ≤ q.length then q.drop 1 else q

/-- Installation: in the place of the region's entry, in a free place, or in that of the least recently used (R51). -/
def install (c : CacheEntry) (s : State) : State :=
  let others := s.prof.cache.filter (fun x => !decide (x.region = c.region))
  s.setProf { s.prof with cache := makeRoom others ++ [c] }

/-! ### Loads (R53, R54) -/

/-- The read request of a load: 03h and the 3-byte address 512·n (R194). -/
def readRequest (n : Nat) : List Byte := 0x03#8 :: bytesOf 3 (Config.recordBytes * n)

/-- A load starts whenever the store is OWNED, no load is in flight and a region is queued (R54). -/
def startLoad (s : State) : State :=
  match s.prof.loadQueue with
  | [] => s
  | n :: _ =>
    if s.prof.store = .owned ∧ s.prof.flight = none then
      s.setProf { s.prof with flight := some ⟨n, []⟩, flashSelected := true, pspOut := readRequest n }
    else s

/-- A region joins the load queue at its tail (R53). -/
def appendLoad (n : Nat) (s : State) : State :=
  s.setProf { s.prof with loadQueue := s.prof.loadQueue ++ [n] }

/-- A load of a region is requested: satisfied by its present place, appended, or dropped by a full queue (R53). -/
def requestLoad (n : Nat) (s : State) : State :=
  if s.prof.loadQueue.contains n then s
  else if s.prof.loadQueue.length < Config.loadRegions then startLoad (appendLoad n s)
  else s

/-! ### Handing on a page (R50, R56) -/

/-- A page joins the pending page queue (R56). -/
def parkPage (l : LinkId) (k : PageSlot) (arrival : Nat) (s : State) : State :=
  s.setProf { s.prof with waiting := s.prof.waiting ++ [⟨l, k, arrival + Config.waitMs⟩] }

/-- An accepted page is looked up and judged at once, or waits for its profile (R50, Table 17). -/
def handOn (l : LinkId) (k : PageSlot) (p : Page) (s : State) : State :=
  match s.cached p.region with
  | some c => judge c.profile l k (useCache c s)
  | none =>
    if s.prof.loadQueue.contains p.region ∨ s.prof.loadQueue.length < Config.loadRegions then
      requestLoad p.region (parkPage l k p.arrival s)
    else judge none l k s

/-! ### Subscriptions from the cache (R37, R38) -/

/-- The fallback subscription: channels 0..1023 (R19, R47). -/
def fallbackSubscription : OutFrame := .subscribe [(0, 1023)]

/-- The subscription of a cache entry: the profile's ranges in table order, or the fallback range (R37). -/
def subscriptionOf (profile : Option Profile) : OutFrame :=
  match profile with
  | some f => .subscribe (f.ranges.map (fun r => (r.first, r.last)))
  | none => fallbackSubscription

/-- A link's subscription waiting. -/
def setSubWaiting (v : Option Nat) (l : LinkId) (s : State) : State :=
  modLink l (fun k => { k with subWaiting := v }) s

/-- A load's completion sends the subscription a link in UP waits for (R38). -/
def subscribeIfWaiting (n : Nat) (profile : Option Profile) (l : LinkId) (s : State) : State :=
  if (s.link l).state = .up ∧ (s.link l).subWaiting = some n then
    setSubWaiting none l (enqueue l (subscriptionOf profile) s)
  else s

/-! ### LOAD_COMPLETE (R55) -/

/-- Whether a pending record's page is of a region (R55 step 3). -/
def State.waitsFor (s : State) (n : Nat) (w : WaitingPage) : Bool :=
  (s.heldPage w.link w.slot).any (fun p => decide (p.region = n))

/-- The pending pages of a region leave the queue and are judged in arrival order (R55 step 3). -/
def releaseWaiting (n : Nat) (profile : Option Profile) (s : State) : State :=
  let out := s.prof.waiting.filter (s.waitsFor n)
  let t := s.setProf { s.prof with waiting := s.prof.waiting.filter (fun w => !s.waitsFor n w) }
  out.foldl (fun u w => judge profile w.link w.slot u) t

/-- LOADS is counted, and LOAD-FAILS for an ABSENT entry (R55 step 2). -/
def countLoad (profile : Option Profile) (s : State) : State :=
  countGlobal
    (fun c => { c with
      loads := bump c.loads
      loadFails := if profile.isSome then c.loadFails else bump c.loadFails }) s

/-- The load in flight ends: the region leaves the queue and the flash is deselected (R55 step 1). -/
def endLoad (n : Nat) (s : State) : State :=
  s.setProf { s.prof with loadQueue := s.prof.loadQueue.erase n, flight := none, flashSelected := false }

/-- The steps of a completed load of region `n` whose record is read whole (R55). -/
def completeLoad (n : Nat) (record : List Byte) (s : State) : State :=
  let profile := judgeRecord n record
  let s := countLoad profile (install ⟨n, profile⟩ (endLoad n s))
  let s := releaseWaiting n profile s
  let s := subscribeIfWaiting n profile .lb (subscribeIfWaiting n profile .la s)
  let s := if profile.isSome then s else post .profileFallback s
  startLoad s

/-- LOAD_COMPLETE: the last of the 512 bytes of the record in flight is read (R55, R194). -/
def execLoadComplete (data : List Byte) (s : State) : Host.Outcome State Fault Refusal :=
  .next <|
    match s.prof.flight with
    | none => s
    | some f =>
      if (f.bytes ++ data).length = Config.recordBytes then completeLoad f.region (f.bytes ++ data) s else s

/-- WAIT_DEADLINE_EXPIRY: a pending page goes on under the fallback profile (R57). -/
def execWaitDeadlineExpiry (l : LinkId) (k : PageSlot) (s : State) : Host.Outcome State Fault Refusal :=
  .next <|
    if s.prof.waiting.any (fun w => decide (w.link = l) && decide (w.slot = k) && decide (w.deadline ≤ s.now)) then
      judge none l k
        (s.setProf { s.prof with
          waiting := s.prof.waiting.filter (fun w => !(decide (w.link = l) && decide (w.slot = k))) })
    else s

/-! ### Sharing the store (R58 to R61) -/

/-- A load in flight is abandoned; its region stays at the head (R58). -/
def abandonLoad (s : State) : State :=
  s.setProf { s.prof with flight := none, flashSelected := false }

/-- Every cache entry is removed (R51, R60, R61). -/
def emptyCache (s : State) : State := s.setProf { s.prof with cache := [] }

/-- A link in UP whose serving record names a region has that region requested and waits for it (R38, R60, R61). -/
def requestServing (l : LinkId) (s : State) : State :=
  if (s.link l).state = .up then
    match (s.link l).serving.region with
    | none => s
    | some n => setSubWaiting (some n) l (requestLoad n s)
  else s

/-- The serving regions of the links in UP are requested, LA before LB (R60, R61). -/
def requestServingRegions (s : State) : State := requestServing .lb (requestServing .la s)

end Sys2Proof.Machine
end

