-- ==== Sys2Proof/Machine/Links.lean ====
section
/-! DEFINITION. The modem links (chapter 2): the transitions of a link, faults, and the meanings of the commands that a
modem's bytes, a link's deadlines and its transmitter bring about. -/

namespace Sys2Proof.Machine

/-! ### Transitions of a link (R18 to R23, R32) -/

/-- Entry to UP (R19). -/
def openedLink (k : Link) : Link :=
  { k with
    state := .up
    credits := k.freeCount
    serving := .absent
    subWaiting := none
    outQ :=
      pushFrame (pushFrame (k.outQ.filter (fun f => !f.isHelloRequest)) (.credit k.freeCount)) fallbackSubscription }

/-- A link enters UP: its record is opened, LINK-STATE posted, the serving trigger taken, a receipt offered (R19). -/
def enterUp (l : LinkId) (s : State) : State :=
  offer l (servingTrigger (post .linkState (modLink l openedLink s)))

/-- Before a resync re-enters UP: the output queue is discarded and the outstanding receipt refused, the link counted
as not UP meanwhile (R20, R160, log 14). -/
def suspendLink (l : LinkId) (s : State) : State :=
  refuseOutstanding l (modLink l (fun k => { k with state := .down, outQ := [] }) s)

/-- A well-formed HELLO on a link that hears it (R19, R20). -/
def openLink (l : LinkId) (s : State) : State :=
  if (s.link l).state = .up then enterUp l (suspendLink l s) else enterUp l s

/-- The link record on leaving UP (R21). -/
def closedLink (left : LinkState) (k : Link) : Link :=
  { k with state := left, credits := 0, subWaiting := none, outQ := [] }

/-- A link leaves UP (R21, R160, log 14). -/
def leaveUp (l : LinkId) (left : LinkState) (s : State) : State :=
  servingTrigger (refuseOutstanding l (modLink l (closedLink left) s))

/-- The frame in progress is over: the port hunts again (R24). -/
def endFrame (l : LinkId) (s : State) : State :=
  modLink l (fun k => { k with frame := none }) s

/-- The slot a frame had reserved becomes FREE (R25, R26). -/
def releaseReserved (l : LinkId) (f : FrameProgress) (s : State) : State :=
  match f.slot with
  | none => s
  | some i => modLink l (fun k => k.setSlot i .free) s

/-- The fault record is replaced (R32 step 1). -/
def recordFault (l : LinkId) (kind : FaultKind) (frame : FrameKind) (s : State) : State :=
  modLink l (fun k => { k with fault := some ⟨kind, s.now, frame⟩, frame := none }) s

/-- The quarantine deadline is set (R32 step 3). -/
def startQuarantine (l : LinkId) (s : State) : State :=
  modLink l (fun k => { k with quarantine := some (s.now + Config.quarantineMs) }) s

/-- A fault on a link in UP (R32). -/
def faultLink (l : LinkId) (kind : FaultKind) (frame : FrameKind) (s : State) : State :=
  post .linkFault
    (countLink l (fun c => { c with faults := bump c.faults })
      (startQuarantine l (leaveUp l .faulted (recordFault l kind frame s))))

/-- A link enters SYNC: a HELLO-REQUEST is queued and the port hunts (R23). -/
def syncedLink (k : Link) : Link :=
  { k with state := .sync, quarantine := none, frame := none, outQ := pushFrame k.outQ .helloRequest }

/-- A quarantine ends (R23, R34, R35). -/
def endQuarantine (l : LinkId) (s : State) : State :=
  post .linkState (modLink l syncedLink s)

/-! ### Frames in progress (R24 to R29) -/

/-- The start marker (R189). -/
def startMarker : Byte := 0xA5

/-- A frame that begins now (R24). -/
def newFrame (now : Nat) : FrameProgress where
  firstAt := now
  deadline := now + Config.frameMs
  header := none
  slot := none

/-- A byte on a hunting port (R24): the marker begins a frame; another is skipped in DOWN and SYNC, and faults a link
in UP. -/
def huntByte (l : LinkId) (b : Byte) (s : State) : State :=
  if b = startMarker then modLink l (fun k => { k with frame := some (newFrame s.now) }) s
  else
    match (s.link l).state with
    | .up => faultLink l .malformed .unknown s
    | .down => s
    | .sync => s
    | .faulted => s

/-- FRAME_START: a byte arrives on a hunting link; a FAULTED link discards it (R24, R33). -/
def execFrameStart (l : LinkId) (b : Byte) (s : State) : Host.Outcome State Fault Refusal :=
  .next <|
    if (s.link l).state = .faulted then s
    else
      match (s.link l).frame with
      | some _ => s
      | none => huntByte l b s

/-- The header is kept in the frame in progress (R17). -/
def keepHeader (l : LinkId) (h : FrameHeader) (slot : Option PageSlot) (f : FrameProgress) (s : State) : State :=
  modLink l (fun k => { k with frame := some { f with header := some h, slot := slot } }) s

/-- A PAGE header takes a slot and spends a credit (R28). -/
def reserveSlot (l : LinkId) (i : PageSlot) (s : State) : State :=
  modLink l (fun k => { k.setSlot i .receiving with credits := k.credits - 1 }) s

/-- An overrun is counted beside the fault (R29). -/
def overrunLink (l : LinkId) (s : State) : State :=
  faultLink l .overrun .page (countLink l (fun c => { c with overruns := bump c.overruns }) s)

/-- A header that completes on a link in UP: malformed, an overrun, a reservation, or only kept (R26, R28, R29). -/
def headerUp (l : LinkId) (h : FrameHeader) (f : FrameProgress) (s : State) : State :=
  if lengthInBounds h.kind h.length then
    if h.kind = .page then
      match (s.link l).lowestFree with
      | none => overrunLink l s
      | some i => keepHeader l h (some i) f (reserveSlot l i s)
    else keepHeader l h none f s
  else faultLink l .malformed h.kind s

/-- GOODBYE on a link in UP (R21, R22). -/
def closeLink (l : LinkId) (s : State) : State := post .linkState (leaveUp l .down s)

/-- A frame of body length 0 completes with its second length byte (R189): HELLO and GOODBYE are acted on, another kind
is malformed in UP, and only HELLO is heard in DOWN and SYNC (R18, R19, R22, R23, R26). -/
def emptyFrame (l : LinkId) (kind : FrameKind) (s : State) : State :=
  match (s.link l).state with
  | .up =>
    match kind with
    | .hello => openLink l (endFrame l s)
    | .goodbye => closeLink l (endFrame l s)
    | .page => faultLink l .malformed .page (endFrame l s)
    | .serving => faultLink l .malformed .serving (endFrame l s)
    | .receiptResult => faultLink l .malformed .receiptResult (endFrame l s)
    | .unknown => faultLink l .malformed .unknown (endFrame l s)
  | .down => if kind = .hello then openLink l (endFrame l s) else endFrame l s
  | .sync => if kind = .hello then openLink l (endFrame l s) else endFrame l s
  | .faulted => s

/-- FRAME_HEADER: the header of the frame in progress is complete; on a link that is not UP it is only kept, and a body
length of 0 completes the frame (R26, R28, R29, R189). -/
def execFrameHeader (l : LinkId) (kind : Byte) (len : BitVec 16) (s : State) : Host.Outcome State Fault Refusal :=
  .next <|
    match (s.link l).frame with
    | none => s
    | some f =>
      if f.header.isSome then s
      else if len = 0#16 then emptyFrame l (readFrameKind kind) s
      else
        match (s.link l).state with
        | .up => headerUp l ⟨readFrameKind kind, len.toNat⟩ f s
        | .down => keepHeader l ⟨readFrameKind kind, len.toNat⟩ none f s
        | .sync => keepHeader l ⟨readFrameKind kind, len.toNat⟩ none f s
        | .faulted => s

/-- The frame kind a timeout records: of the header, else of the kind byte if one had been read, else unknown
(R25, log 4). -/
def timeoutKind (f : FrameProgress) (kindRead : Option Byte) : FrameKind :=
  match f.header with
  | some h => h.kind
  | none =>
    match kindRead with
    | some b => readFrameKind b
    | none => .unknown

/-- A frame that timed out: a fault on a link in UP, nothing more than its end in DOWN and SYNC (R25). -/
def timeoutFrame (l : LinkId) (f : FrameProgress) (kindRead : Option Byte) (s : State) : State :=
  match (s.link l).state with
  | .up => faultLink l .timeout (timeoutKind f kindRead) (releaseReserved l f s)
  | .down => endFrame l s
  | .sync => endFrame l s
  | .faulted => s

/-- FRAME_TIMEOUT: the reception deadline expires (R25). -/
def execFrameTimeout (l : LinkId) (kindRead : Option Byte) (s : State) : Host.Outcome State Fault Refusal :=
  .next <|
    match (s.link l).frame with
    | none => s
    | some f => if f.deadline ≤ s.now then timeoutFrame l f kindRead s else s

/-! ### Complete frames (R18, R23, R24) -/

/-- The frame in progress that the last byte of this body completes: its header names the kind and this length; an empty
body's frame ends with the last byte of its header, which this row then brings (R189, log 4); a FAULTED link has none
(R24, R33, log 1). -/
def State.completing (s : State) (l : LinkId) (kind : FrameKind) (body : List Byte) : Option FrameProgress :=
  if (s.link l).state = .faulted then none
  else (s.link l).frame.filter (fun f => decide (f.header = if body = [] then none else some ⟨kind, body.length⟩))

/-- A frame is complete and acted on whole by the link's state: `up` on a link in UP, `other` in DOWN and SYNC; the port
hunts again (R18, R23, R24). -/
def onComplete (l : LinkId) (kind : FrameKind) (body : List Byte) (up : FrameProgress → State → State)
    (other : State → State) (s : State) : State :=
  match s.completing l kind body with
  | none => s
  | some f =>
    if (s.link l).state = .up then up f (endFrame l s) else other (endFrame l s)

/-- HELLO (R18, R19, R20, R23): without fields; another length faults a link in UP and is discarded elsewhere. -/
def execHello (l : LinkId) (body : List Byte) (s : State) : Host.Outcome State Fault Refusal :=
  .next <|
    onComplete l .hello body
      (fun _ t => if body = [] then openLink l t else faultLink l .malformed .hello t)
      (fun t => if body = [] then openLink l t else t) s

/-- GOODBYE (R18, R22). -/
def execGoodbye (l : LinkId) (body : List Byte) (s : State) : Host.Outcome State Fault Refusal :=
  .next <|
    onComplete l .goodbye body
      (fun _ t => if body = [] then closeLink l t else faultLink l .malformed .goodbye t)
      (fun t => t) s

/-- A PAGE is accepted: HELD in its slot, counted, handed on (R30, R15, R16, R8). -/
def takePage (l : LinkId) (i : PageSlot) (p : Page) (s : State) : State :=
  handOn l i p
    (countLink l (fun c => { c with pages := bump c.pages }) (modLink l (fun k => k.setSlot i (.held p)) s))

/-- A complete PAGE body in its RECEIVING slot: accepted, or malformed (R9, R26, R30). -/
def pageInSlot (l : LinkId) (i : PageSlot) (body : List Byte) (s : State) : State :=
  match readPage l i s.now body with
  | none => faultLink l .malformed .page (modLink l (fun k => k.setSlot i .free) s)
  | some p => takePage l i (acceptPage p) s

/-- PAGE (R30). A PAGE frame with a body holds a RECEIVING slot on a link in UP (R28); without one no run arrives here
(log 19). A PAGE frame without a body is malformed at its header (R26). -/
def execPage (l : LinkId) (body : List Byte) (s : State) : Host.Outcome State Fault Refusal :=
  .next <|
    onComplete l .page body
      (fun f t =>
        match f.slot with
        | none => if body = [] then faultLink l .malformed .page t else t
        | some i => if (t.link l).slots[i] = .receiving then pageInSlot l i body t else t)
      (fun t => t) s

/-- Subscription derivation for a new serving region (R37). -/
def deriveSubscription (l : LinkId) (n : Nat) (s : State) : State :=
  let s := setSubWaiting none l s
  match s.cached n with
  | some c => enqueue l (subscriptionOf c.profile) (useCache c s)
  | none => requestLoad n (setSubWaiting (some n) l (enqueue l fallbackSubscription s))

/-- A serving report replaces the record, takes the serving trigger and leads to a subscription when the serving region
changed (R36). -/
def takeServing (l : LinkId) (v : Serving) (s : State) : State :=
  let t := servingTrigger (modLink l (fun k => { k with serving := v }) s)
  match v.region with
  | none => setSubWaiting none l t
  | some n => if (s.link l).serving.region = some n then t else deriveSubscription l n t

/-- SERVING (R36). -/
def execServing (l : LinkId) (body : List Byte) (s : State) : Host.Outcome State Fault Refusal :=
  .next <|
    onComplete l .serving body
      (fun _ t =>
        match readServing body with
        | none => faultLink l .malformed .serving t
        | some v => takeServing l v t)
      (fun t => t) s

/-- A receipt result for an id: settles the outstanding receipt it names, else it is discarded (R40, R159, R160,
R162). -/
def settleResult (l : LinkId) (id : ReceiptId) (sent : Bool) (s : State) : State :=
  if (s.link l).outstanding = some id then
    match s.recordOf id with
    | none => clearOutstanding l s
    | some r => if sent then receiptSent r (clearOutstanding l s) else refuse r (clearOutstanding l s)
  else s

/-- RECEIPT_RESULT (R40). -/
def execReceiptResult (l : LinkId) (body : List Byte) (s : State) : Host.Outcome State Fault Refusal :=
  .next <|
    onComplete l .receiptResult body
      (fun _ t =>
        match readReceiptResult body with
        | none => faultLink l .malformed .receiptResult t
        | some (id, sent) => settleResult l id sent t)
      (fun t => t) s

/-- UNKNOWN_KIND_FRAME_END (R18, R189): in DOWN and SYNC the frame is discarded; on a link in UP its header has faulted
the link already. -/
def execUnknownKindFrameEnd (l : LinkId) (body : List Byte) (s : State) : Host.Outcome State Fault Refusal :=
  .next <|
    onComplete l .unknown body (fun _ t => faultLink l .malformed .unknown t) (fun t => t) s

/-! ### The quarantine deadline and the transmitter -/

/-- QUARANTINE_EXPIRY (R35). -/
def execQuarantineExpiry (l : LinkId) (s : State) : Host.Outcome State Fault Refusal :=
  .next <|
    if (s.link l).state = .faulted ∧ (s.link l).quarantine.any (fun t => decide (t ≤ s.now)) = true then
      endQuarantine l s
    else s

/-- FRAME_SEND: the next frame of the output queue is sent whole (R41, R191). -/
def execFrameSend (l : LinkId) (s : State) : Host.Outcome State Fault Refusal :=
  .next <|
    match (s.link l).outQ with
    | [] => s
    | f :: rest => modLink l (fun k => { k with outQ := rest, txWire := f.encode }) s

end Sys2Proof.Machine
end

