-- ==== Sys2Proof/Machine/HostPort.lean ====
section
/-! DEFINITION. The host command port (chapter 9) and the power-on reset: transactions and their checks, the response
read, and the meaning of every host command. -/

namespace Sys2Proof.Machine

/-! ### Transactions (R171, R173, R192) -/

/-- Status byte of a transaction while no response is pending (R192). -/
def accepting : Byte := 0x3C

/-- Status byte of a transaction while a response is pending (R192). -/
def busy : Byte := 0xC3

/-- The status byte the port shifts out first (R192). -/
def State.status (s : State) : Byte := if s.host.response.isSome then busy else accepting

/-- The bytes of the command frame: what the port had gathered already, then what this row brings (log 10). -/
def State.gathered (s : State) (code : Byte) (bytes : List Byte) : List Byte :=
  match s.host.txn with
  | none => code :: bytes
  | some b => b ++ bytes

/-- A command transaction has ended: nothing is in progress, and MISO carried the status and zeros (R171, R192). -/
def endTransaction (frame : List Byte) (s : State) : State :=
  s.setHost { s.host with txn := none, hcpOut := s.status :: List.replicate (frame.length - 1) 0 }

/-- A response becomes the pending response, so RDY rises (R171). -/
def respond (r : Response) (s : State) : State :=
  s.setHost { s.host with response := some r }

/-- A refused command: a result code and no body (R173). -/
def refusal (c : ResultCode) : Response := ⟨c, []⟩

/-- A command carried out, with its response body (R173). -/
def okWith (body : List Byte) : Response := ⟨.ok, body⟩

/-- Whether code, length and body of a frame are whole and of the one length the command admits (R173 check 2, R192). -/
def framedFor (len : Nat) (frame : List Byte) : Bool :=
  decide (frame.length = 3 + len) && decide (fieldAt frame 1 2 = len)

/-- What a command does once it is taken and framed: its effect and its response. -/
abbrev Answer := State × Response

/-- A command transaction that gathered a frame: BUSY discards it; otherwise it is checked, worked and answered
(R171, R173). -/
def takeFrame (len : Nat) (frame : List Byte) (work : List Byte → State → Answer) (s : State) : State :=
  let t := endTransaction frame s
  if s.host.response.isSome then t
  else if framedFor len frame then
    let a := work (frame.drop 3) t
    respond a.2 a.1
  else respond (refusal .badLength) t

/-- A command transaction of one command code; a row whose code the gathered frame does not begin with has no effect
(log 10). -/
def transact (code : Byte) (len : Nat) (work : List Byte → State → Answer) (bytes : List Byte) (s : State) : State :=
  if (s.gathered code bytes).head? = some code then takeFrame len (s.gathered code bytes) work s else s

/-- BAD_COMMAND: an unknown command code (R173 check 1, R192). -/
def execBadCommand (code : Byte) (bytes : List Byte) (s : State) : Host.Outcome State Fault Refusal :=
  .next <|
    if (s.gathered code bytes).head? = some code ∧ ¬ knownCommandCode code ∧ code ≠ 0xFF then
      let t := endTransaction (s.gathered code bytes) s
      if s.host.response.isSome then t else respond (refusal .badCommand) t
    else s

/-! ### The response read (R172, R192) -/

/-- The bytes shifted out after the status byte when the host clocks out `n`: the response, or the empty form; bytes
beyond the end of a response are free (log 6). -/
def readOut (free n : Nat) : Option Response → List Byte
  | none => List.replicate n 0
  | some r => r.encode.take n ++ freeBytes free (n - r.encode.length)

/-- Whether the last byte of the response has been shifted out (R172). -/
def readWhole (n : Nat) : Option Response → Bool
  | none => false
  | some r => decide (r.encode.length ≤ n)

/-- Free bytes that a read of `n` bytes took (log 6). -/
def readBeyond (n : Nat) : Option Response → Nat
  | none => 0
  | some r => n - r.encode.length

/-- RESPONSE_READ: `n` bytes after the first are clocked out (R172). A transaction in progress leaves no room for
another (log 1). -/
def execResponseRead (n : Nat) (s : State) : Host.Outcome State Fault Refusal :=
  .next <|
    match s.host.txn with
    | some _ => s
    | none =>
      (s.setHost { s.host with
        hcpOut := s.status :: readOut s.freeCtr n s.host.response
        response := if readWhole n s.host.response then none else s.host.response }).setFreeCtr
        (s.freeCtr + readBeyond n s.host.response)

/-! ### Events (R179 to R181) -/

/-- GET-EVENTS (R179). -/
def getEventsWork (_ : List Byte) (s : State) : Answer :=
  (s.setHost { s.host with events := 0#10, wake := false }, okWith (eventBytes s.host.events))

/-- GET_EVENTS. -/
def execGetEvents (bytes : List Byte) (s : State) : Host.Outcome State Fault Refusal :=
  .next (transact 0x01 0 getEventsWork bytes s)

/-- SET-EVENT-MASK (R180). -/
def setEventMaskWork (body : List Byte) (s : State) : Answer :=
  match readEventSet body with
  | none => (s, refusal .badValue)
  | some m => (s.setHost { s.host with mask := m }, okWith [])

/-- SET_EVENT_MASK. -/
def execSetEventMask (bytes : List Byte) (s : State) : Host.Outcome State Fault Refusal :=
  .next (transact 0x02 2 setEventMaskWork bytes s)

/-- SET-WAKE-ENABLE (R181). -/
def setWakeEnableWork (body : List Byte) (s : State) : Answer :=
  match readEventSet body with
  | none => (s, refusal .badValue)
  | some m => (s.setHost { s.host with wakeEn := m }, okWith [])

/-- SET_WAKE_ENABLE. -/
def execSetWakeEnable (bytes : List Byte) (s : State) : Host.Outcome State Fault Refusal :=
  .next (transact 0x03 2 setWakeEnableWork bytes s)

/-! ### Reading the directory (R174 to R176) -/

/-- The body of LIST: a count and handles (R193). -/
def handleList (s : State) (slots : List EntrySlot) : List Byte :=
  byteOf slots.length :: slots.flatMap (fun i => handleBytes (s.handleOf i))

/-- Every changed flag is cleared; a flag that was not set stays so (R174). -/
def clearChanged (s : State) : State :=
  s.setDir { s.dir with entries := s.dir.entries.map (Option.map (fun e => { e with changed := false })) }

/-- LIST (R174). -/
def listWork (body : List Byte) (s : State) : Answer :=
  match readSelector body with
  | none => (s, refusal .badValue)
  | some false => (s, okWith (handleList s (s.slotsWhere (fun _ => true))))
  | some true => (clearChanged s, okWith (handleList s (s.slotsWhere (·.changed))))

/-- LIST. -/
def execList (bytes : List Byte) (s : State) : Host.Outcome State Fault Refusal :=
  .next (transact 0x04 1 listWork bytes s)

/-- The checks on a command that names one entry by handle: range, then currency (R173 checks 3 and 4). -/
def onHandle (body : List Byte) (s : State) (work : Handle → Entry → Answer) : Answer :=
  match readHandle body with
  | none => (s, refusal .badValue)
  | some h =>
    match s.named h with
    | none => (s, refusal .staleHandle)
    | some e => work h e

/-- READ-ENTRY (R175). -/
def readEntryWork (body : List Byte) (s : State) : Answer :=
  onHandle body s fun h e => (s, okWith (entryBytes h s.now e))

/-- READ_ENTRY. -/
def execReadEntry (bytes : List Byte) (s : State) : Host.Outcome State Fault Refusal :=
  .next (transact 0x05 2 readEntryWork bytes s)

/-- The body of READ-TEXT: revision, part, text length, text (R193). -/
def textBytes (c : Content) (part : Nat) (text : List Byte) : List Byte :=
  [revisionByte c.revision, byteOf part, byteOf text.length] ++ text

/-- READ-TEXT (R176). -/
def readTextWork (body : List Byte) (s : State) : Answer :=
  let part := fieldAt body 2 1
  if part = 0 ∨ 8 < part then (s, refusal .badValue)
  else
    onHandle body s fun h e =>
      match e.current with
      | none => (s, refusal .wrongState)
      | some c =>
        if c.partCount < part then (s, refusal .badValue)
        else (s, okWith (textBytes c part ((s.textOf h.slot part).getD [])))

/-- READ_TEXT. -/
def execReadText (bytes : List Byte) (s : State) : Host.Outcome State Fault Refusal :=
  .next (transact 0x06 3 readTextWork bytes s)

/-! ### Acknowledging and silencing (R143, R144, R152, R153) -/

/-- What an acknowledgement does to the entry's own fields (R153 steps 1, 3 and 5). -/
def acknowledgeEntry (now : Nat) (e : Entry) : Entry :=
  { e with
    state := .acknowledged
    hold := none
    acknowledgedAt := some now
    restingAt := some now
    nextReminder := none
    backlog := 0
    changed := true }

/-- An acknowledgement is taken on the entry of a slot (R153). -/
def takeAcknowledgement (i : EntrySlot) (s : State) : State :=
  receiptStep i (dropRequest i (modEntry i (acknowledgeEntry s.now) s))

/-- The receipt state of the entry in a slot (R152). -/
def State.receiptOf (s : State) (i : EntrySlot) : ReceiptState :=
  match s.entryAt i with
  | none => .idle
  | some e => e.receipt

/-- The body of an ACKNOWLEDGE response (R193). -/
def ackBytes (already : Bool) (r : ReceiptState) : List Byte := [flagByte already, r.code]

/-- ACKNOWLEDGE by the entry's state (R152, Table 37). -/
def acknowledgeWork (body : List Byte) (s : State) : Answer :=
  onHandle body s fun h e =>
    match e.state with
    | .active => (takeAcknowledgement h.slot s, okWith (ackBytes false ((takeAcknowledgement h.slot s).receiptOf h.slot)))
    | .held => (takeAcknowledgement h.slot s, okWith (ackBytes false ((takeAcknowledgement h.slot s).receiptOf h.slot)))
    | .acknowledged => (s, okWith (ackBytes true e.receipt))
    | .assembling => (s, refusal .wrongState)
    | .cancelled => (s, refusal .wrongState)

/-- ACKNOWLEDGE. -/
def execAcknowledge (bytes : List Byte) (s : State) : Host.Outcome State Fault Refusal :=
  .next (transact 0x07 2 acknowledgeWork bytes s)

/-- SILENCE (R143, R144). -/
def silenceWork (_ : List Byte) (s : State) : Answer := (silenceAll s, okWith [])

/-- SILENCE. -/
def execSilence (bytes : List Byte) (s : State) : Host.Outcome State Fault Refusal :=
  .next (transact 0x08 0 silenceWork bytes s)

/-! ### Position (R112, R113) -/

/-- SET-POSITION (R112). -/
def setPositionWork (body : List Byte) (s : State) : Answer :=
  match readPosition body s.now with
  | none => (s, refusal .badValue)
  | some p => (trigger selectedByPosition (s.setArea { s.area with position := some p }), okWith [])

/-- SET_POSITION. -/
def execSetPosition (bytes : List Byte) (s : State) : Host.Outcome State Fault Refusal :=
  .next (transact 0x09 12 setPositionWork bytes s)

/-- CLEAR-POSITION (R113). -/
def clearPositionWork (_ : List Byte) (s : State) : Answer :=
  (s.setArea { s.area with position := none }, okWith [])

/-- CLEAR_POSITION. -/
def execClearPosition (bytes : List Byte) (s : State) : Host.Outcome State Fault Refusal :=
  .next (transact 0x0A 0 clearPositionWork bytes s)

/-! ### Settings (R182 to R184) -/

/-- A new settings record is in place and met by the arbiter and the area decision unit (R184). -/
def takeSettings (g : Settings) (s : State) : State :=
  trigger (selectedBySettings s.host.settings g)
    (arbiterMeets s.host.settings (s.setHost { s.host with settings := g }))

/-- WRITE-SETTINGS (R183). -/
def writeSettingsWork (body : List Byte) (s : State) : Answer :=
  match readSettingsRecord body with
  | none => (s, refusal .badValue)
  | some (g, clamped) => (takeSettings g s, okWith (settingsBytes g ++ [flagByte clamped]))

/-- WRITE_SETTINGS. -/
def execWriteSettings (bytes : List Byte) (s : State) : Host.Outcome State Fault Refusal :=
  .next (transact 0x0B 15 writeSettingsWork bytes s)

/-- READ-SETTINGS (R183). -/
def readSettingsWork (_ : List Byte) (s : State) : Answer := (s, okWith (settingsBytes s.host.settings))

/-- READ_SETTINGS. -/
def execReadSettings (bytes : List Byte) (s : State) : Host.Outcome State Fault Refusal :=
  .next (transact 0x0C 0 readSettingsWork bytes s)

/-! ### Links (R34, R42) -/

/-- READ-LINKS: the two groups and the alert clock (R42, R193); an empty fault record's time and frame kind are free
values, 7 for each link (log 7). -/
def readLinksWork (_ : List Byte) (s : State) : Answer :=
  (s.setFreeCtr (s.freeCtr + 14),
    okWith (linkBytes s.freeCtr s.la ++ linkBytes (s.freeCtr + 7) s.lb ++ timeBytes s.now))

/-- READ_LINKS. -/
def execReadLinks (bytes : List Byte) (s : State) : Host.Outcome State Fault Refusal :=
  .next (transact 0x0D 0 readLinksWork bytes s)

/-- CLEAR-LINK-FAULT (R34). -/
def clearLinkFaultWork (body : List Byte) (s : State) : Answer :=
  match readLinkNumber body with
  | none => (s, refusal .badValue)
  | some l => if (s.link l).state = .faulted then (endQuarantine l s, okWith []) else (s, refusal .wrongState)

/-- CLEAR_LINK_FAULT. -/
def execClearLinkFault (bytes : List Byte) (s : State) : Host.Outcome State Fault Refusal :=
  .next (transact 0x0E 1 clearLinkFaultWork bytes s)

/-! ### The profile store (R58, R60, R61) -/

/-- The response body that reports the store state after a command (R177, R193). -/
def storeBody (s : State) : Response := okWith [s.prof.store.code]

/-- A load in flight is abandoned, if there is one (R58, R61). -/
def abandonIfLoading (s : State) : State :=
  match s.prof.flight with
  | none => s
  | some _ => abandonLoad s

/-- Every profile is forgotten and the serving regions asked for again (R61). -/
def flushProfiles (s : State) : State := startLoad (requestServingRegions (abandonIfLoading (emptyCache s)))

/-- FLUSH-PROFILES (R61). -/
def flushProfilesWork (_ : List Byte) (s : State) : Answer := (flushProfiles s, storeBody (flushProfiles s))

/-- FLUSH_PROFILES. -/
def execFlushProfiles (bytes : List Byte) (s : State) : Host.Outcome State Fault Refusal :=
  .next (transact 0x0F 0 flushProfilesWork bytes s)

/-- The host takes the store (R58). -/
def yieldStore (s : State) : State :=
  let t := abandonIfLoading s
  post .storeState (t.setProf { t.prof with store := .yielded, pspDriven := false, flashSelected := false })

/-- YIELD-STORE (R58). -/
def yieldStoreWork (_ : List Byte) (s : State) : Answer :=
  match s.prof.store with
  | .owned => (yieldStore s, storeBody (yieldStore s))
  | .yielded => (s, refusal .wrongState)

/-- YIELD_STORE. -/
def execYieldStore (bytes : List Byte) (s : State) : Host.Outcome State Fault Refusal :=
  .next (transact 0x10 0 yieldStoreWork bytes s)

/-- The PSP pins are driven again, the flash deselected (R60). -/
def drivePins (s : State) : State := s.setProf { s.prof with pspDriven := true, flashSelected := false }

/-- The store is the device's again (R60). -/
def ownStore (s : State) : State := post .storeState (s.setProf { s.prof with store := .owned })

/-- The host gives the store back (R60). -/
def returnStore (s : State) : State := startLoad (ownStore (requestServingRegions (emptyCache (drivePins s))))

/-- RETURN-STORE (R60). -/
def returnStoreWork (_ : List Byte) (s : State) : Answer :=
  match s.prof.store with
  | .owned => (s, refusal .wrongState)
  | .yielded => (returnStore s, storeBody (returnStore s))

/-- RETURN_STORE. -/
def execReturnStore (bytes : List Byte) (s : State) : Host.Outcome State Fault Refusal :=
  .next (transact 0x11 0 returnStoreWork bytes s)

/-! ### Counters (R187) -/

/-- Every counter becomes 0, DIRECTORY-PEAK the present occupancy (R187). -/
def clearCounters (s : State) : State :=
  s.setHost { s.host with
    cntLa := LinkCounters.zero
    cntLb := LinkCounters.zero
    cntG := { GlobalCounters.zero with directoryPeak := s.occupancy } }

/-- The counters as READ-COUNTERS returns them, 46 bytes (R193). -/
def counterBytes (h : HostPort) : List Byte := h.cntLa.bytes ++ h.cntLb.bytes ++ h.cntG.bytes

/-- READ-COUNTERS (R187). -/
def readCountersWork (body : List Byte) (s : State) : Answer :=
  match readFlag (fieldAt body 0 1) with
  | none => (s, refusal .badValue)
  | some clear => (if clear then clearCounters s else s, okWith (counterBytes s.host))

/-- READ_COUNTERS. -/
def execReadCounters (bytes : List Byte) (s : State) : Host.Outcome State Fault Refusal :=
  .next (transact 0x12 1 readCountersWork bytes s)

/-! ### Power-on reset (R170) -/

/-- POWER_ON_RESET: every block takes its reset values and the alert clock restarts at 0; the queue of waiting commands
is outside the device, and the model's free-value counter goes on (log 20). -/
def execPowerOnReset (s : State) : Host.Outcome State Fault Refusal :=
  .next { State.reset with pending := s.pending, freeCtr := s.freeCtr }

end Sys2Proof.Machine
end

