-- ==== Sys2Proof/Machine/Dispatch.lean ====
section
/-! DEFINITION. One arm per command: the meaning each constructor of Instr calls. -/

namespace Sys2Proof.Machine

def exec (i : Instr) (s : State) : Host.Outcome State Fault Refusal :=
  match i with
  | .powerOnReset => Sys2Proof.Machine.execPowerOnReset s
  | .frameStart l b => Sys2Proof.Machine.execFrameStart l b s
  | .frameHeader l kind len => Sys2Proof.Machine.execFrameHeader l kind len s
  | .frameTimeout l kindRead => Sys2Proof.Machine.execFrameTimeout l kindRead s
  | .hello l body => Sys2Proof.Machine.execHello l body s
  | .goodbye l body => Sys2Proof.Machine.execGoodbye l body s
  | .page l body => Sys2Proof.Machine.execPage l body s
  | .serving l body => Sys2Proof.Machine.execServing l body s
  | .receiptResult l body => Sys2Proof.Machine.execReceiptResult l body s
  | .quarantineExpiry l => Sys2Proof.Machine.execQuarantineExpiry l s
  | .frameSend l => Sys2Proof.Machine.execFrameSend l s
  | .loadComplete data => Sys2Proof.Machine.execLoadComplete data s
  | .waitDeadlineExpiry l k => Sys2Proof.Machine.execWaitDeadlineExpiry l k s
  | .expiry j => Sys2Proof.Machine.execExpiry j s
  | .assemblyDeadline j => Sys2Proof.Machine.execAssemblyDeadline j s
  | .redecision => Sys2Proof.Machine.execRedecision s
  | .playEnd => Sys2Proof.Machine.execPlayEnd s
  | .preemption => Sys2Proof.Machine.execPreemption s
  | .yield => Sys2Proof.Machine.execYield s
  | .silencedPlayEnd => Sys2Proof.Machine.execSilencedPlayEnd s
  | .cadenceSegmentEnd => Sys2Proof.Machine.execCadenceSegmentEnd s
  | .reminderDeadline j => Sys2Proof.Machine.execReminderDeadline j s
  | .offerDeadline r => Sys2Proof.Machine.execOfferDeadline r s
  | .responseRead n => Sys2Proof.Machine.execResponseRead n s
  | .badCommand code bytes => Sys2Proof.Machine.execBadCommand code bytes s
  | .getEvents bytes => Sys2Proof.Machine.execGetEvents bytes s
  | .setEventMask bytes => Sys2Proof.Machine.execSetEventMask bytes s
  | .setWakeEnable bytes => Sys2Proof.Machine.execSetWakeEnable bytes s
  | .list bytes => Sys2Proof.Machine.execList bytes s
  | .readEntry bytes => Sys2Proof.Machine.execReadEntry bytes s
  | .readText bytes => Sys2Proof.Machine.execReadText bytes s
  | .acknowledge bytes => Sys2Proof.Machine.execAcknowledge bytes s
  | .silence bytes => Sys2Proof.Machine.execSilence bytes s
  | .setPosition bytes => Sys2Proof.Machine.execSetPosition bytes s
  | .clearPosition bytes => Sys2Proof.Machine.execClearPosition bytes s
  | .writeSettings bytes => Sys2Proof.Machine.execWriteSettings bytes s
  | .readSettings bytes => Sys2Proof.Machine.execReadSettings bytes s
  | .readLinks bytes => Sys2Proof.Machine.execReadLinks bytes s
  | .clearLinkFault bytes => Sys2Proof.Machine.execClearLinkFault bytes s
  | .flushProfiles bytes => Sys2Proof.Machine.execFlushProfiles bytes s
  | .yieldStore bytes => Sys2Proof.Machine.execYieldStore bytes s
  | .returnStore bytes => Sys2Proof.Machine.execReturnStore bytes s
  | .readCounters bytes => Sys2Proof.Machine.execReadCounters bytes s
  | .unknownKindFrameEnd l body => Sys2Proof.Machine.execUnknownKindFrameEnd l body s

end Sys2Proof.Machine
end

