-- ==== Sys2Proof/Machine/Tick.lean ====
section
/-! DEFINITION. What the block does of itself while no command waits (log 2): the events that its own state makes due
are run one by one, and when none is due the alert clock advances by one millisecond with the play in progress. -/

namespace Sys2Proof.Machine

/-- Whether a deadline has been reached (00 Time: a deadline expires when the alert clock reaches it). -/
def State.reached (s : State) (d : Option Nat) : Bool := d.any (fun t => decide (t ≤ s.now))

/-- The timeout of a link's frame in progress (R25); before its header is complete, whether a kind byte had been read
is free (log 4). -/
def State.dueTimeout (s : State) (l : LinkId) : List Instr :=
  match (s.link l).frame with
  | none => []
  | some f =>
    if f.deadline ≤ s.now ∧ (s.link l).state ≠ .faulted then
      [.frameTimeout l (if f.header.isSome then none else Config.freeKindRead s.freeCtr)]
    else []

/-- What a link makes due: a frame timeout, the end of a quarantine, a frame to send (R25, R35, R41). -/
def State.dueOnLink (s : State) (l : LinkId) : List Instr :=
  s.dueTimeout l ++
  (if (s.link l).state = .faulted ∧ s.reached (s.link l).quarantine = true then [.quarantineExpiry l] else []) ++
  (if (s.link l).outQ = [] then [] else [.frameSend l])

/-- The wait deadlines that are reached (R57). -/
def State.dueWaits (s : State) : List Instr :=
  (s.prof.waiting.filter (fun w => decide (w.deadline ≤ s.now))).map (fun w => .waitDeadlineExpiry w.link w.slot)

/-- What the directory makes due: expiries, assembly deadlines and reminder deadlines (R83, R85, R167). -/
def State.dueInDirectory (s : State) : List Instr :=
  (s.slotsWhere (fun e => s.reached e.expiry)).map .expiry ++
  (s.slotsWhere (fun e => s.reached (e.incoming.map (·.deadline)))).map .assemblyDeadline ++
  (s.slotsWhere (fun e => decide (e.state = .active) && s.reached e.nextReminder)).map .reminderDeadline

/-- Work on the re-decision list (R125). -/
def State.dueRedecision (s : State) : List Instr :=
  if s.area.redecide = [] then [] else [.redecision]

/-- The points of the play in progress that are reached (R136), and a yield under the leave of R139 where the device uses
it (log 26). -/
def State.dueInPlay (s : State) : List Instr :=
  match s.playingRequest with
  | none => []
  | some (p, _, r) =>
    (if playEndDue r then [.playEnd] else []) ++
    (if s.preemptionDue p r then [.preemption] else []) ++
    (if s.yieldsNow p r then [.yield] else []) ++
    (if s.silencedEndDue r then [.silencedPlayEnd] else [])

/-- The end of the segment the play is in (R145). -/
def State.dueSegment (s : State) : List Instr :=
  match s.arb.play with
  | none => []
  | some p => if p.segmentNow.2 ≤ p.into then [.cadenceSegmentEnd] else []

/-- The offer deadlines that are reached (R158). -/
def State.dueOffers (s : State) : List Instr :=
  (s.rcpt.queue.filter (fun r => decide (r.state = .offered) && s.reached r.deadline)).map (fun r => .offerDeadline r.id)

/-- Everything that is due at this moment. -/
def State.dueEvents (s : State) : List Instr :=
  s.dueOnLink .la ++ s.dueOnLink .lb ++ s.dueWaits ++ s.dueInDirectory ++ s.dueRedecision ++ s.dueInPlay ++
  s.dueSegment ++ s.dueOffers

/-- One millisecond of play: remaining time down, played total, turn and place in the pattern up (R136). -/
def countPlay (s : State) : State :=
  match s.playingRequest with
  | none => s
  | some (p, _, r) =>
    let t := modEntry p.handle.slot (setRequest (some { r with remaining := r.remaining - 1, played := r.played + 1 })) s
    t.setArb { t.arb with play := some { p with into := p.into + 1, turn := p.turn + 1 } }

/-- The alert clock advances by one millisecond (00 Alert clock). -/
def advanceClock (s : State) : State := { countPlay s with now := s.now + 1 }

/-- A tick: which of several due events is taken first is free (log 3). -/
def tick (s : State) : Host.Outcome State Fault Refusal :=
  match s.dueEvents with
  | [] => .next (advanceClock s)
  | [e] => exec e (s.setFreeCtr (s.freeCtr + 1))
  | e :: es =>
    exec ((e :: es).getD (Config.freeChoice s.freeCtr % (e :: es).length) e) (s.setFreeCtr (s.freeCtr + 1))

end Sys2Proof.Machine
end

