-- ==== Sys2Proof/Machine/Step.lean ====
section
/-! DEFINITION. One step of the block: the command at the front of the queue, or a tick when none waits (log 2). -/

namespace Sys2Proof.Machine

/-- The state with another queue of waiting commands. -/
def State.withPending (s : State) (q : List Instr) : State := { s with pending := q }

/-- Take the command at the front of the queue and run it on the state with the queue's rest; on an empty queue the
block runs what its own clock and lists make due (log 2). -/
def step (s : State) : Host.Outcome State Fault Refusal :=
  match s.pending with
  | [] => tick s
  | c :: rest => exec c (s.withPending rest)

/-- The bytes of a whole host transaction reach the port: their row joins the queue (R192). -/
def State.withTransaction (s : State) (bytes : List Byte) : State :=
  match decodeTransaction bytes with
  | none => s
  | some c => s.withPending (s.pending ++ [c])

/-- The command that a table word spells, put at the front of the queue; no word of this block's table spells one
(log 17), so the state is unchanged. -/
def State.withFetchWord (s : State) (nbits w : Nat) : State :=
  match decodeTableWord nbits w with
  | none => s
  | some c => s.withPending (c :: s.pending)

end Sys2Proof.Machine
end

