-- ==== Sys2Proof/Safety.lean ====
section
/-! DEFINITION. Safety properties of the block's state that the spec states as always true. -/

namespace Sys2Proof.Machine

/-! ### Counters (R187) -/

/-- Every per-link counter lies in 0..65 535. -/
def LinkCounters.bounded (c : LinkCounters) : Prop :=
  c.pages ≤ Config.counterLimit ∧ c.duplicates ≤ Config.counterLimit ∧ c.stale ≤ Config.counterLimit ∧
  c.ignored ≤ Config.counterLimit ∧ c.conflicts ≤ Config.counterLimit ∧ c.full ≤ Config.counterLimit ∧
  c.overruns ≤ Config.counterLimit ∧ c.faults ≤ Config.counterLimit

/-- Every global counter lies in 0..65 535, and DIRECTORY-PEAK in 0..48 (R186). -/
def GlobalCounters.bounded (c : GlobalCounters) : Prop :=
  c.evictions ≤ Config.counterLimit ∧ c.loads ≤ Config.counterLimit ∧ c.loadFails ≤ Config.counterLimit ∧
  c.fallbackPages ≤ Config.counterLimit ∧ c.receiptsSent ≤ Config.counterLimit ∧
  c.receiptsFailed ≤ Config.counterLimit ∧ c.directoryPeak ≤ Config.entrySlots

/-- Every counter of the port lies within its limit (R170, R187). -/
def HostPort.countersBounded (h : HostPort) : Prop :=
  h.cntLa.bounded ∧ h.cntLb.bounded ∧ h.cntG.bounded

/-! ### Links (R17 to R35, R39) -/

/-- The frame in progress and the RECEIVING slots belong together: a slot is RECEIVING exactly when the frame in
progress has reserved it, and only a PAGE header on a link in UP reserves one (R28). -/
def Link.frameSound (k : Link) : Prop :=
  (∀ i : PageSlot, k.slots[i] = .receiving → ∃ f, k.frame = some f ∧ f.slot = some i) ∧
  (∀ f i, k.frame = some f → f.slot = some i →
    k.state = .up ∧ k.slots[i] = .receiving ∧ ∃ n, f.header = some ⟨.page, n⟩)

/-- Credits and occupied slots (R27): never above 6 together, equal to 6 in UP, no credit outside UP. -/
def Link.creditsSound (k : Link) : Prop :=
  k.credits + k.occupied ≤ Config.pageSlots ∧
  (k.state = .up → k.credits + k.occupied = Config.pageSlots) ∧
  (k.state ≠ .up → k.credits = 0)

/-- Outside UP a link waits for no subscription and has no receipt outstanding (R21), and queues at most the
HELLO-REQUEST of its entry to SYNC (R18, R23, R33); a quarantine runs exactly while it is FAULTED, without a frame in
progress (R32, R33). -/
def Link.quietSound (k : Link) : Prop :=
  (k.state ≠ .up → k.subWaiting = none ∧ k.outstanding = none) ∧
  (k.state = .down ∨ k.state = .faulted → k.outQ = []) ∧
  (k.state = .sync → k.outQ = [] ∨ k.outQ = [.helloRequest]) ∧
  (k.state = .faulted ↔ k.quarantine ≠ none) ∧
  (k.state = .faulted → k.frame = none)

/-- What holds of a link record at all times. -/
def Link.sound (k : Link) : Prop := k.frameSound ∧ k.creditsSound ∧ k.quietSound

/-- What holds of both link records at all times. -/
def State.linksSound (s : State) : Prop := ∀ l, (s.link l).sound

/-! ### The profile unit (R48 to R61) -/

/-- The cache (at most 6 entries, no region twice: R49), the load queue (at most 8 distinct regions: R53), the load in
flight (the head of the queue, only while OWNED: R48, R53), and the pins (the flash selected exactly during a load,
the pins driven exactly while OWNED: R54, R58, R60). -/
def ProfileUnit.ordered (p : ProfileUnit) : Prop :=
  p.cache.length ≤ Config.cacheEntries ∧ (p.cache.map (·.region)).Nodup ∧
  p.loadQueue.length ≤ Config.loadRegions ∧ p.loadQueue.Nodup ∧
  (∀ f, p.flight = some f → p.loadQueue.head? = some f.region ∧ p.store = .owned) ∧
  p.flashSelected = p.flight.isSome ∧ (p.pspDriven = true ↔ p.store = .owned)

/-- A load is in flight whenever the store is OWNED and a region is queued (R54). -/
def ProfileUnit.busy (p : ProfileUnit) : Prop :=
  p.store = .owned → p.loadQueue ≠ [] → p.flight ≠ none

/-- Every record of the pending page queue refers to a HELD page whose region is in the load queue, and no two records
to one slot (R53, R56). -/
def State.waitingSound (s : State) : Prop :=
  (∀ w ∈ s.prof.waiting, ∃ p, s.heldPage w.link w.slot = some p ∧ p.region ∈ s.prof.loadQueue) ∧
  (s.prof.waiting.map (fun w => (w.link, w.slot))).Nodup

/-- What holds of the profile unit at all times. -/
def State.profileSound (s : State) : Prop := s.prof.ordered ∧ s.prof.busy ∧ s.waitingSound

/-! ### Directory entries (R65 Table 21, R131, R167) -/

/-- ACTIVE, HELD and ACKNOWLEDGED are the states of an alert with a complete current revision (Table 21). -/
def EntryState.complete : EntryState → Bool
  | .assembling => false
  | .active => true
  | .held => true
  | .acknowledged => true
  | .cancelled => false

/-- HELD, ACKNOWLEDGED and CANCELLED are the states with a resting time (R69, Table 21). -/
def EntryState.resting : EntryState → Bool
  | .assembling => false
  | .active => false
  | .held => true
  | .acknowledged => true
  | .cancelled => true

/-- The fields present in each state are those of Table 21 (R65); a request and a next-reminder deadline only when
ACTIVE (R131, R167); the backlog never above 2 (R167). -/
structure Entry.Shape (e : Entry) : Prop where
  current : e.current.isSome = e.state.complete
  assembling : e.state = .assembling → e.incoming.isSome = true
  cancelled : e.state = .cancelled → e.incoming = none
  cancel : e.cancel.isSome = decide (e.state = .cancelled)
  area : e.area.isSome = e.state.complete
  hold : e.hold.isSome = decide (e.state = .held)
  expiry : e.expiry.isSome = !decide (e.state = .assembling)
  resting : e.restingAt.isSome = e.state.resting
  request : e.request ≠ none → e.state = .active
  reminder : e.nextReminder ≠ none → e.state = .active
  backlog : e.backlog ≤ 2

/-- A condition on every entry of the directory, by its slot. -/
def State.everyEntry (s : State) (Q : EntrySlot → Entry → Prop) : Prop :=
  ∀ i e, s.entryAt i = some e → Q i e

/-- Every entry has the shape of its state. -/
def State.entriesShaped (s : State) : Prop := s.everyEntry (fun _ e => e.Shape)

/-! ### Frames: what a command can change at most -/

/-- A link record without its output queue and outstanding receipt. -/
def Link.core (k : Link) : Link := { k with outQ := [], outstanding := none }

/-- The host port without its events, WAKE and counters. -/
def HostPort.core (h : HostPort) : HostPort :=
  { h with events := 0#10, wake := false, cntLa := LinkCounters.zero, cntLb := LinkCounters.zero, cntG := GlobalCounters.zero }

/-- The frames of an output queue that are no RECEIPT, in their order (R39, R41). -/
def nonReceipts (q : List OutFrame) : List OutFrame := q.filter (fun f => !f.isReceipt)

/-- What directory, receipt and attention work may change: entries, texts, retired list, receipt queue, arbiter and
re-decision list; of a link only the RECEIPT in its output queue and its outstanding receipt, and these only in UP; of
the host port only events (which only grow), WAKE (which only rises, and is high once a wake-enabled kind has joined: R181)
and counters (which stay bounded). -/
structure Work (s t : State) : Prop where
  pending : t.pending = s.pending
  now : t.now = s.now
  freeCtr : t.freeCtr = s.freeCtr
  prof : t.prof = s.prof
  position : t.area.position = s.area.position
  link : ∀ l, (t.link l).core = (s.link l).core
  outQ : ∀ l, (s.link l).state ≠ .up → (t.link l).outQ = (s.link l).outQ
  outstanding : ∀ l, (s.link l).state ≠ .up → (t.link l).outstanding ≠ none → (s.link l).outstanding ≠ none
  port : t.host.core = s.host.core
  events : ∀ k, s.host.events.getLsbD k = true → t.host.events.getLsbD k = true
  wake : s.host.wake = true → t.host.wake = true
  counters : s.host.countersBounded → t.host.countersBounded
  frames : ∀ l, nonReceipts (t.link l).outQ = nonReceipts (s.link l).outQ
  latched : ∀ k, t.host.events.getLsbD k = true → s.host.events.getLsbD k = true ∨
    (s.host.wakeEn.getLsbD k = true → t.host.wake = true)

/-- Queue, clock and free-value counter stand, and of the host port only events (which only grow), WAKE (which only rises,
and is high once a wake-enabled kind has joined: R181) and counters (which stay bounded) may change; the position is
kept. -/
structure Told (s t : State) : Prop where
  pending : t.pending = s.pending
  now : t.now = s.now
  freeCtr : t.freeCtr = s.freeCtr
  position : t.area.position = s.area.position
  port : t.host.core = s.host.core
  events : ∀ k, s.host.events.getLsbD k = true → t.host.events.getLsbD k = true
  wake : s.host.wake = true → t.host.wake = true
  counters : s.host.countersBounded → t.host.countersBounded
  latched : ∀ k, t.host.events.getLsbD k = true → s.host.events.getLsbD k = true ∨
    (s.host.wakeEn.getLsbD k = true → t.host.wake = true)

/-- An entry without its receipt state and changed flag. -/
def Entry.butReceipt (e : Entry) : Entry := { e with receipt := .idle, changed := false }

/-- Every entry but one slot's is as before, apart from receipt states and changed flags. -/
def othersKept (i : EntrySlot) (s t : State) : Prop :=
  ∀ j, j ≠ i → (t.entryAt j).map Entry.butReceipt = (s.entryAt j).map Entry.butReceipt

/-- Every entry is as before, apart from receipt states and changed flags, and so are use counts, texts and the retired
list. -/
def directoryKept (s t : State) : Prop :=
  (∀ j, (t.entryAt j).map Entry.butReceipt = (s.entryAt j).map Entry.butReceipt) ∧
  t.dir.useCounts = s.dir.useCounts ∧ t.dir.segs = s.dir.segs ∧ t.dir.retired = s.dir.retired

/-! ### Offers and refusals of receipts (R157, R160, R161) -/

/-- What the offer of a QUEUED record to its target link leaves, the entry's slot apart: the record OFFERED with its
deadline, every other record as before, its RECEIPT frame queued and its id outstanding (R39, R157). -/
structure OfferedBy (r : ReceiptRecord) (s t : State) : Prop where
  queue : t.rcpt.queue =
    s.rcpt.queue.map (fun x => if x.id = r.id then { x with state := .offered, deadline := some (s.now + 30000) } else x)
  entry : ∀ e, s.named r.handle = some e →
    t.entryAt r.handle.slot = some { e with receipt := .offered, changed := true }
  entries : ∀ j, (j ≠ r.handle.slot ∨ s.named r.handle = none) → t.entryAt j = s.entryAt j
  outstanding : (t.link r.target).outstanding = some r.id

/-- What the refusal of an OFFERED record leaves: it is retargeted once to the other link when that is UP, there offered
when it is the only QUEUED record and the link is free, and QUEUED while the link waits for another result; else it is
settled as FAILED, UNDELIVERED (R157, R160, R161). -/
structure RefusedBy (r : ReceiptRecord) (s t : State) : Prop where
  outstanding : (t.link r.target).outstanding ≠ some r.id
  retargeted : r.attempts = 0 → (s.link r.target.other).state = .up →
    t.rcpt.queue.map (·.id) = s.rcpt.queue.map (·.id) ∧
    ∃ x ∈ t.rcpt.queue, x.id = r.id ∧ x.target = r.target.other ∧ x.attempts = 1 ∧ x.key = r.key ∧
      x.revision = r.revision ∧ x.delay = r.delay ∧ x.handle = r.handle ∧
      (∀ e, s.named r.handle = some e →
        (t.entryAt r.handle.slot).map (·.receipt) = some (if x.state = .offered then .offered else .queued)) ∧
      ((s.link r.target.other).outstanding = none →
        (∀ y ∈ s.rcpt.queue, y.target = r.target.other → y.state ≠ .queued) →
        x.state = .offered ∧ x.deadline = some (s.now + 30000) ∧
        (t.link r.target.other).outstanding = some r.id ∧
        (t.link r.target.other).outQ =
          pushFrame (s.link r.target.other).outQ (.receipt r.id r.key r.revision r.delay)) ∧
      ((s.link r.target.other).outstanding ≠ none → x.state = .queued ∧ x.deadline = none)
  failed : 1 ≤ r.attempts ∨ (s.link r.target.other).state ≠ .up →
    (∀ x ∈ t.rcpt.queue, x.id ≠ r.id) ∧ EventSet.holds t.host.events .receiptDone = true ∧
    t.host.cntG.receiptsFailed = min (s.host.cntG.receiptsFailed + 1) 65535 ∧
    (∀ e, s.named r.handle = some e →
      (t.entryAt r.handle.slot).map (fun x => (x.receipt, x.changed)) = some (.failed .undelivered, true))

/-- What follows at the target link, in UP, of a record that was settled or refused there: of the other records the
oldest QUEUED one that targets the link is offered, the rest stand as before in their places; without such a record
nothing is outstanding there (R39, R157, R159, R161). -/
structure NextOffered (r : ReceiptRecord) (s t : State) : Prop where
  none : (∀ y ∈ s.rcpt.queue, y.id ≠ r.id → y.target = r.target → y.state ≠ .queued) →
    t.rcpt.queue.filter (fun y => decide (y.id ≠ r.id)) = s.rcpt.queue.filter (fun y => decide (y.id ≠ r.id)) ∧
    (t.link r.target).outstanding = .none ∧ (t.link r.target).outQ = (s.link r.target).outQ ∧
    ∀ j, j ≠ r.handle.slot → t.entryAt j = s.entryAt j
  next : ∀ a x b, s.rcpt.queue.filter (fun y => decide (y.id ≠ r.id)) = a ++ x :: b → x.target = r.target →
    x.state = .queued → (∀ y ∈ a, y.target = r.target → y.state ≠ .queued) → (s.rcpt.queue.map (·.id)).Nodup →
    t.rcpt.queue.filter (fun y => decide (y.id ≠ r.id)) =
      a ++ { x with state := .offered, deadline := some (s.now + 30000) } :: b ∧
    (t.link r.target).outstanding = some x.id ∧
    (t.link r.target).outQ = pushFrame (s.link r.target).outQ (.receipt x.id x.key x.revision x.delay) ∧
    (∀ e, s.named x.handle = some e →
      t.entryAt x.handle.slot = some { e with receipt := .offered, changed := true }) ∧
    ∀ j, j ≠ r.handle.slot → j ≠ x.handle.slot → t.entryAt j = s.entryAt j

/-- What the leaving of the entry a handle names does to its receipt record (R165): it is removed and counted as failed; when
it was OFFERED, nothing is outstanding on its link, which in UP is offered its next QUEUED record (R157). -/
structure RecordGone (h : Handle) (s t : State) : Prop where
  absent : (∀ y ∈ s.rcpt.queue, y.handle ≠ h) →
    t.rcpt = s.rcpt ∧ (∀ l, t.link l = s.link l) ∧ (∀ j, j ≠ h.slot → t.entryAt j = s.entryAt j) ∧
    t.host.cntG.receiptsFailed = s.host.cntG.receiptsFailed
  failed : ∀ r ∈ s.rcpt.queue, (∀ y ∈ s.rcpt.queue, y.handle = h ↔ y = r) →
    (∀ y ∈ t.rcpt.queue, y.id ≠ r.id) ∧ t.rcpt.lastId = s.rcpt.lastId ∧
    EventSet.holds t.host.events .receiptDone = true ∧
    t.host.cntG.receiptsFailed = min (s.host.cntG.receiptsFailed + 1) 65535 ∧
    t.link r.target.other = s.link r.target.other
  queued : ∀ r ∈ s.rcpt.queue, (∀ y ∈ s.rcpt.queue, y.handle = h ↔ y = r) → r.state = .queued →
    t.rcpt.queue = s.rcpt.queue.filter (fun y => decide (y.id ≠ r.id)) ∧ t.link r.target = s.link r.target ∧
    ∀ j, j ≠ h.slot → t.entryAt j = s.entryAt j
  offered : ∀ r ∈ s.rcpt.queue, (∀ y ∈ s.rcpt.queue, y.handle = h ↔ y = r) → r.state = .offered →
    (t.link r.target).outstanding ≠ some r.id ∧ ((s.link r.target).state = .up → NextOffered r s t) ∧
    ((s.link r.target).state ≠ .up →
      t.rcpt.queue = s.rcpt.queue.filter (fun y => decide (y.id ≠ r.id)) ∧
      t.link r.target = { s.link r.target with outstanding := .none } ∧ ∀ j, j ≠ h.slot → t.entryAt j = s.entryAt j)

/-- A link in UP without an outstanding receipt has no QUEUED record to be offered, as R157 leaves it. -/
def State.nothingToOffer (s : State) (l : LinkId) : Prop :=
  (s.link l).state = .up → (s.link l).outstanding = none → ∀ y ∈ s.rcpt.queue, y.target = l → y.state ≠ .queued

/-- The receipt outstanding on a link is settled as refused when the link leaves UP or resyncs (R20, R21, R160); that the
link counts as not UP meanwhile is log 14. -/
def OutstandingRefused (l : LinkId) (s t : State) : Prop :=
  ∀ r, (s.link l).outstanding = some r.id → s.recordOf r.id = some r → r.target = l → r.state = .offered →
    (s.rcpt.queue.map (·.id)).Nodup → (∀ x ∈ s.rcpt.queue, x.handle = r.handle → x.id = r.id) → RefusedBy r s t

/-! ### Faults and entry to UP (R19, R20, R32) -/

/-- What a fault on a link in UP leaves, its page slots apart (R32, R21): the link FAULTED with its fault record and
quarantine deadline, its serving record kept, its outstanding receipt refused (log 14), the serving trigger taken,
LINK-FAULT posted, FAULTS counted; the other link but its output queue and outstanding receipt, the profile unit, the
arbiter and the directory but receipts as before. -/
structure FaultedBy (l : LinkId) (kind : FaultKind) (frame : FrameKind) (s t : State) : Prop where
  state : (t.link l).state = .faulted
  fault : (t.link l).fault = some ⟨kind, s.now, frame⟩
  quarantine : (t.link l).quarantine = some (s.now + 60000)
  credits : (t.link l).credits = 0
  subWaiting : (t.link l).subWaiting = none
  outstanding : (t.link l).outstanding = none
  refused : OutstandingRefused l s t
  outQ : (t.link l).outQ = []
  noFrame : (t.link l).frame = none
  serving : (t.link l).serving = (s.link l).serving
  trigger : t.area = (servingTrigger s).area
  posted : EventSet.holds t.host.events .linkFault = true
  counted : (t.host.counters l).faults = min ((s.host.counters l).faults + 1) 65535
  other : (t.link l.other).core = (s.link l.other).core
  profile : t.prof = s.prof
  arbiter : t.arb = s.arb
  directory : directoryKept s t
  told : Told s t

/-- What entry to UP leaves (R19, R20), receipts apart: the credits of the FREE slots, an absent serving record, the
serving trigger taken, LINK-STATE posted; page slots and fault record, the other link but its output queue and
outstanding receipt, the profile unit, the arbiter and the directory but receipts as before. -/
structure OpenedBy (l : LinkId) (s t : State) : Prop where
  state : (t.link l).state = .up
  credits : (t.link l).credits = (s.link l).freeCount
  serving : (t.link l).serving = .absent
  subWaiting : (t.link l).subWaiting = none
  noFrame : (t.link l).frame = none
  slots : (t.link l).slots = (s.link l).slots
  fault : (t.link l).fault = (s.link l).fault
  trigger : t.area = (servingTrigger s).area
  posted : EventSet.holds t.host.events .linkState = true
  other : (t.link l.other).core = (s.link l.other).core
  profile : t.prof = s.prof
  arbiter : t.arb = s.arb
  directory : directoryKept s t
  told : Told s t

/-! ### The arrival of a host command (R171, R192) -/

/-- No transaction in progress and no response pending. -/
def State.portIdle (s : State) : Prop := s.host.txn = none ∧ s.host.response = none

/-- What a command transaction sends after the code: the body length and the body. -/
def framed (body : List Byte) : List Byte := bytesOf 2 body.length ++ body

/-- The state after a command transaction that left only the status byte and zeros on MISO (R171, R192). -/
def State.shifted (status : Byte) (n : Nat) (s : State) : State :=
  s.setHost { s.host with hcpOut := status :: List.replicate n 0#8 }

/-- The state in which a command of `n` body bytes works on an idle port: MISO carried ACCEPTING and zeros. -/
def State.taken (n : Nat) (s : State) : State :=
  s.shifted 0x3C#8 (n + 2)

/-- The pending response is set, so RDY is high. -/
def State.answered (r : Response) (s : State) : State := s.setHost { s.host with response := some r }

/-! ### Selection (R134, R135) -/

/-- How far a slot lies after a pointer in search order, the pointer's own slot last (R134). -/
def searchDistance (p i : EntrySlot) : Nat := (i.val + 47 - p.val) % 48

/-- What selection leaves, made on the requests of `t` with the pointers of `s`, each level searched from its `start`: the
play chosen is the request of a current entry at the highest level of all requests, of that level the first in search order,
at the start of its pattern and turn; its slot is the pointer of its level, the other pointers stand. Without a play no entry
holds a request, and every pointer stands. -/
def State.selectsFrom (s : State) (start : Level → EntrySlot) (t : State) : Prop :=
  match t.arb.play with
  | none => t.arb.pointers = s.arb.pointers ∧ ∀ i e, t.entryAt i = some e → e.request = none
  | some q =>
    q.handle = t.handleOf q.handle.slot ∧ q.segment = 0 ∧ q.into = 0 ∧ q.turn = 0 ∧
    ∃ e r, t.entryAt q.handle.slot = some e ∧ e.request = some r ∧ q.pattern = patternOf r.kind e.cls ∧
      t.arb.pointers = s.arb.pointers.set r.level.index q.handle.slot ∧ t.pointer r.level = q.handle.slot ∧
      (∀ i x y, t.entryAt i = some x → x.request = some y → r.level.rank ≤ y.level.rank) ∧
      ∀ i x y, t.entryAt i = some x → x.request = some y → y.level = r.level →
        searchDistance (start r.level) q.handle.slot ≤ searchDistance (start r.level) i

/-- What selection leaves, every level searched from its round-robin pointer before the command (R134). -/
def State.selects (s t : State) : Prop := s.selectsFrom s.pointer t

/-- Where a yielding play has its level searched from: after its own slot (R138, log 12). -/
def State.yieldStart (s : State) (p : Play) (r : Request) (lv : Level) : EntrySlot :=
  if lv = r.level then p.handle.slot else s.pointer lv

/-! ### Load requests (R53, R60, R61) -/

/-- The load queue after a request for a region. -/
def requested (q : List Nat) (n : Nat) : List Nat := if q.contains n ∨ 8 ≤ q.length then q else q ++ [n]

/-- The serving regions of the links in UP, LA before LB. -/
def State.servingRegions (s : State) : List Nat :=
  [LinkId.la, LinkId.lb].filterMap (fun l => if (s.link l).state = .up then (s.link l).serving.region else none)

/-- The load of a region has just started: in flight from its first byte, the flash selected, and the read request sent,
03h and the 3-byte address 512·n (R54, R194). -/
def ProfileUnit.reads (q : ProfileUnit) (n : Nat) : Prop :=
  q.flight = some ⟨n, []⟩ ∧ q.flashSelected = true ∧ q.pspOut = 0x03#8 :: bytesOf 3 (512 * n)

/-- What the request for a region does to the load in flight: a region that joins the queue of an OWNED store without a load
starts the load of the queue's head; else flight, flash and request stand (R53, R54). -/
structure LoadRequested (n : Nat) (p q : ProfileUnit) : Prop where
  starts : p.loadQueue.contains n = false → p.loadQueue.length < 8 → p.store = .owned → p.flight = none →
    ∀ h, (p.loadQueue ++ [n]).head? = some h → q.reads h
  stays : p.loadQueue.contains n = true ∨ 8 ≤ p.loadQueue.length ∨ p.store ≠ .owned ∨ p.flight ≠ none →
    q.flight = p.flight ∧ q.flashSelected = p.flashSelected ∧ q.pspOut = p.pspOut

/-- With no load left in flight the head of the queue starts while the store is OWNED; else nothing is in flight, the flash
is deselected and no request is sent (R54, R194). -/
structure HeadStarts (p q : ProfileUnit) : Prop where
  starts : ∀ n, q.store = .owned → q.loadQueue.head? = some n → q.reads n
  idles : q.store ≠ .owned ∨ q.loadQueue = [] → q.flight = none ∧ q.flashSelected = false ∧ q.pspOut = p.pspOut

/-- The load queue's head is in flight from its first byte (R54). -/
def headLoad (q : List Nat) : Option Load := q.head?.map (fun n => ⟨n, []⟩)

/-- Links and blocks but the profile unit and the host port are as before, the subscriptions waiting of the links in UP
that name a region apart: each waits for its region (R38, R60, R61). -/
def servingAwaited (s t : State) : Prop :=
  (∀ l n, (s.link l).state = .up → (s.link l).serving.region = some n →
    t.link l = { s.link l with subWaiting := some n }) ∧
  (∀ l, (s.link l).state ≠ .up ∨ (s.link l).serving.region = none → t.link l = s.link l) ∧
  t.dir = s.dir ∧ t.area = s.area ∧ t.arb = s.arb ∧ t.rcpt = s.rcpt ∧ t.pending = s.pending ∧ t.now = s.now ∧
  t.freeCtr = s.freeCtr

/-! ### The host's commands (Tables 42 and 50) -/

/-- Code, body length and sent bytes of a host command with a known code. -/
def hostFrame : Instr → Option (Byte × Nat × List Byte)
  | .getEvents b => some (0x01, 0, b)
  | .setEventMask b => some (0x02, 2, b)
  | .setWakeEnable b => some (0x03, 2, b)
  | .list b => some (0x04, 1, b)
  | .readEntry b => some (0x05, 2, b)
  | .readText b => some (0x06, 3, b)
  | .acknowledge b => some (0x07, 2, b)
  | .silence b => some (0x08, 0, b)
  | .setPosition b => some (0x09, 12, b)
  | .clearPosition b => some (0x0A, 0, b)
  | .writeSettings b => some (0x0B, 15, b)
  | .readSettings b => some (0x0C, 0, b)
  | .readLinks b => some (0x0D, 0, b)
  | .clearLinkFault b => some (0x0E, 1, b)
  | .flushProfiles b => some (0x0F, 0, b)
  | .yieldStore b => some (0x10, 0, b)
  | .returnStore b => some (0x11, 0, b)
  | .readCounters b => some (0x12, 1, b)
  | .powerOnReset => none
  | .frameStart _ _ => none
  | .frameHeader _ _ _ => none
  | .frameTimeout _ _ => none
  | .hello _ _ => none
  | .goodbye _ _ => none
  | .page _ _ => none
  | .serving _ _ => none
  | .receiptResult _ _ => none
  | .quarantineExpiry _ => none
  | .frameSend _ => none
  | .loadComplete _ => none
  | .waitDeadlineExpiry _ _ => none
  | .expiry _ => none
  | .assemblyDeadline _ => none
  | .redecision => none
  | .playEnd => none
  | .preemption => none
  | .yield => none
  | .silencedPlayEnd => none
  | .cadenceSegmentEnd => none
  | .reminderDeadline _ => none
  | .offerDeadline _ => none
  | .responseRead _ => none
  | .badCommand _ _ => none
  | .unknownKindFrameEnd _ _ => none

/-- A row of the host or of the reset pin; every other row is a modem's or the device's own. -/
def fromHost (c : Instr) : Prop :=
  hostFrame c ≠ none ∨ c = .powerOnReset ∨ (∃ n, c = .responseRead n) ∨ ∃ code bytes, c = .badCommand code bytes

/-! ### The end of a frame (R24, R26) -/

/-- The command that ends a frame of a kind. -/
def frameEnd (kind : FrameKind) (l : LinkId) (body : List Byte) : Instr :=
  match kind with
  | .hello => .hello l body
  | .goodbye => .goodbye l body
  | .page => .page l body
  | .serving => .serving l body
  | .receiptResult => .receiptResult l body
  | .unknown => .unknownKindFrameEnd l body

/-- The frame in progress on a link has this kind and body length; that of a frame without body ends with the last byte
of its header, so no complete header is in progress before it (R189, log 4). -/
def State.receives (s : State) (l : LinkId) (kind : FrameKind) (len : Nat) : Prop :=
  ∃ f, (s.link l).frame = some f ∧ f.header = if len = 0 then none else some ⟨kind, len⟩

/-! ### A page judged (R15, R30, R31, R46, R47, R52, R76, R185) -/

/-- The port with other counters of one link. -/
def HostPort.withCounters (h : HostPort) (l : LinkId) (c : LinkCounters) : HostPort :=
  match l with
  | .la => { h with cntLa := c }
  | .lb => { h with cntLb := c }

/-- A link's counters after a disposition of a code: STORED-MORE and STORED-DONE count nowhere (R185, Table 45). -/
def countersAfter (d : Disposition) (c : LinkCounters) : LinkCounters :=
  match d with
  | .storedMore => c
  | .storedDone => c
  | .haveAll => { c with duplicates := min (c.duplicates + 1) 65535 }
  | .havePart => { c with duplicates := min (c.duplicates + 1) 65535 }
  | .stale => { c with stale := min (c.stale + 1) 65535 }
  | .ignored => { c with ignored := min (c.ignored + 1) 65535 }
  | .conflict => { c with conflicts := min (c.conflicts + 1) 65535 }
  | .full => { c with full := min (c.full + 1) 65535 }

/-- An accepted page in its slot, its frame over, PAGES counted (R30). -/
def State.accepted (s : State) (l : LinkId) (i : PageSlot) (p : Page) : State :=
  (s.setLink l { s.link l with frame := none, slots := (s.link l).slots.set i (.held p) }).setHost
    (s.host.withCounters l { s.host.counters l with pages := min ((s.host.counters l).pages + 1) 65535 })

/-- A page judged under the fallback profile is counted and announced (R52). -/
def State.fallbackNoted (s : State) : State :=
  post .profileFallback (s.setHost { s.host with
    cntG := { s.host.cntG with fallbackPages := min (s.host.cntG.fallbackPages + 1) 65535 } })

/-- The work of a page judged under its region's profile, or under the fallback profile of Table 15 where there is none,
with the disposition it earns: IGNORED in no range, else the directory's under the governing values (R46, R47, R52). -/
def judgedWork (profile : Option Profile) (p : Page) (s : State) : State × Disposition :=
  match profile with
  | some f =>
    match governingRange f.ranges p.channel with
    | none => (s, .ignored)
    | some (n, r) =>
      workPage p ⟨false, f.version, n, r.cls, r.receipts, f.defaultValidity, f.assemblyLimit, f.reminderInterval,
        f.reminderLimit⟩ s
  | none =>
    if p.channel ≤ 1023 then workPage p ⟨true, 0, 1, .severe, false, 60, 120, 0, 0⟩ s.fallbackNoted
    else (s.fallbackNoted, .ignored)

/-- What a disposition leaves: the page's slot FREE, on a link in UP one credit back and the DISPOSITION at the queue's
tail, its code counted, DIRECTORY-FULL posted for FULL (R31, R76, R185). -/
def State.disposed (s : State) (l : LinkId) (k : PageSlot) (p : Page) (d : Disposition) : State :=
  let t := (s.setLink l { s.link l with
      slots := (s.link l).slots.set k .free
      credits := if (s.link l).state = .up then (s.link l).credits + 1 else (s.link l).credits
      outQ := if (s.link l).state = .up then
        (s.link l).outQ ++ [.disposition (pageKey p) p.revision p.partIndex d] else (s.link l).outQ }).setHost
    (s.host.withCounters l (countersAfter d (s.host.counters l)))
  if d = .full then post .directoryFull t else t

/-- A HELD page judged, worked and disposed of. -/
def State.judgedPage (s : State) (profile : Option Profile) (l : LinkId) (k : PageSlot) (p : Page) : State :=
  (judgedWork profile p s).1.disposed l k p (judgedWork profile p s).2

/-- The HELD pages of pending records judged in their order (R55). -/
def State.judgedInOrder (s : State) (profile : Option Profile) (ws : List WaitingPage) : State :=
  ws.foldl (fun u w =>
    match u.heldPage w.link w.slot with
    | none => u
    | some p => u.judgedPage profile w.link w.slot p) s

/-! ### The eviction order (R74, Table 23) -/

/-- The step of Table 23 at which an entry is a candidate for the room a page of a class needs, with the time that orders
the candidates of that step. -/
def Entry.candidateFor (page : AlertClass) (e : Entry) : Option (Nat × Nat) :=
  match e.state with
  | .cancelled => if e.cls = .national then none else some (1, e.restingAt.getD 0)
  | .acknowledged =>
    if e.cls = .national ∨ e.receipt = .queued ∨ e.receipt = .offered then none else some (2, e.restingAt.getD 0)
  | .held => if e.cls = .national then none else some (3, e.restingAt.getD 0)
  | .assembling => if page.num < e.cls.num then some (4, e.createdAt) else none
  | .active => none

/-- What the eviction of the entry in a slot leaves beside the slot itself: it is retired unless ASSEMBLING, its segments
are released, ENTRY-REMOVED is posted, EVICTIONS counted, other entries keep all but receipts (R75, R79, R80). -/
structure EvictedFor (v : EntrySlot) (e : Entry) (s t : State) : Prop where
  retired : t.dir.retired =
    match (if e.state = .assembling then none else if e.state = .cancelled then e.cancel.map (·.revision)
      else e.current.map (·.revision)) with
    | none => s.dir.retired
    | some r => (if 64 ≤ s.dir.retired.length then s.dir.retired.drop 1 else s.dir.retired) ++ [⟨e.key, r, none⟩]
  removed : EventSet.holds t.host.events .entryRemoved = true
  counted : t.host.cntG.evictions = min (s.host.cntG.evictions + 1) 65535
  work : Work s t

/-- What the eviction alone of the entry in a slot leaves, before the page it made room for is stored: beside EvictedFor the
slot free, its segments released, and its receipt record failed (R75, R165). -/
structure Evicted (v : EntrySlot) (e : Entry) (s t : State) : Prop extends EvictedFor v e s t where
  free : t.entryAt v = none
  others : othersKept v s t
  useCounts : t.dir.useCounts = s.dir.useCounts
  segs : t.dir.segs = s.dir.segs.filter (fun y => !decide (y.slot = v))
  record : RecordGone (s.handleOf v) s t

/-- The entry that an ISSUE page of no known identity begins, before its first part is stored (R72, R73). -/
def begunEntry (p : Page) (g : Governing) (now : Nat) : Entry where
  key := pageKey p
  cls := g.cls
  provisional := g.provisional
  state := .assembling
  hold := none
  createdAt := now
  restingAt := none
  current := none
  incoming := none
  cancel := none
  links := ⟨decide (p.link = .la), decide (p.link = .lb), p.link⟩
  area := none
  expiry := none
  request := none
  alerted := false
  nextReminder := none
  backlog := 0
  given := 0
  receipt := .idle
  acknowledgedAt := none
  changed := true

/-- A slot allocated: its use count one higher modulo 256, and the risen occupancy reported for DIRECTORY-PEAK (R73). -/
def State.allocated (s : State) (i : EntrySlot) : State :=
  (s.setDir { s.dir with useCounts := s.dir.useCounts.set i (s.dir.useCounts[i] + 1#8) }).setHost { s.host with
    cntG := { s.host.cntG with directoryPeak := max s.host.cntG.directoryPeak (s.occupancy + 1) } }

/-! ### Completion of a revision (R96 to R102) -/

/-- A fresh ALERT request (R132). -/
def freshAlert (s : State) (c : AlertClass) : Request := ⟨.alert, .cls c, s.host.settings.attentionLength * 1000, 0, false⟩

/-- Class and provisional mark after a completion, by Table 25 (R98). -/
def classByTable25 (e : Entry) (g : Governing) : AlertClass × Bool :=
  match e.current with
  | none => (g.cls, g.provisional)
  | some c =>
    if e.provisional = true then (g.cls, g.provisional)
    else if g.provisional = true then (e.cls, false)
    else if g.rangeIndex = c.rules.rangeIndex ∧ g.version = c.rules.version then (e.cls, false)
    else (g.cls, false)

/-- The entry after the completion of a revision, its state, hold reason, resting time and request apart (R96, R97, R98,
R100, R102, R107, R116, R166). -/
def completedEntry (p : Page) (g : Governing) (d : Descriptive) (s : State) (e : Entry) : Entry :=
  { e with
    cls := (classByTable25 e g).1
    provisional := (classByTable25 e g).2
    current := some ⟨p.revision, p.partCount, d, s.now,
      ⟨g.version, g.rangeIndex, g.receiptsAllowed, g.reminderInterval, g.reminderLimit⟩⟩
    incoming := none
    links := e.links.join p.link
    area := some (s.decideArea e.key.region (classByTable25 e g).1 d.area).result
    expiry := some (s.now + (if d.validity = 0 then g.defaultValidity else d.validity) * 60000)
    nextReminder := none
    backlog := 0
    given := 0
    changed := true }

/-- What the completion of a revision of the entry `e` in slot `i` leaves: the content exchanged (R96), then by the state
before it the entry presented, updated or held back, with its request and event (R99, R100, R101, R140); the reminder
schedule of a HELD result is log 25. `segs` are the segments with the last part's text placed. -/
structure CompletedBy (i : EntrySlot) (e : Entry) (p : Page) (g : Governing) (d : Descriptive) (segs : List Segment)
    (s t : State) : Prop where
  presented : e.state ≠ .active → (s.decideArea e.key.region (classByTable25 e g).1 d.area).hold = none →
    t.entryAt i = some { completedEntry p g d s e with
      state := .active, hold := none, restingAt := none, request := some (freshAlert s (classByTable25 e g).1) } ∧
    t.host.events = (post (if e.state = .assembling then .newAlert else .alertUpdated) s).host.events ∧
    (s.arb.play ≠ none → t.arb = s.arb) ∧ (s.arb.play = none → s.selects t)
  heldBack : e.state ≠ .active → ∀ h, (s.decideArea e.key.region (classByTable25 e g).1 d.area).hold = some h →
    t.entryAt i = some { completedEntry p g d s e with state := .held, hold := some h, restingAt := some s.now } ∧
    t.host.events = s.host.events ∧ t.arb = s.arb
  updated : e.state = .active →
    t.entryAt i = some { completedEntry p g d s e with request := some (freshAlert s (classByTable25 e g).1) } ∧
    t.host.events = (post .alertUpdated s).host.events ∧
    (e.request = none → (s.arb.play ≠ none → t.arb = s.arb) ∧ (s.arb.play = none → s.selects t)) ∧
    (e.request ≠ none → s.playsAt i = false → t.arb = s.arb) ∧
    (∀ q, e.request ≠ none → s.arb.play = some q → s.playsAt i = true →
      t.arb = { s.arb with
        play := if q.pattern = patternOf .alert (classByTable25 e g).1 then some { q with turn := 0 }
          else some { q with pattern := patternOf .alert (classByTable25 e g).1, segment := 0, into := 0, turn := 0 } })
  texts : t.dir.segs = (segs.filter (fun x => !(decide (x.slot = i) && decide (x.group = .current)))).map
    (fun x => if x.slot = i then { x with group := .current } else x)
  others : ∀ j, j ≠ i → t.entryAt j = s.entryAt j
  useCounts : t.dir.useCounts = s.dir.useCounts
  retired : t.dir.retired = s.dir.retired
  receipts : t.rcpt = s.rcpt
  area : t.area = s.area
  work : Work s t

/-! ### Layouts: the fields in order, each by its width in bytes and its value (R188, R193, Table 51) -/

/-- The bytes of a layout. -/
def laidOut (fields : List (Nat × Nat)) : List Byte := fields.flatMap (fun f => bytesOf f.1 f.2)

/-- A yes or no as a number. -/
def yesNo (b : Bool) : Nat := if b then 1 else 0

/-- An identity key; a scope that the reach leaves without a value is zero (R191, Table 49). -/
def keyLayout (k : Key) : List (Nat × Nat) :=
  [(2, k.region), (2, k.channel), (2, k.alertNo), (1, k.reach.code.toNat), (4, k.scope.getD 0)]

/-- The settings record (Table 51); the class-1 enable is reported as 1 (R192). -/
def settingsLayout (g : Settings) : List (Nat × Nat) :=
  [(1, 1), (1, yesNo g.enable2), (1, yesNo g.enable3), (1, yesNo g.enable4), (1, yesNo g.enable5),
    (1, yesNo (decide (g.nearPolicy = .hold))), (2, g.nearDistance), (2, g.staleLimit), (1, g.attentionLength),
    (1, g.minimumPlay), (1, g.maximumPlay), (1, yesNo g.toneEnable), (1, yesNo g.vibrationEnable)]

/-- The serving record in READ-LINKS: kind, network tag, serving region, cell tag, district (R193). -/
def servingLayout : Serving → List (Nat × Nat)
  | .absent => [(1, 0), (4, 0), (2, 0), (4, 0), (2, 0)]
  | .noService => [(1, 1), (4, 0), (2, 0), (4, 0), (2, 0)]
  | .service network region cell district => [(1, 2), (4, network.toNat), (2, region), (4, cell.toNat), (2, district)]

/-- A link's counters in the order of Table 45. -/
def linkCounterLayout (c : LinkCounters) : List (Nat × Nat) :=
  [(2, c.pages), (2, c.duplicates), (2, c.stale), (2, c.ignored), (2, c.conflicts), (2, c.full), (2, c.overruns),
    (2, c.faults)]

/-- The counters of READ-COUNTERS: LA's, LB's, then the global ones in the order of Table 46 (R193). -/
def counterLayout (h : HostPort) : List (Nat × Nat) :=
  linkCounterLayout h.cntLa ++ linkCounterLayout h.cntLb ++
  [(2, h.cntG.evictions), (2, h.cntG.loads), (2, h.cntG.loadFails), (2, h.cntG.fallbackPages),
    (2, h.cntG.receiptsSent), (2, h.cntG.receiptsFailed), (2, h.cntG.directoryPeak)]

/-- A time with its presence byte. -/
def timeLayout : Option Nat → List (Nat × Nat)
  | none => [(1, 0), (6, 0)]
  | some t => [(1, 1), (6, t)]

/-- The current content, 22 bytes. -/
def contentLayout : Option Content → List (Nat × Nat)
  | none => [(22, 0)]
  | some c =>
    [(1, 1), (1, c.revision.toNat), (1, c.partCount), (2, c.desc.carrier), (2, c.desc.language), (2, c.desc.validity),
      (1, yesNo c.desc.receiptRequested), (6, c.completedAt), (2, c.rules.version), (1, c.rules.rangeIndex),
      (1, yesNo c.rules.receiptsAllowed), (1, c.rules.reminderInterval), (1, c.rules.reminderLimit)]

/-- The area block: form, count, area-malformed mark, then 16 places of 8 bytes, the unused ones zero. -/
def areaLayout : Option AreaBlock → List (Nat × Nat)
  | none => [(131, 0)]
  | some (.cells es) =>
    [(1, 1), (1, es.length), (1, 0)] ++ es.flatMap (fun x => [(4, x.base.toNat), (1, x.len), (3, 0)]) ++
      [(128 - 8 * es.length, 0)]
  | some (.polygon vs m) =>
    [(1, 2), (1, vs.length), (1, yesNo m)] ++
      vs.flatMap (fun v => [(4, (v.lat % 4294967296).toNat), (4, (v.lon % 4294967296).toNat)]) ++
      [(128 - 8 * vs.length, 0)]

/-- The record of READ-ENTRY, part by part (R193). -/
def entryLayout (h : Handle) (now : Nat) (e : Entry) : List (Nat × Nat) :=
  [(1, h.slot.val), (1, h.use.toNat), (2, e.key.region), (2, e.key.channel), (2, e.key.alertNo),
    (1, e.key.reach.code.toNat), (4, e.key.scope.getD 0), (1, e.state.code.toNat), (1, (holdCode e.hold).toNat),
    (1, e.cls.num), (1, yesNo e.provisional)] ++
  [(6, e.createdAt)] ++ timeLayout e.restingAt ++
  contentLayout e.current ++ areaLayout (e.current.bind (·.desc.area)) ++
  (match e.incoming with
    | none => [(10, 0)]
    | some r => [(1, 1), (1, r.revision.toNat), (1, r.partCount), (1, (partsByte r.parts).toNat), (6, r.deadline)]) ++
  (match e.cancel with
    | none => [(4, 0)]
    | some c => [(1, 1), (1, c.revision.toNat), (2, c.carrier)]) ++
  (match e.area with
    | none => [(3, 0)]
    | some a => [(1, 1), (1, a.decision.code.toNat), (1, yesNo a.malformed)]) ++
  timeLayout e.expiry ++
  [(1, yesNo e.links.la + 2 * yesNo e.links.lb), (1, if e.links.first = .la then 1 else 2)] ++
  (match e.request with
    | none => [(7, 0)]
    | some r => [(1, 1), (1, r.kind.code.toNat), (1, r.level.rank), (2, r.remaining), (2, r.played)]) ++
  [(1, yesNo e.alerted)] ++
  timeLayout e.nextReminder ++ [(1, e.backlog), (1, e.given)] ++
  [(1, e.receipt.code.toNat), (1, e.receipt.reason.toNat)] ++ timeLayout e.acknowledgedAt ++
  [(1, yesNo e.changed), (6, now)]

end Sys2Proof.Machine
end

