-- ==== Sys2Proof/Certificates/Slice0/Obligations.lean ====
section
/-! DEFINITION. The statements for the provers. Helper predicates stand in Sys2Proof/Safety.lean. -/

open Sys2Proof Sys2Proof.Machine

/-! ### The machine -/

/-- A step takes the front command and runs it on the state with the queue's rest (log 2: the queue is the model's). -/
def Obligations.StepRunsFrontCommand : Prop :=
  ∀ (c : Instr) (rest : List Instr) (s : State), step (s.withPending (c :: rest)) = exec c (s.withPending rest)

/-- On an empty queue the block idles (logs 2 and 3, the model's choice): with nothing due the alert clock advances by
1 ms, and a playing request is counted for that millisecond (R136); with something due, some due event runs. Due are, and
nothing else: a frame timeout (R25; before its header the kind byte read is free, log 4), the end of a quarantine (R35), a
frame to send (R41), a wait deadline (R57), an expiry (R83), an assembly deadline (R85), a reminder (R167), work on the
re-decision list (R125), the points of a play (R137, R138, R141, R144), the end of a segment (R145), an offer deadline
(R158). An escalated reminder may yield at its minimum play already (R139); whether it does is free, log 26. -/
def Obligations.IdleStepTicks : Prop :=
  ∀ s : State, s.pending = [] →
    (s.dueEvents = [] → s.playingRequest = none → step s = .next { s with now := s.now + 1 }) ∧
    (∀ (p : Play) (e : Entry) (r : Request), s.dueEvents = [] → s.playingRequest = some (p, e, r) →
      step s = .next { s with
        now := s.now + 1
        arb := { s.arb with play := some { p with into := p.into + 1, turn := p.turn + 1 } }
        dir := { s.dir with
          entries := s.dir.entries.set p.handle.slot
            (some { e with request := some { r with remaining := r.remaining - 1, played := r.played + 1 } }) } }) ∧
    (s.dueEvents ≠ [] → ∃ c ∈ s.dueEvents, step s = exec c { s with freeCtr := s.freeCtr + 1 }) ∧
    (∀ c, c ∈ s.dueEvents ↔
      (∃ l f, (s.link l).frame = some f ∧ (s.link l).state ≠ .faulted ∧ f.deadline ≤ s.now ∧
        c = .frameTimeout l (if f.header.isSome then none else Config.freeKindRead s.freeCtr)) ∨
      (∃ l d, (s.link l).state = .faulted ∧ (s.link l).quarantine = some d ∧ d ≤ s.now ∧ c = .quarantineExpiry l) ∨
      (∃ l, (s.link l).outQ ≠ [] ∧ c = .frameSend l) ∨
      (∃ w ∈ s.prof.waiting, w.deadline ≤ s.now ∧ c = .waitDeadlineExpiry w.link w.slot) ∨
      (∃ i e x, s.entryAt i = some e ∧ e.expiry = some x ∧ x ≤ s.now ∧ c = .expiry i) ∨
      (∃ i e r, s.entryAt i = some e ∧ e.incoming = some r ∧ r.deadline ≤ s.now ∧ c = .assemblyDeadline i) ∨
      (∃ i e d, s.entryAt i = some e ∧ e.state = .active ∧ e.nextReminder = some d ∧ d ≤ s.now ∧
        c = .reminderDeadline i) ∨
      (s.area.redecide ≠ [] ∧ c = .redecision) ∨
      (∃ p e r, s.playingRequest = some (p, e, r) ∧
        ((r.remaining = 0 ∧ c = .playEnd) ∨
          (0 < r.remaining ∧ r.silenced = false ∧ s.host.settings.minimumPlay * 1000 ≤ p.turn ∧
            (∃ i q, s.waitingRequest i = some q ∧ q.level.rank < r.level.rank) ∧ c = .preemption) ∨
          (0 < r.remaining ∧ r.silenced = false ∧
            (s.host.settings.minimumPlay * 1000 + s.host.settings.maximumPlay * 1000 ≤ p.turn ∨
              r.kind = .reminder ∧ r.level ≠ .trickle ∧ s.host.settings.minimumPlay * 1000 ≤ p.turn ∧
                Config.freeEarlyYield s.freeCtr s.now = true) ∧
            (∃ i q, s.waitingRequest i = some q ∧ q.level = r.level) ∧ c = .yield) ∨
          (r.silenced = true ∧ s.host.settings.minimumPlay * 1000 ≤ r.played ∧ c = .silencedPlayEnd))) ∨
      (∃ p, s.arb.play = some p ∧ p.segmentNow.2 ≤ p.into ∧ c = .cadenceSegmentEnd) ∨
      (∃ r ∈ s.rcpt.queue, ∃ d, r.state = .offered ∧ r.deadline = some d ∧ d ≤ s.now ∧ c = .offerDeadline r.id))

/-- Every command answers a next state in every state. An event kind leaves the set only by GET_EVENTS and by power-on
reset (R178), and WAKE stays high until then; it is high after any step in which a wake-enabled kind joins the set
(R181). A command of a modem or of the device keeps queue, clock, position and the port but for events, WAKE and
counters. -/
def Obligations.EventsStayUntilRead : Prop :=
  ∀ (c : Instr) (s : State), ∃ t : State, exec c s = .next t ∧
    ((∀ b, c ≠ .getEvents b) → c ≠ .powerOnReset →
      (∀ k, s.host.events.getLsbD k = true → t.host.events.getLsbD k = true) ∧
      (s.host.wake = true → t.host.wake = true) ∧
      (∀ k, t.host.events.getLsbD k = true → s.host.events.getLsbD k = true ∨
        (s.host.wakeEn.getLsbD k = true → t.host.wake = true))) ∧
    (¬ fromHost c → Told s t)

/-- POWER_ON_RESET gives every block its reset value and restarts the clock (R170); that the queue and the free-value
counter go on is log 20. -/
def Obligations.PowerOnResetRestoresReset : Prop :=
  ∀ s : State, exec .powerOnReset s = .next { State.reset with pending := s.pending, freeCtr := s.freeCtr }

/-- The values after a power-on reset (Tables 11, 16, 19, 27, 32, 36, 40, 44). -/
def Obligations.ResetValues : Prop :=
  State.reset.now = 0 ∧
  (∀ l, (State.reset.link l).state = .down ∧ (∀ i : PageSlot, (State.reset.link l).slots[i] = .free) ∧
    (State.reset.link l).credits = 0 ∧ (State.reset.link l).frame = none ∧ (State.reset.link l).serving = .absent ∧
    (State.reset.link l).subWaiting = none ∧ (State.reset.link l).fault = none ∧
    (State.reset.link l).quarantine = none ∧ (State.reset.link l).outstanding = none ∧
    (State.reset.link l).outQ = []) ∧
  (State.reset.prof.cache = [] ∧ State.reset.prof.loadQueue = [] ∧ State.reset.prof.flight = none ∧
    State.reset.prof.waiting = [] ∧ State.reset.prof.store = .owned ∧ State.reset.prof.pspDriven = true ∧
    State.reset.prof.flashSelected = false) ∧
  ((∀ i, State.reset.entryAt i = none) ∧ (∀ i : EntrySlot, State.reset.dir.useCounts[i] = 0#8) ∧
    State.reset.freeSegments = 160 ∧ State.reset.dir.retired = [] ∧ State.reset.occupancy = 0) ∧
  (State.reset.area.position = none ∧ State.reset.area.redecide = []) ∧
  (State.reset.arb.play = none ∧ ∀ lv, State.reset.pointer lv = 47) ∧
  (State.reset.rcpt.queue = [] ∧ State.reset.rcpt.lastId = 15) ∧
  (State.reset.host.txn = none ∧ State.reset.host.response = none ∧ State.reset.host.events = 0#10 ∧
    (∀ k, EventSet.holds State.reset.host.mask k = true) ∧
    (∀ k, EventSet.holds State.reset.host.wakeEn k = true ↔
      k = .newAlert ∨ k = .alertUpdated ∨ k = .alertCancelled ∨ k = .linkFault) ∧
    State.reset.host.cntLa = LinkCounters.zero ∧ State.reset.host.cntLb = LinkCounters.zero ∧
    State.reset.host.cntG = GlobalCounters.zero) ∧
  State.reset.host.settings =
    { enable2 := true, enable3 := true, enable4 := true, enable5 := false, nearPolicy := .present,
      nearDistance := 500, staleLimit := 300, attentionLength := 12, minimumPlay := 3, maximumPlay := 5,
      toneEnable := true, vibrationEnable := true } ∧
  (State.reset.rdy = false ∧ State.reset.atn = false ∧ State.reset.host.wake = false ∧ State.reset.tone = false ∧
    State.reset.vib = false ∧ State.reset.dwake = false)

/-! ### Modem links -/

/-- FRAME_START: a byte on a hunting link (R24, R33). What a fault leaves is FaultedBy (R32, R21; log 14). -/
def Obligations.HuntingByteBeginsFrameOrFaults : Prop :=
  ∀ (l : LinkId) (b : Byte) (s : State), (s.link l).frame = none →
    ((s.link l).state ≠ .faulted → b = 0xA5#8 →
      exec (.frameStart l b) s = .next (s.setLink l { s.link l with frame := some ⟨s.now, s.now + 4, none, none⟩ })) ∧
    ((s.link l).state = .faulted ∨ (b ≠ 0xA5#8 ∧ (s.link l).state ≠ .up) → exec (.frameStart l b) s = .next s) ∧
    ((s.link l).state = .up → b ≠ 0xA5#8 →
      ∃ t : State, exec (.frameStart l b) s = .next t ∧ FaultedBy l .malformed .unknown s t ∧
        (t.link l).slots = (s.link l).slots)

/-- FRAME_HEADER: a PAGE header on a link in UP takes the FREE slot with the lowest number and one credit (R28); with
every slot occupied it is an overrun (R29; the fault's refusal of a receipt: log 14). -/
def Obligations.PageHeaderReservesOrOverruns : Prop :=
  ∀ (l : LinkId) (len : BitVec 16) (f : FrameProgress) (s : State),
    (s.link l).state = .up → (s.link l).frame = some f → f.header = none → 26 ≤ len.toNat → len.toNat ≤ 275 →
    (∀ i : PageSlot, (s.link l).slots[i] = .free → (∀ j : PageSlot, j < i → (s.link l).slots[j] ≠ .free) →
      exec (.frameHeader l 0x03#8 len) s = .next (s.setLink l { s.link l with
        slots := (s.link l).slots.set i .receiving
        credits := (s.link l).credits - 1
        frame := some { f with header := some ⟨.page, len.toNat⟩, slot := some i } })) ∧
    ((∀ i : PageSlot, (s.link l).slots[i] ≠ .free) →
      ∃ t : State, exec (.frameHeader l 0x03#8 len) s = .next t ∧ FaultedBy l .overrun .page s t ∧
        (t.link l).slots = (s.link l).slots ∧
        (t.host.counters l).overruns = min ((s.host.counters l).overruns + 1) 65535)

/-- FRAME_HEADER: every other header is judged by kind and length on a link in UP, and only kept in DOWN and SYNC
(R26, R18, R23); a body length of 0 completes the frame, which the port takes as the row of that frame's end with an empty
body (R189; that such a row may also bring the frame's last header byte is log 4). Kinds and length bounds are those of
Table 47. A fault refuses the link's outstanding receipt (log 14). -/
def Obligations.HeaderJudgedByKindAndLength : Prop :=
  ∀ (l : LinkId) (kind : Byte) (len : BitVec 16) (f : FrameProgress) (s : State),
    (s.link l).frame = some f → f.header = none →
    ((s.link l).state = .up → lengthInBounds (readFrameKind kind) len.toNat = false →
      ∃ t : State, exec (.frameHeader l kind len) s = .next t ∧ FaultedBy l .malformed (readFrameKind kind) s t ∧
        (t.link l).slots = (s.link l).slots) ∧
    (((s.link l).state = .up ∧ lengthInBounds (readFrameKind kind) len.toNat = true ∧ kind ≠ 0x03#8) ∨
        (s.link l).state = .down ∨ (s.link l).state = .sync → len ≠ 0#16 →
      exec (.frameHeader l kind len) s = .next (s.setLink l { s.link l with
        frame := some { f with header := some ⟨readFrameKind kind, len.toNat⟩, slot := none } })) ∧
    (len = 0#16 → f.slot = none → exec (.frameHeader l kind len) s = exec (frameEnd (readFrameKind kind) l []) s) ∧
    ((readFrameKind kind = .hello ↔ kind = 0x01#8) ∧ (readFrameKind kind = .goodbye ↔ kind = 0x02#8) ∧
      (readFrameKind kind = .page ↔ kind = 0x03#8) ∧ (readFrameKind kind = .serving ↔ kind = 0x04#8) ∧
      (readFrameKind kind = .receiptResult ↔ kind = 0x05#8) ∧
      (readFrameKind kind = .unknown ↔ kind = 0x00#8 ∨ 5 < kind.toNat)) ∧
    (∀ n, (lengthInBounds .hello n = true ↔ n = 0) ∧ (lengthInBounds .goodbye n = true ↔ n = 0) ∧
      (lengthInBounds .page n = true ↔ 26 ≤ n ∧ n ≤ 275) ∧ (lengthInBounds .serving n = true ↔ 1 ≤ n ∧ n ≤ 13) ∧
      (lengthInBounds .receiptResult n = true ↔ n = 2) ∧ lengthInBounds .unknown n = false)

/-- FRAME_TIMEOUT: the reception deadline of a frame in progress (R25). The fault records the kind of the header, else that
of the kind byte read, else unknown (log 4); it refuses the link's outstanding receipt (log 14). -/
def Obligations.FrameTimeoutFaultsOnlyInUp : Prop :=
  ∀ (l : LinkId) (kindRead : Option Byte) (f : FrameProgress) (s : State),
    (s.link l).frame = some f → f.deadline ≤ s.now →
    ((s.link l).state = .up →
      ∃ t : State, exec (.frameTimeout l kindRead) s = .next t ∧ FaultedBy l .timeout (timeoutKind f kindRead) s t ∧
        ∀ i : PageSlot, (t.link l).slots[i] = if f.slot = some i then .free else (s.link l).slots[i]) ∧
    ((s.link l).state = .down ∨ (s.link l).state = .sync →
      exec (.frameTimeout l kindRead) s = .next (s.setLink l { s.link l with frame := none })) ∧
    timeoutKind f kindRead =
      (match f.header, kindRead with
        | some h, _ => h.kind
        | none, some b => readFrameKind b
        | none, none => .unknown)

/-- HELLO in DOWN or SYNC opens the link (R19); the first offer follows, of the oldest QUEUED record that targets the link
(R39, R157). -/
def Obligations.HelloOpensLink : Prop :=
  ∀ (l : LinkId) (s : State), s.linksSound → (s.link l).state = .down ∨ (s.link l).state = .sync →
    s.receives l .hello 0 →
    ∃ t : State, exec (.hello l []) s = .next t ∧ OpenedBy l s t ∧ t.link l.other = s.link l.other ∧
      (t.link l).outstanding = (s.nextReceipt l).map (·.id) ∧
      (s.nextReceipt l = none → t.rcpt = s.rcpt ∧ t.dir = s.dir) ∧
      (∀ r, s.nextReceipt l = some r → r ∈ s.rcpt.queue ∧ r.target = l ∧ r.state = .queued ∧ OfferedBy r s t) ∧
      (t.link l).outQ =
        [.credit (s.link l).freeCount, .subscribe [(0, 1023)]] ++
          ((s.nextReceipt l).map (fun r => OutFrame.receipt r.id r.key r.revision r.delay)).toList ∧
      (s.nextReceipt l = none ↔ ∀ y ∈ s.rcpt.queue, y.target = l → y.state ≠ .queued) ∧
      (∀ r, s.nextReceipt l = some r → ∃ a b, s.rcpt.queue = a ++ r :: b ∧
        ∀ y ∈ a, y.target = l → y.state ≠ .queued)

/-- HELLO in UP is a link resync: the frames waiting are gone, the outstanding receipt is refused before the link is UP
again (R160), only a receipt may follow the fresh CREDIT and SUBSCRIBE (R20). -/
def Obligations.HelloResyncsLink : Prop :=
  ∀ (l : LinkId) (s : State), (s.link l).state = .up → s.receives l .hello 0 →
    ∃ t : State, exec (.hello l []) s = .next t ∧ OpenedBy l s t ∧ OutstandingRefused l s t ∧
      ∃ more, (t.link l).outQ = [.credit (s.link l).freeCount, .subscribe [(0, 1023)]] ++ more ∧
        more.length ≤ 1 ∧ ∀ f ∈ more, f.isReceipt = true

/-- GOODBYE in UP closes the link and refuses its outstanding receipt (R21, R22, R160; log 14). -/
def Obligations.GoodbyeClosesLink : Prop :=
  ∀ (l : LinkId) (s : State), (s.link l).state = .up → s.receives l .goodbye 0 →
    ∃ t : State, exec (.goodbye l []) s = .next t ∧ (t.link l).state = .down ∧ OutstandingRefused l s t ∧
      (t.link l).credits = 0 ∧ (t.link l).subWaiting = none ∧ (t.link l).outstanding = none ∧ (t.link l).outQ = [] ∧
      (t.link l).frame = none ∧ (t.link l).slots = (s.link l).slots ∧ (t.link l).serving = (s.link l).serving ∧
      (t.link l).fault = (s.link l).fault ∧ t.area = (servingTrigger s).area ∧
      EventSet.holds t.host.events .linkState = true ∧ (t.link l.other).core = (s.link l.other).core ∧
      t.prof = s.prof ∧ t.arb = s.arb ∧ directoryKept s t ∧ Told s t

/-- A complete frame in DOWN or SYNC that is not a well-formed HELLO only ends, and a FAULTED link hears nothing
(R18, R23, R33). -/
def Obligations.FramesOutsideUpAreDiscarded : Prop :=
  ∀ (l : LinkId) (kind : FrameKind) (body : List Byte) (s : State),
    ((s.link l).state = .down ∨ (s.link l).state = .sync → s.receives l kind body.length →
      (kind = .hello → body ≠ []) →
      exec (frameEnd kind l body) s = .next (s.setLink l { s.link l with frame := none })) ∧
    ((s.link l).state = .faulted → exec (frameEnd kind l body) s = .next s)

/-- A complete frame that fails a field criterion faults a link in UP (R26); a PAGE loses its slot, one without a body
has none; the fault refuses the link's outstanding receipt (log 14). The bodies that pass are those of R190 and Table 7
(R9), and they give the fields so read. The identity key takes region, channel, alert number and reach, its scope by the
reach (R11, Table 9). -/
def Obligations.MalformedFrameFaultsLink : Prop :=
  (∀ (l : LinkId) (body : List Byte) (s : State), (s.link l).state = .up →
    (s.receives l .serving body.length → readServing body = none →
      ∃ t : State, exec (.serving l body) s = .next t ∧ FaultedBy l .malformed .serving s t ∧
        (t.link l).slots = (s.link l).slots) ∧
    (s.receives l .receiptResult body.length → readReceiptResult body = none →
      ∃ t : State, exec (.receiptResult l body) s = .next t ∧ FaultedBy l .malformed .receiptResult s t ∧
        (t.link l).slots = (s.link l).slots) ∧
    (∀ (f : FrameProgress) (i : PageSlot), (s.link l).frame = some f → f.header = some ⟨.page, body.length⟩ →
      f.slot = some i → (s.link l).slots[i] = .receiving → body ≠ [] → readPage l i s.now body = none →
      ∃ t : State, exec (.page l body) s = .next t ∧ FaultedBy l .malformed .page s t ∧
        (t.link l).slots = (s.link l).slots.set i .free) ∧
    (∀ f : FrameProgress, (s.link l).frame = some f → f.header = none → f.slot = none →
      ∃ t : State, exec (.page l []) s = .next t ∧ FaultedBy l .malformed .page s t ∧
        (t.link l).slots = (s.link l).slots)) ∧
  (∀ (b : List Byte) (v : Serving), readServing b = some v ↔
    (fieldAt b 0 1 = 0 ∧ b.length = 1 ∧ v = .noService) ∨
    (fieldAt b 0 1 = 1 ∧ b.length = 13 ∧ fieldAt b 5 2 ≤ 1023 ∧
      v = .service (BitVec.ofNat 32 (fieldAt b 1 4)) (fieldAt b 5 2) (BitVec.ofNat 32 (fieldAt b 7 4))
        (fieldAt b 11 2))) ∧
  (∀ (b : List Byte) (id : ReceiptId) (sent : Bool), readReceiptResult b = some (id, sent) ↔
    b.length = 2 ∧ fieldAt b 0 1 = id.val ∧ fieldAt b 1 1 = if sent then 1 else 2) ∧
  (∀ (l : LinkId) (i : PageSlot) (now : Nat) (b : List Byte) (count area text : Nat),
    count = (if fieldAt b 24 1 = 0 then 0 else fieldAt b 25 1) →
    area = (if fieldAt b 24 1 = 1 then 1 + 5 * count else if fieldAt b 24 1 = 2 then 1 + 8 * count else 0) →
    text = fieldAt b (25 + area) 1 →
    ((readPage l i now b).isSome = true ↔
      b.length = 26 + area + text ∧ text ≤ 120 ∧
      fieldAt b 0 2 ≤ 1023 ∧ fieldAt b 2 2 ≤ 1023 ∧ fieldAt b 10 2 ≤ 1023 ∧
      (1 ≤ fieldAt b 14 1 ∧ fieldAt b 14 1 ≤ 3) ∧ (fieldAt b 15 1 = 1 ∨ fieldAt b 15 1 = 2) ∧ fieldAt b 16 1 ≤ 63 ∧
      (1 ≤ fieldAt b 17 1 ∧ fieldAt b 17 1 ≤ 8) ∧ (1 ≤ fieldAt b 18 1 ∧ fieldAt b 18 1 ≤ 8) ∧
      fieldAt b 17 1 ≤ fieldAt b 18 1 ∧ fieldAt b 23 1 ≤ 1 ∧ fieldAt b 24 1 ≤ 2 ∧
      (fieldAt b 24 1 ≠ 0 → fieldAt b 15 1 = 1 ∧ fieldAt b 17 1 = 1) ∧
      (fieldAt b 15 1 = 2 → fieldAt b 18 1 = 1 ∧ fieldAt b 24 1 = 0) ∧
      (fieldAt b 24 1 = 1 → 1 ≤ count ∧ count ≤ 8 ∧ ∀ k < count, fieldAt b (30 + 5 * k) 1 ≤ 32) ∧
      (fieldAt b 24 1 = 2 → 3 ≤ count ∧ count ≤ 16)) ∧
    (∀ p, readPage l i now b = some p →
      p.region = fieldAt b 0 2 ∧ p.carrier = fieldAt b 2 2 ∧ p.cellTag.toNat = fieldAt b 4 4 ∧
      p.district = fieldAt b 8 2 ∧ p.channel = fieldAt b 10 2 ∧ p.alertNo = fieldAt b 12 2 ∧
      p.reach.code.toNat = fieldAt b 14 1 ∧ (p.action = .issue ↔ fieldAt b 15 1 = 1) ∧
      p.revision.toNat = fieldAt b 16 1 ∧ p.partIndex = fieldAt b 17 1 ∧ p.partCount = fieldAt b 18 1 ∧
      p.language = fieldAt b 19 2 ∧ p.validity = fieldAt b 21 2 ∧
      (p.receiptRequested = true ↔ fieldAt b 23 1 = 1) ∧
      p.area =
        (if fieldAt b 24 1 = 1 then some (.cells ((List.range count).map fun k =>
            ⟨BitVec.ofNat 32 (fieldAt b (26 + 5 * k) 4), fieldAt b (30 + 5 * k) 1⟩))
         else if fieldAt b 24 1 = 2 then some (.polygon ((List.range count).map fun k =>
            ⟨signedAt b (26 + 8 * k), signedAt b (30 + 8 * k)⟩) false)
         else none) ∧
      p.text = (b.drop (26 + area)).take text ∧ p.link = l ∧ p.slot = i ∧ p.arrival = now)) ∧
  (∀ p : Page, (pageKey p).region = p.region ∧ (pageKey p).channel = p.channel ∧ (pageKey p).alertNo = p.alertNo ∧
    (pageKey p).reach = p.reach ∧ (p.reach = .cell → (pageKey p).scope = some p.cellTag.toNat) ∧
    (p.reach = .district → (pageKey p).scope = some p.district) ∧ (p.reach = .region → (pageKey p).scope = none))

/-- PAGE: an accepted page whose region is not cached waits in its slot while its region's load is queued (R30, R50, R56),
which starts at once with its read request when the store is OWNED without a load (R54, R194); when the load queue holds
eight other regions it is judged under the fallback profile at once (R50, R52), by exactly the work and the disposition of
judgedPage. Acceptance bounds the validity and marks a malformed polygon (R15, R8). -/
def Obligations.PageWithoutProfileWaits : Prop :=
  ∀ (l : LinkId) (body : List Byte) (f : FrameProgress) (i : PageSlot) (p : Page) (s : State),
    (s.link l).state = .up → (s.link l).frame = some f → f.header = some ⟨.page, body.length⟩ → f.slot = some i →
    (s.link l).slots[i] = .receiving → readPage l i s.now body = some p → s.cached p.region = none →
    (s.prof.loadQueue.contains p.region = true ∨ s.prof.loadQueue.length < 8 →
    ∃ t : State, exec (.page l body) s = .next t ∧
      t.link l = { s.link l with frame := none, slots := (s.link l).slots.set i (.held (acceptPage p)) } ∧
      t.link l.other = s.link l.other ∧ t.prof.waiting = s.prof.waiting ++ [⟨l, i, s.now + 20000⟩] ∧
      t.prof.cache = s.prof.cache ∧ t.prof.store = s.prof.store ∧ LoadRequested p.region s.prof t.prof ∧
      t.prof.loadQueue =
        (if s.prof.loadQueue.contains p.region then s.prof.loadQueue else s.prof.loadQueue ++ [p.region]) ∧
      (t.host.counters l).pages = min ((s.host.counters l).pages + 1) 65535 ∧
      t.host.counters l.other = s.host.counters l.other ∧ t.host.cntG = s.host.cntG ∧
      t.host.events = s.host.events ∧ t.dir = s.dir ∧ t.area = s.area ∧ t.arb = s.arb ∧ t.rcpt = s.rcpt ∧ Told s t) ∧
    (s.prof.loadQueue.contains p.region = false → 8 ≤ s.prof.loadQueue.length →
      ∃ (t : State) (d : Disposition), exec (.page l body) s = .next t ∧ d ≠ .ignored ∧
        (t.link l).state = .up ∧ (t.link l).slots = (s.link l).slots.set i .free ∧
        (t.link l).credits = (s.link l).credits + 1 ∧ (t.link l).frame = none ∧
        nonReceipts (t.link l).outQ =
          nonReceipts (s.link l).outQ ++ [.disposition (pageKey p) p.revision p.partIndex d] ∧
        (t.host.counters l).pages = min ((s.host.counters l).pages + 1) 65535 ∧
        t.host.cntG.fallbackPages = min (s.host.cntG.fallbackPages + 1) 65535 ∧
        EventSet.holds t.host.events .profileFallback = true ∧ t.prof = s.prof ∧
        (t.link l.other).core = (s.link l.other).core ∧ Told s t ∧
        ∀ q u, q = acceptPage p → u = s.accepted l i q →
          t = u.judgedPage none l i q ∧ d = (judgedWork none q u).2) ∧
    acceptPage p = { p with
      validity := min p.validity 1440
      area := match p.area with
        | none => none
        | some (.cells es) => some (.cells es)
        | some (.polygon vs _) => some (.polygon vs (decide (∃ v ∈ vs,
            ¬ (-9000000 ≤ v.lat ∧ v.lat ≤ 9000000 ∧ -18000000 ≤ v.lon ∧ v.lon ≤ 17999999)))) }

/-- PAGE: an accepted page whose region is cached is judged at once: its slot is freed, its credit returned and one
DISPOSITION joins the frames waiting, receipts apart (R30, R31, R41, R50, R52); a channel in no range is IGNORED and
reaches no entry (R46); an ABSENT entry sends it to the fallback profile (R47). The state is exactly that of judgedPage:
the directory's work under the governing values, the code it earns counted (R185), DIRECTORY-FULL for FULL (R76). The use
moves the entry to the last, most recent, place of the cache and keeps the others' order (R49). -/
def Obligations.PageWithCachedRegionIsDisposed : Prop :=
  ∀ (l : LinkId) (body : List Byte) (f : FrameProgress) (i : PageSlot) (p : Page) (c : CacheEntry) (s : State),
    (s.link l).state = .up → (s.link l).frame = some f → f.header = some ⟨.page, body.length⟩ → f.slot = some i →
    (s.link l).slots[i] = .receiving → readPage l i s.now body = some p → s.cached p.region = some c →
    ∃ (t : State) (d : Disposition), exec (.page l body) s = .next t ∧
      (t.link l).state = .up ∧ (t.link l).slots = (s.link l).slots.set i .free ∧
      (t.link l).credits = (s.link l).credits + 1 ∧ (t.link l).frame = none ∧
      nonReceipts (t.link l).outQ =
        nonReceipts (s.link l).outQ ++ [.disposition (pageKey p) p.revision p.partIndex d] ∧
      nonReceipts (t.link l.other).outQ = nonReceipts (s.link l.other).outQ ∧
      (t.host.counters l).pages = min ((s.host.counters l).pages + 1) 65535 ∧
      t.prof = { s.prof with cache := mostRecent s.prof.cache c } ∧
      (∀ g, c.profile = some g → governingRange g.ranges p.channel = none → d = .ignored ∧ t.dir = s.dir) ∧
      (c.profile = none → t.host.cntG.fallbackPages = min (s.host.cntG.fallbackPages + 1) 65535 ∧
        EventSet.holds t.host.events .profileFallback = true ∧ d ≠ .ignored) ∧
      (t.link l.other).core = (s.link l.other).core ∧ Told s t ∧
      ∀ q u, q = acceptPage p →
        u = (s.accepted l i q).setProf { s.prof with cache := mostRecent s.prof.cache c } →
        t = u.judgedPage c.profile l i q ∧ d = (judgedWork c.profile q u).2 ∧
      c ∈ s.prof.cache ∧ c.region = p.region ∧
      ∀ a b, (∀ x ∈ a ++ b, x.region ≠ c.region) → mostRecent (a ++ c :: b) c = a ++ b ++ [c]

/-- SERVING: the serving record is replaced and the serving trigger taken, which selects the HELD entries of reason AREA
with a cell-prefix list (Table 30); a new serving region leads to a subscription from the cache, or to the fallback range
and a requested load, which may start (R36, R37, R54, R124). How a selection joins the list is said in
SetPositionReplacesRecord. What a subscription carries is R37 and R191; a SUBSCRIBE takes the place of one that waits
(R38), a RECEIPT removes one that waits (R39), every other frame joins the tail (R41). -/
def Obligations.ServingReplacesRecord : Prop :=
  ∀ (l : LinkId) (body : List Byte) (v : Serving) (s : State),
    (s.link l).state = .up → s.receives l .serving body.length → readServing body = some v →
    ∃ t : State, exec (.serving l body) s = .next t ∧ (t.link l).state = .up ∧ (t.link l).serving = v ∧
      (t.link l).frame = none ∧ (t.link l).slots = (s.link l).slots ∧ (t.link l).credits = (s.link l).credits ∧
      (t.link l).outstanding = (s.link l).outstanding ∧ (t.link l).fault = (s.link l).fault ∧
      (v.region = none →
        (t.link l).subWaiting = none ∧ (t.link l).outQ = (s.link l).outQ ∧ t.prof = s.prof) ∧
      (∀ n, v.region = some n → (s.link l).serving.region = some n →
        (t.link l).subWaiting = (s.link l).subWaiting ∧ (t.link l).outQ = (s.link l).outQ ∧ t.prof = s.prof) ∧
      (∀ n c, v.region = some n → (s.link l).serving.region ≠ some n → s.cached n = some c →
        (t.link l).subWaiting = none ∧ (t.link l).outQ = pushFrame (s.link l).outQ (subscriptionOf c.profile) ∧
        t.prof = { s.prof with cache := mostRecent s.prof.cache c }) ∧
      (∀ n, v.region = some n → (s.link l).serving.region ≠ some n → s.cached n = none →
        (t.link l).subWaiting = some n ∧ (t.link l).outQ = pushFrame (s.link l).outQ (.subscribe [(0, 1023)]) ∧
        t.prof.cache = s.prof.cache ∧ t.prof.waiting = s.prof.waiting ∧ t.prof.store = s.prof.store ∧
        t.prof.pspDriven = s.prof.pspDriven ∧ LoadRequested n s.prof t.prof ∧
        t.prof.loadQueue =
          if s.prof.loadQueue.contains n ∨ 8 ≤ s.prof.loadQueue.length then s.prof.loadQueue
          else s.prof.loadQueue ++ [n]) ∧
      t.area.redecide = (servingTrigger s).area.redecide ∧ servingTrigger s = trigger selectedByServing s ∧
      (∀ e, selectedByServing e = true ↔
        e.hold = some .area ∧ ∃ c es, e.current = some c ∧ c.desc.area = some (.cells es)) ∧
      t.link l.other = s.link l.other ∧ t.dir = s.dir ∧
      t.arb = s.arb ∧ t.rcpt = s.rcpt ∧ t.host = s.host ∧ Told s t ∧
      (∀ f : Profile, subscriptionOf (some f) = .subscribe (f.ranges.map (fun r => (r.first, r.last)))) ∧
      subscriptionOf none = .subscribe [(0, 1023)] ∧
      (∀ q x, (∀ y, .subscribe y ∉ q) → pushFrame q (.subscribe x) = q ++ [.subscribe x]) ∧
      (∀ a b x y, (∀ z, .subscribe z ∉ a ++ b) →
        pushFrame (a ++ .subscribe y :: b) (.subscribe x) = a ++ .subscribe x :: b) ∧
      (∀ q f, (∀ x, f ≠ .subscribe x) → (∀ id k r d, f ≠ .receipt id k r d) → pushFrame q f = q ++ [f]) ∧
      (∀ q id k r d, pushFrame q (.receipt id k r d) = nonReceipts q ++ [.receipt id k r d]) ∧
      (∀ q f, f ∈ nonReceipts q ↔ f ∈ q ∧ ∀ id k r d, f ≠ .receipt id k r d)

/-- RECEIPT_RESULT that names no outstanding receipt only ends (R40, R162); SENT for the outstanding one settles its
record and its entry (R40, R159); REFUSED retargets its record once, or fails it (R40, R160, R161). In both the link is then
offered its next QUEUED record, and every other record stands (R157). -/
def Obligations.ReceiptResultSettlesOutstanding : Prop :=
  ∀ (l : LinkId) (body : List Byte) (id : ReceiptId) (sent : Bool) (s : State),
    (s.link l).state = .up → s.receives l .receiptResult body.length → readReceiptResult body = some (id, sent) →
    ((s.link l).outstanding ≠ some id →
      exec (.receiptResult l body) s = .next (s.setLink l { s.link l with frame := none })) ∧
    (∀ r, (s.link l).outstanding = some id → s.recordOf id = some r → r.target = l → sent = true →
      (∀ x ∈ s.rcpt.queue, x.handle = r.handle → x.id = id) →
      ∃ t : State, exec (.receiptResult l body) s = .next t ∧ (∀ x ∈ t.rcpt.queue, x.id ≠ id) ∧
        (∀ e, s.named r.handle = some e →
          (t.entryAt r.handle.slot).map (fun x => (x.receipt, x.changed)) = some (.sent, true)) ∧
        EventSet.holds t.host.events .receiptDone = true ∧
        t.host.cntG.receiptsSent = min (s.host.cntG.receiptsSent + 1) 65535 ∧
        (t.link l).frame = none ∧ (t.link l).slots = (s.link l).slots ∧ (t.link l).state = .up ∧
        t.link l.other = s.link l.other ∧ t.prof = s.prof ∧ t.arb = s.arb ∧ t.area = s.area ∧ directoryKept s t ∧
        Told s t ∧ NextOffered r s t) ∧
    (∀ r, (s.link l).outstanding = some id → s.recordOf id = some r → r.target = l → r.state = .offered →
      sent = false → (s.rcpt.queue.map (·.id)).Nodup →
      (∀ x ∈ s.rcpt.queue, x.handle = r.handle → x.id = id) →
      ∃ t : State, exec (.receiptResult l body) s = .next t ∧ RefusedBy r s t ∧
        (t.link l).frame = none ∧ (t.link l).slots = (s.link l).slots ∧ (t.link l).state = .up ∧
        (t.link l.other).core = (s.link l.other).core ∧ t.prof = s.prof ∧ t.arb = s.arb ∧ t.area = s.area ∧
        directoryKept s t ∧ Told s t ∧ (s.nothingToOffer l.other → NextOffered r s t))

/-- QUARANTINE_EXPIRY: the end of a quarantine by its deadline (R35, R23). A row that comes on a link that is not
FAULTED or before a reached deadline changes nothing: log 1, the model's choice. -/
def Obligations.QuarantineExpiryEntersSync : Prop :=
  ∀ (l : LinkId) (s : State),
    (∀ d, (s.link l).state = .faulted → (s.link l).quarantine = some d → d ≤ s.now →
      exec (.quarantineExpiry l) s = .next (post .linkState (s.setLink l { s.link l with
        state := .sync, quarantine := none, frame := none, outQ := (s.link l).outQ ++ [.helloRequest] }))) ∧
    ((s.link l).state ≠ .faulted ∨ (s.link l).quarantine = none → exec (.quarantineExpiry l) s = .next s) ∧
    (∀ d, (s.link l).quarantine = some d → s.now < d → exec (.quarantineExpiry l) s = .next s)

/-- FRAME_SEND: the head of the output queue leaves it, whole, as the bytes of R189 and R191 (R41); TX bytes are the
model's own field (log 5). Kind bytes and bodies are those of Tables 47 and 49. -/
def Obligations.FrameSendTakesHead : Prop :=
  (∀ (l : LinkId) (f : OutFrame) (rest : List OutFrame) (s : State), (s.link l).outQ = f :: rest →
    exec (.frameSend l) s = .next (s.setLink l { s.link l with
      outQ := rest
      txWire := [0xA5#8, f.kindByte] ++ bytesOf 2 f.body.length ++ f.body })) ∧
  (OutFrame.helloRequest.kindByte = 0x81#8 ∧ OutFrame.helloRequest.body = []) ∧
  (∀ n, (OutFrame.credit n).kindByte = 0x82#8 ∧ (OutFrame.credit n).body = laidOut [(1, n)]) ∧
  (∀ rs, (OutFrame.subscribe rs).kindByte = 0x83#8 ∧
    (OutFrame.subscribe rs).body = laidOut ((1, rs.length) :: rs.flatMap (fun r => [(2, r.1), (2, r.2)]))) ∧
  (∀ k r part d, (OutFrame.disposition k r part d).kindByte = 0x84#8 ∧
    (OutFrame.disposition k r part d).body = laidOut (keyLayout k ++ [(1, r.toNat), (1, part), (1, d.code.toNat)])) ∧
  (∀ id k r delay, (OutFrame.receipt id k r delay).kindByte = 0x85#8 ∧
    (OutFrame.receipt id k r delay).body = laidOut ([(1, id.val)] ++ keyLayout k ++ [(1, r.toNat), (2, delay)])) ∧
  [Disposition.storedMore, .storedDone, .haveAll, .havePart, .stale, .ignored, .conflict, .full].map Disposition.code =
    [1, 2, 3, 4, 5, 6, 7, 8]

/-- CLEAR_LINK_FAULT ends a quarantine early, and is WRONG-STATE on any other link state (R34). -/
def Obligations.ClearLinkFaultEndsQuarantine : Prop :=
  ∀ (b : Byte) (l : LinkId) (s : State), s.portIdle → b = (if l = .la then 1#8 else 2#8) →
    ((s.link l).state = .faulted →
      exec (.clearLinkFault (framed [b])) s = .next ((post .linkState ((s.taken 1).setLink l { s.link l with
        state := .sync, quarantine := none, frame := none, outQ := (s.link l).outQ ++ [.helloRequest] })).answered
          ⟨.ok, []⟩)) ∧
    ((s.link l).state ≠ .faulted →
      exec (.clearLinkFault (framed [b])) s = .next ((s.taken 1).answered ⟨.wrongState, []⟩)) ∧
    (∀ c : Byte, c ≠ 1#8 → c ≠ 2#8 →
      exec (.clearLinkFault (framed [c])) s = .next ((s.taken 1).answered ⟨.badValue, []⟩))

/-- On every link at all times: credits and occupied slots together never above 6 and equal to 6 in UP, no credit
outside UP (R27), a slot RECEIVING exactly while a frame in progress holds it (R28), a quarantine exactly while FAULTED
(R32, R33): kept by every step. -/
def Obligations.StepKeepsLinksSound : Prop :=
  ∀ s t : State, s.linksSound → step s = .next t → t.linksSound

/-! ### Profile unit -/

/-- LOAD_COMPLETE: the record is judged and installed, the region leaves the load queue, its waiting pages are judged,
each with one DISPOSITION in arrival order, the links waiting for it subscribe after them, and the next load starts with
its read request (R55, R51, R53, R54, R38, R194); the pages' work, codes and counts are those of judgedPage, in that
order. That the command's bytes are the rest of the 512 is log 9. The cache stands from the least to the most recently
used entry: a full one loses its first to a region it does not hold (R51). -/
def Obligations.LoadCompletionInstallsRecord : Prop :=
  ∀ (data : List Byte) (f : Load) (s : State), s.prof.flight = some f → (f.bytes ++ data).length = 512 →
    ∃ t : State, exec (.loadComplete data) s = .next t ∧
      t.prof.cache = makeRoom (s.prof.cache.filter (fun x => !decide (x.region = f.region))) ++
        [⟨f.region, judgeRecord f.region (f.bytes ++ data)⟩] ∧
      t.prof.loadQueue = s.prof.loadQueue.erase f.region ∧
      t.prof.flight = (if s.prof.store = .owned then headLoad (s.prof.loadQueue.erase f.region) else none) ∧
      HeadStarts s.prof t.prof ∧ t.prof.pspDriven = s.prof.pspDriven ∧
      t.prof.waiting = s.prof.waiting.filter (fun w => !s.waitsFor f.region w) ∧ t.prof.store = s.prof.store ∧
      (∀ w ∈ s.prof.waiting, s.waitsFor f.region w = true → (t.link w.link).slots[w.slot] = .free) ∧
      (∀ l, (s.link l).state = .up → (s.link l).subWaiting = some f.region → (t.link l).subWaiting = none) ∧
      (∀ l, (s.link l).state ≠ .up → (t.link l).outQ = (s.link l).outQ) ∧
      ((s.prof.waiting.map (fun w => (w.link, w.slot))).Nodup → ∃ d : WaitingPage → Disposition,
        ∀ l, (s.link l).state = .up → ∀ q, q = nonReceipts (s.link l).outQ ++
            (s.prof.waiting.filter (fun w => s.waitsFor f.region w && decide (w.link = l))).filterMap (fun w =>
              (s.heldPage w.link w.slot).map (fun p =>
                OutFrame.disposition (pageKey p) p.revision p.partIndex (d w))) →
          nonReceipts (t.link l).outQ =
            if (s.link l).subWaiting = some f.region then
              pushFrame q (subscriptionOf (judgeRecord f.region (f.bytes ++ data)))
            else q) ∧
      t.host.cntG.loads = min (s.host.cntG.loads + 1) 65535 ∧
      t.host.cntG.loadFails =
        (if (judgeRecord f.region (f.bytes ++ data)).isSome then s.host.cntG.loadFails
         else min (s.host.cntG.loadFails + 1) 65535) ∧
      (judgeRecord f.region (f.bytes ++ data) = none → EventSet.holds t.host.events .profileFallback = true) ∧
      Told s t ∧ (∀ q, q.length < 6 → makeRoom q = q) ∧ (∀ x q, q.length = 5 → makeRoom (x :: q) = q) ∧
      (∀ w, s.waitsFor f.region w = true ↔ ∃ p, s.heldPage w.link w.slot = some p ∧ p.region = f.region) ∧
      ((s.prof.waiting.map (fun w => (w.link, w.slot))).Nodup → ∀ r u, r = judgeRecord f.region (f.bytes ++ data) →
        u = State.judgedInOrder
          { s with
            prof := { s.prof with
              cache := makeRoom (s.prof.cache.filter (fun x => !decide (x.region = f.region))) ++ [⟨f.region, r⟩]
              loadQueue := s.prof.loadQueue.erase f.region
              flight := none
              flashSelected := false
              waiting := s.prof.waiting.filter (fun w => !s.waitsFor f.region w) }
            host := { s.host with cntG := { s.host.cntG with
              loads := min (s.host.cntG.loads + 1) 65535
              loadFails := if r.isSome then s.host.cntG.loadFails else min (s.host.cntG.loadFails + 1) 65535 } } }
          r (s.prof.waiting.filter (s.waitsFor f.region)) →
        t.dir = u.dir ∧ t.arb = u.arb ∧ t.rcpt = u.rcpt ∧ t.area = u.area ∧
        (∀ l, (t.link l).slots = (u.link l).slots ∧ (t.link l).credits = (u.link l).credits ∧
          (t.link l).outstanding = (u.link l).outstanding ∧
          (t.link l).outQ = (if (s.link l).state = .up ∧ (s.link l).subWaiting = some f.region then
            pushFrame (u.link l).outQ (subscriptionOf r) else (u.link l).outQ)) ∧
        t.host = if r.isSome then u.host else (post .profileFallback u).host)

/-- WAIT_DEADLINE_EXPIRY: a pending page whose wait deadline is reached leaves the queue and is judged under the fallback
profile, which ignores no channel (R57, R46, R47, R31), by exactly the work and the disposition of judgedPage. -/
def Obligations.WaitDeadlineUsesFallback : Prop :=
  ∀ (l : LinkId) (k : PageSlot) (w : WaitingPage) (p : Page) (s : State), w ∈ s.prof.waiting → w.link = l → w.slot = k →
    w.deadline ≤ s.now → s.heldPage l k = some p → p.channel ≤ 1023 →
    ∃ t : State, exec (.waitDeadlineExpiry l k) s = .next t ∧
      t.prof = { s.prof with
        waiting := s.prof.waiting.filter (fun x => !(decide (x.link = l) && decide (x.slot = k))) } ∧
      (t.link l).slots = (s.link l).slots.set k .free ∧
      (t.link l).credits = (if (s.link l).state = .up then (s.link l).credits + 1 else (s.link l).credits) ∧
      (∀ u, u = s.setProf { s.prof with
          waiting := s.prof.waiting.filter (fun x => !(decide (x.link = l) && decide (x.slot = k))) } →
        t = u.judgedPage none l k p ∧ (judgedWork none p u).2 ≠ .ignored) ∧
      ((s.link l).state = .up → ∃ d, d ≠ .ignored ∧
        nonReceipts (t.link l).outQ =
          nonReceipts (s.link l).outQ ++ [.disposition (pageKey p) p.revision p.partIndex d]) ∧
      ((s.link l).state ≠ .up → (t.link l).outQ = (s.link l).outQ) ∧
      t.host.cntG.fallbackPages = min (s.host.cntG.fallbackPages + 1) 65535 ∧
      EventSet.holds t.host.events .profileFallback = true ∧ Told s t

/-- YIELD_STORE (R58). -/
def Obligations.YieldStoreReleasesPins : Prop :=
  ∀ s : State, s.portIdle →
    (s.prof.store = .owned →
      exec (.yieldStore (framed [])) s = .next ((post .storeState ((s.taken 0).setProf { s.prof with
        flight := none, store := .yielded, pspDriven := false, flashSelected := false })).answered ⟨.ok, [2#8]⟩)) ∧
    (s.prof.store = .yielded →
      exec (.yieldStore (framed [])) s = .next ((s.taken 0).answered ⟨.wrongState, []⟩))

/-- RETURN_STORE: the store is the device's again, the cache is empty, and the serving regions of the links in UP are
requested; the head of the load queue starts with its read request (R60, R53, R54, R194). While YIELDED no load is in
flight (R58). -/
def Obligations.ReturnStoreReloads : Prop :=
  ∀ s : State, s.portIdle →
    (s.prof.store = .yielded → s.prof.flight = none →
      ∃ t : State, exec (.returnStore (framed [])) s = .next (t.answered ⟨.ok, [1#8]⟩) ∧
        t.prof.cache = [] ∧ t.prof.store = .owned ∧ t.prof.pspDriven = true ∧ t.prof.waiting = s.prof.waiting ∧
        t.prof.loadQueue = s.servingRegions.foldl requested s.prof.loadQueue ∧
        t.prof.flight = headLoad t.prof.loadQueue ∧ t.prof.flashSelected = t.prof.flight.isSome ∧
        HeadStarts s.prof t.prof ∧ servingAwaited s t ∧ t.host = (post .storeState (s.taken 0)).host) ∧
    (s.prof.store = .owned →
      exec (.returnStore (framed [])) s = .next ((s.taken 0).answered ⟨.wrongState, []⟩))

/-- FLUSH_PROFILES: the cache is empty, a load in flight begins again from its first byte with a new read request (R54,
R194), and the serving regions of the links in UP are requested (R61). The flash is selected exactly during a load, as
StepKeepsProfileSound says of every run (R54). -/
def Obligations.FlushProfilesReloads : Prop :=
  ∀ s : State, s.portIdle →
    ∃ t : State, exec (.flushProfiles (framed [])) s =
        .next (t.answered ⟨.ok, [if s.prof.store = .owned then 1#8 else 2#8]⟩) ∧
      t.prof.cache = [] ∧ t.prof.store = s.prof.store ∧ t.prof.pspDriven = s.prof.pspDriven ∧
      t.prof.waiting = s.prof.waiting ∧
      t.prof.loadQueue = s.servingRegions.foldl requested s.prof.loadQueue ∧
      t.prof.flight = (if s.prof.store = .owned then headLoad t.prof.loadQueue else none) ∧
      (s.prof.flashSelected = s.prof.flight.isSome → HeadStarts s.prof t.prof) ∧
      servingAwaited s t ∧ t.host = (s.taken 0).host

/-- The judgement of a record and its clamping (R44, R45): invalid unless marker, region, range count, ranges and check
value are sound; the fields of a profile lie in their ranges, and a field already in its range is kept. The check value is
computed bit by bit from FFFFh with 1021h (R194). -/
def Obligations.JudgedRecordIsSoundAndClamped : Prop :=
  ∀ (n : Nat) (b : List Byte),
    ((judgeRecord n b).isSome = true ↔
      fieldAt b 0 2 = 0x5A3C ∧ fieldAt b 2 2 = n ∧ 1 ≤ fieldAt b 12 1 ∧ fieldAt b 12 1 ≤ 24 ∧
      (checkValue (b.take 510)).toNat = fieldAt b 510 2 ∧
      ∀ k < fieldAt b 12 1, fieldAt b (13 + 6 * k) 2 ≤ fieldAt b (15 + 6 * k) 2 ∧ fieldAt b (15 + 6 * k) 2 ≤ 1023 ∧
        1 ≤ fieldAt b (17 + 6 * k) 1 ∧ fieldAt b (17 + 6 * k) 1 ≤ 5 ∧ fieldAt b (18 + 6 * k) 1 ≤ 1) ∧
    (∀ p, judgeRecord n b = some p →
      p.version = fieldAt b 4 2 ∧ p.ranges.length = fieldAt b 12 1 ∧
      (∀ k r, p.ranges[k]? = some r →
        r.first = fieldAt b (13 + 6 * k) 2 ∧ r.last = fieldAt b (15 + 6 * k) 2 ∧
        r.cls.num = fieldAt b (17 + 6 * k) 1 ∧ (r.receipts = true ↔ fieldAt b (18 + 6 * k) 1 = 1)) ∧
      p.defaultValidity = max 1 (min 1440 (fieldAt b 6 2)) ∧ p.assemblyLimit = max 10 (min 600 (fieldAt b 8 2)) ∧
      p.reminderInterval = min 120 (fieldAt b 10 1) ∧ p.reminderLimit = min 15 (fieldAt b 11 1)) ∧
    checkValue [] = 0xFFFF#16 ∧
    (∀ x : Byte, checkValue (b ++ [x]) = (List.range 8).foldl (fun (r : BitVec 16) k =>
      if r.getMsbD 0 = x.getMsbD k then r <<< 1 else (r <<< 1) ^^^ 0x1021#16) (checkValue b))

/-- The channel lookup (R46): the governing range is the first in table order that contains the channel, with its place
from 1; none exactly when no range contains it. -/
def Obligations.GoverningRangeIsFirstContaining : Prop :=
  ∀ (rs : List ChannelRange) (c : Nat),
    (∀ k r, governingRange rs c = some (k + 1, r) ↔
      rs[k]? = some r ∧ r.first ≤ c ∧ c ≤ r.last ∧
      ∀ j x, j < k → rs[j]? = some x → ¬ (x.first ≤ c ∧ c ≤ x.last)) ∧
    (governingRange rs c = none ↔ ∀ r ∈ rs, ¬ (r.first ≤ c ∧ c ≤ r.last)) ∧
    (∀ k r, governingRange rs c = some (k, r) → 1 ≤ k)

/-- Cache, load queue, load in flight, pins and pending page queue keep their bounds and belong together (R49, R53, R54,
R56): kept by every step of a machine whose links are sound. -/
def Obligations.StepKeepsProfileSound : Prop :=
  ∀ s t : State, s.linksSound → s.profileSound → step s = .next t → t.profileSound

/-! ### Alert directory -/

/-- EXPIRY: an entry whose expiry is reached is retired, at its cancel revision if it is a tombstone and else at its
current one, and leaves, with its request and segments (R83, R80, R142); its receipt record fails, and a link that had it
outstanding is offered its next one (R165, R157). A page of its key taken in
the same moment after it, which would have earned HAVE-ALL or HAVE-PART before it, earns HAVE-ALL and changes nothing
(R84); that this is for that moment alone, and the record's last field for it, is log 24. A row that comes before that time
changes nothing: log 1, the model's choice. -/
def Obligations.ExpiryRemovesEntry : Prop :=
  ∀ (i : EntrySlot) (e : Entry) (x : Nat) (s : State), s.entryAt i = some e → e.expiry = some x →
    (x ≤ s.now → ∃ t : State, exec (.expiry i) s = .next t ∧ t.entryAt i = none ∧ othersKept i s t ∧
      t.dir.useCounts = s.dir.useCounts ∧ t.dir.segs = s.dir.segs.filter (fun g => !decide (g.slot = i)) ∧
      (∀ r, e.retiredRevision = some r → t.dir.retired =
        (if 64 ≤ s.dir.retired.length then s.dir.retired.drop 1 else s.dir.retired) ++
          [⟨e.key, r, e.incoming.map (fun d => ⟨d.revision, d.partCount, d.parts, s.now⟩)⟩]) ∧
      (e.retiredRevision = none → t.dir.retired = s.dir.retired) ∧
      (e.state = .assembling → e.retiredRevision = none) ∧
      (e.state = .cancelled → e.retiredRevision = e.cancel.map (·.revision)) ∧
      (e.state ≠ .assembling → e.state ≠ .cancelled → e.retiredRevision = e.current.map (·.revision)) ∧
      EventSet.holds t.host.events .entryRemoved = true ∧
      (s.playsAt i = false → t.arb = s.arb) ∧ (s.playsAt i = true → s.selects t) ∧
      ((∀ r ∈ s.rcpt.queue, r.handle ≠ s.handleOf i) → t.rcpt = s.rcpt) ∧ RecordGone (s.handleOf i) s t ∧
      (∀ r ∈ s.rcpt.queue, (∀ y ∈ s.rcpt.queue, y.handle = s.handleOf i ↔ y = r) →
        (∀ y ∈ t.rcpt.queue, y.id ≠ r.id) ∧ EventSet.holds t.host.events .receiptDone = true) ∧
      Work s t ∧
      ∀ (p : Page) (g : Governing), e.Shape → s.entryOfKey (pageKey p) = some (i, e) →
        (∀ j y, s.entryAt j = some y → y.key = e.key → j = i) → (∀ y ∈ s.dir.retired, y.key ≠ e.key) →
        (workPage p g s).2 = .haveAll ∨ (workPage p g s).2 = .havePart → workPage p g t = (t, .haveAll)) ∧
    (s.now < x → exec (.expiry i) s = .next s)

/-- ASSEMBLY_DEADLINE: an ASSEMBLING entry is discarded and not retired (R85), and the receipt record that a
revived one may hold fails (R106, R165); another entry drops its incoming revision
and nothing else (R86). -/
def Obligations.AssemblyDeadlineDiscardsOrDrops : Prop :=
  ∀ (i : EntrySlot) (e : Entry) (r : Incoming) (s : State), s.entryAt i = some e → e.incoming = some r →
    r.deadline ≤ s.now →
    (e.state = .assembling → ∃ t : State, exec (.assemblyDeadline i) s = .next t ∧ t.entryAt i = none ∧ othersKept i s t ∧
      t.dir.useCounts = s.dir.useCounts ∧ t.dir.segs = s.dir.segs.filter (fun g => !decide (g.slot = i)) ∧
      t.dir.retired = s.dir.retired ∧ EventSet.holds t.host.events .entryRemoved = true ∧
      (s.playsAt i = false → t.arb = s.arb) ∧ (s.playsAt i = true → s.selects t) ∧
      ((∀ q ∈ s.rcpt.queue, q.handle ≠ s.handleOf i) → t.rcpt = s.rcpt) ∧ RecordGone (s.handleOf i) s t ∧ Work s t) ∧
    (e.state ≠ .assembling → exec (.assemblyDeadline i) s = .next (s.setDir { s.dir with
      entries := s.dir.entries.set i (some { e with incoming := none })
      segs := s.dir.segs.filter (fun g => !(decide (g.slot = i) && decide (g.group = .incoming))) }))

/-- The eviction order (R74, Table 23): a victim is never ACTIVE nor of class 1, an ASSEMBLING one has a class number above
the page's, an ACKNOWLEDGED one has no receipt under way, and no victim is found exactly when no entry is a candidate. The
victim stands at the first step that has a candidate, is the one of earliest time there, and of equal times the lowest
slot. Eviction gives a missing page its slot (R73, R75), and a part its segment, passing over the entry that receives it
and those that own none (R78); without a victim the page earns FULL and changes nothing there (R76). Either way the page is
then worked as one that finds the room free; the victim's receipt record fails (R75, R165). That holds of a part that joins a
revision and of one that starts a revision; a miss, a restart and a revival lead to such a start by the last clauses of
SinglePartIssueCompletes and PartsAssembleIntoContent. -/
def Obligations.VictimIsEvictable : Prop :=
  (∀ (s : State) (may : EntrySlot → Bool) (page : AlertClass),
    (∀ v, s.victim may page = some v → may v = true ∧ ∃ e, s.entryAt v = some e ∧ e.cls ≠ .national ∧
      (e.state = .cancelled ∨ (e.state = .acknowledged ∧ e.receipt ≠ .queued ∧ e.receipt ≠ .offered) ∨
        e.state = .held ∨ (e.state = .assembling ∧ page.num < e.cls.num))) ∧
    (s.victim may page = none → ∀ v e, may v = true → s.entryAt v = some e →
      e.state = .active ∨ (e.state = .assembling ∧ e.cls.num ≤ page.num) ∨ e.cls = .national ∨
      (e.state = .acknowledged ∧ (e.receipt = .queued ∨ e.receipt = .offered))) ∧
    (∀ v x, s.victim may page = some v → s.entryAt v = some x → x.state = .cancelled →
      ∀ j y, may j = true → s.entryAt j = some y → y.state = .cancelled → y.cls ≠ .national →
        x.restingAt.getD 0 < y.restingAt.getD 0 ∨ (x.restingAt.getD 0 = y.restingAt.getD 0 ∧ v ≤ j)) ∧
    (∀ v x, s.victim may page = some v → s.entryAt v = some x → ∃ k a, x.candidateFor page = some (k, a) ∧
      ∀ j y m b, may j = true → s.entryAt j = some y → y.candidateFor page = some (m, b) →
        k < m ∨ (k = m ∧ (a < b ∨ (a = b ∧ v ≤ j)))) ∧
    (s.victim may page = none ↔ ∀ j y, may j = true → s.entryAt j = some y → y.candidateFor page = none)) ∧
  (∀ (p : Page) (g : Governing) (s : State), s.entryOfKey (pageKey p) = none →
    s.retiredRecord (pageKey p) = none → (∀ j, (s.entryAt j).isSome = true) →
    (s.victim (fun _ => true) g.cls = none → workPage p g s = (s, .full)) ∧
    (∀ v x, s.victim (fun _ => true) g.cls = some v → s.entryAt v = some x →
      ∃ u, Evicted v x s u ∧ workPage p g s = workPage p g u) ∧
    (∀ v x, s.victim (fun _ => true) g.cls = some v → s.entryAt v = some x → s.dir.segs.length < 160 →
      p.action = .cancel ∨ p.partCount ≠ 1 →
      ∃ (t : State) (e : Entry), (workPage p g s).1 = t ∧ (workPage p g s).2 ≠ .full ∧ EvictedFor v x s t ∧
        t.entryAt v = some e ∧ e.key = pageKey p ∧ t.dir.useCounts = s.dir.useCounts.set v (s.dir.useCounts[v] + 1#8) ∧
        othersKept v s t ∧ (∀ y ∈ s.dir.segs, y.slot ≠ v → y ∈ t.dir.segs) ∧
        t.dir.segs.length ≤ (s.dir.segs.filter (fun y => !decide (y.slot = v))).length + 1)) ∧
  (∀ (p : Page) (g : Governing) (i : EntrySlot) (e : Entry) (inc : Incoming) (s : State),
    s.entryOfKey (pageKey p) = some (i, e) → e.cancel = none → e.incoming = some inc → p.action = .issue →
    p.revision = inc.revision → p.partCount = inc.partCount → p.partIndex ∉ inc.parts → 160 ≤ s.dir.segs.length →
    (s.victim (fun v => !decide (v = i) && s.ownsSegment v) g.cls = none → workPage p g s = (s, .full)) ∧
    (∀ v x, s.victim (fun v => !decide (v = i) && s.ownsSegment v) g.cls = some v → s.entryAt v = some x →
      (∃ k, 1 ≤ k ∧ k ≤ inc.partCount ∧ k ≠ p.partIndex ∧ k ∉ inc.parts) →
      ∃ t, workPage p g s = (t, .storedMore) ∧ v ≠ i ∧ EvictedFor v x s t ∧ t.entryAt v = none ∧
        t.dir.useCounts = s.dir.useCounts ∧
        t.dir.segs = s.dir.segs.filter (fun y => !decide (y.slot = v)) ++ [⟨i, .incoming, p.partIndex, p.text⟩] ∧
        (t.entryAt i).map (·.incoming) = some (some { inc with
          parts := inc.parts ++ [p.partIndex]
          part1 := if p.partIndex = 1 then some (pageDescriptive p) else inc.part1 }))) ∧
  (∀ (p : Page) (g : Governing) (i : EntrySlot) (e : Entry) (s : State),
    s.entryOfKey (pageKey p) = some (i, e) → e.cancel = none → p.action = .issue → s.dir.segs.length = 160 →
    (∃ inc, e.incoming = some inc ∧ p.revision = inc.revision ∧ p.partCount = inc.partCount ∧
        p.partIndex ∉ inc.parts) ∨
      (e.incoming = none ∧ newerThan p.revision (e.current.map (·.revision)) = true) →
    (s.victim (fun v => !decide (v = i) && s.ownsSegment v) g.cls = none → workPage p g s = (s, .full)) ∧
    (∀ v x, s.victim (fun v => !decide (v = i) && s.ownsSegment v) g.cls = some v → s.entryAt v = some x →
      v ≠ i ∧ ∃ u, Evicted v x s u ∧ u.dir.segs.length < 160 ∧ workPage p g s = workPage p g u))

/-- The fields present in each state of an entry are those of Table 21; requests and reminder deadlines only when ACTIVE,
backlog at most 2 (R65, R131, R167): kept by every step. -/
def Obligations.StepKeepsEntriesShaped : Prop :=
  ∀ s t : State, s.entriesShaped → step s = .next t → t.entriesShaped

/-! ### Assembler -/

/-- The revision order (R13): newer when 1 to 31 steps ahead modulo 64, so never both ways; 32 apart neither is newer;
every candidate is newer than an absent revision. -/
def Obligations.RevisionOrder : Prop :=
  ∀ c h : Revision,
    (newer c h = true ↔ 1 ≤ (c.toNat + 64 - h.toNat) % 64 ∧ (c.toNat + 64 - h.toNat) % 64 ≤ 31) ∧
    (sameAs c (some h) = true ↔ (c.toNat + 64 - h.toNat) % 64 = 0) ∧
    (newer c h = true → newer h c = false) ∧
    ((c.toNat + 64 - h.toNat) % 64 = 32 → newer c h = false ∧ newer h c = false) ∧
    newerThan c none = true ∧ sameAs c none = false ∧ newerThan c (some h) = newer c h

/-- A judged ISSUE page of one part whose key is in neither the directory nor the retired list, with a free slot and a
free segment, completes at once: the entry is presented, or HELD, by the area decision (R72, R73, R92, R96, R97, R99). One
of several parts begins an ASSEMBLING entry with its first part and the assembly deadline, and nothing is presented (R72,
R73, R92). Allocation takes the lowest free slot (R73). With any text store such a page is worked as one that hits the entry
just begun; when that earns FULL, the entry is gone again and only its use count and the DIRECTORY-PEAK stay raised (R72,
R76; that the peak stays is log 13, the model's choice). -/
def Obligations.SinglePartIssueCompletes : Prop :=
  (∀ (p : Page) (g : Governing) (i : EntrySlot) (s : State), s.entryOfKey (pageKey p) = none →
    s.retiredRecord (pageKey p) = none → s.lowestFreeEntry = some i → (∀ x ∈ s.dir.segs, x.slot ≠ i) →
    s.dir.segs.length < 160 → p.action = .issue → p.partIndex = 1 → p.partCount = 1 →
    ∃ (t : State) (e : Entry) (c : Content), workPage p g s = (t, .storedDone) ∧ t.entryAt i = some e ∧
      e.current = some c ∧ e.key = pageKey p ∧
      e.cls = g.cls ∧ e.provisional = g.provisional ∧ e.incoming = none ∧ c.revision = p.revision ∧
      c.partCount = 1 ∧ c.desc = pageDescriptive p ∧ c.completedAt = s.now ∧
      e.area = some (s.decideArea p.region g.cls p.area).result ∧
      e.expiry = some (s.now + (if p.validity = 0 then g.defaultValidity else p.validity) * 60000) ∧
      e.links = LinksSeen.only p.link ∧ e.changed = true ∧
      t.dir.useCounts = s.dir.useCounts.set i (s.dir.useCounts[i] + 1#8) ∧
      t.dir.segs = s.dir.segs ++ [⟨i, .current, 1, p.text⟩] ∧ (∀ j, j ≠ i → t.entryAt j = s.entryAt j) ∧
      t.rcpt = s.rcpt ∧ t.area = s.area ∧ Work s t ∧
      ((s.decideArea p.region g.cls p.area).hold = none →
        e.state = .active ∧ e.hold = none ∧
        e.request = some ⟨.alert, .cls g.cls, s.host.settings.attentionLength * 1000, 0, false⟩ ∧
        t.host.events = (post .newAlert s).host.events ∧ (s.arb.play ≠ none → t.arb = s.arb) ∧
        (s.arb.play = none → s.selects t)) ∧
      (∀ h, (s.decideArea p.region g.cls p.area).hold = some h →
        e.state = .held ∧ e.hold = some h ∧ e.restingAt = some s.now ∧ e.request = none ∧
        t.host.events = s.host.events ∧ t.arb = s.arb)) ∧
  (∀ (p : Page) (g : Governing) (i : EntrySlot) (s : State), s.entryOfKey (pageKey p) = none →
    s.retiredRecord (pageKey p) = none → s.lowestFreeEntry = some i → s.dir.segs.length < 160 → p.action = .issue →
    p.partCount ≠ 1 →
    ∃ t : State, workPage p g s = (t, .storedMore) ∧
      t.entryAt i = some {
        key := pageKey p, cls := g.cls, provisional := g.provisional, state := .assembling, hold := none,
        createdAt := s.now, restingAt := none, current := none,
        incoming := some ⟨p.revision, p.partCount, [p.partIndex], s.now + g.assemblyLimit * 1000,
          if p.partIndex = 1 then some ⟨p.carrier, p.language, p.validity, p.receiptRequested, p.area⟩ else none⟩,
        cancel := none, links := ⟨decide (p.link = .la), decide (p.link = .lb), p.link⟩, area := none, expiry := none,
        request := none, alerted := false, nextReminder := none, backlog := 0, given := 0, receipt := .idle,
        acknowledgedAt := none, changed := true } ∧
      (∀ j, j ≠ i → t.entryAt j = s.entryAt j) ∧
      t.dir.useCounts = s.dir.useCounts.set i (s.dir.useCounts[i] + 1#8) ∧
      t.dir.segs = s.dir.segs ++ [⟨i, .incoming, p.partIndex, p.text⟩] ∧ t.dir.retired = s.dir.retired ∧
      t.host = { s.host with cntG := { s.host.cntG with
        directoryPeak := max s.host.cntG.directoryPeak (s.occupancy + 1) } } ∧
      t.arb = s.arb ∧ t.rcpt = s.rcpt ∧ t.area = s.area ∧ Work s t) ∧
  (∀ s : State, (s.lowestFreeEntry = none ↔ ∀ j, (s.entryAt j).isSome = true) ∧
    (∀ i, s.lowestFreeEntry = some i ↔ s.entryAt i = none ∧ ∀ j < i, (s.entryAt j).isSome = true)) ∧
  (∀ p : Page, pageDescriptive p = ⟨p.carrier, p.language, p.validity, p.receiptRequested, p.area⟩ ∧
    LinksSeen.only p.link = ⟨decide (p.link = .la), decide (p.link = .lb), p.link⟩) ∧
  (∀ (p : Page) (g : Governing) (i : EntrySlot) (s w : State), s.entryOfKey (pageKey p) = none →
    s.retiredRecord (pageKey p) = none → s.lowestFreeEntry = some i → p.action = .issue →
    w = (s.allocated i).putEntry i (some (begunEntry p g s.now)) →
    w.entryOfKey (pageKey p) = some (i, begunEntry p g s.now) ∧
    ((workPage p g w).2 ≠ .full → workPage p g s = workPage p g w) ∧
    ((workPage p g w).2 = .full → workPage p g s = (s.allocated i, .full)) ∧
    (160 ≤ s.dir.segs.length → s.victim (fun v => !decide (v = i) && s.ownsSegment v) g.cls = none →
      workPage p g s = (s.allocated i, .full)))

/-- A page on a hit that earns HAVE-ALL, HAVE-PART, STALE or CONFLICT changes nothing but the links seen, and one that
earns FULL nothing at all (R76, R107). Which disposition is earned follows from the revisions: an ISSUE at a live entry by
Table 24 (R91, R93, R95), a CANCEL there (R103), either at a tombstone (R105, R106), either at a retired identity (R71).
There a part of the incoming revision that an expiry discarded in this moment earns HAVE-ALL too (R84); that R71 alone
answers it from the next moment on is log 24, the model's choice. -/
def Obligations.RepeatedPageOnlyJoinsLink : Prop :=
  (∀ (p : Page) (g : Governing) (i : EntrySlot) (e : Entry) (s : State), s.entryOfKey (pageKey p) = some (i, e) →
    ((workPage p g s).2 = .haveAll ∨ (workPage p g s).2 = .havePart ∨ (workPage p g s).2 = .stale ∨
        (workPage p g s).2 = .conflict →
      (workPage p g s).1 = s.putEntry i (some { e with
        links := e.links.join p.link, changed := e.changed || decide (e.links.join p.link ≠ e.links) })) ∧
    ((workPage p g s).2 = .full → (workPage p g s).1 = s) ∧ (workPage p g s).2 ≠ .ignored ∧
    (p.action = .issue → e.cancel = none → ∀ inc, e.incoming = some inc → p.revision = inc.revision →
      (p.partCount ≠ inc.partCount → (workPage p g s).2 = .conflict) ∧
      (p.partCount = inc.partCount → p.partIndex ∈ inc.parts → (workPage p g s).2 = .havePart) ∧
      (p.partCount = inc.partCount → p.partIndex ∉ inc.parts →
        (workPage p g s).2 = .storedMore ∨ (workPage p g s).2 = .storedDone ∨ (workPage p g s).2 = .full)) ∧
    (p.action = .issue → e.cancel = none → (∀ inc, e.incoming = some inc → p.revision ≠ inc.revision) →
      (sameAs p.revision (e.current.map (·.revision)) = true → (workPage p g s).2 = .haveAll) ∧
      (sameAs p.revision (e.current.map (·.revision)) = false →
        newerThan p.revision (e.current.map (·.revision)) = true ∧
            newerThan p.revision (e.incoming.map (·.revision)) = true →
          (workPage p g s).2 = .storedMore ∨ (workPage p g s).2 = .storedDone ∨ (workPage p g s).2 = .full) ∧
      (sameAs p.revision (e.current.map (·.revision)) = false →
        newerThan p.revision (e.current.map (·.revision)) = false ∨
            newerThan p.revision (e.incoming.map (·.revision)) = false → (workPage p g s).2 = .stale)) ∧
    (p.action = .cancel → e.cancel = none →
      (sameAs p.revision (e.current.map (·.revision)) = true ∨ sameAs p.revision (e.incoming.map (·.revision)) = true →
        (workPage p g s).2 = .conflict) ∧
      (newerThan p.revision (e.current.map (·.revision)) = true ∧
          newerThan p.revision (e.incoming.map (·.revision)) = true → (workPage p g s).2 = .storedDone) ∧
      (sameAs p.revision (e.current.map (·.revision)) = false →
        sameAs p.revision (e.incoming.map (·.revision)) = false →
        newerThan p.revision (e.current.map (·.revision)) = false ∨
            newerThan p.revision (e.incoming.map (·.revision)) = false → (workPage p g s).2 = .stale)) ∧
    (∀ k, e.cancel = some k →
      (p.revision = k.revision →
        (workPage p g s).2 = match p.action with | .issue => .conflict | .cancel => .haveAll) ∧
      (newer p.revision k.revision = true → p.action = .cancel → (workPage p g s).2 = .storedDone) ∧
      (newer p.revision k.revision = true → p.action = .issue →
        (workPage p g s).2 = .storedMore ∨ (workPage p g s).2 = .storedDone ∨ (workPage p g s).2 = .full) ∧
      (p.revision ≠ k.revision → newer p.revision k.revision = false → (workPage p g s).2 = .stale))) ∧
  (∀ (p : Page) (g : Governing) (r : Retired) (s : State), s.entryOfKey (pageKey p) = none →
    s.retiredRecord (pageKey p) = some r →
    (newer p.revision r.revision = false → workPage p g s = (s, .haveAll)) ∧
    (∀ d, r.discarded = some d → d.moment = s.now → p.action = .issue → p.revision = d.revision →
      p.partCount = d.partCount → p.partIndex ∈ d.parts → workPage p g s = (s, .haveAll)) ∧
    (newer p.revision r.revision = true →
      (∀ d, r.discarded = some d → d.moment ≠ s.now ∨ p.action = .cancel ∨ p.revision ≠ d.revision ∨
        p.partCount ≠ d.partCount ∨ p.partIndex ∉ d.parts) →
      workPage p g s = workPage p g (s.setDir { s.dir with
        retired := s.dir.retired.filter (fun x => !decide (x.key = pageKey p)) }))) ∧
  (∀ (k : Key) (s : State),
    (s.entryOfKey k = none ↔ ∀ j y, s.entryAt j = some y → y.key ≠ k) ∧
    (∀ i e, s.entryOfKey k = some (i, e) → s.entryAt i = some e ∧ e.key = k) ∧
    (s.retiredRecord k = none ↔ ∀ y ∈ s.dir.retired, y.key ≠ k) ∧
    (∀ r, s.retiredRecord k = some r → r ∈ s.dir.retired ∧ r.key = k)) ∧
  (∀ (x : LinksSeen) (l : LinkId),
    x.join l = ⟨x.la || decide (l = .la), x.lb || decide (l = .lb), x.first⟩)

/-- A CANCEL page newer than both revisions of the entry it hits makes the entry a tombstone (R103, R104, R107); one newer
than the cancel revision of a tombstone renews that revision only (R105); one that misses makes a tombstone of its own in
the lowest free slot (R72, R73). -/
def Obligations.CancelMakesTombstone : Prop :=
  (∀ (p : Page) (g : Governing) (i : EntrySlot) (e : Entry) (s : State), s.entryOfKey (pageKey p) = some (i, e) →
    e.cancel = none → p.action = .cancel → newerThan p.revision (e.current.map (·.revision)) = true →
    newerThan p.revision (e.incoming.map (·.revision)) = true →
    ∃ t : State, workPage p g s = (t, .storedDone) ∧
      t.entryAt i = some { e with
        state := .cancelled, hold := none, current := none, incoming := none,
        cancel := some ⟨p.revision, p.carrier⟩, area := none, nextReminder := none, backlog := 0, request := none,
        expiry := some (s.now + g.defaultValidity * 60000), restingAt := some s.now,
        links := e.links.join p.link, changed := true } ∧
      (∀ j, j ≠ i → t.entryAt j = s.entryAt j) ∧ t.dir.useCounts = s.dir.useCounts ∧
      t.dir.segs = s.dir.segs.filter (fun x => !decide (x.slot = i)) ∧ t.dir.retired = s.dir.retired ∧
      t.rcpt = s.rcpt ∧ t.area = s.area ∧ EventSet.holds t.host.events .alertCancelled = true ∧
      (s.playsAt i = false → t.arb = s.arb) ∧ (s.playsAt i = true → s.selects t) ∧ Work s t) ∧
  (∀ (p : Page) (g : Governing) (i : EntrySlot) (e : Entry) (k : CancelMark) (s : State),
    s.entryOfKey (pageKey p) = some (i, e) → e.cancel = some k → p.action = .cancel →
    newer p.revision k.revision = true →
    workPage p g s = (s.putEntry i (some { e with
      cancel := some ⟨p.revision, p.carrier⟩, links := e.links.join p.link, changed := true }), .storedDone)) ∧
  (∀ (p : Page) (g : Governing) (i : EntrySlot) (s : State), s.entryOfKey (pageKey p) = none →
    s.retiredRecord (pageKey p) = none → s.lowestFreeEntry = some i → p.action = .cancel →
    ∃ (t : State) (e : Entry), workPage p g s = (t, .storedDone) ∧ t.entryAt i = some e ∧ e.state = .cancelled ∧
      e.key = pageKey p ∧ e.cls = g.cls ∧ e.provisional = g.provisional ∧ e.current = none ∧ e.incoming = none ∧
      e.cancel = some ⟨p.revision, p.carrier⟩ ∧ e.createdAt = s.now ∧ e.restingAt = some s.now ∧
      e.expiry = some (s.now + g.defaultValidity * 60000) ∧ e.links = LinksSeen.only p.link ∧ e.receipt = .idle ∧
      e.alerted = false ∧ e.request = none ∧ e.changed = true ∧ (∀ j, j ≠ i → t.entryAt j = s.entryAt j) ∧
      t.dir.useCounts = s.dir.useCounts.set i (s.dir.useCounts[i] + 1#8) ∧ t.dir.segs = s.dir.segs ∧
      t.dir.retired = s.dir.retired ∧ t.host.events = (post .alertCancelled s).host.events ∧
      t.host.cntG = { s.host.cntG with directoryPeak := max s.host.cntG.directoryPeak (s.occupancy + 1) } ∧
      t.arb = s.arb ∧ t.rcpt = s.rcpt ∧ t.area = s.area ∧ Work s t)

/-! ### Area decision unit -/

/-- SET_POSITION (R112) takes the position trigger, which selects the HELD entries of reason AREA or NEAR with a polygon
(Table 30). A trigger appends the handles of the HELD entries it selects in slot order: a listed handle keeps its place, and
a stale handle of a slot newly listed leaves (R124, R125). -/
def Obligations.SetPositionReplacesRecord : Prop :=
  (∀ (body : List Byte) (s : State), s.portIdle → body.length = 12 →
    (-9000000 ≤ signedAt body 0 ∧ signedAt body 0 ≤ 9000000 ∧ -18000000 ≤ signedAt body 4 ∧
        signedAt body 4 ≤ 17999999 →
      exec (.setPosition (framed body)) s = .next ((trigger selectedByPosition ((s.taken 12).setArea { s.area with
        position := some ⟨signedAt body 0, signedAt body 4, fieldAt body 8 2, fieldAt body 10 2, s.now⟩ })).answered
        ⟨.ok, []⟩)) ∧
    (¬ (-9000000 ≤ signedAt body 0 ∧ signedAt body 0 ≤ 9000000 ∧ -18000000 ≤ signedAt body 4 ∧
        signedAt body 4 ≤ 17999999) →
      exec (.setPosition (framed body)) s = .next ((s.taken 12).answered ⟨.badValue, []⟩))) ∧
  (∀ e : Entry, selectedByPosition e = true ↔
    (e.hold = some .area ∨ e.hold = some .near) ∧
      ∃ c vs m, e.current = some c ∧ c.desc.area = some (.polygon vs m)) ∧
  (∀ (p : Entry → Bool) (s : State) (chosen : List Handle),
    chosen = ((List.finRange 48).filter (fun i => (s.entryAt i).any (fun e => decide (e.state = .held) && p e))).map
      s.handleOf →
    trigger p s = s.setArea { s.area with
      redecide :=
        s.area.redecide.filter (fun g => chosen.all (fun h => decide (h.slot ≠ g.slot) || decide (h ∈ s.area.redecide))) ++
        chosen.filter (fun h => decide (h ∉ s.area.redecide)) })

/-- CLEAR_POSITION makes the record absent and takes no trigger; without a position a polygon is decided UNDECIDED, which
presents (R113). -/
def Obligations.ClearPositionLeavesPolygonsUndecided : Prop :=
  ∀ s : State, s.portIdle →
    exec (.clearPosition (framed [])) s = .next (((s.taken 0).setArea { s.area with position := none }).answered
      ⟨.ok, []⟩) ∧
    (s.area.position = none → ∀ region vs malformed policy,
      s.areaDecision region (some (.polygon vs malformed)) = .undecided ∧
      holdFor policy (s.areaDecision region (some (.polygon vs malformed))) = none)

/-- REDECISION: the head of the list is removed; a stale handle or an entry not HELD is dropped, a HELD entry is decided
again and stays HELD or is presented (R126, R127). -/
def Obligations.RedecisionWorksHead : Prop :=
  ∀ (h : Handle) (rest : List Handle) (s : State), s.area.redecide = h :: rest →
    ((∀ e, s.named h = some e → e.state ≠ .held) →
      exec .redecision s = .next (s.setArea { s.area with redecide := rest })) ∧
    (∀ e, s.named h = some e → e.state = .held →
      (∀ x, (s.decideArea e.key.region e.cls e.areaBlock).hold = some x →
        exec .redecision s = .next ((s.setArea { s.area with redecide := rest }).putEntry h.slot (some { e with
          area := some (s.decideArea e.key.region e.cls e.areaBlock).result
          hold := some x
          changed := e.changed || decide (e.area ≠ some (s.decideArea e.key.region e.cls e.areaBlock).result) ||
            decide (e.hold ≠ some x) }))) ∧
      ((s.decideArea e.key.region e.cls e.areaBlock).hold = none →
        ∃ t : State, exec .redecision s = .next t ∧
          t.entryAt h.slot = some { e with
            state := .active, hold := none, restingAt := none,
            area := some (s.decideArea e.key.region e.cls e.areaBlock).result,
            nextReminder := none, backlog := 0, given := 0, changed := true,
            request := some ⟨.alert, .cls e.cls, s.host.settings.attentionLength * 1000, 0, false⟩ } ∧
          (∀ j, j ≠ h.slot → t.entryAt j = s.entryAt j) ∧ t.area = { s.area with redecide := rest } ∧
          t.rcpt = s.rcpt ∧ t.dir.segs = s.dir.segs ∧ t.dir.retired = s.dir.retired ∧
          t.host.events = (post .newAlert s).host.events ∧ (s.arb.play ≠ none → t.arb = s.arb) ∧
          (s.arb.play = none → s.selects t) ∧ Work s t))

/-- The decision (R115, R116, R118, Table 28): an opted-out class, no area block, the cell-prefix test over the most
significant bits, a malformed polygon and a polygon without a usable position; what each decision leads to. A link is a
witness when it is UP and serves the entry's region (R117). The polygon test: unwrapped longitudes (R119), an odd number of
counting edges (R120), else the box widened by the margins (R122, Table 29, R123). -/
def Obligations.AreaDecisionByTests : Prop :=
  (∀ (s : State) (region : Nat) (c : AlertClass) (area : Option AreaBlock) (es : List PrefixEntry) (vs : List Vertex),
    (s.host.settings.enabled c = false →
      s.decideArea region c area = ⟨⟨.undecided, AreaBlock.mark area⟩, some .optedOut⟩) ∧
    (s.host.settings.enabled c = true →
      s.decideArea region c area = ⟨⟨s.areaDecision region area, AreaBlock.mark area⟩,
        holdFor s.host.settings.nearPolicy (s.areaDecision region area)⟩) ∧
    (s.host.settings.enabled .national = true) ∧ s.areaDecision region none = .inside ∧
    ((∀ l, (s.link l).witness region = none) → s.areaDecision region (some (.cells es)) = .undecided) ∧
    ((∃ l tag e, (s.link l).witness region = some tag ∧ e ∈ es ∧ e.len ≤ 32 ∧
        ∀ k < e.len, tag.getMsbD k = e.base.getMsbD k) → s.areaDecision region (some (.cells es)) = .inside) ∧
    ((∃ l tag, (s.link l).witness region = some tag) →
      (∀ l tag e, (s.link l).witness region = some tag → e ∈ es →
        e.len ≤ 32 ∧ ∃ k < e.len, tag.getMsbD k ≠ e.base.getMsbD k) →
      s.areaDecision region (some (.cells es)) = .outside) ∧
    s.areaDecision region (some (.polygon vs true)) = .undecided ∧
    (∀ pos, s.area.position = some pos →
      (s.host.settings.staleLimit < (s.now - pos.setAt) / 1000 + pos.fixAge →
        s.areaDecision region (some (.polygon vs false)) = .undecided) ∧
      ((s.now - pos.setAt) / 1000 + pos.fixAge ≤ s.host.settings.staleLimit →
        s.areaDecision region (some (.polygon vs false)) = polygonTest pos s.host.settings.nearDistance vs)) ∧
    (∀ policy, holdFor policy .inside = none ∧ holdFor policy .outside = some .area ∧
      holdFor policy .undecided = none ∧ holdFor .present .near = none ∧ holdFor .hold .near = some .near) ∧
    s.host.settings.enabled .extreme = s.host.settings.enable2 ∧
    s.host.settings.enabled .severe = s.host.settings.enable3 ∧
    s.host.settings.enabled .advisory = s.host.settings.enable4 ∧
    s.host.settings.enabled .exercise = s.host.settings.enable5 ∧
    (∀ l tag, (s.link l).witness region = some tag ↔
      (s.link l).state = .up ∧ ∃ network district, (s.link l).serving = .service network region tag district)) ∧
  (∀ (pos : Position) (near : Nat) (v0 : Vertex) (rest : List Vertex) (x : Int → Int) (at_ : Nat → Vertex)
      (counts : Nat → Bool) (mlat mlon : Int),
    (∀ y, x y = if y - v0.lon < -18000000 then y + 36000000 else if 17999999 < y - v0.lon then y - 36000000 else y) →
    (∀ k, at_ k = (v0 :: rest).getD (k % (rest.length + 1)) v0) →
    (∀ k, counts k = true ↔
      ((at_ k).lat ≤ pos.lat ∧ pos.lat < (at_ (k + 1)).lat ∧
        (x pos.lon - x (at_ k).lon) * ((at_ (k + 1)).lat - (at_ k).lat) <
          (pos.lat - (at_ k).lat) * (x (at_ (k + 1)).lon - x (at_ k).lon)) ∨
      ((at_ (k + 1)).lat ≤ pos.lat ∧ pos.lat < (at_ k).lat ∧
        (pos.lat - (at_ k).lat) * (x (at_ (k + 1)).lon - x (at_ k).lon) <
          (x pos.lon - x (at_ k).lon) * ((at_ (k + 1)).lat - (at_ k).lat))) →
    mlat = ((min (pos.radius + near) 65535 * 1000 + 1112) / 1113 : Nat) →
    mlon = (match [1008, 962, 886, 784, 658, 512, 350, 177][pos.lat.natAbs / 1000000]? with
      | some c => min ((mlat.toNat * 1024 + (c - 1)) / c) 36000000
      | none => 36000000 : Nat) →
    (polygonTest pos near (v0 :: rest) = .inside ↔ (List.range (rest.length + 1)).countP counts % 2 = 1) ∧
    (polygonTest pos near (v0 :: rest) = .near ↔ (List.range (rest.length + 1)).countP counts % 2 = 0 ∧
      (∃ v ∈ v0 :: rest, x v.lon - mlon ≤ x pos.lon) ∧ (∃ v ∈ v0 :: rest, x pos.lon ≤ x v.lon + mlon) ∧
      (∃ v ∈ v0 :: rest, v.lat - mlat ≤ pos.lat) ∧ (∃ v ∈ v0 :: rest, pos.lat ≤ v.lat + mlat)) ∧
    polygonTest pos near (v0 :: rest) ≠ .undecided)

/-! ### Attention arbiter -/

/-- Selection on an IDLE generator (R134, R135): the highest level that holds a waiting request, in it the first slot
after the round-robin pointer; nothing waiting, nothing changes. -/
def Obligations.SelectionTakesHighestThenRoundRobin : Prop :=
  ∀ s : State, s.arb.play = none →
    (∀ lv i e r, s.waitsAt lv i = true → s.entryAt i = some e → e.request = some r →
      (∀ lv' j, s.waitsAt lv' j = true → lv.rank ≤ lv'.rank) →
      (∀ j, s.waitsAt lv j = true → searchDistance (s.pointer lv) i ≤ searchDistance (s.pointer lv) j) →
      select s = s.setArb
        { pointers := s.arb.pointers.set lv.index i
          play := some ⟨s.handleOf i, patternOf r.kind e.cls, 0, 0, 0⟩ }) ∧
    ((∀ i e, s.entryAt i = some e → e.request = none) → select s = s) ∧ s.selects (select s)

/-- PLAY_END and SILENCED_PLAY_END: the play's request is removed as heard, an ALERT marking its entry and starting its
reminders, a REMINDER counted as given; then selection (R141, R144, R166, R168). -/
def Obligations.PlayEndsAsHeard : Prop :=
  ∀ (c : Instr) (p : Play) (e : Entry) (r : Request) (s : State), s.playingRequest = some (p, e, r) →
    (c = .playEnd ∧ r.remaining = 0) ∨
      (c = .silencedPlayEnd ∧ r.silenced = true ∧ s.host.settings.minimumPlay * 1000 ≤ r.played) →
    ∃ t : State, exec c s = .next t ∧
      (r.kind = .alert → t.entryAt p.handle.slot = some { e with
        request := none
        alerted := true
        changed := e.changed || !e.alerted
        nextReminder := if 0 < e.interval ∧ 0 < e.limit ∧ e.given + e.backlog < e.limit
          then some (s.now + e.interval * 60000) else e.nextReminder }) ∧
      (r.kind = .reminder → t.entryAt p.handle.slot = some { e with
        request := none
        given := e.given + 1
        backlog := 0
        nextReminder := if e.given + 1 = e.limit then none else e.nextReminder }) ∧
      (∀ j, j ≠ p.handle.slot → t.entryAt j = s.entryAt j) ∧ s.selects t ∧
      t = { s with dir := { s.dir with entries := t.dir.entries }, arb := t.arb } ∧
      (e.current = none → e.interval = 0 ∧ e.limit = 0) ∧
      (∀ x, e.current = some x → e.interval = x.rules.reminderInterval ∧ e.limit = x.rules.reminderLimit)

/-- PREEMPTION and YIELD: the play stops at its point, every request keeps its fields, and another request is selected
(R137, R138); an escalated reminder that has played its minimum play this turn may yield to its new level, and a YIELD
that comes then is carried out (R139, log 26). A silenced play does neither (R144). That a YIELD begins another entry's
play where the level changed while it played is log 12 (the search starts after the yielding slot, R138, and not after
R134's pointer). That every pointer but the served level's stands, also where the level of the play preempted, or yielding
to a higher level, changed while it played, is log 27, the model's choice: R134 says that such a request keeps its level's
pointer on its own slot. -/
def Obligations.PlayIsPreemptedOrYields : Prop :=
  ∀ (c : Instr) (p : Play) (e : Entry) (r : Request) (s : State), s.playingRequest = some (p, e, r) →
    (0 < r.remaining → r.silenced = false →
    (c = .preemption ∧ s.host.settings.minimumPlay * 1000 ≤ p.turn ∧
        ∃ i q, s.waitingRequest i = some q ∧ q.level.rank < r.level.rank) ∨
      (c = .yield ∧
        (s.host.settings.minimumPlay * 1000 + s.host.settings.maximumPlay * 1000 ≤ p.turn ∨
          r.kind = .reminder ∧ r.level ≠ .trickle ∧ s.host.settings.minimumPlay * 1000 ≤ p.turn) ∧
        ∃ i q, s.waitingRequest i = some q ∧ q.level = r.level) →
    ∃ (a : Arbiter) (q : Play), exec c s = .next (s.setArb a) ∧ a.play = some q ∧
      q.handle.slot ≠ p.handle.slot ∧ (c = .preemption → s.selects (s.setArb a)) ∧
      (c = .yield → s.selectsFrom (s.yieldStart p r) (s.setArb a))) ∧
    (r.silenced = true → exec .preemption s = .next s ∧ exec .yield s = .next s)

/-- CADENCE_SEGMENT_END: at the end of a segment the next one begins, the first after the last (R145). TONE and VIB are
high in the ON segments of the play, each under its gate, DWAKE while an ALERT plays, at every moment of a play; all three
are low without one (R146, R147, R148). Patterns and their users are those of Table 34. -/
def Obligations.CadenceMovesToNextSegment : Prop :=
  (∀ (p : Play) (s : State), s.arb.play = some p → p.segment < p.pattern.segments.length →
    p.segmentNow.2 ≤ p.into →
    exec .cadenceSegmentEnd s = .next (s.setArb { s.arb with play := some { p with
      segment := if p.segment + 1 = p.pattern.segments.length then 0 else p.segment + 1, into := 0 } })) ∧
  (∀ (p : Play) (e : Entry) (s : State), s.arb.play = some p → s.named p.handle = some e →
    s.tone = (p.segmentNow.1 && (decide (e.cls.num ≤ 2) || s.host.settings.toneEnable)) ∧
    s.vib = (p.segmentNow.1 && (decide (e.cls.num ≤ 1) || s.host.settings.vibrationEnable)) ∧
    (∀ r, e.request = some r → s.dwake = decide (r.kind = .alert))) ∧
  (∀ s : State, s.arb.play = none → s.tone = false ∧ s.vib = false ∧ s.dwake = false) ∧
  (∀ p : Play, ∀ h : p.segment < p.pattern.segments.length, p.segmentNow = p.pattern.segments[p.segment]) ∧
  (Pattern.p1.segments = [(true, 2000), (false, 500), (true, 500), (false, 500)] ∧
    Pattern.p2.segments = [(true, 1000), (false, 1000)] ∧ Pattern.p3.segments = [(true, 500), (false, 2000)] ∧
    Pattern.pr.segments = [(true, 500), (false, 500), (true, 500)]) ∧
  (∀ c : AlertClass, patternOf .reminder c = .pr ∧
    patternOf .alert c = if c.num ≤ 2 then .p1 else if c.num ≤ 4 then .p2 else .p3)

/-- SILENCE: each request of a class-1 entry that has not played the minimum is marked, every other removed as heard; a
play whose request is spared goes on, one whose request is removed stops and selection follows (R143, R144). -/
def Obligations.SilenceSparesOnlyUnheardNational : Prop :=
  ∀ s : State, s.portIdle →
    ∃ t : State, exec (.silence (framed [])) s = .next (t.answered ⟨.ok, []⟩) ∧
      t = { s.taken 0 with dir := { s.dir with entries := t.dir.entries }, arb := t.arb } ∧
      (∀ i, s.entryAt i = none → t.entryAt i = none) ∧
      (∀ i e, s.entryAt i = some e → e.request = none → t.entryAt i = some e) ∧
      (∀ i e r, s.entryAt i = some e → e.request = some r →
        (e.cls = .national ∧ r.played < s.host.settings.minimumPlay * 1000 →
          t.entryAt i = some { e with request := some { r with silenced := true } }) ∧
        (¬ (e.cls = .national ∧ r.played < s.host.settings.minimumPlay * 1000) →
          t.entryAt i = some (heardEntry s.now r.kind { e with request := none }))) ∧
      (s.playingRequest = none → t.arb = s.arb) ∧
      (∀ p e r, s.playingRequest = some (p, e, r) →
        (e.cls = .national ∧ r.played < s.host.settings.minimumPlay * 1000 → t.arb = s.arb) ∧
        (¬ (e.cls = .national ∧ r.played < s.host.settings.minimumPlay * 1000) → s.selects t)) ∧
      (∀ n e, heardEntry n .alert e = { e with
        alerted := true
        changed := e.changed || !e.alerted
        nextReminder := if 0 < e.interval ∧ 0 < e.limit ∧ e.given + e.backlog < e.limit
          then some (n + e.interval * 60000) else e.nextReminder }) ∧
      (∀ n e, heardEntry n .reminder e = { e with
        given := e.given + 1, backlog := 0, nextReminder := if e.given + 1 = e.limit then none else e.nextReminder })

/-! ### Acknowledgement, reminders and receipts -/

/-- ACKNOWLEDGE by the handle and the entry's state (R152, R153, R154, R155); a request that played stops and selection
follows (R142), and a receipt is OFFERED exactly when its link can take it at once (R157). Its id is the first free place
after the last given (R155); of the queue nothing else changes but that the link's oldest QUEUED record is offered. -/
def Obligations.AcknowledgeByState : Prop :=
  ∀ (b u : Byte) (s : State), s.portIdle →
    (48 ≤ b.toNat → exec (.acknowledge (framed [b, u])) s = .next ((s.taken 2).answered ⟨.badValue, []⟩)) ∧
    (∀ i : EntrySlot, b = BitVec.ofNat 8 i.val →
      (s.named ⟨i, u⟩ = none →
        exec (.acknowledge (framed [b, u])) s = .next ((s.taken 2).answered ⟨.staleHandle, []⟩)) ∧
      (∀ e, s.named ⟨i, u⟩ = some e →
        (e.state = .assembling ∨ e.state = .cancelled →
          exec (.acknowledge (framed [b, u])) s = .next ((s.taken 2).answered ⟨.wrongState, []⟩)) ∧
        (e.state = .acknowledged →
          exec (.acknowledge (framed [b, u])) s = .next ((s.taken 2).answered ⟨.ok, [1#8, e.receipt.code]⟩)) ∧
        (e.state = .active ∨ e.state = .held →
          ∃ (t : State) (x : ReceiptState),
            exec (.acknowledge (framed [b, u])) s = .next (t.answered ⟨.ok, [0#8, x.code]⟩) ∧
            t.entryAt i = some { e with
              state := .acknowledged, hold := none, acknowledgedAt := some s.now, restingAt := some s.now,
              nextReminder := none, backlog := 0, request := none, changed := true, receipt := x } ∧
            othersKept i s t ∧ Work (s.taken 2) t ∧
            (s.playsAt i = false → t.arb = s.arb) ∧ (s.playsAt i = true → s.selects t) ∧
            (∀ c, e.current = some c →
              (c.desc.receiptRequested = false ∨ c.rules.receiptsAllowed = false ∨
                  (e.receipt ≠ .idle ∧ e.receipt ≠ .sent) → x = e.receipt ∧ t.rcpt = s.rcpt ∧
                    t.host = (s.taken 2).host ∧ ∀ l, t.link l = s.link l) ∧
              (c.desc.receiptRequested = true → c.rules.receiptsAllowed = true →
                  e.receipt = .idle ∨ e.receipt = .sent →
                (16 ≤ s.rcpt.queue.length → x = .failed .queueFull ∧ t.rcpt = s.rcpt ∧
                  EventSet.holds t.host.events .receiptDone = true ∧
                  t.host.cntG.receiptsFailed = min (s.host.cntG.receiptsFailed + 1) 65535 ∧ ∀ l, t.link l = s.link l) ∧
                (s.rcpt.queue.length < 16 → (x = .queued ∨ x = .offered) ∧ t.host = (s.taken 2).host ∧
                  ((∀ y ∈ s.rcpt.queue, y.handle ≠ ⟨i, u⟩) → (x = .offered ↔
                    (s.link e.links.first).state = .up ∧ (s.link e.links.first).outstanding = none ∧
                      ∀ y ∈ s.rcpt.queue, y.target = e.links.first → y.state ≠ .queued)) ∧
                  ∃ r ∈ t.rcpt.queue, (x = .offered → (∀ y ∈ s.rcpt.queue, y.handle ≠ ⟨i, u⟩) →
                      r.state = .offered ∧ r.deadline = some (s.now + 30000) ∧
                      (t.link e.links.first).outstanding = some r.id ∧
                      OutFrame.receipt r.id r.key r.revision r.delay ∈ (t.link e.links.first).outQ) ∧
                    t.rcpt.lastId = r.id ∧ r.handle = ⟨i, u⟩ ∧ r.key = e.key ∧
                    r.revision = c.revision ∧ r.delay = min ((s.now - c.completedAt) / 1000) 65535 ∧
                    r.target = e.links.first ∧ r.attempts = 0 ∧ (∀ y ∈ s.rcpt.queue, y.id ≠ r.id) ∧
                    t.rcpt.queue.map (·.id) = s.rcpt.queue.map (·.id) ++ [r.id] ∧
                    (∃ k < 16, r.id.val = (s.rcpt.lastId.val + 1 + k) % 16 ∧
                      ∀ m < k, ∃ y ∈ s.rcpt.queue, y.id.val = (s.rcpt.lastId.val + 1 + m) % 16) ∧
                    (x = .queued → r.state = .queued ∧ r.deadline = none) ∧
                    ∀ n, n = { r with state := .queued, deadline := none } →
                      ((s.link e.links.first).state ≠ .up ∨ (s.link e.links.first).outstanding ≠ none →
                        t.rcpt.queue = s.rcpt.queue ++ [n] ∧ ∀ l, t.link l = s.link l) ∧
                      ((s.link e.links.first).state = .up → (s.link e.links.first).outstanding = none →
                        (s.rcpt.queue.map (·.id)).Nodup → ∀ a y z, s.rcpt.queue ++ [n] = a ++ y :: z →
                        y.target = e.links.first → y.state = .queued →
                        (∀ w ∈ a, w.target = e.links.first → w.state ≠ .queued) →
                        t.rcpt.queue = a ++ { y with state := .offered, deadline := some (s.now + 30000) } :: z ∧
                        t.link e.links.first = { s.link e.links.first with
                          outstanding := some y.id
                          outQ := pushFrame (s.link e.links.first).outQ (.receipt y.id y.key y.revision y.delay) } ∧
                        t.link e.links.first.other = s.link e.links.first.other)))))))

/-- REMINDER_DEADLINE: backlog, next deadline, request and escalation, and no event (R167, R133). -/
def Obligations.ReminderFallsDue : Prop :=
  ∀ (i : EntrySlot) (e : Entry) (d : Nat) (s : State), s.entryAt i = some e → e.state = .active →
    e.nextReminder = some d → d ≤ s.now →
    ∃ t : State, exec (.reminderDeadline i) s = .next t ∧
      t.entryAt i = some { e with
        backlog := min (e.backlog + 1) 2
        nextReminder := if e.given + min (e.backlog + 1) 2 < e.limit then some (s.now + e.interval * 60000) else none
        request :=
          match e.request with
          | none => some ⟨.reminder, if 1 ≤ e.backlog then .cls e.cls else .trickle, 1500, 0, false⟩
          | some r => if r.kind = .reminder ∧ 1 ≤ e.backlog then some { r with level := .cls e.cls } else some r } ∧
      (∀ j, j ≠ i → t.entryAt j = s.entryAt j) ∧ (s.arb.play ≠ none → t.arb = s.arb) ∧
      (e.request = none → s.arb.play = none → t.arb.play ≠ none) ∧
      (e.request = none → s.arb.play = none → e.backlog = 0 → s.selects t) ∧
      (e.request = none → s.arb.play = none → (∀ j y, j ≠ i → s.entryAt j = some y → y.request = none) →
        t.arb = ⟨s.arb.pointers.set Level.trickle.index i, some ⟨s.handleOf i, .pr, 0, 0, 0⟩⟩) ∧
      t = { s with dir := { s.dir with entries := t.dir.entries }, arb := t.arb }

/-- OFFER_DEADLINE: an offered record is refused: retargeted once to the other link when that is UP, and offered there if
the link is free (R157), else settled as FAILED, UNDELIVERED (R158, R160, R161); the refusing link, in UP, is then offered
its next QUEUED record (R157). -/
def Obligations.OfferDeadlineRefuses : Prop :=
  ∀ (id : ReceiptId) (r : ReceiptRecord) (d : Nat) (s : State), s.recordOf id = some r → r.state = .offered →
    r.deadline = some d → d ≤ s.now → (s.rcpt.queue.map (·.id)).Nodup →
    (∀ x ∈ s.rcpt.queue, x.handle = r.handle → x.id = id) →
    ∃ t : State, exec (.offerDeadline id) s = .next t ∧ RefusedBy r s t ∧ directoryKept s t ∧ Work s t ∧
      (r.attempts = 0 → (s.link r.target.other).state = .up → t.host = s.host) ∧
      ((s.link r.target).state = .up → s.nothingToOffer r.target.other → NextOffered r s t)

/-! ### Host command port -/

/-- GET_EVENTS returns the set, empties it and takes WAKE and ATN low (R179); SET_EVENT_MASK and SET_WAKE_ENABLE replace
their sets, and refuse a set that names anything but the ten kinds (R180, R181). A post adds its kind to the set and raises
WAKE when the kind is wake-enabled, and does nothing else (R178, R181). -/
def Obligations.EventCommands : Prop :=
  (∀ (k : EventKind) (s : State),
    (∀ j, EventSet.holds (post k s).host.events j = true ↔ j = k ∨ EventSet.holds s.host.events j = true) ∧
    ((post k s).host.wake = true ↔ s.host.wake = true ∨ EventSet.holds s.host.wakeEn k = true) ∧
    post k s = { s with host := { s.host with events := (post k s).host.events, wake := (post k s).host.wake } }) ∧
  ((∀ (e : EventSet) (k : EventKind), EventSet.holds e k = e.getLsbD k.code) ∧
    [EventKind.newAlert, .alertUpdated, .alertCancelled, .entryRemoved, .receiptDone, .linkFault, .linkState,
      .profileFallback, .directoryFull, .storeState].map EventKind.code = [0, 1, 2, 3, 4, 5, 6, 7, 8, 9]) ∧
  (∀ s : State, s.portIdle →
    exec (.getEvents (framed [])) s = .next (((s.taken 0).setHost { (s.taken 0).host with
      events := 0#10, wake := false }).answered ⟨.ok, bytesOf 2 s.host.events.toNat⟩) ∧
    (∀ t, exec (.getEvents (framed [])) s = .next t → t.atn = false) ∧
    (∀ m : EventSet,
      exec (.setEventMask (framed (bytesOf 2 m.toNat))) s = .next (((s.taken 2).setHost { (s.taken 2).host with
        mask := m }).answered ⟨.ok, []⟩) ∧
      exec (.setWakeEnable (framed (bytesOf 2 m.toNat))) s = .next (((s.taken 2).setHost { (s.taken 2).host with
        wakeEn := m }).answered ⟨.ok, []⟩)) ∧
    (∀ b c : Byte, 4 ≤ b.toNat →
      exec (.setEventMask (framed [b, c])) s = .next ((s.taken 2).answered ⟨.badValue, []⟩) ∧
      exec (.setWakeEnable (framed [b, c])) s = .next ((s.taken 2).answered ⟨.badValue, []⟩)) ∧
    (s.atn = true ↔ ∃ k, EventSet.holds s.host.events k = true ∧ EventSet.holds s.host.mask k = true))

/-- LIST: ALL names every occupied slot, CHANGED those with the changed flag and clears it; another selector is
BAD-VALUE (R174). -/
def Obligations.ListNamesLiveEntries : Prop :=
  ∀ s : State, s.portIdle →
    exec (.list (framed [1#8])) s = .next ((s.taken 1).answered ⟨.ok,
      BitVec.ofNat 8 ((List.finRange 48).countP (fun i => (s.entryAt i).isSome)) ::
        ((List.finRange 48).filter (fun i => (s.entryAt i).isSome)).flatMap
          (fun i => [BitVec.ofNat 8 i.val, s.dir.useCounts[i]])⟩) ∧
    (∃ t : State, exec (.list (framed [2#8])) s = .next (t.answered ⟨.ok,
        BitVec.ofNat 8 ((List.finRange 48).countP (fun i => (s.entryAt i).any (·.changed))) ::
          ((List.finRange 48).filter (fun i => (s.entryAt i).any (·.changed))).flatMap
            (fun i => [BitVec.ofNat 8 i.val, s.dir.useCounts[i]])⟩) ∧
      (∀ i, t.entryAt i = (s.entryAt i).map (fun e => { e with changed := false })) ∧
      t = { s.taken 1 with dir := { s.dir with entries := t.dir.entries } }) ∧
    (∀ b : Byte, b ≠ 1#8 → b ≠ 2#8 → exec (.list (framed [b])) s = .next ((s.taken 1).answered ⟨.badValue, []⟩))

/-- READ_ENTRY and READ_TEXT by handle, part and state (R175, R176, R193): nothing but the response changes. The 242 bytes
of an entry are those of R193's table, in their order, with the codes of Table 52. -/
def Obligations.EntryReadsChangeNothing : Prop :=
  ∀ (b u k : Byte) (s : State), s.portIdle →
    (48 ≤ b.toNat → exec (.readEntry (framed [b, u])) s = .next ((s.taken 2).answered ⟨.badValue, []⟩)) ∧
    (48 ≤ b.toNat ∨ k = 0#8 ∨ 8 < k.toNat →
      exec (.readText (framed [b, u, k])) s = .next ((s.taken 3).answered ⟨.badValue, []⟩)) ∧
    (∀ i : EntrySlot, b = BitVec.ofNat 8 i.val →
      (s.named ⟨i, u⟩ = none →
        exec (.readEntry (framed [b, u])) s = .next ((s.taken 2).answered ⟨.staleHandle, []⟩) ∧
        (1 ≤ k.toNat → k.toNat ≤ 8 →
          exec (.readText (framed [b, u, k])) s = .next ((s.taken 3).answered ⟨.staleHandle, []⟩))) ∧
      (∀ e, s.named ⟨i, u⟩ = some e →
        exec (.readEntry (framed [b, u])) s = .next ((s.taken 2).answered ⟨.ok, entryBytes ⟨i, u⟩ s.now e⟩) ∧
        ((areaPlaces (e.current.bind (·.desc.area))).length ≤ 16 → (entryBytes ⟨i, u⟩ s.now e).length = 242 ∧
          entryBytes ⟨i, u⟩ s.now e = laidOut (entryLayout ⟨i, u⟩ s.now e)) ∧
        (1 ≤ k.toNat → k.toNat ≤ 8 →
          (e.current = none →
            exec (.readText (framed [b, u, k])) s = .next ((s.taken 3).answered ⟨.wrongState, []⟩)) ∧
          (∀ c, e.current = some c → c.partCount < k.toNat →
            exec (.readText (framed [b, u, k])) s = .next ((s.taken 3).answered ⟨.badValue, []⟩)) ∧
          (∀ c x, e.current = some c → k.toNat ≤ c.partCount → s.textOf i k.toNat = some x →
            exec (.readText (framed [b, u, k])) s = .next ((s.taken 3).answered
              ⟨.ok, [BitVec.ofNat 8 c.revision.toNat, k, BitVec.ofNat 8 x.length] ++ x⟩))))) ∧
    (∀ parts : List Nat, (∀ x ∈ parts, 1 ≤ x) → ∀ j < 8, (partsByte parts).getLsbD j = decide (j + 1 ∈ parts)) ∧
    ([Reach.cell, .district, .region].map Reach.code = [1, 2, 3] ∧
      [EntryState.assembling, .active, .held, .acknowledged, .cancelled].map EntryState.code = [1, 2, 3, 4, 5] ∧
      [none, some HoldReason.area, some .near, some .optedOut].map holdCode = [0, 1, 2, 3] ∧
      [AreaDecision.inside, .near, .outside, .undecided].map AreaDecision.code = [1, 2, 3, 4] ∧
      [RequestKind.alert, .reminder].map RequestKind.code = [1, 2] ∧
      [ReceiptState.idle, .queued, .offered, .sent, .failed .queueFull].map ReceiptState.code = [0, 1, 2, 3, 4] ∧
      [ReceiptState.sent, .failed .queueFull, .failed .undelivered].map ReceiptState.reason = [0, 1, 2])

/-- WRITE_SETTINGS: an on-off field other than 0 or 1 refuses the record whole; otherwise each field is clamped, the record
replaced and reported, no event is posted, and the settings triggers are taken (R183, R184, R124). A lowered minimum play
removes as heard each silenced request that has reached it, the playing one with selection after it (R144); a changed
minimum or maximum play preempts the play or lets it yield when it is beyond its point and the condition holds among the
requests left (R139, R137, R138); whether an escalated reminder yields at its minimum play already, as R139 says it may, is
free (log 26). That order of the three is log 18; where a yield's search starts is log 12. That every pointer but the
served level's stands at the preemption, or at a yield to a higher level, also of a play whose level changed while it
played, is log 27, the model's choice: R134 says that such a request keeps its level's pointer on its own slot. -/
def Obligations.WriteSettingsClampsOrRefuses : Prop :=
  ∀ (body : List Byte) (s : State), s.portIdle → body.length = 15 →
    ((∃ k ∈ [1, 2, 3, 4, 5, 13, 14], 1 < fieldAt body k 1) →
      exec (.writeSettings (framed body)) s = .next ((s.taken 15).answered ⟨.badValue, []⟩)) ∧
    ((∀ k ∈ [1, 2, 3, 4, 5, 13, 14], fieldAt body k 1 ≤ 1) →
      ∃ (t : State) (g : Settings), exec (.writeSettings (framed body)) s = .next (t.answered
          ⟨.ok, settingsBytes g ++ [if g.staleLimit = fieldAt body 8 2 ∧ g.attentionLength = fieldAt body 10 1 ∧
            g.minimumPlay = fieldAt body 11 1 ∧ g.maximumPlay = fieldAt body 12 1 then 0#8 else 1#8]⟩) ∧
        t.host = { (s.taken 15).host with settings := g } ∧
        (g.enable2 = true ↔ fieldAt body 1 1 = 1) ∧ (g.enable3 = true ↔ fieldAt body 2 1 = 1) ∧
        (g.enable4 = true ↔ fieldAt body 3 1 = 1) ∧ (g.enable5 = true ↔ fieldAt body 4 1 = 1) ∧
        (g.nearPolicy = .hold ↔ fieldAt body 5 1 = 1) ∧ g.nearDistance = fieldAt body 6 2 ∧
        g.staleLimit = max 30 (min 3600 (fieldAt body 8 2)) ∧
        g.attentionLength = max 4 (min 30 (fieldAt body 10 1)) ∧
        g.minimumPlay = min (max 1 (min 10 (fieldAt body 11 1))) g.attentionLength ∧
        g.maximumPlay = max 1 (min 30 (fieldAt body 12 1)) ∧
        (g.toneEnable = true ↔ fieldAt body 13 1 = 1) ∧ (g.vibrationEnable = true ↔ fieldAt body 14 1 = 1) ∧
        t.area = (trigger (selectedBySettings s.host.settings g) s).area ∧
        (∀ e, selectedBySettings s.host.settings g e = true ↔
          (e.hold = some .optedOut ∧ s.host.settings.enabled e.cls = false ∧ g.enabled e.cls = true) ∨
          (e.hold = some .near ∧ s.host.settings.nearPolicy = .hold ∧ g.nearPolicy = .present)) ∧
        (g.minimumPlay = s.host.settings.minimumPlay → g.maximumPlay = s.host.settings.maximumPlay →
          t.dir = s.dir ∧ t.arb = s.arb) ∧
        (∀ l, t.link l = s.link l) ∧ t.prof = s.prof ∧ t.rcpt = s.rcpt ∧ t.dir.segs = s.dir.segs ∧
        t.dir.retired = s.dir.retired ∧
        ∀ (ends : Request → Prop) (left : Request → Prop) (early : Request → Prop) (changed : Prop),
          (∀ r, ends r ↔ g.minimumPlay < s.host.settings.minimumPlay ∧ r.silenced = true ∧
            g.minimumPlay * 1000 ≤ r.played) →
          (∀ q, left q ↔ ¬ ends q ∧ ∃ i, s.waitingRequest i = some q) →
          (∀ r, early r ↔ r.kind = .reminder ∧ r.level ≠ .trickle ∧ Config.freeEarlyYield s.freeCtr s.now = true) →
          (changed ↔ g.minimumPlay ≠ s.host.settings.minimumPlay ∨ g.maximumPlay ≠ s.host.settings.maximumPlay) →
          (∀ i e r, s.entryAt i = some e → e.request = some r → ends r →
            t.entryAt i = some (heardEntry s.now r.kind { e with request := none })) ∧
          (∀ i e, s.entryAt i = some e → (∀ r, e.request = some r → ¬ ends r) → t.entryAt i = some e) ∧
          (∀ i, s.entryAt i = none → t.entryAt i = none) ∧
          (s.playingRequest = none → t.arb = s.arb) ∧
          (∀ p e r, s.playingRequest = some (p, e, r) →
            (ends r → s.selects t) ∧
            (¬ ends r →
              (changed ∧ 0 < r.remaining ∧ r.silenced = false ∧
                  ((g.minimumPlay * 1000 ≤ p.turn ∧ ∃ q, left q ∧ q.level.rank < r.level.rank) ∨
                    ((g.minimumPlay * 1000 + g.maximumPlay * 1000 ≤ p.turn ∨ early r ∧ g.minimumPlay * 1000 ≤ p.turn) ∧
                      ∃ q, left q ∧ q.level = r.level)) →
                (∃ x, t.arb.play = some x ∧ x.handle.slot ≠ p.handle.slot) ∧
                (g.minimumPlay * 1000 ≤ p.turn ∧ (∃ q, left q ∧ q.level.rank < r.level.rank) → s.selects t) ∧
                (¬ (g.minimumPlay * 1000 ≤ p.turn ∧ ∃ q, left q ∧ q.level.rank < r.level.rank) →
                  s.selectsFrom (s.yieldStart p r) t)) ∧
              (¬ (changed ∧ 0 < r.remaining ∧ r.silenced = false ∧
                  ((g.minimumPlay * 1000 ≤ p.turn ∧ ∃ q, left q ∧ q.level.rank < r.level.rank) ∨
                    ((g.minimumPlay * 1000 + g.maximumPlay * 1000 ≤ p.turn ∨ early r ∧ g.minimumPlay * 1000 ≤ p.turn) ∧
                      ∃ q, left q ∧ q.level = r.level))) →
                t.arb = s.arb))))

/-- READ_SETTINGS, READ_LINKS and READ_COUNTERS return what is held; only a clearing READ_COUNTERS changes it (R183, R42,
R187, R193), most significant byte first (R188), in the layouts of Table 51 and R193. Time and frame kind of an empty fault
record are free values (log 7). -/
def Obligations.PortReadsReport : Prop :=
  ∀ s : State, s.portIdle →
    exec (.readSettings (framed [])) s = .next ((s.taken 0).answered ⟨.ok, settingsBytes s.host.settings⟩) ∧
    (∃ (ga gb : List Byte) (n : Nat), exec (.readLinks (framed [])) s = .next (((s.taken 0).setFreeCtr n).answered
        ⟨.ok, ga ++ gb ++ timeBytes s.now⟩) ∧
      ∀ l g, (l, g) = (LinkId.la, ga) ∨ (l, g) = (LinkId.lb, gb) → g.length = 24 ∧
        g.take 14 = (s.link l).state.code :: servingBytes (s.link l).serving ∧
        ((s.link l).fault = none → g[14]? = some 0#8) ∧
        (∀ f, (s.link l).fault = some f →
          (g.drop 14).take 8 = f.kind.code :: (timeBytes f.time ++ [f.frame.code])) ∧
        g.drop 22 = [BitVec.ofNat 8 (s.link l).occupied, BitVec.ofNat 8 (s.link l).credits]) ∧
    (counterBytes s.host).length = 46 ∧
    settingsBytes s.host.settings = laidOut (settingsLayout s.host.settings) ∧
    (∀ l, servingBytes (s.link l).serving = laidOut (servingLayout (s.link l).serving)) ∧
    counterBytes s.host = laidOut (counterLayout s.host) ∧
    (∀ n v, (bytesOf n v).length = n ∧ ∀ k < n, (bytesOf n v)[k]? = some (BitVec.ofNat 8 (v / 256 ^ (n - 1 - k)))) ∧
    ([LinkState.down, .sync, .up, .faulted].map LinkState.code = [0, 1, 2, 3] ∧
      [FaultKind.malformed, .overrun, .timeout].map FaultKind.code = [1, 2, 3] ∧
      [FrameKind.unknown, .hello, .goodbye, .page, .serving, .receiptResult].map FrameKind.code = [0, 1, 2, 3, 4, 5]) ∧
    exec (.readCounters (framed [0#8])) s = .next ((s.taken 1).answered ⟨.ok, counterBytes s.host⟩) ∧
    exec (.readCounters (framed [1#8])) s = .next (((s.taken 1).setHost { (s.taken 1).host with
      cntLa := LinkCounters.zero
      cntLb := LinkCounters.zero
      cntG := { GlobalCounters.zero with directoryPeak := s.occupancy } }).answered ⟨.ok, counterBytes s.host⟩) ∧
    (∀ b : Byte, 1 < b.toNat →
      exec (.readCounters (framed [b])) s = .next ((s.taken 1).answered ⟨.badValue, []⟩))

/-- RESPONSE_READ: the status byte, then the pending response from its first byte; it leaves when its last byte has been
shifted out (R172, R192). What follows its last byte is free (log 6). -/
def Obligations.ResponseReadClocksOut : Prop :=
  ∀ (n : Nat) (s : State), s.host.txn = none →
    (s.host.response = none → exec (.responseRead n) s = .next (s.shifted 0x3C#8 n)) ∧
    (∀ r, s.host.response = some r → n < 3 + r.body.length →
      exec (.responseRead n) s = .next (s.setHost { s.host with
        hcpOut := 0xC3#8 :: (r.code.code :: (bytesOf 2 r.body.length ++ r.body)).take n })) ∧
    (∀ r, s.host.response = some r → 3 + r.body.length ≤ n →
      ∃ (beyond : List Byte) (t : State), beyond.length = n - (3 + r.body.length) ∧
        exec (.responseRead n) s = .next t ∧ t.rdy = false ∧
        t = { s with
          freeCtr := s.freeCtr + beyond.length
          host := { s.host with
            response := none
            hcpOut := 0xC3#8 :: (r.code.code :: (bytesOf 2 r.body.length ++ r.body) ++ beyond) } })

/-- A command that finds a response pending is discarded (BUSY); one whose bytes are not a length field and a body of
the admitted length is BAD-LENGTH, and one of unknown code BAD-COMMAND: no other effect (R171, R173, R192). The first
byte of a transaction chooses its row: a code of Table 50, 0FFh for a response read, any other code unknown; a transaction
without a byte is none (R173, R192). -/
def Obligations.RefusedCommandsHaveNoEffect : Prop :=
  ∀ (s : State), s.host.txn = none →
    (∀ (c : Instr) (code : Byte) (len : Nat) (bytes : List Byte), hostFrame c = some (code, len, bytes) →
      (s.host.response ≠ none → exec c s = .next (s.shifted 0xC3#8 bytes.length)) ∧
      (s.host.response = none → (∀ body, body.length = len → bytes ≠ framed body) →
        exec c s = .next ((s.shifted 0x3C#8 bytes.length).answered ⟨.badLength, []⟩))) ∧
    (∀ (code : Byte) (bytes : List Byte), code = 0#8 ∨ 18 < code.toNat → code ≠ 0xFF#8 →
      (s.host.response ≠ none → exec (.badCommand code bytes) s = .next (s.shifted 0xC3#8 bytes.length)) ∧
      (s.host.response = none →
        exec (.badCommand code bytes) s = .next ((s.shifted 0x3C#8 bytes.length).answered ⟨.badCommand, []⟩))) ∧
    (∀ (c : Instr) (code : Byte) (len : Nat) (bytes : List Byte), hostFrame c = some (code, len, bytes) →
      decodeTransaction (code :: bytes) = some c) ∧
    (∀ (code : Byte) (bytes : List Byte), code = 0#8 ∨ 18 < code.toNat → code ≠ 0xFF#8 →
      decodeTransaction (code :: bytes) = some (.badCommand code bytes)) ∧
    (∀ bytes : List Byte, decodeTransaction (0xFF#8 :: bytes) = some (.responseRead bytes.length)) ∧
    decodeTransaction [] = none

/-- Every counter stays at or below 65 535, DIRECTORY-PEAK at or below 48 (R187, R186): kept by every step. -/
def Obligations.StepKeepsCountersBounded : Prop :=
  ∀ s t : State, s.host.countersBounded → step s = .next t → t.host.countersBounded

/-- The invariants hold after a power-on reset. -/
def Obligations.ResetMeetsInvariants : Prop :=
  State.reset.linksSound ∧ State.reset.profileSound ∧ State.reset.entriesShaped ∧ State.reset.host.countersBounded

/-- ISSUE pages of several parts at an entry they hit, with a segment free: a part joins the revision under assembly (R93);
a newer revision starts, or restarts over the released segments (R92, R94); a tombstone is revived (R106); and the last
part completes the revision: content, expiry and class of Table 25 (R96, R97, R98), then an ASSEMBLING, HELD or ACKNOWLEDGED
entry presented or held back (R99, R101) and an ACTIVE one updated and retriggered (R100, R140), its page's link joined
(R107). That a HELD result of R101 resets the reminders is log 25, the model's choice. With any text store a restart is
worked as the start of a revision on the entry whose superseded parts are released, and a revival as one on the entry made
ASSEMBLING; when that earns FULL the entry is left as it was (R76, R92, R94, R106). -/
def Obligations.PartsAssembleIntoContent : Prop :=
  (∀ (p : Page) (g : Governing) (i : EntrySlot) (e : Entry) (s : State) (part : Segment) (links : LinksSeen)
      (fresh : Incoming) (old : List Segment),
    s.entryOfKey (pageKey p) = some (i, e) → p.action = .issue → s.dir.segs.length < 160 →
    part = ⟨i, .incoming, p.partIndex, p.text⟩ → links = e.links.join p.link →
    fresh = ⟨p.revision, p.partCount, [p.partIndex], s.now + g.assemblyLimit * 1000,
      if p.partIndex = 1 then some (pageDescriptive p) else none⟩ →
    old = (if e.incoming.isSome then
      s.dir.segs.filter (fun x => !(decide (x.slot = i) && decide (x.group = .incoming))) else s.dir.segs) →
    (∀ inc, e.cancel = none → e.incoming = some inc → p.revision = inc.revision → p.partCount = inc.partCount →
      p.partIndex ∉ inc.parts →
      ((∃ k, 1 ≤ k ∧ k ≤ inc.partCount ∧ k ≠ p.partIndex ∧ k ∉ inc.parts) →
        workPage p g s = (s.setDir { s.dir with
          entries := s.dir.entries.set i (some { e with
            incoming := some { inc with
              parts := inc.parts ++ [p.partIndex]
              part1 := if p.partIndex = 1 then some (pageDescriptive p) else inc.part1 }
            links := links
            changed := e.changed || decide (links ≠ e.links) })
          segs := s.dir.segs ++ [part] }, .storedMore)) ∧
      (∀ d, (∀ k, 1 ≤ k → k ≤ inc.partCount → k = p.partIndex ∨ k ∈ inc.parts) → e.state ≠ .cancelled →
        (if p.partIndex = 1 then some (pageDescriptive p) else inc.part1) = some d →
        ∃ t, workPage p g s = (t, .storedDone) ∧ CompletedBy i e p g d (s.dir.segs ++ [part]) s t)) ∧
    (e.cancel = none → newerThan p.revision (e.current.map (·.revision)) = true →
      newerThan p.revision (e.incoming.map (·.revision)) = true →
      (p.partCount ≠ 1 → workPage p g s = (s.setDir { s.dir with
        entries := s.dir.entries.set i (some { e with
          incoming := some fresh, links := links, changed := e.changed || decide (links ≠ e.links) })
        segs := old ++ [part] }, .storedMore)) ∧
      (p.partCount = 1 → p.partIndex = 1 → e.state ≠ .cancelled →
        ∃ t, workPage p g s = (t, .storedDone) ∧ CompletedBy i e p g (pageDescriptive p) (old ++ [part]) s t)) ∧
    (∀ k revived, e.cancel = some k → newer p.revision k.revision = true →
      revived = { e with
        state := .assembling, cancel := none, expiry := none, restingAt := none, createdAt := s.now,
        cls := g.cls, provisional := g.provisional, changed := true } →
      (p.partCount ≠ 1 → workPage p g s = (s.setDir { s.dir with
        entries := s.dir.entries.set i (some { revived with incoming := some fresh, links := links })
        segs := s.dir.segs ++ [part] }, .storedMore)) ∧
      (p.partCount = 1 → p.partIndex = 1 →
        ∃ t, workPage p g s = (t, .storedDone) ∧
          CompletedBy i revived p g (pageDescriptive p) (s.dir.segs ++ [part]) s t))) ∧
  (∀ (p : Page) (g : Governing) (i : EntrySlot) (e : Entry) (s w : State),
    s.entryOfKey (pageKey p) = some (i, e) → p.action = .issue →
    (e.cancel = none → e.incoming ≠ none → newerThan p.revision (e.current.map (·.revision)) = true →
      newerThan p.revision (e.incoming.map (·.revision)) = true →
      w = s.setDir { s.dir with
        entries := s.dir.entries.set i (some { e with incoming := none })
        segs := s.dir.segs.filter (fun x => !(decide (x.slot = i) && decide (x.group = .incoming))) } →
      workPage p g s = if (workPage p g w).2 = .full then (s, .full) else workPage p g w) ∧
    (∀ k, e.cancel = some k → e.current = none → e.incoming = none → newer p.revision k.revision = true →
      w = s.putEntry i (some { e with
        state := .assembling, cancel := none, expiry := none, restingAt := none, createdAt := s.now,
        cls := g.cls, provisional := g.provisional, changed := true }) →
      workPage p g s = if (workPage p g w).2 = .full then (s, .full) else workPage p g w))
end

