-- ==== Sys2Proof/Laws/State.lean ====
section
/-! SUPPORT. What each update of the state leaves in each field, so that no later proof unfolds a record update. -/

namespace Sys2Proof.Machine

/-! ### setProf -/

@[simp] theorem State.pending_setProf (s : State) (p : ProfileUnit) : (s.setProf p).pending = s.pending := rfl
@[simp] theorem State.now_setProf (s : State) (p : ProfileUnit) : (s.setProf p).now = s.now := rfl
@[simp] theorem State.freeCtr_setProf (s : State) (p : ProfileUnit) : (s.setProf p).freeCtr = s.freeCtr := rfl
@[simp] theorem State.la_setProf (s : State) (p : ProfileUnit) : (s.setProf p).la = s.la := rfl
@[simp] theorem State.lb_setProf (s : State) (p : ProfileUnit) : (s.setProf p).lb = s.lb := rfl
@[simp] theorem State.prof_setProf (s : State) (p : ProfileUnit) : (s.setProf p).prof = p := rfl
@[simp] theorem State.dir_setProf (s : State) (p : ProfileUnit) : (s.setProf p).dir = s.dir := rfl
@[simp] theorem State.area_setProf (s : State) (p : ProfileUnit) : (s.setProf p).area = s.area := rfl
@[simp] theorem State.arb_setProf (s : State) (p : ProfileUnit) : (s.setProf p).arb = s.arb := rfl
@[simp] theorem State.rcpt_setProf (s : State) (p : ProfileUnit) : (s.setProf p).rcpt = s.rcpt := rfl
@[simp] theorem State.host_setProf (s : State) (p : ProfileUnit) : (s.setProf p).host = s.host := rfl
@[simp] theorem State.link_setProf (s : State) (p : ProfileUnit) (l : LinkId) : (s.setProf p).link l = s.link l := rfl

/-! ### setDir -/

@[simp] theorem State.pending_setDir (s : State) (d : Directory) : (s.setDir d).pending = s.pending := rfl
@[simp] theorem State.now_setDir (s : State) (d : Directory) : (s.setDir d).now = s.now := rfl
@[simp] theorem State.freeCtr_setDir (s : State) (d : Directory) : (s.setDir d).freeCtr = s.freeCtr := rfl
@[simp] theorem State.la_setDir (s : State) (d : Directory) : (s.setDir d).la = s.la := rfl
@[simp] theorem State.lb_setDir (s : State) (d : Directory) : (s.setDir d).lb = s.lb := rfl
@[simp] theorem State.prof_setDir (s : State) (d : Directory) : (s.setDir d).prof = s.prof := rfl
@[simp] theorem State.dir_setDir (s : State) (d : Directory) : (s.setDir d).dir = d := rfl
@[simp] theorem State.area_setDir (s : State) (d : Directory) : (s.setDir d).area = s.area := rfl
@[simp] theorem State.arb_setDir (s : State) (d : Directory) : (s.setDir d).arb = s.arb := rfl
@[simp] theorem State.rcpt_setDir (s : State) (d : Directory) : (s.setDir d).rcpt = s.rcpt := rfl
@[simp] theorem State.host_setDir (s : State) (d : Directory) : (s.setDir d).host = s.host := rfl
@[simp] theorem State.link_setDir (s : State) (d : Directory) (l : LinkId) : (s.setDir d).link l = s.link l := rfl

/-! ### setArea -/

@[simp] theorem State.pending_setArea (s : State) (a : AreaUnit) : (s.setArea a).pending = s.pending := rfl
@[simp] theorem State.now_setArea (s : State) (a : AreaUnit) : (s.setArea a).now = s.now := rfl
@[simp] theorem State.freeCtr_setArea (s : State) (a : AreaUnit) : (s.setArea a).freeCtr = s.freeCtr := rfl
@[simp] theorem State.la_setArea (s : State) (a : AreaUnit) : (s.setArea a).la = s.la := rfl
@[simp] theorem State.lb_setArea (s : State) (a : AreaUnit) : (s.setArea a).lb = s.lb := rfl
@[simp] theorem State.prof_setArea (s : State) (a : AreaUnit) : (s.setArea a).prof = s.prof := rfl
@[simp] theorem State.dir_setArea (s : State) (a : AreaUnit) : (s.setArea a).dir = s.dir := rfl
@[simp] theorem State.area_setArea (s : State) (a : AreaUnit) : (s.setArea a).area = a := rfl
@[simp] theorem State.arb_setArea (s : State) (a : AreaUnit) : (s.setArea a).arb = s.arb := rfl
@[simp] theorem State.rcpt_setArea (s : State) (a : AreaUnit) : (s.setArea a).rcpt = s.rcpt := rfl
@[simp] theorem State.host_setArea (s : State) (a : AreaUnit) : (s.setArea a).host = s.host := rfl
@[simp] theorem State.link_setArea (s : State) (a : AreaUnit) (l : LinkId) : (s.setArea a).link l = s.link l := rfl

/-! ### setArb -/

@[simp] theorem State.pending_setArb (s : State) (a : Arbiter) : (s.setArb a).pending = s.pending := rfl
@[simp] theorem State.now_setArb (s : State) (a : Arbiter) : (s.setArb a).now = s.now := rfl
@[simp] theorem State.freeCtr_setArb (s : State) (a : Arbiter) : (s.setArb a).freeCtr = s.freeCtr := rfl
@[simp] theorem State.la_setArb (s : State) (a : Arbiter) : (s.setArb a).la = s.la := rfl
@[simp] theorem State.lb_setArb (s : State) (a : Arbiter) : (s.setArb a).lb = s.lb := rfl
@[simp] theorem State.prof_setArb (s : State) (a : Arbiter) : (s.setArb a).prof = s.prof := rfl
@[simp] theorem State.dir_setArb (s : State) (a : Arbiter) : (s.setArb a).dir = s.dir := rfl
@[simp] theorem State.area_setArb (s : State) (a : Arbiter) : (s.setArb a).area = s.area := rfl
@[simp] theorem State.arb_setArb (s : State) (a : Arbiter) : (s.setArb a).arb = a := rfl
@[simp] theorem State.rcpt_setArb (s : State) (a : Arbiter) : (s.setArb a).rcpt = s.rcpt := rfl
@[simp] theorem State.host_setArb (s : State) (a : Arbiter) : (s.setArb a).host = s.host := rfl
@[simp] theorem State.link_setArb (s : State) (a : Arbiter) (l : LinkId) : (s.setArb a).link l = s.link l := rfl

/-! ### setRcpt -/

@[simp] theorem State.pending_setRcpt (s : State) (r : ReceiptUnit) : (s.setRcpt r).pending = s.pending := rfl
@[simp] theorem State.now_setRcpt (s : State) (r : ReceiptUnit) : (s.setRcpt r).now = s.now := rfl
@[simp] theorem State.freeCtr_setRcpt (s : State) (r : ReceiptUnit) : (s.setRcpt r).freeCtr = s.freeCtr := rfl
@[simp] theorem State.la_setRcpt (s : State) (r : ReceiptUnit) : (s.setRcpt r).la = s.la := rfl
@[simp] theorem State.lb_setRcpt (s : State) (r : ReceiptUnit) : (s.setRcpt r).lb = s.lb := rfl
@[simp] theorem State.prof_setRcpt (s : State) (r : ReceiptUnit) : (s.setRcpt r).prof = s.prof := rfl
@[simp] theorem State.dir_setRcpt (s : State) (r : ReceiptUnit) : (s.setRcpt r).dir = s.dir := rfl
@[simp] theorem State.area_setRcpt (s : State) (r : ReceiptUnit) : (s.setRcpt r).area = s.area := rfl
@[simp] theorem State.arb_setRcpt (s : State) (r : ReceiptUnit) : (s.setRcpt r).arb = s.arb := rfl
@[simp] theorem State.rcpt_setRcpt (s : State) (r : ReceiptUnit) : (s.setRcpt r).rcpt = r := rfl
@[simp] theorem State.host_setRcpt (s : State) (r : ReceiptUnit) : (s.setRcpt r).host = s.host := rfl
@[simp] theorem State.link_setRcpt (s : State) (r : ReceiptUnit) (l : LinkId) : (s.setRcpt r).link l = s.link l := rfl

/-! ### setHost -/

@[simp] theorem State.pending_setHost (s : State) (h : HostPort) : (s.setHost h).pending = s.pending := rfl
@[simp] theorem State.now_setHost (s : State) (h : HostPort) : (s.setHost h).now = s.now := rfl
@[simp] theorem State.freeCtr_setHost (s : State) (h : HostPort) : (s.setHost h).freeCtr = s.freeCtr := rfl
@[simp] theorem State.la_setHost (s : State) (h : HostPort) : (s.setHost h).la = s.la := rfl
@[simp] theorem State.lb_setHost (s : State) (h : HostPort) : (s.setHost h).lb = s.lb := rfl
@[simp] theorem State.prof_setHost (s : State) (h : HostPort) : (s.setHost h).prof = s.prof := rfl
@[simp] theorem State.dir_setHost (s : State) (h : HostPort) : (s.setHost h).dir = s.dir := rfl
@[simp] theorem State.area_setHost (s : State) (h : HostPort) : (s.setHost h).area = s.area := rfl
@[simp] theorem State.arb_setHost (s : State) (h : HostPort) : (s.setHost h).arb = s.arb := rfl
@[simp] theorem State.rcpt_setHost (s : State) (h : HostPort) : (s.setHost h).rcpt = s.rcpt := rfl
@[simp] theorem State.host_setHost (s : State) (h : HostPort) : (s.setHost h).host = h := rfl
@[simp] theorem State.link_setHost (s : State) (h : HostPort) (l : LinkId) : (s.setHost h).link l = s.link l := rfl

/-! ### setFreeCtr -/

@[simp] theorem State.pending_setFreeCtr (s : State) (n : Nat) : (s.setFreeCtr n).pending = s.pending := rfl
@[simp] theorem State.now_setFreeCtr (s : State) (n : Nat) : (s.setFreeCtr n).now = s.now := rfl
@[simp] theorem State.freeCtr_setFreeCtr (s : State) (n : Nat) : (s.setFreeCtr n).freeCtr = n := rfl
@[simp] theorem State.la_setFreeCtr (s : State) (n : Nat) : (s.setFreeCtr n).la = s.la := rfl
@[simp] theorem State.lb_setFreeCtr (s : State) (n : Nat) : (s.setFreeCtr n).lb = s.lb := rfl
@[simp] theorem State.prof_setFreeCtr (s : State) (n : Nat) : (s.setFreeCtr n).prof = s.prof := rfl
@[simp] theorem State.dir_setFreeCtr (s : State) (n : Nat) : (s.setFreeCtr n).dir = s.dir := rfl
@[simp] theorem State.area_setFreeCtr (s : State) (n : Nat) : (s.setFreeCtr n).area = s.area := rfl
@[simp] theorem State.arb_setFreeCtr (s : State) (n : Nat) : (s.setFreeCtr n).arb = s.arb := rfl
@[simp] theorem State.rcpt_setFreeCtr (s : State) (n : Nat) : (s.setFreeCtr n).rcpt = s.rcpt := rfl
@[simp] theorem State.host_setFreeCtr (s : State) (n : Nat) : (s.setFreeCtr n).host = s.host := rfl
@[simp] theorem State.link_setFreeCtr (s : State) (n : Nat) (l : LinkId) : (s.setFreeCtr n).link l = s.link l := rfl

/-! ### withPending -/

@[simp] theorem State.pending_withPending (s : State) (q : List Instr) : (s.withPending q).pending = q := rfl
@[simp] theorem State.now_withPending (s : State) (q : List Instr) : (s.withPending q).now = s.now := rfl
@[simp] theorem State.freeCtr_withPending (s : State) (q : List Instr) : (s.withPending q).freeCtr = s.freeCtr := rfl
@[simp] theorem State.la_withPending (s : State) (q : List Instr) : (s.withPending q).la = s.la := rfl
@[simp] theorem State.lb_withPending (s : State) (q : List Instr) : (s.withPending q).lb = s.lb := rfl
@[simp] theorem State.prof_withPending (s : State) (q : List Instr) : (s.withPending q).prof = s.prof := rfl
@[simp] theorem State.dir_withPending (s : State) (q : List Instr) : (s.withPending q).dir = s.dir := rfl
@[simp] theorem State.area_withPending (s : State) (q : List Instr) : (s.withPending q).area = s.area := rfl
@[simp] theorem State.arb_withPending (s : State) (q : List Instr) : (s.withPending q).arb = s.arb := rfl
@[simp] theorem State.rcpt_withPending (s : State) (q : List Instr) : (s.withPending q).rcpt = s.rcpt := rfl
@[simp] theorem State.host_withPending (s : State) (q : List Instr) : (s.withPending q).host = s.host := rfl
@[simp] theorem State.link_withPending (s : State) (q : List Instr) (l : LinkId) : (s.withPending q).link l = s.link l := rfl

/-! ### setLink -/

@[simp] theorem State.pending_setLink (s : State) (l : LinkId) (k : Link) : (s.setLink l k).pending = s.pending := by
  cases l <;> rfl
@[simp] theorem State.now_setLink (s : State) (l : LinkId) (k : Link) : (s.setLink l k).now = s.now := by
  cases l <;> rfl
@[simp] theorem State.freeCtr_setLink (s : State) (l : LinkId) (k : Link) : (s.setLink l k).freeCtr = s.freeCtr := by
  cases l <;> rfl
@[simp] theorem State.prof_setLink (s : State) (l : LinkId) (k : Link) : (s.setLink l k).prof = s.prof := by
  cases l <;> rfl
@[simp] theorem State.dir_setLink (s : State) (l : LinkId) (k : Link) : (s.setLink l k).dir = s.dir := by
  cases l <;> rfl
@[simp] theorem State.area_setLink (s : State) (l : LinkId) (k : Link) : (s.setLink l k).area = s.area := by
  cases l <;> rfl
@[simp] theorem State.arb_setLink (s : State) (l : LinkId) (k : Link) : (s.setLink l k).arb = s.arb := by
  cases l <;> rfl
@[simp] theorem State.rcpt_setLink (s : State) (l : LinkId) (k : Link) : (s.setLink l k).rcpt = s.rcpt := by
  cases l <;> rfl
@[simp] theorem State.host_setLink (s : State) (l : LinkId) (k : Link) : (s.setLink l k).host = s.host := by
  cases l <;> rfl
@[simp] theorem State.link_setLink_same (s : State) (l : LinkId) (k : Link) : (s.setLink l k).link l = k := by
  cases l <;> rfl
theorem State.link_setLink (s : State) (l m : LinkId) (k : Link) :
    (s.setLink l k).link m = if m = l then k else s.link m := by
  cases l <;> cases m <;> rfl
@[simp] theorem State.link_setLink_other (s : State) (l : LinkId) (k : Link) :
    (s.setLink l k).link l.other = s.link l.other := by
  cases l <;> rfl
@[simp] theorem LinkId.other_other (l : LinkId) : l.other.other = l := by
  cases l <;> rfl
theorem LinkId.other_ne (l : LinkId) : l.other ≠ l := by
  cases l <;> decide
theorem LinkId.eq_or_other (l m : LinkId) : m = l ∨ m = l.other := by
  cases l <;> cases m <;> decide
@[simp] theorem State.link_la (s : State) : s.link .la = s.la := rfl
@[simp] theorem State.link_lb (s : State) : s.link .lb = s.lb := rfl

/-! ### Page slots -/

@[simp] theorem Link.slots_setSlot (k : Link) (i : PageSlot) (v : Slot) :
    (k.setSlot i v).slots = k.slots.set i v := rfl
@[simp] theorem Link.state_setSlot (k : Link) (i : PageSlot) (v : Slot) : (k.setSlot i v).state = k.state := rfl
@[simp] theorem Link.credits_setSlot (k : Link) (i : PageSlot) (v : Slot) : (k.setSlot i v).credits = k.credits := rfl
@[simp] theorem Link.frame_setSlot (k : Link) (i : PageSlot) (v : Slot) : (k.setSlot i v).frame = k.frame := rfl
@[simp] theorem Link.serving_setSlot (k : Link) (i : PageSlot) (v : Slot) : (k.setSlot i v).serving = k.serving := rfl
@[simp] theorem Link.subWaiting_setSlot (k : Link) (i : PageSlot) (v : Slot) : (k.setSlot i v).subWaiting = k.subWaiting := rfl
@[simp] theorem Link.fault_setSlot (k : Link) (i : PageSlot) (v : Slot) : (k.setSlot i v).fault = k.fault := rfl
@[simp] theorem Link.quarantine_setSlot (k : Link) (i : PageSlot) (v : Slot) : (k.setSlot i v).quarantine = k.quarantine := rfl
@[simp] theorem Link.outstanding_setSlot (k : Link) (i : PageSlot) (v : Slot) : (k.setSlot i v).outstanding = k.outstanding := rfl
@[simp] theorem Link.outQ_setSlot (k : Link) (i : PageSlot) (v : Slot) : (k.setSlot i v).outQ = k.outQ := rfl
@[simp] theorem Link.txWire_setSlot (k : Link) (i : PageSlot) (v : Slot) : (k.setSlot i v).txWire = k.txWire := rfl

/-! ### Events and counters -/

@[simp] theorem State.pending_post (k : EventKind) (s : State) : (post k s).pending = s.pending := rfl
@[simp] theorem State.now_post (k : EventKind) (s : State) : (post k s).now = s.now := rfl
@[simp] theorem State.freeCtr_post (k : EventKind) (s : State) : (post k s).freeCtr = s.freeCtr := rfl
@[simp] theorem State.la_post (k : EventKind) (s : State) : (post k s).la = s.la := rfl
@[simp] theorem State.lb_post (k : EventKind) (s : State) : (post k s).lb = s.lb := rfl
@[simp] theorem State.prof_post (k : EventKind) (s : State) : (post k s).prof = s.prof := rfl
@[simp] theorem State.dir_post (k : EventKind) (s : State) : (post k s).dir = s.dir := rfl
@[simp] theorem State.area_post (k : EventKind) (s : State) : (post k s).area = s.area := rfl
@[simp] theorem State.arb_post (k : EventKind) (s : State) : (post k s).arb = s.arb := rfl
@[simp] theorem State.rcpt_post (k : EventKind) (s : State) : (post k s).rcpt = s.rcpt := rfl
@[simp] theorem State.link_post (k : EventKind) (s : State) (l : LinkId) : (post k s).link l = s.link l := rfl
@[simp] theorem State.pending_countGlobal (f : GlobalCounters → GlobalCounters) (s : State) : (countGlobal f s).pending = s.pending := rfl
@[simp] theorem State.now_countGlobal (f : GlobalCounters → GlobalCounters) (s : State) : (countGlobal f s).now = s.now := rfl
@[simp] theorem State.freeCtr_countGlobal (f : GlobalCounters → GlobalCounters) (s : State) : (countGlobal f s).freeCtr = s.freeCtr := rfl
@[simp] theorem State.la_countGlobal (f : GlobalCounters → GlobalCounters) (s : State) : (countGlobal f s).la = s.la := rfl
@[simp] theorem State.lb_countGlobal (f : GlobalCounters → GlobalCounters) (s : State) : (countGlobal f s).lb = s.lb := rfl
@[simp] theorem State.prof_countGlobal (f : GlobalCounters → GlobalCounters) (s : State) : (countGlobal f s).prof = s.prof := rfl
@[simp] theorem State.dir_countGlobal (f : GlobalCounters → GlobalCounters) (s : State) : (countGlobal f s).dir = s.dir := rfl
@[simp] theorem State.area_countGlobal (f : GlobalCounters → GlobalCounters) (s : State) : (countGlobal f s).area = s.area := rfl
@[simp] theorem State.arb_countGlobal (f : GlobalCounters → GlobalCounters) (s : State) : (countGlobal f s).arb = s.arb := rfl
@[simp] theorem State.rcpt_countGlobal (f : GlobalCounters → GlobalCounters) (s : State) : (countGlobal f s).rcpt = s.rcpt := rfl
@[simp] theorem State.link_countGlobal (f : GlobalCounters → GlobalCounters) (s : State) (l : LinkId) :
    (countGlobal f s).link l = s.link l := rfl
@[simp] theorem State.pending_countLink (l : LinkId) (f : LinkCounters → LinkCounters) (s : State) :
    (countLink l f s).pending = s.pending := by cases l <;> rfl
@[simp] theorem State.now_countLink (l : LinkId) (f : LinkCounters → LinkCounters) (s : State) :
    (countLink l f s).now = s.now := by cases l <;> rfl
@[simp] theorem State.freeCtr_countLink (l : LinkId) (f : LinkCounters → LinkCounters) (s : State) :
    (countLink l f s).freeCtr = s.freeCtr := by cases l <;> rfl
@[simp] theorem State.la_countLink (l : LinkId) (f : LinkCounters → LinkCounters) (s : State) :
    (countLink l f s).la = s.la := by cases l <;> rfl
@[simp] theorem State.lb_countLink (l : LinkId) (f : LinkCounters → LinkCounters) (s : State) :
    (countLink l f s).lb = s.lb := by cases l <;> rfl
@[simp] theorem State.prof_countLink (l : LinkId) (f : LinkCounters → LinkCounters) (s : State) :
    (countLink l f s).prof = s.prof := by cases l <;> rfl
@[simp] theorem State.dir_countLink (l : LinkId) (f : LinkCounters → LinkCounters) (s : State) :
    (countLink l f s).dir = s.dir := by cases l <;> rfl
@[simp] theorem State.area_countLink (l : LinkId) (f : LinkCounters → LinkCounters) (s : State) :
    (countLink l f s).area = s.area := by cases l <;> rfl
@[simp] theorem State.arb_countLink (l : LinkId) (f : LinkCounters → LinkCounters) (s : State) :
    (countLink l f s).arb = s.arb := by cases l <;> rfl
@[simp] theorem State.rcpt_countLink (l : LinkId) (f : LinkCounters → LinkCounters) (s : State) :
    (countLink l f s).rcpt = s.rcpt := by cases l <;> rfl
@[simp] theorem State.link_countLink (l m : LinkId) (f : LinkCounters → LinkCounters) (s : State) :
    (countLink l f s).link m = s.link m := by cases l <;> rfl
@[simp] theorem HostPort.txn_post (k : EventKind) (s : State) : (post k s).host.txn = s.host.txn := rfl
@[simp] theorem HostPort.response_post (k : EventKind) (s : State) : (post k s).host.response = s.host.response := rfl
@[simp] theorem HostPort.mask_post (k : EventKind) (s : State) : (post k s).host.mask = s.host.mask := rfl
@[simp] theorem HostPort.wakeEn_post (k : EventKind) (s : State) : (post k s).host.wakeEn = s.host.wakeEn := rfl
@[simp] theorem HostPort.settings_post (k : EventKind) (s : State) : (post k s).host.settings = s.host.settings := rfl
@[simp] theorem HostPort.cntLa_post (k : EventKind) (s : State) : (post k s).host.cntLa = s.host.cntLa := rfl
@[simp] theorem HostPort.cntLb_post (k : EventKind) (s : State) : (post k s).host.cntLb = s.host.cntLb := rfl
@[simp] theorem HostPort.cntG_post (k : EventKind) (s : State) : (post k s).host.cntG = s.host.cntG := rfl
@[simp] theorem HostPort.hcpOut_post (k : EventKind) (s : State) : (post k s).host.hcpOut = s.host.hcpOut := rfl
@[simp] theorem HostPort.txn_countGlobal (f : GlobalCounters → GlobalCounters) (s : State) :
    (countGlobal f s).host.txn = s.host.txn := rfl
@[simp] theorem HostPort.response_countGlobal (f : GlobalCounters → GlobalCounters) (s : State) :
    (countGlobal f s).host.response = s.host.response := rfl
@[simp] theorem HostPort.events_countGlobal (f : GlobalCounters → GlobalCounters) (s : State) :
    (countGlobal f s).host.events = s.host.events := rfl
@[simp] theorem HostPort.mask_countGlobal (f : GlobalCounters → GlobalCounters) (s : State) :
    (countGlobal f s).host.mask = s.host.mask := rfl
@[simp] theorem HostPort.wakeEn_countGlobal (f : GlobalCounters → GlobalCounters) (s : State) :
    (countGlobal f s).host.wakeEn = s.host.wakeEn := rfl
@[simp] theorem HostPort.settings_countGlobal (f : GlobalCounters → GlobalCounters) (s : State) :
    (countGlobal f s).host.settings = s.host.settings := rfl
@[simp] theorem HostPort.cntLa_countGlobal (f : GlobalCounters → GlobalCounters) (s : State) :
    (countGlobal f s).host.cntLa = s.host.cntLa := rfl
@[simp] theorem HostPort.cntLb_countGlobal (f : GlobalCounters → GlobalCounters) (s : State) :
    (countGlobal f s).host.cntLb = s.host.cntLb := rfl
@[simp] theorem HostPort.wake_countGlobal (f : GlobalCounters → GlobalCounters) (s : State) :
    (countGlobal f s).host.wake = s.host.wake := rfl
@[simp] theorem HostPort.hcpOut_countGlobal (f : GlobalCounters → GlobalCounters) (s : State) :
    (countGlobal f s).host.hcpOut = s.host.hcpOut := rfl
@[simp] theorem HostPort.txn_countLink (l : LinkId) (f : LinkCounters → LinkCounters) (s : State) :
    (countLink l f s).host.txn = s.host.txn := by cases l <;> rfl
@[simp] theorem HostPort.response_countLink (l : LinkId) (f : LinkCounters → LinkCounters) (s : State) :
    (countLink l f s).host.response = s.host.response := by cases l <;> rfl
@[simp] theorem HostPort.events_countLink (l : LinkId) (f : LinkCounters → LinkCounters) (s : State) :
    (countLink l f s).host.events = s.host.events := by cases l <;> rfl
@[simp] theorem HostPort.mask_countLink (l : LinkId) (f : LinkCounters → LinkCounters) (s : State) :
    (countLink l f s).host.mask = s.host.mask := by cases l <;> rfl
@[simp] theorem HostPort.wakeEn_countLink (l : LinkId) (f : LinkCounters → LinkCounters) (s : State) :
    (countLink l f s).host.wakeEn = s.host.wakeEn := by cases l <;> rfl
@[simp] theorem HostPort.settings_countLink (l : LinkId) (f : LinkCounters → LinkCounters) (s : State) :
    (countLink l f s).host.settings = s.host.settings := by cases l <;> rfl
@[simp] theorem HostPort.cntG_countLink (l : LinkId) (f : LinkCounters → LinkCounters) (s : State) :
    (countLink l f s).host.cntG = s.host.cntG := by cases l <;> rfl
@[simp] theorem HostPort.wake_countLink (l : LinkId) (f : LinkCounters → LinkCounters) (s : State) :
    (countLink l f s).host.wake = s.host.wake := by cases l <;> rfl
@[simp] theorem HostPort.hcpOut_countLink (l : LinkId) (f : LinkCounters → LinkCounters) (s : State) :
    (countLink l f s).host.hcpOut = s.host.hcpOut := by cases l <;> rfl

/-! ### Links and entries -/

@[simp] theorem State.pending_modLink (l : LinkId) (f : Link → Link) (s : State) : (modLink l f s).pending = s.pending := by
  simp [modLink]
@[simp] theorem State.now_modLink (l : LinkId) (f : Link → Link) (s : State) : (modLink l f s).now = s.now := by
  simp [modLink]
@[simp] theorem State.freeCtr_modLink (l : LinkId) (f : Link → Link) (s : State) : (modLink l f s).freeCtr = s.freeCtr := by
  simp [modLink]
@[simp] theorem State.prof_modLink (l : LinkId) (f : Link → Link) (s : State) : (modLink l f s).prof = s.prof := by
  simp [modLink]
@[simp] theorem State.dir_modLink (l : LinkId) (f : Link → Link) (s : State) : (modLink l f s).dir = s.dir := by
  simp [modLink]
@[simp] theorem State.area_modLink (l : LinkId) (f : Link → Link) (s : State) : (modLink l f s).area = s.area := by
  simp [modLink]
@[simp] theorem State.arb_modLink (l : LinkId) (f : Link → Link) (s : State) : (modLink l f s).arb = s.arb := by
  simp [modLink]
@[simp] theorem State.rcpt_modLink (l : LinkId) (f : Link → Link) (s : State) : (modLink l f s).rcpt = s.rcpt := by
  simp [modLink]
@[simp] theorem State.host_modLink (l : LinkId) (f : Link → Link) (s : State) : (modLink l f s).host = s.host := by
  simp [modLink]
@[simp] theorem State.link_modLink_same (l : LinkId) (f : Link → Link) (s : State) :
    (modLink l f s).link l = f (s.link l) := by
  simp [modLink]
theorem State.link_modLink (l m : LinkId) (f : Link → Link) (s : State) :
    (modLink l f s).link m = if m = l then f (s.link m) else s.link m := by
  cases l <;> cases m <;> rfl
@[simp] theorem State.link_modLink_other (l : LinkId) (f : Link → Link) (s : State) :
    (modLink l f s).link l.other = s.link l.other := by
  simp [modLink]
theorem link_enqueue (l m : LinkId) (f : OutFrame) (s : State) :
    (enqueue l f s).link m = if m = l then { s.link m with outQ := pushFrame (s.link m).outQ f } else s.link m := by
  unfold enqueue
  rw [State.link_modLink]
theorem state_enqueue (l : LinkId) (f : OutFrame) (s : State) (m : LinkId) :
    ((enqueue l f s).link m).state = (s.link m).state := by
  rw [link_enqueue]; split <;> rfl
theorem heldPage_enqueue (l : LinkId) (f : OutFrame) (s : State) (m : LinkId) (k : PageSlot) :
    (enqueue l f s).heldPage m k = s.heldPage m k := by
  simp only [State.heldPage, link_enqueue]
  split <;> rfl

@[simp] theorem State.pending_putEntry (s : State) (i : EntrySlot) (e : Option Entry) : (s.putEntry i e).pending = s.pending := rfl
@[simp] theorem State.now_putEntry (s : State) (i : EntrySlot) (e : Option Entry) : (s.putEntry i e).now = s.now := rfl
@[simp] theorem State.freeCtr_putEntry (s : State) (i : EntrySlot) (e : Option Entry) : (s.putEntry i e).freeCtr = s.freeCtr := rfl
@[simp] theorem State.la_putEntry (s : State) (i : EntrySlot) (e : Option Entry) : (s.putEntry i e).la = s.la := rfl
@[simp] theorem State.lb_putEntry (s : State) (i : EntrySlot) (e : Option Entry) : (s.putEntry i e).lb = s.lb := rfl
@[simp] theorem State.prof_putEntry (s : State) (i : EntrySlot) (e : Option Entry) : (s.putEntry i e).prof = s.prof := rfl
@[simp] theorem State.area_putEntry (s : State) (i : EntrySlot) (e : Option Entry) : (s.putEntry i e).area = s.area := rfl
@[simp] theorem State.arb_putEntry (s : State) (i : EntrySlot) (e : Option Entry) : (s.putEntry i e).arb = s.arb := rfl
@[simp] theorem State.rcpt_putEntry (s : State) (i : EntrySlot) (e : Option Entry) : (s.putEntry i e).rcpt = s.rcpt := rfl
@[simp] theorem State.host_putEntry (s : State) (i : EntrySlot) (e : Option Entry) : (s.putEntry i e).host = s.host := rfl
@[simp] theorem State.link_putEntry (s : State) (i : EntrySlot) (e : Option Entry) (l : LinkId) :
    (s.putEntry i e).link l = s.link l := rfl
@[simp] theorem State.useCounts_putEntry (s : State) (i : EntrySlot) (e : Option Entry) :
    (s.putEntry i e).dir.useCounts = s.dir.useCounts := rfl
@[simp] theorem State.segs_putEntry (s : State) (i : EntrySlot) (e : Option Entry) :
    (s.putEntry i e).dir.segs = s.dir.segs := rfl
@[simp] theorem State.retired_putEntry (s : State) (i : EntrySlot) (e : Option Entry) :
    (s.putEntry i e).dir.retired = s.dir.retired := rfl
theorem State.entryAt_putEntry (s : State) (i j : EntrySlot) (e : Option Entry) :
    (s.putEntry i e).entryAt j = if i = j then e else s.entryAt j := by
  simp [State.entryAt, State.putEntry, Vector.getElem_set, Fin.ext_iff]
@[simp] theorem State.entryAt_putEntry_same (s : State) (i : EntrySlot) (e : Option Entry) :
    (s.putEntry i e).entryAt i = e := by
  simp [State.entryAt_putEntry]
@[simp] theorem State.pending_modEntry (i : EntrySlot) (f : Entry → Entry) (s : State) : (modEntry i f s).pending = s.pending := by
  unfold modEntry; split <;> rfl
@[simp] theorem State.now_modEntry (i : EntrySlot) (f : Entry → Entry) (s : State) : (modEntry i f s).now = s.now := by
  unfold modEntry; split <;> rfl
@[simp] theorem State.freeCtr_modEntry (i : EntrySlot) (f : Entry → Entry) (s : State) : (modEntry i f s).freeCtr = s.freeCtr := by
  unfold modEntry; split <;> rfl
@[simp] theorem State.la_modEntry (i : EntrySlot) (f : Entry → Entry) (s : State) : (modEntry i f s).la = s.la := by
  unfold modEntry; split <;> rfl
@[simp] theorem State.lb_modEntry (i : EntrySlot) (f : Entry → Entry) (s : State) : (modEntry i f s).lb = s.lb := by
  unfold modEntry; split <;> rfl
@[simp] theorem State.prof_modEntry (i : EntrySlot) (f : Entry → Entry) (s : State) : (modEntry i f s).prof = s.prof := by
  unfold modEntry; split <;> rfl
@[simp] theorem State.area_modEntry (i : EntrySlot) (f : Entry → Entry) (s : State) : (modEntry i f s).area = s.area := by
  unfold modEntry; split <;> rfl
@[simp] theorem State.arb_modEntry (i : EntrySlot) (f : Entry → Entry) (s : State) : (modEntry i f s).arb = s.arb := by
  unfold modEntry; split <;> rfl
@[simp] theorem State.rcpt_modEntry (i : EntrySlot) (f : Entry → Entry) (s : State) : (modEntry i f s).rcpt = s.rcpt := by
  unfold modEntry; split <;> rfl
@[simp] theorem State.host_modEntry (i : EntrySlot) (f : Entry → Entry) (s : State) : (modEntry i f s).host = s.host := by
  unfold modEntry; split <;> rfl
@[simp] theorem State.link_modEntry (i : EntrySlot) (f : Entry → Entry) (s : State) (l : LinkId) :
    (modEntry i f s).link l = s.link l := by
  unfold modEntry; split <;> rfl
@[simp] theorem State.useCounts_modEntry (i : EntrySlot) (f : Entry → Entry) (s : State) :
    (modEntry i f s).dir.useCounts = s.dir.useCounts := by
  unfold modEntry; split <;> rfl
@[simp] theorem State.segs_modEntry (i : EntrySlot) (f : Entry → Entry) (s : State) :
    (modEntry i f s).dir.segs = s.dir.segs := by
  unfold modEntry; split <;> rfl
@[simp] theorem State.retired_modEntry (i : EntrySlot) (f : Entry → Entry) (s : State) :
    (modEntry i f s).dir.retired = s.dir.retired := by
  unfold modEntry; split <;> rfl
theorem State.entryAt_modEntry (i j : EntrySlot) (f : Entry → Entry) (s : State) :
    (modEntry i f s).entryAt j = if i = j then (s.entryAt j).map f else s.entryAt j := by
  unfold modEntry
  split
  · rename_i h
    split
    · rename_i hij; subst hij; simp [h]
    · rfl
  · rename_i e h
    rw [State.entryAt_putEntry]
    split
    · rename_i hij; subst hij; simp [h]
    · rfl
@[simp] theorem State.entryAt_modEntry_same (i : EntrySlot) (f : Entry → Entry) (s : State) :
    (modEntry i f s).entryAt i = (s.entryAt i).map f := by
  simp [State.entryAt_modEntry]
@[simp] theorem State.handleOf_modEntry (i j : EntrySlot) (f : Entry → Entry) (s : State) :
    (modEntry i f s).handleOf j = s.handleOf j := by
  simp [State.handleOf]

@[simp] theorem State.setLink_setLink (s : State) (l : LinkId) (k m : Link) : (s.setLink l k).setLink l m = s.setLink l m := by
  cases l <;> rfl
theorem modLink_modLink (l : LinkId) (f g : Link → Link) (s : State) :
    modLink l g (modLink l f s) = modLink l (fun k => g (f k)) s := by
  cases l <;> rfl

end Sys2Proof.Machine
end

