-- ==== Sys2Proof/Laws/Work.lean ====
section
/-! SUPPORT. What the work of the receipt unit, the arbiter, the area decision unit, the directory and the assembler
can do at most to the rest of the state: the relation Work, and one lemma per operation. -/

namespace Sys2Proof.Machine

theorem Work.refl (s : State) : Work s s :=
  ⟨rfl, rfl, rfl, rfl, rfl, fun _ => rfl, fun _ _ => rfl, fun _ _ h => h, rfl, fun _ h => h, id, id, fun _ => rfl,
    fun _ h => .inl h⟩

theorem Link.state_of_core {k m : Link} (h : k.core = m.core) : k.state = m.state := by
  have := congrArg Link.state h; exact this

theorem Link.slots_of_core {k m : Link} (h : k.core = m.core) : k.slots = m.slots := by
  have := congrArg Link.slots h; exact this

theorem Link.credits_of_core {k m : Link} (h : k.core = m.core) : k.credits = m.credits := by
  have := congrArg Link.credits h; exact this

theorem Link.frame_of_core {k m : Link} (h : k.core = m.core) : k.frame = m.frame := by
  have := congrArg Link.frame h; exact this

theorem Link.serving_of_core {k m : Link} (h : k.core = m.core) : k.serving = m.serving := by
  have := congrArg Link.serving h; exact this

theorem Link.subWaiting_of_core {k m : Link} (h : k.core = m.core) : k.subWaiting = m.subWaiting := by
  have := congrArg Link.subWaiting h; exact this

theorem Link.fault_of_core {k m : Link} (h : k.core = m.core) : k.fault = m.fault := by
  have := congrArg Link.fault h; exact this

theorem Link.quarantine_of_core {k m : Link} (h : k.core = m.core) : k.quarantine = m.quarantine := by
  have := congrArg Link.quarantine h; exact this

theorem Link.txWire_of_core {k m : Link} (h : k.core = m.core) : k.txWire = m.txWire := by
  have := congrArg Link.txWire h; exact this

theorem Work.state {s t : State} (h : Work s t) (l : LinkId) : (t.link l).state = (s.link l).state :=
  Link.state_of_core (h.link l)

theorem Work.trans {s t u : State} (a : Work s t) (b : Work t u) : Work s u where
  pending := b.pending.trans a.pending
  now := b.now.trans a.now
  freeCtr := b.freeCtr.trans a.freeCtr
  prof := b.prof.trans a.prof
  position := b.position.trans a.position
  link l := (b.link l).trans (a.link l)
  outQ l h := (b.outQ l (by rwa [a.state l])).trans (a.outQ l h)
  outstanding l h k := a.outstanding l h (b.outstanding l (by rwa [a.state l]) k)
  port := b.port.trans a.port
  events k h := b.events k (a.events k h)
  wake h := b.wake (a.wake h)
  counters h := b.counters (a.counters h)
  frames l := (b.frames l).trans (a.frames l)
  latched k h := by
    rcases b.latched k h with h | h
    · exact (a.latched k h).imp_right (fun w e => b.wake (w e))
    · have w : t.host.wakeEn = s.host.wakeEn := by have := congrArg HostPort.wakeEn a.port; exact this
      exact .inr (fun e => h (by rwa [w]))

theorem Work.settings {s t : State} (h : Work s t) : t.host.settings = s.host.settings := by
  have := congrArg HostPort.settings h.port; exact this

/-! ### Single updates -/

theorem work_setDir (s : State) (d : Directory) : Work s (s.setDir d) :=
  ⟨rfl, rfl, rfl, rfl, rfl, fun _ => rfl, fun _ _ => rfl, fun _ _ h => h, rfl, fun _ h => h, id, id, fun _ => rfl,
    fun _ h => .inl h⟩

theorem work_setArb (s : State) (a : Arbiter) : Work s (s.setArb a) :=
  ⟨rfl, rfl, rfl, rfl, rfl, fun _ => rfl, fun _ _ => rfl, fun _ _ h => h, rfl, fun _ h => h, id, id, fun _ => rfl,
    fun _ h => .inl h⟩

theorem work_setRcpt (s : State) (r : ReceiptUnit) : Work s (s.setRcpt r) :=
  ⟨rfl, rfl, rfl, rfl, rfl, fun _ => rfl, fun _ _ => rfl, fun _ _ h => h, rfl, fun _ h => h, id, id, fun _ => rfl,
    fun _ h => .inl h⟩

theorem work_setArea (s : State) (q : List Handle) : Work s (s.setArea { s.area with redecide := q }) :=
  ⟨rfl, rfl, rfl, rfl, rfl, fun _ => rfl, fun _ _ => rfl, fun _ _ h => h, rfl, fun _ h => h, id, id, fun _ => rfl,
    fun _ h => .inl h⟩

theorem work_putEntry (s : State) (i : EntrySlot) (e : Option Entry) : Work s (s.putEntry i e) := work_setDir _ _

theorem work_setSegs (s : State) (v : List Segment) : Work s (s.setSegs v) := work_setDir _ _

theorem work_modEntry (i : EntrySlot) (f : Entry → Entry) (s : State) : Work s (modEntry i f s) := by
  unfold modEntry
  split
  · exact Work.refl s
  · exact work_putEntry _ _ _

theorem work_modNamed (h : Handle) (f : Entry → Entry) (s : State) : Work s (modNamed h f s) := by
  unfold modNamed
  split
  · exact Work.refl s
  · exact work_modEntry _ _ _

theorem work_post (k : EventKind) (s : State) : Work s (post k s) := by
  refine ⟨rfl, rfl, rfl, rfl, rfl, fun _ => rfl, fun _ _ => rfl, fun _ _ h => h, rfl, ?_, ?_, id, fun _ => rfl, ?_⟩
  · intro j h
    simp [post, BitVec.getLsbD_or, h]
  · intro h
    simp [post, h]
  · intro j h
    simp only [post, State.host_setHost, BitVec.getLsbD_or, Bool.or_eq_true] at h
    refine h.imp_right (fun hb e => ?_)
    have hj : j = k.code := by
      by_contra hne
      have : k.bit.getLsbD j = false := by
        simp only [EventKind.bit, BitVec.getLsbD_shiftLeft]
        by_cases hlt : j < k.code
        · simp [hlt]
        · have : j - k.code ≠ 0 := by omega
          simp [BitVec.getLsbD_one, this]
      rw [this] at hb; cases hb
    subst hj
    simp [post, EventSet.holds, e]

theorem bump_le (n : Nat) : bump n ≤ Config.counterLimit := Nat.min_le_right _ _

theorem work_countGlobal (f : GlobalCounters → GlobalCounters) (s : State)
    (hf : ∀ c : GlobalCounters, c.bounded → (f c).bounded) : Work s (countGlobal f s) :=
  ⟨rfl, rfl, rfl, rfl, rfl, fun _ => rfl, fun _ _ => rfl, fun _ _ h => h, rfl, fun _ h => h, id,
    fun h => ⟨h.1, h.2.1, hf _ h.2.2⟩, fun _ => rfl, fun _ h => .inl h⟩

theorem work_countLink (l : LinkId) (f : LinkCounters → LinkCounters) (s : State)
    (hf : ∀ c : LinkCounters, c.bounded → (f c).bounded) : Work s (countLink l f s) := by
  cases l
  · exact ⟨rfl, rfl, rfl, rfl, rfl, fun _ => rfl, fun _ _ => rfl, fun _ _ h => h, rfl, fun _ h => h, id,
      fun h => ⟨hf _ h.1, h.2.1, h.2.2⟩, fun m => by cases m <;> rfl, fun _ h => .inl h⟩
  · exact ⟨rfl, rfl, rfl, rfl, rfl, fun _ => rfl, fun _ _ => rfl, fun _ _ h => h, rfl, fun _ h => h, id,
      fun h => ⟨h.1, hf _ h.2.1, h.2.2⟩, fun m => by cases m <;> rfl, fun _ h => .inl h⟩

/-- A change of a link's RECEIPT in its output queue and outstanding receipt, made only in UP, or that makes none
outstanding. -/
theorem work_modLink (l : LinkId) (f : Link → Link) (s : State) (hc : (f (s.link l)).core = (s.link l).core)
    (hq : (s.link l).state ≠ .up → (f (s.link l)).outQ = (s.link l).outQ)
    (ho : (s.link l).state ≠ .up → (f (s.link l)).outstanding ≠ none → (s.link l).outstanding ≠ none)
    (hr : nonReceipts (f (s.link l)).outQ = nonReceipts (s.link l).outQ) :
    Work s (modLink l f s) := by
  refine ⟨by simp, by simp, by simp, by simp, by simp, ?_, ?_, ?_, by simp, by simp, by simp, by simp, ?_, fun _ h => .inl (by simpa using h)⟩
  · intro m
    rw [State.link_modLink]
    split
    · rename_i h; subst h; exact hc
    · rfl
  · intro m
    rw [State.link_modLink]
    split
    · rename_i h; subst h; exact hq
    · exact fun _ => rfl
  · intro m
    rw [State.link_modLink]
    split
    · rename_i h; subst h; exact ho
    · exact fun _ h => h
  · intro m
    rw [State.link_modLink]
    split
    · rename_i h; subst h; exact hr
    · rfl

/-- A RECEIPT that joins the queue leaves the other frames (R39). -/
theorem nonReceipts_pushReceipt (q : List OutFrame) (f : OutFrame) (h : f.isReceipt = true) :
    nonReceipts (pushFrame q f) = nonReceipts q := by
  have n : f.isSubscribe = false := by cases f <;> simp_all [OutFrame.isReceipt, OutFrame.isSubscribe]
  simp [pushFrame, nonReceipts, h, n]

/-- A frame that is neither SUBSCRIBE nor RECEIPT joins at the tail (R41). -/
theorem nonReceipts_pushOther (q : List OutFrame) (f : OutFrame) (h : f.isReceipt = false) (n : f.isSubscribe = false) :
    nonReceipts (pushFrame q f) = nonReceipts q ++ [f] := by
  simp [pushFrame, nonReceipts, h, n]

theorem work_enqueueReceipt (l : LinkId) (f : OutFrame) (s : State) (h : (s.link l).state = .up)
    (hf : f.isReceipt = true) : Work s (enqueue l f s) :=
  work_modLink l _ s rfl (fun n => absurd h n) (fun n => absurd h n) (nonReceipts_pushReceipt _ _ hf)

/-! ### Receipts -/

theorem work_setQueue (s : State) (q : List ReceiptRecord) : Work s (s.setQueue q) := work_setRcpt _ _

theorem work_modRecord (id : ReceiptId) (f : ReceiptRecord → ReceiptRecord) (s : State) : Work s (modRecord id f s) :=
  work_setQueue _ _

theorem work_dropRecord (id : ReceiptId) (s : State) : Work s (dropRecord id s) := work_setQueue _ _

theorem work_setReceipt (h : Handle) (r : ReceiptState) (s : State) : Work s (setReceipt h r s) := work_modNamed _ _ _

theorem work_clearOutstanding (l : LinkId) (s : State) : Work s (clearOutstanding l s) :=
  work_modLink l _ s rfl (fun _ => rfl) (fun _ h => absurd rfl h) rfl

theorem nextReceipt_target {s : State} {l : LinkId} {r : ReceiptRecord} (h : s.nextReceipt l = some r) :
    r.target = l ∧ r.state = .queued := by
  have := List.find?_some h
  simpa using this

theorem work_makeOffer (r : ReceiptRecord) (s : State) (h : (s.link r.target).state = .up) :
    Work s (makeOffer r s) := by
  unfold makeOffer
  have a := (work_modRecord r.id (fun x => { x with state := .offered, deadline := some (s.now + Config.offerMs) })
    s).trans (work_setReceipt r.handle .offered _)
  have b := a.trans (work_enqueueReceipt r.target (.receipt r.id r.key r.revision r.delay) _ ((a.state _).trans h) rfl)
  exact b.trans (work_modLink r.target _ _ rfl (fun n => absurd ((b.state _).trans h) n)
    (fun n => absurd ((b.state _).trans h) n) rfl)

theorem work_offer (l : LinkId) (s : State) : Work s (offer l s) := by
  unfold offer
  split
  · rename_i h
    split
    · exact Work.refl s
    · rename_i r hr
      have := (nextReceipt_target hr).1
      subst this
      exact work_makeOffer r s h.1
  · exact Work.refl s

theorem work_receiptFailed (s : State) : Work s (receiptFailed s) :=
  (work_post _ s).trans (work_countGlobal _ _ (fun _ h => by
    simp only [GlobalCounters.bounded] at h ⊢
    exact ⟨h.1, h.2.1, h.2.2.1, h.2.2.2.1, h.2.2.2.2.1, bump_le _, h.2.2.2.2.2.2⟩))

theorem work_refuse (r : ReceiptRecord) (s : State) : Work s (refuse r s) := by
  unfold refuse
  refine (work_clearOutstanding r.target s).trans ?_
  refine Work.trans ?_ ((work_offer _ _).trans (work_offer _ _))
  split
  · exact (work_modRecord _ _ _).trans (work_setReceipt _ _ _)
  · exact ((work_dropRecord _ _).trans (work_setReceipt _ _ _)).trans (work_receiptFailed _)

theorem work_receiptSent (r : ReceiptRecord) (s : State) : Work s (receiptSent r s) := by
  unfold receiptSent
  refine ((((work_clearOutstanding r.target s).trans (work_dropRecord _ _)).trans (work_setReceipt _ _ _)).trans
    ((work_post _ _).trans (work_countGlobal _ _ ?_))).trans (work_offer _ _)
  intro c h
  simp only [GlobalCounters.bounded] at h ⊢
  exact ⟨h.1, h.2.1, h.2.2.1, h.2.2.2.1, bump_le _, h.2.2.2.2.2.1, h.2.2.2.2.2.2⟩

theorem work_refuseOutstanding (l : LinkId) (s : State) : Work s (refuseOutstanding l s) := by
  unfold refuseOutstanding
  split
  · exact Work.refl s
  · split
    · exact work_clearOutstanding l s
    · exact (work_clearOutstanding l s).trans (work_refuse _ _)

theorem work_entryGone (h : Handle) (s : State) : Work s (entryGone h s) := by
  unfold entryGone
  split
  · exact Work.refl s
  · rename_i r _
    have a := (work_dropRecord r.id s).trans (work_receiptFailed _)
    dsimp only
    split
    · exact a
    · exact a.trans ((work_clearOutstanding _ _).trans (work_offer _ _))

theorem work_receiptStep (i : EntrySlot) (s : State) : Work s (receiptStep i s) := by
  unfold receiptStep
  split
  · exact Work.refl s
  · split
    · exact Work.refl s
    · split
      · split
        · exact (work_modEntry _ _ _).trans (work_receiptFailed _)
        · exact ((work_setRcpt _ _).trans (work_modEntry _ _ _)).trans (work_offer _ _)
      · exact Work.refl s

/-! ### The arbiter -/

theorem work_beginPlay (lv : Level) (i : EntrySlot) (s : State) : Work s (beginPlay lv i s) := by
  unfold beginPlay
  split
  · exact Work.refl s
  · split
    · exact Work.refl s
    · exact work_setArb _ _

theorem work_selectFrom (start : Level → EntrySlot) (s : State) : Work s (selectFrom start s) := by
  unfold selectFrom
  split
  · exact Work.refl s
  · exact work_beginPlay _ _ _

theorem work_select (s : State) : Work s (select s) := work_selectFrom _ _

theorem work_clearPlay (s : State) : Work s (clearPlay s) := work_setArb _ _

theorem work_selectIfIdle (s : State) : Work s (selectIfIdle s) := by
  unfold selectIfIdle
  split
  · exact work_select s
  · exact Work.refl s

theorem work_raiseAlert (i : EntrySlot) (s : State) : Work s (raiseAlert i s) := by
  unfold raiseAlert
  split
  · exact Work.refl s
  · exact (work_modEntry _ _ _).trans (work_selectIfIdle _)

theorem work_retrigger (i : EntrySlot) (s : State) : Work s (retrigger i s) := by
  unfold retrigger
  split
  · exact Work.refl s
  · split
    · exact work_raiseAlert _ _
    · dsimp only
      split
      · exact (work_modEntry _ _ _).trans (work_setArb _ _)
      · exact work_modEntry _ _ _

theorem work_dropRequest (i : EntrySlot) (s : State) : Work s (dropRequest i s) := by
  unfold dropRequest
  split
  · exact Work.refl s
  · dsimp only
    split
    · exact ((work_modEntry _ _ _).trans (work_clearPlay _)).trans (work_select _)
    · exact work_modEntry _ _ _

theorem work_hearRequest (i : EntrySlot) (k : RequestKind) (s : State) : Work s (hearRequest i k s) :=
  work_modEntry _ _ _

theorem work_finishPlay (p : Play) (r : Request) (s : State) : Work s (finishPlay p r s) :=
  ((work_hearRequest _ _ _).trans (work_clearPlay _)).trans (work_select _)

theorem work_preempt (s : State) : Work s (preempt s) := (work_clearPlay _).trans (work_select _)

theorem work_yieldTurn (p : Play) (r : Request) (s : State) : Work s (yieldTurn p r s) :=
  (work_clearPlay _).trans (work_selectFrom _ _)

theorem work_foldl {α : Type} (f : State → α → State) (hf : ∀ s a, Work s (f s a)) (xs : List α) (s : State) :
    Work s (xs.foldl f s) := by
  induction xs generalizing s with
  | nil => exact Work.refl s
  | cons x xs ih => exact (hf s x).trans (ih _)

theorem work_silenceWaiting (i : EntrySlot) (s : State) : Work s (silenceWaiting i s) := by
  unfold silenceWaiting
  split
  · exact Work.refl s
  · split
    · exact Work.refl s
    · split
      · exact work_modEntry _ _ _
      · exact work_hearRequest _ _ _

theorem work_silencePlaying (s : State) : Work s (silencePlaying s) := by
  unfold silencePlaying
  split
  · exact Work.refl s
  · split
    · exact work_modEntry _ _ _
    · exact work_finishPlay _ _ _

theorem work_silenceAll (s : State) : Work s (silenceAll s) :=
  (work_foldl _ (fun s i => work_silenceWaiting i s) _ s).trans (work_silencePlaying _)

theorem work_silencedWaitingEnd (i : EntrySlot) (s : State) : Work s (silencedWaitingEnd i s) := by
  unfold silencedWaitingEnd
  split
  · exact Work.refl s
  · split
    · exact work_hearRequest _ _ _
    · exact Work.refl s

theorem work_silencedPlayingEnd (s : State) : Work s (silencedPlayingEnd s) := by
  unfold silencedPlayingEnd
  split
  · exact Work.refl s
  · split
    · exact work_finishPlay _ _ _
    · exact Work.refl s

theorem work_comparePlay (s : State) : Work s (comparePlay s) := by
  unfold comparePlay
  split
  · exact Work.refl s
  · split
    · exact work_preempt s
    · split
      · exact work_yieldTurn _ _ _
      · exact Work.refl s

theorem work_arbiterMeets (old : Settings) (s : State) : Work s (arbiterMeets old s) := by
  have a : Work s (silencedPlayingEnd (entrySlotList.foldl (fun t i => silencedWaitingEnd i t) s)) :=
    (work_foldl _ (fun s i => work_silencedWaitingEnd i s) _ s).trans (work_silencedPlayingEnd _)
  by_cases h : s.host.settings.minimumPlay < old.minimumPlay
  · simp only [arbiterMeets, if_pos h]
    split
    · exact a.trans (work_comparePlay _)
    · exact a
  · simp only [arbiterMeets, if_neg h]
    split
    · exact work_comparePlay _
    · exact Work.refl _

theorem work_raiseReminder (i : EntrySlot) (s : State) : Work s (raiseReminder i s) := by
  unfold raiseReminder
  split
  · exact Work.refl s
  · split
    · exact Work.refl s
    · exact (work_modEntry _ _ _).trans (work_selectIfIdle _)

theorem work_remind (i : EntrySlot) (s : State) : Work s (remind i s) := by
  unfold remind
  dsimp only
  have a := (work_modEntry i (reminderFallsDue s.now) s).trans (work_raiseReminder i _)
  split
  · exact a
  · split
    · exact a.trans (work_modEntry _ _ _)
    · exact a

/-! ### Area decision -/

theorem work_trigger (p : Entry → Bool) (s : State) : Work s (trigger p s) := work_setArea _ _

theorem work_servingTrigger (s : State) : Work s (servingTrigger s) := work_trigger _ _

theorem work_redecideEntry (i : EntrySlot) (e : Entry) (s : State) : Work s (redecideEntry i e s) := by
  unfold redecideEntry
  dsimp only
  split
  · exact ((work_modEntry _ _ _).trans (work_raiseAlert _ _)).trans (work_post _ _)
  · exact work_modEntry _ _ _

/-! ### The directory -/

theorem work_retire (k : Key) (r : Revision) (d : Option Discarded) (s : State) : Work s (retire k r d s) := work_setDir _ _

theorem work_unretire (k : Key) (s : State) : Work s (unretire k s) := work_setDir _ _

theorem work_releaseAll (i : EntrySlot) (s : State) : Work s (releaseAll i s) := work_setSegs _ _

theorem work_releaseGroup (i : EntrySlot) (g : SegmentGroup) (s : State) : Work s (releaseGroup i g s) :=
  work_setSegs _ _

theorem work_promoteSegs (i : EntrySlot) (s : State) : Work s (promoteSegs i s) := work_setSegs _ _

theorem work_retireEntry (i : EntrySlot) (d : Option Discarded) (s : State) : Work s (retireEntry i d s) := by
  unfold retireEntry
  split
  · exact Work.refl s
  · split
    · exact Work.refl s
    · exact work_retire _ _ _ _

theorem work_departEntry (i : EntrySlot) (s : State) : Work s (departEntry i s) :=
  (((work_dropRequest i s).trans (work_entryGone _ _)).trans
    ((work_releaseAll _ _).trans (work_putEntry _ _ _))).trans (work_post _ _)

theorem work_evict (i : EntrySlot) (s : State) : Work s (evict i s) :=
  ((work_retireEntry i none s).trans (work_departEntry _ _)).trans (work_countGlobal _ _ (fun _ h => by
    simp only [GlobalCounters.bounded] at h ⊢
    exact ⟨bump_le _, h.2⟩))

theorem work_expireEntry (i : EntrySlot) (s : State) : Work s (expireEntry i s) :=
  (work_retireEntry i _ s).trans (work_departEntry _ _)

theorem work_bumpUse (i : EntrySlot) (s : State) : Work s (bumpUse i s) := work_setDir _ _

theorem work_allocate (c : AlertClass) (s : State) {i : EntrySlot} {t : State} (h : allocate c s = some (i, t)) :
    Work s t := by
  unfold allocate at h
  split at h
  · simp only [Option.some.injEq, Prod.mk.injEq] at h
    exact h.2 ▸ work_bumpUse _ _
  · split at h
    · simp only [Option.some.injEq, Prod.mk.injEq] at h
      exact h.2 ▸ (work_evict _ _).trans (work_bumpUse _ _)
    · simp at h

theorem occupancy_le (s : State) : s.occupancy ≤ Config.entrySlots := by
  have := List.countP_le_length (p := fun i => (s.entryAt i).isSome) (l := entrySlotList)
  simpa [State.occupancy, entrySlotList] using this

theorem work_reportOccupancy (s : State) : Work s (reportOccupancy s) :=
  work_countGlobal _ _ (fun _ h => by
    simp only [GlobalCounters.bounded] at h ⊢
    exact ⟨h.1, h.2.1, h.2.2.1, h.2.2.2.1, h.2.2.2.2.1, h.2.2.2.2.2.1, Nat.max_le.2 ⟨h.2.2.2.2.2.2, occupancy_le s⟩⟩)

theorem work_placeEntry (i : EntrySlot) (e : Entry) (s : State) : Work s (placeEntry i e s) :=
  (work_putEntry _ _ _).trans (work_reportOccupancy _)

theorem work_takeSegment (i : EntrySlot) (part : Nat) (text : List Byte) (c : AlertClass) (s : State) {t : State}
    (h : takeSegment i part text c s = some t) : Work s t := by
  unfold takeSegment at h
  split at h
  · exact Option.some.inj h ▸ work_setSegs _ _
  · split at h
    · simp at h
    · exact Option.some.inj h ▸ (work_evict _ _).trans (work_setSegs _ _)

theorem work_dropIncoming (i : EntrySlot) (s : State) : Work s (dropIncoming i s) :=
  (work_releaseGroup _ _ _).trans (work_modEntry _ _ _)

/-! ### The assembler -/

theorem work_settleCompletion (i : EntrySlot) (b : EntryState) (v : Verdict) (s : State) :
    Work s (settleCompletion i b v s) := by
  cases b <;> simp only [settleCompletion]
  · split
    · exact ((work_modEntry _ _ _).trans (work_raiseAlert _ _)).trans (work_post _ _)
    · exact work_modEntry _ _ _
  · exact ((work_modEntry _ _ _).trans (work_retrigger _ _)).trans (work_post _ _)
  · split
    · exact ((work_modEntry _ _ _).trans (work_raiseAlert _ _)).trans (work_post _ _)
    · exact work_modEntry _ _ _
  · split
    · exact ((work_modEntry _ _ _).trans (work_raiseAlert _ _)).trans (work_post _ _)
    · exact work_modEntry _ _ _
  · exact Work.refl s

theorem work_complete (i : EntrySlot) (g : Governing) (s : State) : Work s (complete i g s) := by
  unfold complete
  split
  · exact Work.refl s
  · split
    · exact Work.refl s
    · split
      · exact Work.refl s
      · exact (((work_releaseGroup _ _ _).trans (work_promoteSegs _ _)).trans (work_modEntry _ _ _)).trans
          (work_settleCompletion _ _ _ _)

theorem work_startRevision (i : EntrySlot) (p : Page) (g : Governing) (s : State) {x : State × Disposition}
    (h : startRevision i p g s = some x) : Work s x.1 := by
  unfold startRevision at h
  split at h
  · simp at h
  · rename_i t ht
    have a := (work_takeSegment _ _ _ _ _ ht).trans
      (work_modEntry i (fun e => { e with incoming := some (startedRevision p g t.now) }) t)
    dsimp only at h
    split at h
    · exact Option.some.inj h ▸ a.trans (work_complete _ _ _)
    · exact Option.some.inj h ▸ a

theorem work_orFull (s : State) (r : Option (State × Disposition)) (h : ∀ x, r = some x → Work s x.1) :
    Work s (orFull s r).1 := by
  cases r with
  | none => exact Work.refl s
  | some x => exact h x rfl

theorem work_storePart (i : EntrySlot) (inc : Incoming) (p : Page) (g : Governing) (s : State) :
    Work s (storePart i inc p g s).1 := by
  unfold storePart
  split
  · exact Work.refl s
  · split
    · exact Work.refl s
    · refine work_orFull _ _ (fun x hx => ?_)
      obtain ⟨t, ht, rfl⟩ := Option.map_eq_some_iff.1 hx
      have a := work_takeSegment _ _ _ _ _ ht
      dsimp only
      split
      · exact (a.trans (work_modEntry _ _ _)).trans (work_complete _ _ _)
      · exact a.trans (work_modEntry _ _ _)

theorem work_restartRevision (i : EntrySlot) (p : Page) (g : Governing) (s : State) :
    Work s (restartRevision i p g s).1 :=
  work_orFull _ _ (fun _ hx => (work_dropIncoming _ _).trans (work_startRevision _ _ _ _ hx))

theorem work_issueAtLive (i : EntrySlot) (e : Entry) (p : Page) (g : Governing) (s : State) :
    Work s (issueAtLive i e p g s).1 := by
  unfold issueAtLive
  dsimp only
  split
  · split
    · exact work_storePart _ _ _ _ _
    · split
      · exact Work.refl s
      · split
        · exact work_restartRevision _ _ _ _
        · exact Work.refl s
  · split
    · exact Work.refl s
    · split
      · exact work_orFull _ _ (fun _ hx => work_startRevision _ _ _ _ hx)
      · exact Work.refl s

theorem work_takeCancel (i : EntrySlot) (p : Page) (g : Governing) (s : State) : Work s (takeCancel i p g s) :=
  (((work_dropRequest i s).trans (work_releaseAll _ _)).trans (work_modEntry _ _ _)).trans (work_post _ _)

theorem work_cancelAtLive (i : EntrySlot) (e : Entry) (p : Page) (g : Governing) (s : State) :
    Work s (cancelAtLive i e p g s).1 := by
  unfold cancelAtLive
  dsimp only
  split
  · exact Work.refl s
  · split
    · exact work_takeCancel _ _ _ _
    · exact Work.refl s

theorem work_cancelAtTombstone (i : EntrySlot) (k : CancelMark) (p : Page) (s : State) :
    Work s (cancelAtTombstone i k p s).1 := by
  unfold cancelAtTombstone
  split
  · exact Work.refl s
  · split
    · exact work_modEntry _ _ _
    · exact Work.refl s

theorem work_issueAtTombstone (i : EntrySlot) (k : CancelMark) (p : Page) (g : Governing) (s : State) :
    Work s (issueAtTombstone i k p g s).1 := by
  unfold issueAtTombstone
  split
  · exact Work.refl s
  · split
    · exact work_orFull _ _ (fun _ hx => (work_modEntry _ _ _).trans (work_startRevision _ _ _ _ hx))
    · exact Work.refl s

theorem work_workHit (i : EntrySlot) (e : Entry) (p : Page) (g : Governing) (s : State) :
    Work s (workHit i e p g s).1 := by
  unfold workHit
  split
  · exact work_issueAtLive _ _ _ _ _
  · exact work_cancelAtLive _ _ _ _ _
  · exact work_issueAtTombstone _ _ _ _ _
  · exact work_cancelAtTombstone _ _ _ _

theorem work_workMiss (p : Page) (g : Governing) (s : State) : Work s (workMiss p g s).1 := by
  unfold workMiss
  split
  · exact Work.refl s
  · rename_i i t ht
    have a := work_allocate _ _ ht
    split
    · dsimp only
      split
      · exact (a.trans (work_placeEntry _ _ _)).trans (work_putEntry _ _ _)
      · rename_i r hr
        exact (a.trans (work_placeEntry _ _ _)).trans (work_startRevision _ _ _ _ hr)
    · exact (a.trans (work_placeEntry _ _ _)).trans (work_post _ _)

/-- A judged page worked at the directory changes nothing outside what Work names (R70 to R72). -/
theorem work_workPage (p : Page) (g : Governing) (s : State) : Work s (workPage p g s).1 := by
  unfold workPage
  split
  · unfold joinUnlessFull
    split
    · exact work_workHit _ _ _ _ _
    · exact (work_workHit _ _ _ _ _).trans (work_modEntry _ _ _)
  · split
    · exact work_workMiss _ _ _
    · split
      · exact (work_unretire _ _).trans (work_workMiss _ _ _)
      · exact Work.refl s

end Sys2Proof.Machine
end

