-- ==== Sys2Proof/Laws/Told.lean ====
section
/-! SUPPORT. What everything but a host command can do at most to the host port and the clock: the relation Told, one
lemma per operation of the profile unit and the links. -/

namespace Sys2Proof.Machine

theorem Work.told {s t : State} (h : Work s t) : Told s t :=
  ⟨h.pending, h.now, h.freeCtr, h.position, h.port, h.events, h.wake, h.counters, h.latched⟩

theorem Told.refl (s : State) : Told s s := (Work.refl s).told

theorem Told.trans {s t u : State} (a : Told s t) (b : Told t u) : Told s u where
  pending := b.pending.trans a.pending
  now := b.now.trans a.now
  freeCtr := b.freeCtr.trans a.freeCtr
  position := b.position.trans a.position
  port := b.port.trans a.port
  events k h := b.events k (a.events k h)
  wake h := b.wake (a.wake h)
  counters h := b.counters (a.counters h)
  latched k h := by
    rcases b.latched k h with h | h
    · exact (a.latched k h).imp_right (fun w e => b.wake (w e))
    · have w : t.host.wakeEn = s.host.wakeEn := by have := congrArg HostPort.wakeEn a.port; exact this
      exact .inr (fun e => h (by rwa [w]))

theorem told_setProf (s : State) (p : ProfileUnit) : Told s (s.setProf p) :=
  ⟨rfl, rfl, rfl, rfl, rfl, fun _ h => h, id, id, fun _ h => .inl h⟩

theorem told_modLink (l : LinkId) (f : Link → Link) (s : State) : Told s (modLink l f s) := by
  refine ⟨by simp, by simp, by simp, by simp, by simp, ?_, ?_, ?_, fun _ h => .inl (by simpa using h)⟩ <;> simp

theorem told_enqueue (l : LinkId) (f : OutFrame) (s : State) : Told s (enqueue l f s) := told_modLink _ _ _

theorem told_foldl {α : Type} (f : State → α → State) (hf : ∀ s a, Told s (f s a)) (xs : List α) (s : State) :
    Told s (xs.foldl f s) := by
  induction xs generalizing s with
  | nil => exact Told.refl s
  | cons x xs ih => exact (hf s x).trans (ih _)

/-! ### The profile unit -/

theorem countCode_bounded (d : Disposition) (c : LinkCounters) (h : c.bounded) : (countCode d c).bounded := by
  obtain ⟨h1, h2, h3, h4, h5, h6, h7, h8⟩ := h
  cases d <;> refine ⟨?_, ?_, ?_, ?_, ?_, ?_, ?_, ?_⟩ <;> first | assumption | exact bump_le _

theorem work_postIfFull (d : Disposition) (s : State) : Work s (postIfFull d s) := by
  unfold postIfFull
  split
  · exact work_post _ _
  · exact Work.refl s

theorem told_freeSlot (l : LinkId) (k : PageSlot) (s : State) : Told s (freeSlot l k s) := told_modLink _ _ _

theorem told_dispose (l : LinkId) (k : PageSlot) (d : Disposition) (s : State) : Told s (dispose l k d s) := by
  unfold dispose
  split
  · exact Told.refl s
  · have a := ((work_countLink l (countCode d) s (countCode_bounded d)).trans (work_postIfFull d _)).told
    dsimp only
    split
    · exact (a.trans (told_enqueue _ _ _)).trans (told_freeSlot _ _ _)
    · exact a.trans (told_freeSlot _ _ _)

theorem work_noteFallback (s : State) : Work s (noteFallback s) :=
  (work_countGlobal _ s (fun _ h => by
    simp only [GlobalCounters.bounded] at h ⊢
    exact ⟨h.1, h.2.1, h.2.2.1, bump_le _, h.2.2.2.2⟩)).trans (work_post _ _)

theorem told_judgeUnder (b : Bool) (f : Profile) (l : LinkId) (k : PageSlot) (s : State) :
    Told s (judgeUnder b f l k s) := by
  unfold judgeUnder
  split
  · exact Told.refl s
  · split
    · exact told_dispose _ _ _ _
    · exact (work_workPage _ _ _).told.trans (told_dispose _ _ _ _)

theorem told_judge (f : Option Profile) (l : LinkId) (k : PageSlot) (s : State) : Told s (judge f l k s) := by
  unfold judge
  split
  · exact told_judgeUnder _ _ _ _ _
  · exact (work_noteFallback s).told.trans (told_judgeUnder _ _ _ _ _)

theorem told_useCache (c : CacheEntry) (s : State) : Told s (useCache c s) := told_setProf _ _

theorem told_install (c : CacheEntry) (s : State) : Told s (install c s) := told_setProf _ _

theorem told_startLoad (s : State) : Told s (startLoad s) := by
  unfold startLoad
  split
  · exact Told.refl s
  · split
    · exact told_setProf _ _
    · exact Told.refl s

theorem told_requestLoad (n : Nat) (s : State) : Told s (requestLoad n s) := by
  unfold requestLoad
  split
  · exact Told.refl s
  · split
    · exact (told_setProf _ _).trans (told_startLoad _)
    · exact Told.refl s

theorem told_parkPage (l : LinkId) (k : PageSlot) (a : Nat) (s : State) : Told s (parkPage l k a s) := told_setProf _ _

theorem told_handOn (l : LinkId) (k : PageSlot) (p : Page) (s : State) : Told s (handOn l k p s) := by
  unfold handOn
  split
  · exact (told_useCache _ _).trans (told_judge _ _ _ _)
  · split
    · exact (told_parkPage _ _ _ _).trans (told_requestLoad _ _)
    · exact told_judge _ _ _ _

theorem told_setSubWaiting (v : Option Nat) (l : LinkId) (s : State) : Told s (setSubWaiting v l s) := told_modLink _ _ _

theorem told_subscribeIfWaiting (n : Nat) (f : Option Profile) (l : LinkId) (s : State) :
    Told s (subscribeIfWaiting n f l s) := by
  unfold subscribeIfWaiting
  split
  · exact (told_enqueue _ _ _).trans (told_setSubWaiting _ _ _)
  · exact Told.refl s

theorem told_releaseWaiting (n : Nat) (f : Option Profile) (s : State) : Told s (releaseWaiting n f s) :=
  (told_setProf s _).trans (told_foldl _ (fun u (w : WaitingPage) => told_judge f w.link w.slot u) _ _)

theorem work_countLoad (f : Option Profile) (s : State) : Work s (countLoad f s) :=
  work_countGlobal _ s (fun c h => by
    simp only [GlobalCounters.bounded] at h ⊢
    refine ⟨h.1, bump_le _, ?_, h.2.2.2⟩
    split
    · exact h.2.2.1
    · exact bump_le _)

theorem told_endLoad (n : Nat) (s : State) : Told s (endLoad n s) := told_setProf _ _

theorem told_completeLoad (n : Nat) (b : List Byte) (s : State) : Told s (completeLoad n b s) := by
  unfold completeLoad
  dsimp only
  refine Told.trans ?_ (told_startLoad _)
  have a : Told s (countLoad (judgeRecord n b) (install ⟨n, judgeRecord n b⟩ (endLoad n s))) :=
    ((told_endLoad n s).trans (told_install _ _)).trans (work_countLoad _ _).told
  have c := ((a.trans (told_releaseWaiting n (judgeRecord n b) _)).trans (told_subscribeIfWaiting n
    (judgeRecord n b) .la _)).trans (told_subscribeIfWaiting n (judgeRecord n b) .lb _)
  split
  · exact c
  · exact c.trans (work_post _ _).told

theorem told_abandonLoad (s : State) : Told s (abandonLoad s) := told_setProf _ _

theorem told_emptyCache (s : State) : Told s (emptyCache s) := told_setProf _ _

theorem told_requestServing (l : LinkId) (s : State) : Told s (requestServing l s) := by
  unfold requestServing
  split
  · split
    · exact Told.refl s
    · exact (told_requestLoad _ _).trans (told_setSubWaiting _ _ _)
  · exact Told.refl s

theorem told_requestServingRegions (s : State) : Told s (requestServingRegions s) :=
  (told_requestServing .la s).trans (told_requestServing .lb _)

/-! ### The links -/

theorem told_enterUp (l : LinkId) (s : State) : Told s (enterUp l s) :=
  (((told_modLink l openedLink s).trans (work_post _ _).told).trans (work_servingTrigger _).told).trans
    (work_offer _ _).told

theorem told_suspendLink (l : LinkId) (s : State) : Told s (suspendLink l s) :=
  (told_modLink _ _ s).trans (work_refuseOutstanding _ _).told

theorem told_openLink (l : LinkId) (s : State) : Told s (openLink l s) := by
  unfold openLink
  split
  · exact (told_suspendLink _ _).trans (told_enterUp _ _)
  · exact told_enterUp _ _

theorem told_leaveUp (l : LinkId) (x : LinkState) (s : State) : Told s (leaveUp l x s) :=
  ((told_modLink _ _ s).trans (work_refuseOutstanding _ _).told).trans (work_servingTrigger _).told

theorem told_endFrame (l : LinkId) (s : State) : Told s (endFrame l s) := told_modLink _ _ _

theorem told_releaseReserved (l : LinkId) (f : FrameProgress) (s : State) : Told s (releaseReserved l f s) := by
  unfold releaseReserved
  split
  · exact Told.refl s
  · exact told_modLink _ _ _

theorem told_faultLink (l : LinkId) (k : FaultKind) (f : FrameKind) (s : State) : Told s (faultLink l k f s) :=
  (((told_modLink _ _ s).trans (told_leaveUp _ _ _)).trans (told_modLink _ _ _)).trans
    ((work_countLink _ _ _ (fun _ h => by
      simp only [LinkCounters.bounded] at h ⊢
      exact ⟨h.1, h.2.1, h.2.2.1, h.2.2.2.1, h.2.2.2.2.1, h.2.2.2.2.2.1, h.2.2.2.2.2.2.1, bump_le _⟩)).trans
      (work_post _ _)).told

theorem told_endQuarantine (l : LinkId) (s : State) : Told s (endQuarantine l s) :=
  (told_modLink _ _ s).trans (work_post _ _).told

theorem told_huntByte (l : LinkId) (b : Byte) (s : State) : Told s (huntByte l b s) := by
  unfold huntByte
  split
  · exact told_modLink _ _ _
  · split
    · exact told_faultLink _ _ _ _
    · exact Told.refl s
    · exact Told.refl s
    · exact Told.refl s

theorem told_keepHeader (l : LinkId) (h : FrameHeader) (i : Option PageSlot) (f : FrameProgress) (s : State) :
    Told s (keepHeader l h i f s) := told_modLink _ _ _

theorem told_overrunLink (l : LinkId) (s : State) : Told s (overrunLink l s) :=
  (work_countLink _ _ s (fun _ h => by
    simp only [LinkCounters.bounded] at h ⊢
    exact ⟨h.1, h.2.1, h.2.2.1, h.2.2.2.1, h.2.2.2.2.1, h.2.2.2.2.2.1, bump_le _, h.2.2.2.2.2.2.2⟩)).told.trans
    (told_faultLink _ _ _ _)

theorem told_headerUp (l : LinkId) (h : FrameHeader) (f : FrameProgress) (s : State) : Told s (headerUp l h f s) := by
  unfold headerUp
  split
  · split
    · split
      · exact told_overrunLink _ _
      · exact (told_modLink _ _ s).trans (told_keepHeader _ _ _ _ _)
    · exact told_keepHeader _ _ _ _ _
  · exact told_faultLink _ _ _ _

theorem told_closeLink (l : LinkId) (s : State) : Told s (closeLink l s) :=
  (told_leaveUp _ _ s).trans (work_post _ _).told

theorem told_emptyFrame (l : LinkId) (k : FrameKind) (s : State) : Told s (emptyFrame l k s) := by
  have he := told_endFrame l s
  unfold emptyFrame
  split
  · cases k
    · exact he.trans (told_openLink _ _)
    · exact he.trans (told_closeLink _ _)
    all_goals exact he.trans (told_faultLink _ _ _ _)
  · split
    · exact he.trans (told_openLink _ _)
    · exact he
  · split
    · exact he.trans (told_openLink _ _)
    · exact he
  · exact Told.refl s

theorem told_timeoutFrame (l : LinkId) (f : FrameProgress) (b : Option Byte) (s : State) :
    Told s (timeoutFrame l f b s) := by
  unfold timeoutFrame
  split
  · exact (told_releaseReserved _ _ _).trans (told_faultLink _ _ _ _)
  · exact told_endFrame _ _
  · exact told_endFrame _ _
  · exact Told.refl s

theorem told_onComplete (l : LinkId) (k : FrameKind) (b : List Byte) (up : FrameProgress → State → State)
    (other : State → State) (s : State) (hu : ∀ f t, Told t (up f t)) (ho : ∀ t, Told t (other t)) :
    Told s (onComplete l k b up other s) := by
  unfold onComplete
  split
  · exact Told.refl s
  · split
    · exact (told_endFrame _ _).trans (hu _ _)
    · exact (told_endFrame _ _).trans (ho _)

theorem told_takePage (l : LinkId) (i : PageSlot) (p : Page) (s : State) : Told s (takePage l i p s) :=
  ((told_modLink _ _ s).trans (work_countLink _ _ _ (fun _ h => by
    simp only [LinkCounters.bounded] at h ⊢
    exact ⟨bump_le _, h.2⟩)).told).trans (told_handOn _ _ _ _)

theorem told_pageInSlot (l : LinkId) (i : PageSlot) (b : List Byte) (s : State) : Told s (pageInSlot l i b s) := by
  unfold pageInSlot
  split
  · exact (told_modLink _ _ s).trans (told_faultLink _ _ _ _)
  · exact told_takePage _ _ _ _

theorem told_deriveSubscription (l : LinkId) (n : Nat) (s : State) : Told s (deriveSubscription l n s) := by
  unfold deriveSubscription
  dsimp only
  split
  · exact ((told_setSubWaiting _ _ s).trans (told_useCache _ _)).trans (told_enqueue _ _ _)
  · exact (((told_setSubWaiting _ _ s).trans (told_enqueue _ _ _)).trans (told_setSubWaiting _ _ _)).trans
      (told_requestLoad _ _)

theorem told_takeServing (l : LinkId) (v : Serving) (s : State) : Told s (takeServing l v s) := by
  unfold takeServing
  have a : Told s (servingTrigger (modLink l (fun k => { k with serving := v }) s)) :=
    (told_modLink _ _ s).trans (work_servingTrigger _).told
  dsimp only
  split
  · exact a.trans (told_setSubWaiting _ _ _)
  · split
    · exact a
    · exact a.trans (told_deriveSubscription _ _ _)

theorem work_settleResult (l : LinkId) (id : ReceiptId) (b : Bool) (s : State) : Work s (settleResult l id b s) := by
  unfold settleResult
  split
  · split
    · exact work_clearOutstanding _ _
    · split
      · exact (work_clearOutstanding l s).trans (work_receiptSent _ _)
      · exact (work_clearOutstanding l s).trans (work_refuse _ _)
  · exact Work.refl s

end Sys2Proof.Machine
end

