-- ==== Sys2Proof/Laws/LinkSound.lean ====
section
/-! SUPPORT. Every operation keeps both link records sound (State.linksSound). -/

namespace Sys2Proof.Machine

/-! ### Occupied slots -/

/-- 1 for an occupied slot, 0 for a FREE one. -/
def Slot.weight (v : Slot) : Nat := if v.occupied then 1 else 0

theorem Link.occupied_eq (k : Link) :
    k.occupied = k.slots[0].weight + k.slots[1].weight + k.slots[2].weight + k.slots[3].weight + k.slots[4].weight +
      k.slots[5].weight := by
  have h : pageSlotList = [0, 1, 2, 3, 4, 5] := by decide
  simp [Link.occupied, h, List.countP_cons, Slot.weight, Config.pageSlots]
  omega

theorem Link.occupied_le (k : Link) : k.occupied ≤ 6 := by
  have := List.countP_le_length (p := fun i => (k.slots[i]).occupied) (l := pageSlotList)
  simpa [Link.occupied, pageSlotList] using this

theorem Link.occupied_setSlot (k : Link) (i : PageSlot) (v : Slot) :
    (k.setSlot i v).occupied + k.slots[i].weight = k.occupied + v.weight := by
  rw [Link.occupied_eq, Link.occupied_eq]
  fin_cases i <;> simp [Link.setSlot] <;> omega

theorem Link.occupied_setSlot_free (k : Link) (i : PageSlot) (h : k.slots[i].occupied = true) :
    (k.setSlot i .free).occupied + 1 = k.occupied := by
  have := k.occupied_setSlot i .free
  rw [Slot.weight, if_pos h] at this
  exact this

theorem Link.occupied_setSlot_receiving (k : Link) (i : PageSlot) (h : k.slots[i].occupied = false) :
    (k.setSlot i .receiving).occupied = k.occupied + 1 := by
  have := k.occupied_setSlot i .receiving
  rw [Slot.weight, if_neg (by rw [h]; decide)] at this
  exact this

theorem Link.occupied_setSlot_held (k : Link) (i : PageSlot) (p : Page) (h : k.slots[i].occupied = true) :
    (k.setSlot i (.held p)).occupied = k.occupied := by
  have := k.occupied_setSlot i (.held p)
  rw [Slot.weight, if_pos h] at this
  exact Nat.add_right_cancel this

theorem Link.occupied_congr {k m : Link} (h : k.slots = m.slots) : k.occupied = m.occupied := by
  simp [Link.occupied, h]

theorem Link.slot_setSlot (k : Link) (i j : PageSlot) (v : Slot) :
    (k.setSlot i v).slots[j] = if i = j then v else k.slots[j] := by
  simp [Link.setSlot, Vector.getElem_set, Fin.ext_iff]

theorem Link.lowestFree_free {k : Link} {i : PageSlot} (h : k.lowestFree = some i) :
    k.slots[i].occupied = false := by
  have := List.find?_some h
  simpa using this

/-! ### Soundness under Work and under a change of one link -/

theorem Link.sound_of_core {k m : Link} (hc : m.core = k.core) (hq : k.state ≠ .up → m.outQ = k.outQ)
    (ho : k.state ≠ .up → m.outstanding ≠ none → k.outstanding ≠ none) (h : k.sound) : m.sound := by
  have hst := Link.state_of_core hc
  have hsl := Link.slots_of_core hc
  have hcr := Link.credits_of_core hc
  have hfr := Link.frame_of_core hc
  have hsw := Link.subWaiting_of_core hc
  have hqu := Link.quarantine_of_core hc
  have hoc := Link.occupied_congr hsl
  obtain ⟨⟨f1, f2⟩, ⟨c1, c2, c3⟩, q1, q2, q3, q4, q5⟩ := h
  refine ⟨⟨?_, ?_⟩, ⟨?_, ?_, ?_⟩, ?_, ?_, ?_, ?_, ?_⟩
  · rw [hsl, hfr]; exact f1
  · rw [hsl, hfr, hst]; exact f2
  · rw [hcr, hoc]; exact c1
  · rw [hcr, hoc, hst]; exact c2
  · rw [hcr, hst]; exact c3
  · rw [hst, hsw]
    intro n
    refine ⟨(q1 n).1, ?_⟩
    by_contra hm
    exact ho n hm (q1 n).2
  · rw [hst]
    intro n
    rw [hq (by rcases n with n | n <;> simp [n])]
    exact q2 n
  · rw [hst]
    intro n
    rw [hq (by simp [n])]
    exact q3 n
  · rw [hst, hqu]; exact q4
  · rw [hst, hfr]; exact q5

theorem sound_work {s t : State} (w : Work s t) (h : s.linksSound) : t.linksSound :=
  fun l => Link.sound_of_core (w.link l) (w.outQ l) (w.outstanding l) (h l)

theorem sound_setProf (s : State) (p : ProfileUnit) (h : s.linksSound) : (s.setProf p).linksSound := h

theorem sound_modLink (l : LinkId) (f : Link → Link) (s : State) (h : s.linksSound) (hf : (f (s.link l)).sound) :
    (modLink l f s).linksSound := by
  intro m
  rw [State.link_modLink]
  split
  · rename_i hm; subst hm; exact hf
  · exact h m

/-- A change that leaves the link record but for its output queue, in UP. -/
theorem sound_enqueue (l : LinkId) (f : OutFrame) (s : State) (hu : (s.link l).state = .up) (h : s.linksSound) :
    (enqueue l f s).linksSound := by
  intro m
  rw [link_enqueue]
  split
  · rename_i hm; subst hm
    exact Link.sound_of_core (k := s.link m) rfl (fun n => absurd hu n) (fun n => absurd hu n) (h m)
  · exact h m

theorem sound_setSubWaiting (v : Option Nat) (l : LinkId) (s : State) (hu : (s.link l).state = .up)
    (h : s.linksSound) : (setSubWaiting v l s).linksSound := by
  refine sound_modLink l _ s h ?_
  obtain ⟨f, c, q1, q2, q3, q4, q5⟩ := h l
  exact ⟨f, c, fun n => absurd hu n, q2, q3, q4, q5⟩

/-! ### The profile unit -/

theorem Slot.page_eq_some {v : Slot} {p : Page} : v.page = some p ↔ v = .held p := by
  cases v <;> simp [Slot.page]

theorem sound_freeSlot (l : LinkId) (k : PageSlot) (s : State) (p : Page) (hp : s.heldPage l k = some p)
    (h : s.linksSound) : (freeSlot l k s).linksSound := by
  have hs : (s.link l).slots[k] = .held p := by
    exact Slot.page_eq_some.1 hp
  have ho : (s.link l).slots[k].occupied = true := by rw [hs]; rfl
  have hn := (s.link l).occupied_setSlot_free k ho
  refine sound_modLink l _ s h ?_
  obtain ⟨⟨f1, f2⟩, ⟨c1, c2, c3⟩, q1, q2, q3, q4, q5⟩ := h l
  generalize s.link l = m at *
  refine ⟨⟨?_, ?_⟩, ⟨?_, ?_, ?_⟩, q1, q2, q3, q4, q5⟩
  · intro i hi
    have := m.slot_setSlot k i .free
    rw [show ({ m.setSlot k .free with credits := if m.state = .up then m.credits + 1 else m.credits } : Link).slots[i]
      = (m.setSlot k .free).slots[i] from rfl, this] at hi
    split at hi
    · simp at hi
    · exact f1 i hi
  · intro f i hf hi
    obtain ⟨a, b, c⟩ := f2 f i hf hi
    refine ⟨a, ?_, c⟩
    show (m.setSlot k .free).slots[i] = .receiving
    rw [m.slot_setSlot k i .free]
    split
    · rename_i e; subst e; rw [hs] at b; simp at b
    · exact b
  · show (if m.state = .up then m.credits + 1 else m.credits) + (m.setSlot k .free).occupied ≤ _
    simp only [Config.pageSlots] at *
    split
    · omega
    · omega
  · intro hu
    have hu' : m.state = .up := hu
    show (if m.state = .up then m.credits + 1 else m.credits) + (m.setSlot k .free).occupied = _
    have := c2 hu'
    simp only [hu', if_true, Config.pageSlots] at *
    omega
  · intro hu
    have hu' : m.state ≠ .up := hu
    show (if m.state = .up then m.credits + 1 else m.credits) = 0
    simp only [hu', if_false]
    exact c3 hu'

theorem Work.heldPage {s t : State} (w : Work s t) (l : LinkId) (k : PageSlot) : t.heldPage l k = s.heldPage l k := by
  simp only [State.heldPage, Link.slots_of_core (w.link l)]

theorem sound_dispose (l : LinkId) (k : PageSlot) (d : Disposition) (s : State) (h : s.linksSound) :
    (dispose l k d s).linksSound := by
  unfold dispose
  split
  · exact h
  · rename_i p hp
    have a := (work_countLink l (countCode d) s (countCode_bounded d)).trans (work_postIfFull d _)
    dsimp only
    split
    · rename_i hu
      exact sound_freeSlot l k _ p ((heldPage_enqueue _ _ _ _ _).trans ((a.heldPage l k).trans hp))
        (sound_enqueue _ _ _ hu (sound_work a h))
    · exact sound_freeSlot l k _ p ((a.heldPage l k).trans hp) (sound_work a h)

theorem sound_judgeUnder (b : Bool) (f : Profile) (l : LinkId) (k : PageSlot) (s : State) (h : s.linksSound) :
    (judgeUnder b f l k s).linksSound := by
  unfold judgeUnder
  split
  · exact h
  · split
    · exact sound_dispose _ _ _ _ h
    · exact sound_dispose _ _ _ _ (sound_work (work_workPage _ _ _) h)

theorem sound_judge (f : Option Profile) (l : LinkId) (k : PageSlot) (s : State) (h : s.linksSound) :
    (judge f l k s).linksSound := by
  unfold judge
  split
  · exact sound_judgeUnder _ _ _ _ _ h
  · exact sound_judgeUnder _ _ _ _ _ (sound_work (work_noteFallback s) h)

theorem link_startLoad (s : State) (l : LinkId) : (startLoad s).link l = s.link l := by
  unfold startLoad
  split
  · rfl
  · split <;> rfl

theorem link_requestLoad (n : Nat) (s : State) (l : LinkId) : (requestLoad n s).link l = s.link l := by
  unfold requestLoad
  split
  · rfl
  · split
    · rw [link_startLoad]; rfl
    · rfl

theorem sound_of_links {s t : State} (e : ∀ l, t.link l = s.link l) (h : s.linksSound) : t.linksSound := by
  intro l
  rw [e l]
  exact h l

theorem sound_handOn (l : LinkId) (k : PageSlot) (p : Page) (s : State) (h : s.linksSound) :
    (handOn l k p s).linksSound := by
  unfold handOn
  split
  · exact sound_judge _ _ _ _ h
  · split
    · exact sound_of_links (link_requestLoad _ _) h
    · exact sound_judge _ _ _ _ h

theorem sound_subscribeIfWaiting (n : Nat) (f : Option Profile) (l : LinkId) (s : State) (h : s.linksSound) :
    (subscribeIfWaiting n f l s).linksSound := by
  unfold subscribeIfWaiting
  split
  · rename_i c
    refine sound_setSubWaiting _ _ _ ?_ (sound_enqueue _ _ _ c.1 h)
    rw [state_enqueue]
    exact c.1
  · exact h

theorem preserved_foldl {α : Type} (P : State → Prop) (f : State → α → State) (hf : ∀ s a, P s → P (f s a))
    (xs : List α) (s : State) (h : P s) : P (xs.foldl f s) := by
  induction xs generalizing s with
  | nil => exact h
  | cons x xs ih => exact ih _ (hf s x h)

theorem sound_completeLoad (n : Nat) (b : List Byte) (s : State) (h : s.linksSound) :
    (completeLoad n b s).linksSound := by
  unfold completeLoad
  dsimp only
  refine sound_of_links (link_startLoad _) ?_
  have a : (countLoad (judgeRecord n b) (install ⟨n, judgeRecord n b⟩ (endLoad n s))).linksSound :=
    sound_work (work_countLoad _ _) h
  have c : (releaseWaiting n (judgeRecord n b)
      (countLoad (judgeRecord n b) (install ⟨n, judgeRecord n b⟩ (endLoad n s)))).linksSound :=
    preserved_foldl State.linksSound _ (fun u (w : WaitingPage) => sound_judge _ w.link w.slot u) _ _ a
  have d := sound_subscribeIfWaiting n (judgeRecord n b) .lb _ (sound_subscribeIfWaiting n (judgeRecord n b) .la _ c)
  split
  · exact d
  · exact sound_work (work_post _ _) d

theorem sound_requestServing (l : LinkId) (s : State) (h : s.linksSound) : (requestServing l s).linksSound := by
  unfold requestServing
  split
  · rename_i hu
    split
    · exact h
    · refine sound_setSubWaiting _ _ _ ?_ (sound_of_links (link_requestLoad _ _) h)
      rw [link_requestLoad]
      exact hu
  · exact h

theorem sound_requestServingRegions (s : State) (h : s.linksSound) : (requestServingRegions s).linksSound :=
  sound_requestServing _ _ (sound_requestServing _ _ h)

/-! ### The links -/

/-- A frame in progress without a reserved slot leaves no slot RECEIVING. -/
theorem Link.not_receiving {k : Link} (h : k.frameSound) (hf : ∀ f, k.frame = some f → f.slot = none) (i : PageSlot) :
    k.slots[i] ≠ .receiving := by
  intro hi
  obtain ⟨f, e, g⟩ := h.1 i hi
  rw [hf f e] at g
  simp at g

theorem sound_openedLink (k : Link) (hn : ∀ i : PageSlot, k.slots[i] ≠ .receiving) (hf : k.frame = none)
    (hq : k.quarantine = none) : (openedLink k).sound := by
  have hle := k.occupied_le
  have hocc : (openedLink k).occupied = k.occupied := Link.occupied_congr rfl
  refine ⟨⟨fun i hi => absurd hi (hn i), ?_⟩, ⟨?_, ?_, ?_⟩, ?_, ?_, ?_, ?_, ?_⟩
  · intro f i e _
    have : k.frame = some f := e
    rw [hf] at this
    simp at this
  · rw [hocc]
    show k.freeCount + k.occupied ≤ 6
    simp only [Link.freeCount, Config.pageSlots]; omega
  · intro _
    rw [hocc]
    show k.freeCount + k.occupied = 6
    simp only [Link.freeCount, Config.pageSlots]; omega
  · intro n; exact absurd rfl n
  · intro n; exact absurd rfl n
  · rintro (n | n) <;> cases n
  · intro n; cases n
  · constructor
    · intro n; cases n
    · intro n; exact absurd hq n
  · intro n; cases n

theorem sound_modLink_other (l : LinkId) (f : Link → Link) (s : State) (ho : (s.link l.other).sound)
    (hf : (f (s.link l)).sound) : (modLink l f s).linksSound := by
  intro m
  rcases LinkId.eq_or_other l m with e | e
  · subst e; rw [State.link_modLink_same]; exact hf
  · subst e; rw [State.link_modLink_other]; exact ho

theorem sound_enterUp (l : LinkId) (s : State) (ho : (s.link l.other).sound)
    (hn : ∀ i : PageSlot, (s.link l).slots[i] ≠ .receiving) (hf : (s.link l).frame = none)
    (hq : (s.link l).quarantine = none) : (enterUp l s).linksSound :=
  sound_work ((work_post _ _).trans ((work_servingTrigger _).trans (work_offer _ _)))
    (sound_modLink_other l _ s ho (sound_openedLink _ hn hf hq))

/-- What leaving UP or suspending a link leaves of the outstanding receipt: none. -/
theorem outstanding_offer_of_not_up (l m : LinkId) (s : State) (hm : (s.link m).state ≠ .up) :
    ((offer l s).link m).outstanding = (s.link m).outstanding := by
  by_cases e : m = l
  · subst e
    unfold offer
    rw [if_neg (fun c => hm c.1)]
  · unfold offer
    split
    · split
      · rfl
      · rename_i r hr
        have ht := (nextReceipt_target hr).1
        unfold makeOffer
        dsimp only
        rw [State.link_modLink, if_neg (by rw [ht]; exact e)]
        unfold enqueue
        rw [State.link_modLink, if_neg (by rw [ht]; exact e)]
        unfold setReceipt modNamed
        split
        · rfl
        · rw [State.link_modEntry]; rfl
    · rfl

theorem link_setReceipt (h : Handle) (r : ReceiptState) (s : State) (l : LinkId) :
    (setReceipt h r s).link l = s.link l := by
  unfold setReceipt modNamed
  split
  · rfl
  · rw [State.link_modEntry]

theorem outstanding_refuse (r : ReceiptRecord) (s : State) (m : LinkId) (hm : (s.link m).state ≠ .up) :
    ((refuse r s).link m).outstanding = if m = r.target then none else (s.link m).outstanding := by
  have hs : ∀ x, Work s x → (x.link m).state ≠ .up := fun x w => by rw [w.state]; exact hm
  unfold refuse
  dsimp only
  rw [outstanding_offer_of_not_up, outstanding_offer_of_not_up]
  · split
    · rw [link_setReceipt]
      show ((clearOutstanding r.target s).link m).outstanding = _
      unfold clearOutstanding
      rw [State.link_modLink]
      split <;> rfl
    · unfold receiptFailed
      rw [State.link_countGlobal, State.link_post, link_setReceipt]
      show ((clearOutstanding r.target s).link m).outstanding = _
      unfold clearOutstanding
      rw [State.link_modLink]
      split <;> rfl
  · refine hs _ ((work_clearOutstanding r.target s).trans ?_)
    split
    · exact (work_modRecord _ _ _).trans (work_setReceipt _ _ _)
    · exact ((work_dropRecord _ _).trans (work_setReceipt _ _ _)).trans (work_receiptFailed _)
  · refine hs _ (((work_clearOutstanding r.target s).trans ?_).trans (work_offer _ _))
    split
    · exact (work_modRecord _ _ _).trans (work_setReceipt _ _ _)
    · exact ((work_dropRecord _ _).trans (work_setReceipt _ _ _)).trans (work_receiptFailed _)

theorem outstanding_refuseOutstanding (l : LinkId) (s : State) (h : (s.link l).state ≠ .up) :
    ((refuseOutstanding l s).link l).outstanding = none := by
  unfold refuseOutstanding
  split
  · assumption
  · split
    · simp [clearOutstanding]
    · rw [outstanding_refuse _ _ _ (by rw [(work_clearOutstanding l s).state]; exact h)]
      split
      · rfl
      · simp [clearOutstanding]

/-- Everything of soundness but that no receipt is outstanding outside UP. -/
def Link.soundBut (k : Link) : Prop :=
  k.frameSound ∧ k.creditsSound ∧ (k.state ≠ .up → k.subWaiting = none) ∧
  (k.state = .down ∨ k.state = .faulted → k.outQ = []) ∧
  (k.state = .sync → k.outQ = [] ∨ k.outQ = [.helloRequest]) ∧
  (k.state = .faulted ↔ k.quarantine ≠ none) ∧ (k.state = .faulted → k.frame = none)

/-- Settling the outstanding receipt of a link that is not UP as refused makes it sound again. -/
theorem sound_refuseOutstanding (l : LinkId) (s : State) (hu : (s.link l).state ≠ .up)
    (hl : (s.link l).soundBut) (ho : (s.link l.other).sound) : (refuseOutstanding l s).linksSound := by
  have w := work_refuseOutstanding l s
  intro m
  rcases LinkId.eq_or_other l m with e | e
  · subst e
    have hn := outstanding_refuseOutstanding m s hu
    obtain ⟨f, c, q1, q2, q3, q4, q5⟩ := hl
    have hz : ({ s.link m with outstanding := none } : Link).sound :=
      ⟨f, c, fun n => ⟨q1 n, rfl⟩, q2, q3, q4, q5⟩
    exact Link.sound_of_core (k := { s.link m with outstanding := none }) (w.link m) (w.outQ m)
      (fun _ x => absurd hn x) hz
  · subst e
    exact Link.sound_of_core (w.link _) (w.outQ _) (w.outstanding _) ho

theorem sound_openLink (l : LinkId) (s : State) (h : s.linksSound)
    (hn : ∀ i : PageSlot, (s.link l).slots[i] ≠ .receiving) (hf : (s.link l).frame = none)
    (hq : (s.link l).state ≠ .faulted) : (openLink l s).linksSound := by
  have hqu : (s.link l).quarantine = none := by
    by_contra c
    exact hq ((h l).2.2.2.2.2.1.2 c)
  unfold openLink
  split
  · have w : Work (modLink l (fun k => { k with state := .down, outQ := [] }) s) (suspendLink l s) :=
      work_refuseOutstanding _ _
    have hc := w.link l
    rw [State.link_modLink_same] at hc
    refine sound_enterUp l _ ?_ ?_ ?_ ?_
    · refine Link.sound_of_core (w.link _) (w.outQ _) (w.outstanding _) ?_
      rw [State.link_modLink_other]
      exact h _
    · rw [Link.slots_of_core hc]; exact hn
    · rw [Link.frame_of_core hc]; exact hf
    · rw [Link.quarantine_of_core hc]; exact hqu
  · exact sound_enterUp l s (h _) hn hf hqu

theorem sound_leaveUp (l : LinkId) (x : LinkState) (s : State) (ho : (s.link l.other).sound) (hx : x ≠ .up)
    (hl : (closedLink x (s.link l)).soundBut) : (leaveUp l x s).linksSound := by
  refine sound_work (work_servingTrigger _) (sound_refuseOutstanding l _ ?_ ?_ ?_)
  · rw [State.link_modLink_same]; exact hx
  · rw [State.link_modLink_same]; exact hl
  · rw [State.link_modLink_other]; exact ho

/-- Closing a link record to DOWN, no slot being RECEIVING. -/
theorem soundBut_closed_down (k : Link) (hn : ∀ i : PageSlot, k.slots[i] ≠ .receiving) (hf : k.frame = none)
    (hq : k.quarantine = none) : (closedLink .down k).soundBut := by
  have hocc : (closedLink .down k).occupied = k.occupied := Link.occupied_congr rfl
  refine ⟨⟨fun i hi => absurd hi (hn i), ?_⟩, ⟨?_, ?_, fun _ => rfl⟩, fun _ => rfl, fun _ => rfl, ?_, ?_, ?_⟩
  · intro f i e _
    have : k.frame = some f := e
    rw [hf] at this
    simp at this
  · rw [hocc]; show 0 + k.occupied ≤ 6; have := k.occupied_le; omega
  · intro n; cases n
  · intro n; cases n
  · constructor
    · intro n; cases n
    · intro n; exact absurd hq n
  · intro n; cases n

theorem sound_faultLink (l : LinkId) (k : FaultKind) (f : FrameKind) (s : State) (ho : (s.link l.other).sound)
    (hn : ∀ i : PageSlot, (s.link l).slots[i] ≠ .receiving) : (faultLink l k f s).linksSound := by
  unfold faultLink
  refine sound_work ((work_countLink _ _ _ (fun _ h => ?_)).trans (work_post _ _)) ?_
  · simp only [LinkCounters.bounded] at h ⊢
    exact ⟨h.1, h.2.1, h.2.2.1, h.2.2.2.1, h.2.2.2.2.1, h.2.2.2.2.2.1, h.2.2.2.2.2.2.1, bump_le _⟩
  · -- the link record as the fault closes it
    have w : Work (modLink l (closedLink .faulted) (recordFault l k f s)) (leaveUp l .faulted (recordFault l k f s)) :=
      (work_refuseOutstanding _ _).trans (work_servingTrigger _)
    have hc := w.link l
    have hq := w.outQ l (by rw [State.link_modLink_same]; intro n; cases n)
    rw [State.link_modLink_same] at hc hq
    have hcl : (recordFault l k f s).link l = { s.link l with fault := some ⟨k, s.now, f⟩, frame := none } := by
      simp [recordFault]
    have hnone : ((leaveUp l .faulted (recordFault l k f s)).link l).outstanding = none := by
      unfold leaveUp servingTrigger trigger
      rw [State.link_setArea]
      exact outstanding_refuseOutstanding l _ (by rw [State.link_modLink_same]; intro n; cases n)
    unfold startQuarantine
    refine sound_modLink_other l _ _ ?_ ?_
    · refine Link.sound_of_core (w.link _) (w.outQ _) (w.outstanding _) ?_
      rw [State.link_modLink_other]
      simpa [recordFault] using ho
    · generalize leaveUp l .faulted (recordFault l k f s) = t at *
      have hst := Link.state_of_core hc
      have hsl := Link.slots_of_core hc
      have hfr := Link.frame_of_core hc
      have hcr := Link.credits_of_core hc
      have hsw := Link.subWaiting_of_core hc
      simp only [closedLink, hcl] at hst hsl hfr hcr hsw hq
      have hocc : (t.link l).occupied ≤ 6 := Link.occupied_le _
      refine ⟨⟨?_, ?_⟩, ⟨?_, ?_, fun _ => hcr⟩, fun _ => ⟨hsw, hnone⟩, fun _ => hq, ?_, ?_, fun _ => hfr⟩
      · intro i hi
        have : (t.link l).slots[i] = .receiving := hi
        rw [hsl] at this
        exact absurd this (hn i)
      · intro g i e _
        have : (t.link l).frame = some g := e
        rw [hfr] at this
        simp at this
      · show (t.link l).credits + (t.link l).occupied ≤ 6
        omega
      · intro n
        have : (t.link l).state = .up := n
        rw [hst] at this
        cases this
      · intro n
        have : (t.link l).state = .sync := n
        rw [hst] at this
        cases this
      · constructor
        · intro _ e; cases e
        · intro _; exact hst

theorem sound_endQuarantine (l : LinkId) (s : State) (h : s.linksSound) (hs : (s.link l).state = .faulted) :
    (endQuarantine l s).linksSound := by
  refine sound_work (work_post _ _) (sound_modLink l _ s h ?_)
  obtain ⟨⟨f1, f2⟩, ⟨c1, c2, c3⟩, q1, q2, q3, q4, q5⟩ := h l
  generalize s.link l = k at *
  have hn := Link.not_receiving ⟨f1, f2⟩ (fun f e => by rw [q5 hs] at e; simp at e)
  have hu : k.state ≠ .up := by rw [hs]; decide
  refine ⟨⟨fun i hi => absurd hi (hn i), fun f i e _ => by simp [syncedLink] at e⟩, ⟨c1, ?_, fun _ => c3 hu⟩, fun _ => q1 hu,
    ?_, ?_, ?_, ?_⟩
  · intro n; cases n
  · rintro (n | n) <;> cases n
  · intro _
    right
    show pushFrame k.outQ .helloRequest = _
    rw [q2 (Or.inr hs)]
    rfl
  · constructor
    · intro n; cases n
    · intro n; exact absurd rfl n
  · intro n; cases n

end Sys2Proof.Machine
end

