-- ==== Sys2Proof/Laws/Transact.lean ====
section
/-! SUPPORT. What a host command transaction can do (R171, R173): nothing, a BUSY, a BAD-LENGTH, or the command's work;
and the lemma by which a property passes through it. -/

namespace Sys2Proof.Machine

/-- The four ways of a command transaction. -/
theorem transact_cases (code : Byte) (len : Nat) (work : List Byte → State → Answer) (bytes : List Byte) (s : State) :
    transact code len work bytes s = s ∨
    ∃ frame, transact code len work bytes s = endTransaction frame s ∨
      transact code len work bytes s = respond (refusal .badLength) (endTransaction frame s) ∨
      transact code len work bytes s =
        respond (work (frame.drop 3) (endTransaction frame s)).2 (work (frame.drop 3) (endTransaction frame s)).1 := by
  unfold transact
  split
  · right
    refine ⟨s.gathered code bytes, ?_⟩
    unfold takeFrame
    dsimp only
    split
    · exact Or.inl rfl
    · split
      · exact Or.inr (Or.inr rfl)
      · exact Or.inr (Or.inl rfl)
  · exact Or.inl rfl

/-- A property that does not look at transaction, response and MISO bytes passes through a command transaction when the
command's work keeps it. -/
theorem transact_keeps (P : State → Prop)
    (hP : ∀ s txn r out, P s → P (s.setHost { s.host with txn := txn, response := r, hcpOut := out }))
    (code : Byte) (len : Nat) (work : List Byte → State → Answer) (hw : ∀ b s, P s → P (work b s).1)
    (bytes : List Byte) (s : State) (h : P s) : P (transact code len work bytes s) := by
  have he : ∀ frame, P (endTransaction frame s) := fun frame =>
    hP s none s.host.response (s.status :: List.replicate (frame.length - 1) 0) h
  have hr : ∀ r t, P t → P (respond r t) := fun r t ht => hP t t.host.txn (some r) t.host.hcpOut ht
  rcases transact_cases code len work bytes s with e | ⟨frame, e | e | e⟩ <;> rw [e]
  · exact h
  · exact he _
  · exact hr _ _ (he _)
  · exact hr _ _ (hw _ _ (he _))

/-- A taken command: no transaction half done, no response pending, a whole frame of the right length (R171, R173). -/
theorem transact_taken (code : Byte) (len : Nat) (work : List Byte → State → Answer) (bytes : List Byte) (s : State)
    (ht : s.host.txn = none) (hr : s.host.response = none) (hl : bytes.length = 2 + len)
    (hf : fieldAt bytes 0 2 = len) :
    transact code len work bytes s =
      respond (work (bytes.drop 2) (endTransaction (code :: bytes) s)).2
        (work (bytes.drop 2) (endTransaction (code :: bytes) s)).1 := by
  have hg : s.gathered code bytes = code :: bytes := by simp [State.gathered, ht]
  have hd : framedFor len (code :: bytes) = true := by
    simp only [framedFor, fieldAt, bytesAt] at hf ⊢
    simp only [List.drop_succ_cons, List.length_cons, hl]
    simp only [List.drop_zero] at hf ⊢
    simp [hf]
    omega
  simp [transact, takeFrame, hg, hr, hd]

/-- A command while a response is pending is answered BUSY and has no effect (R171). -/
theorem transact_busy (code : Byte) (len : Nat) (work : List Byte → State → Answer) (bytes : List Byte) (s : State)
    (r : Response) (ht : s.host.txn = none) (hr : s.host.response = some r) :
    transact code len work bytes s = endTransaction (code :: bytes) s := by
  have hg : s.gathered code bytes = code :: bytes := by simp [State.gathered, ht]
  simp [transact, takeFrame, hg, hr]

/-! ### The work of commands that only read or only do Work -/

theorem work_clearChanged (s : State) : Work s (clearChanged s) := work_setDir _ _

theorem work_listWork (b : List Byte) (s : State) : Work s (listWork b s).1 := by
  unfold listWork
  split
  · exact Work.refl s
  · exact Work.refl s
  · exact work_clearChanged s

theorem work_onHandle (b : List Byte) (s : State) (f : Handle → Entry → Answer) (hf : ∀ h e, Work s (f h e).1) :
    Work s (onHandle b s f).1 := by
  unfold onHandle
  split
  · exact Work.refl s
  · split
    · exact Work.refl s
    · exact hf _ _

theorem work_readEntryWork (b : List Byte) (s : State) : Work s (readEntryWork b s).1 :=
  work_onHandle b s _ (fun _ _ => Work.refl s)

theorem work_readTextWork (b : List Byte) (s : State) : Work s (readTextWork b s).1 := by
  unfold readTextWork
  dsimp only
  split
  · exact Work.refl s
  · refine work_onHandle b s _ (fun h e => ?_)
    split
    · exact Work.refl s
    · split <;> exact Work.refl s

theorem work_takeAcknowledgement (i : EntrySlot) (s : State) : Work s (takeAcknowledgement i s) :=
  ((work_modEntry _ _ _).trans (work_dropRequest _ _)).trans (work_receiptStep _ _)

theorem work_acknowledgeWork (b : List Byte) (s : State) : Work s (acknowledgeWork b s).1 := by
  unfold acknowledgeWork
  refine work_onHandle b s _ (fun h e => ?_)
  split
  · exact work_takeAcknowledgement _ _
  · exact work_takeAcknowledgement _ _
  · exact Work.refl s
  · exact Work.refl s
  · exact Work.refl s

theorem work_silenceWork (b : List Byte) (s : State) : Work s (silenceWork b s).1 := by
  simp only [silenceWork]
  exact work_silenceAll s

theorem told_clearLinkFaultWork (b : List Byte) (s : State) : Told s (clearLinkFaultWork b s).1 := by
  unfold clearLinkFaultWork
  split
  · exact Told.refl s
  · split
    · exact told_endQuarantine _ _
    · exact Told.refl s

theorem told_abandonIfLoading (s : State) : Told s (abandonIfLoading s) := by
  unfold abandonIfLoading
  split
  · exact Told.refl s
  · exact told_abandonLoad s

theorem told_flushProfiles (s : State) : Told s (flushProfiles s) :=
  ((((told_emptyCache s).trans (told_abandonIfLoading _)).trans (told_requestServingRegions _))).trans (told_startLoad _)

theorem told_yieldStore (s : State) : Told s (yieldStore s) :=
  ((told_abandonIfLoading s).trans (told_setProf _ _)).trans (work_post _ _).told

theorem told_yieldStoreWork (b : List Byte) (s : State) : Told s (yieldStoreWork b s).1 := by
  unfold yieldStoreWork
  split
  · exact told_yieldStore s
  · exact Told.refl s

theorem told_returnStore (s : State) : Told s (returnStore s) :=
  ((((told_setProf s _).trans (told_emptyCache _)).trans (told_requestServingRegions _)).trans
    ((told_setProf _ _).trans (work_post _ _).told)).trans (told_startLoad _)

theorem told_returnStoreWork (b : List Byte) (s : State) : Told s (returnStoreWork b s).1 := by
  unfold returnStoreWork
  split
  · exact Told.refl s
  · exact told_returnStore s

end Sys2Proof.Machine
end

