-- ==== Sys2Proof/Laws/LinkExec.lean ====
section
/-! SUPPORT. Every command, and the tick, keeps both link records sound. -/

namespace Sys2Proof.Machine

/-! ### Frames in progress -/

theorem Link.slot_none_of_not_up {k : Link} (h : k.sound) (hu : k.state ≠ .up) (f : FrameProgress)
    (hf : k.frame = some f) : f.slot = none := by
  by_contra c
  obtain ⟨i, hi⟩ := Option.ne_none_iff_exists'.1 c
  exact hu (h.1.2 f i hf hi).1

theorem Link.slot_none_of_header {k : Link} (h : k.sound) (f : FrameProgress) (hf : k.frame = some f)
    (hh : ∀ n, f.header ≠ some ⟨.page, n⟩) : f.slot = none := by
  by_contra c
  obtain ⟨i, hi⟩ := Option.ne_none_iff_exists'.1 c
  obtain ⟨n, e⟩ := (h.1.2 f i hf hi).2.2
  exact hh n e

/-- Another frame in progress without a reserved slot, no slot being RECEIVING. -/
theorem Link.sound_frame {k : Link} (h : k.sound) (hn : ∀ i : PageSlot, k.slots[i] ≠ .receiving)
    (g : Option FrameProgress) (hg : ∀ f, g = some f → f.slot = none) (hs : k.state = .faulted → g = none) :
    ({ k with frame := g } : Link).sound := by
  obtain ⟨⟨f1, f2⟩, ⟨c1, c2, c3⟩, q1, q2, q3, q4, q5⟩ := h
  refine ⟨⟨fun i hi => absurd hi (hn i), ?_⟩, ⟨c1, c2, c3⟩, q1, q2, q3, q4, hs⟩
  intro f i e hi
  rw [hg f e] at hi
  simp at hi

theorem sound_huntByte (l : LinkId) (b : Byte) (s : State) (h : s.linksSound) (hs : (s.link l).state ≠ .faulted)
    (hf : (s.link l).frame = none) : (huntByte l b s).linksSound := by
  have hn := Link.not_receiving (h l).1 (fun f e => by rw [hf] at e; simp at e)
  unfold huntByte
  split
  · refine sound_modLink l _ s h (Link.sound_frame (h l) hn _ ?_ (fun c => absurd c hs))
    rintro f ⟨⟩
    rfl
  · split
    · exact sound_faultLink l _ _ s (h _) hn
    · exact h
    · exact h
    · exact h

theorem sound_execFrameStart (l : LinkId) (b : Byte) (s t : State) (h : s.linksSound)
    (e : execFrameStart l b s = .next t) : t.linksSound := by
  unfold execFrameStart at e
  cases e
  split
  · exact h
  · rename_i hs
    split
    · exact h
    · rename_i hf
      exact sound_huntByte l b s h hs hf

theorem sound_reserve (l : LinkId) (i : PageSlot) (n : Nat) (f : FrameProgress) (s : State) (h : s.linksSound)
    (hu : (s.link l).state = .up) (hfree : (s.link l).slots[i].occupied = false)
    (hn : ∀ i : PageSlot, (s.link l).slots[i] ≠ .receiving) :
    (keepHeader l ⟨.page, n⟩ (some i) f (reserveSlot l i s)).linksSound := by
  have hl := h l
  have e : ∀ m, (keepHeader l ⟨.page, n⟩ (some i) f (reserveSlot l i s)).link m =
      (modLink l (fun k => { k.setSlot i .receiving with
        credits := k.credits - 1, frame := some { f with header := some ⟨.page, n⟩, slot := some i } }) s).link m := by
    intro m
    unfold keepHeader reserveSlot
    simp only [State.link_modLink]
    split <;> rfl
  refine sound_of_links e (sound_modLink l _ s h ?_)
  obtain ⟨⟨f1, f2⟩, ⟨c1, c2, c3⟩, q1, q2, q3, q4, q5⟩ := hl
  have hocc := (s.link l).occupied_setSlot_receiving i hfree
  generalize s.link l = k at *
  have hk := c2 hu
  have hle : (k.setSlot i .receiving).occupied ≤ 6 := Link.occupied_le _
  have hnf : k.state ≠ .faulted := by rw [hu]; decide
  refine ⟨⟨?_, ?_⟩, ⟨?_, ?_, fun c => absurd hu c⟩, fun c => absurd hu c, ?_, ?_, q4, fun c => absurd c hnf⟩
  · intro j hj
    refine ⟨_, rfl, ?_⟩
    have : (k.setSlot i .receiving).slots[j] = .receiving := hj
    rw [k.slot_setSlot] at this
    split at this
    · rename_i c; rw [c]
    · exact absurd this (hn j)
  · intro g j hg hj
    simp only [Option.some.injEq] at hg
    subst hg
    simp only [Option.some.injEq] at hj
    subst hj
    refine ⟨hu, ?_, n, rfl⟩
    show (k.setSlot i .receiving).slots[i] = .receiving
    rw [k.slot_setSlot, if_pos rfl]
  · show k.credits - 1 + (k.setSlot i .receiving).occupied ≤ 6
    simp only [Config.pageSlots] at *
    omega
  · intro _
    show k.credits - 1 + (k.setSlot i .receiving).occupied = 6
    simp only [Config.pageSlots] at *
    omega
  · rintro (c | c) <;> · have c' : k.state = _ := c
                         rw [hu] at c'; cases c'
  · intro c
    have c' : k.state = _ := c
    rw [hu] at c'; cases c'

theorem sound_headerUp (l : LinkId) (x : FrameHeader) (f : FrameProgress) (s : State) (h : s.linksSound)
    (hu : (s.link l).state = .up) (hn : ∀ i : PageSlot, (s.link l).slots[i] ≠ .receiving) :
    (headerUp l x f s).linksSound := by
  have hk : (keepHeader l x none f s).linksSound :=
    sound_modLink l _ s h (Link.sound_frame (h l) hn _ (by rintro g ⟨⟩; rfl) (fun c => by rw [hu] at c; cases c))
  unfold headerUp
  split
  · split
    · rename_i hp
      split
      · unfold overrunLink
        refine sound_faultLink l _ _ _ ?_ ?_
        · rw [State.link_countLink]; exact h _
        · rw [State.link_countLink]; exact hn
      · rename_i i hi
        obtain ⟨kind, n⟩ := x
        subst hp
        exact sound_reserve l i n f s h hu (Link.lowestFree_free hi) hn
    · exact hk
  · exact sound_faultLink l _ _ s (h _) hn

/-- Ending the frame in progress of a link that is not UP, or whose frame holds no slot. -/
theorem sound_endFrame (l : LinkId) (s : State) (h : s.linksSound)
    (hn : ∀ f, (s.link l).frame = some f → f.slot = none) : (endFrame l s).linksSound :=
  sound_modLink l _ s h (Link.sound_frame (h l) (Link.not_receiving (h l).1 hn) none (by simp) (fun _ => rfl))

/-- After the reserved slot of the frame in progress is freed, no slot is RECEIVING. -/
theorem released_not_receiving (l : LinkId) (f : FrameProgress) (s : State) (h : (s.link l).sound)
    (hf : (s.link l).frame = some f) (i : PageSlot) : ((releaseReserved l f s).link l).slots[i] ≠ .receiving := by
  unfold releaseReserved
  split
  · rename_i hnone
    exact Link.not_receiving h.1 (fun g e => by rw [hf] at e; cases e; exact hnone) i
  · rename_i j hj
    rw [State.link_modLink_same, Link.slot_setSlot]
    split
    · decide
    · rename_i hne
      intro hi
      obtain ⟨g, e, hg⟩ := h.1.1 i hi
      rw [hf] at e
      cases e
      rw [hj] at hg
      simp only [Option.some.injEq] at hg
      exact hne hg

theorem link_other_releaseReserved (l : LinkId) (f : FrameProgress) (s : State) :
    (releaseReserved l f s).link l.other = s.link l.other := by
  unfold releaseReserved
  split
  · rfl
  · simp

theorem sound_execFrameTimeout (l : LinkId) (b : Option Byte) (s t : State) (h : s.linksSound)
    (e : execFrameTimeout l b s = .next t) : t.linksSound := by
  unfold execFrameTimeout at e
  cases e
  split
  · exact h
  · rename_i f hf
    split
    · unfold timeoutFrame
      split
      · refine sound_faultLink l _ _ _ ?_ (released_not_receiving l f s (h l) hf)
        rw [link_other_releaseReserved]
        exact h _
      · rename_i hs
        exact sound_endFrame l s h (Link.slot_none_of_not_up (h l) (by rw [hs]; decide))
      · rename_i hs
        exact sound_endFrame l s h (Link.slot_none_of_not_up (h l) (by rw [hs]; decide))
      · exact h
    · exact h

/-! ### Complete frames -/

/-- What a completing frame gives. -/
theorem completing_spec {s : State} {l : LinkId} {k : FrameKind} {b : List Byte} {f : FrameProgress}
    (e : s.completing l k b = some f) :
    (s.link l).state ≠ .faulted ∧ (s.link l).frame = some f ∧
      f.header = if b = [] then none else some ⟨k, b.length⟩ := by
  unfold State.completing at e
  split at e
  · simp at e
  · rename_i hs
    rw [Option.filter_eq_some_iff] at e
    exact ⟨hs, e.1, by simpa using e.2⟩

/-- A frame other than a PAGE completes: soundness passes when what is done with it keeps it. -/
theorem sound_onComplete (l : LinkId) (k : FrameKind) (b : List Byte) (up : FrameProgress → State → State)
    (other : State → State) (s : State) (h : s.linksSound) (hk : k ≠ .page)
    (hu : ∀ f t, t.linksSound → (t.link l).frame = none → (t.link l).state = .up → (up f t).linksSound)
    (ho : ∀ t, t.linksSound → (t.link l).frame = none → (t.link l).state ≠ .up → (t.link l).state ≠ .faulted →
      (other t).linksSound) :
    (onComplete l k b up other s).linksSound := by
  unfold onComplete
  split
  · exact h
  · rename_i f hf
    obtain ⟨hs, hfr, hh⟩ := completing_spec hf
    have hnone : f.slot = none := Link.slot_none_of_header (h l) f hfr (by
      intro n c
      rw [hh] at c
      split at c
      · simp at c
      · simp only [Option.some.injEq, FrameHeader.mk.injEq] at c; exact hk c.1)
    have he : (endFrame l s).linksSound := sound_endFrame l s h (fun g e => by rw [hfr] at e; cases e; exact hnone)
    have h1 : ((endFrame l s).link l).frame = none := by simp [endFrame]
    have h2 : ((endFrame l s).link l).state = (s.link l).state := by simp [endFrame]
    split
    · rename_i hup; exact hu f _ he h1 (h2.trans hup)
    · rename_i hup; exact ho _ he h1 (by rw [h2]; exact hup) (by rw [h2]; exact hs)

theorem sound_idleFault (l : LinkId) (k : FaultKind) (f : FrameKind) (s : State) (h : s.linksSound)
    (hf : (s.link l).frame = none) : (faultLink l k f s).linksSound :=
  sound_faultLink l k f s (h _) (Link.not_receiving (h l).1 (fun g e => by rw [hf] at e; simp at e))

theorem sound_idleOpen (l : LinkId) (s : State) (h : s.linksSound) (hf : (s.link l).frame = none)
    (hs : (s.link l).state ≠ .faulted) : (openLink l s).linksSound :=
  sound_openLink l s h (Link.not_receiving (h l).1 (fun g e => by rw [hf] at e; simp at e)) hf hs

theorem sound_closeLink (l : LinkId) (s : State) (h : s.linksSound) (hf : (s.link l).frame = none)
    (hu : (s.link l).state = .up) : (closeLink l s).linksSound := by
  have hn := Link.not_receiving (h l).1 (fun g e => by rw [hf] at e; simp at e)
  refine sound_work (work_post _ _) (sound_leaveUp l .down s (h _) (by decide) ?_)
  refine soundBut_closed_down _ hn hf ?_
  by_contra c
  have := (h l).2.2.2.2.2.1.2 c
  rw [hu] at this
  cases this

theorem sound_emptyFrame (l : LinkId) (k : FrameKind) (s : State) (h : s.linksSound)
    (hn : ∀ f, (s.link l).frame = some f → f.slot = none) : (emptyFrame l k s).linksSound := by
  have he := sound_endFrame l s h hn
  have h1 : ((endFrame l s).link l).frame = none := by simp [endFrame]
  have h2 : ((endFrame l s).link l).state = (s.link l).state := by simp [endFrame]
  have hd : (s.link l).state ≠ .faulted →
      (if k = .hello then openLink l (endFrame l s) else endFrame l s).linksSound := by
    intro hs
    split
    · exact sound_idleOpen l _ he h1 (by rw [h2]; exact hs)
    · exact he
  unfold emptyFrame
  split
  · rename_i hu
    cases k
    · exact sound_idleOpen l _ he h1 (by rw [h2, hu]; decide)
    · exact sound_closeLink l _ he h1 (h2.trans hu)
    all_goals exact sound_idleFault _ _ _ _ he h1
  · rename_i hs; exact hd (by rw [hs]; decide)
  · rename_i hs; exact hd (by rw [hs]; decide)
  · exact h

theorem sound_execFrameHeader (l : LinkId) (k : Byte) (n : BitVec 16) (s t : State) (h : s.linksSound)
    (e : execFrameHeader l k n s = .next t) : t.linksSound := by
  unfold execFrameHeader at e
  cases e
  split
  · exact h
  · rename_i f hf
    split
    · exact h
    · rename_i hh
      have hnone : f.slot = none := Link.slot_none_of_header (h l) f hf (by
        intro m c; rw [c] at hh; simp at hh)
      have hn := Link.not_receiving (h l).1 (fun g e => by rw [hf] at e; cases e; exact hnone)
      have hk : (s.link l).state ≠ .faulted → (keepHeader l ⟨readFrameKind k, n.toNat⟩ none f s).linksSound :=
        fun c => sound_modLink l _ s h (Link.sound_frame (h l) hn _ (by rintro g ⟨⟩; rfl) (fun d => absurd d c))
      split
      · exact sound_emptyFrame l _ s h (fun g e => by rw [hf] at e; cases e; exact hnone)
      split
      · rename_i hu; exact sound_headerUp l _ f s h hu hn
      · rename_i hs; exact hk (by rw [hs]; decide)
      · rename_i hs; exact hk (by rw [hs]; decide)
      · exact h

theorem sound_execHello (l : LinkId) (b : List Byte) (s t : State) (h : s.linksSound)
    (e : execHello l b s = .next t) : t.linksSound := by
  unfold execHello at e
  cases e
  refine sound_onComplete l _ b _ _ s h (by decide) ?_ ?_
  · intro _ t ht hf hu
    split
    · exact sound_idleOpen l t ht hf (by rw [hu]; decide)
    · exact sound_idleFault _ _ _ _ ht hf
  · intro t ht hf hu hs
    split
    · exact sound_idleOpen l t ht hf hs
    · exact ht

theorem sound_execGoodbye (l : LinkId) (b : List Byte) (s t : State) (h : s.linksSound)
    (e : execGoodbye l b s = .next t) : t.linksSound := by
  unfold execGoodbye at e
  cases e
  refine sound_onComplete l _ b _ _ s h (by decide) ?_ (fun t ht _ _ _ => ht)
  intro _ t ht hf hu
  split
  · exact sound_closeLink l t ht hf hu
  · exact sound_idleFault _ _ _ _ ht hf

theorem sound_takeServing (l : LinkId) (v : Serving) (s : State) (h : s.linksSound) (hu : (s.link l).state = .up) :
    (takeServing l v s).linksSound := by
  have a : (modLink l (fun k => { k with serving := v }) s).linksSound := by
    refine sound_modLink l _ s h ?_
    obtain ⟨f, c, q⟩ := h l
    exact ⟨f, c, q⟩
  have b := sound_work (work_servingTrigger _) a
  have hb : ((servingTrigger (modLink l (fun k => { k with serving := v }) s)).link l).state = .up := by
    unfold servingTrigger trigger
    rw [State.link_setArea, State.link_modLink_same]
    exact hu
  unfold takeServing
  dsimp only
  split
  · exact sound_setSubWaiting _ _ _ hb b
  · split
    · exact b
    · generalize servingTrigger (modLink l (fun k => { k with serving := v }) s) = t at *
      have c := sound_setSubWaiting none l t hb b
      have hc : ((setSubWaiting none l t).link l).state = .up := by simp [setSubWaiting, hb]
      unfold deriveSubscription
      dsimp only
      split
      · exact sound_enqueue _ _ _ hc c
      · have d := sound_enqueue l fallbackSubscription _ hc c
        have hd := (state_enqueue l fallbackSubscription _ l).trans hc
        exact sound_of_links (link_requestLoad _ _) (sound_setSubWaiting _ _ _ hd d)

theorem sound_execServing (l : LinkId) (b : List Byte) (s t : State) (h : s.linksSound)
    (e : execServing l b s = .next t) : t.linksSound := by
  unfold execServing at e
  cases e
  refine sound_onComplete l _ b _ _ s h (by decide) ?_ (fun t ht _ _ _ => ht)
  intro _ t ht hf hu
  split
  · exact sound_idleFault _ _ _ _ ht hf
  · exact sound_takeServing _ _ _ ht hu

theorem sound_execReceiptResult (l : LinkId) (b : List Byte) (s t : State) (h : s.linksSound)
    (e : execReceiptResult l b s = .next t) : t.linksSound := by
  unfold execReceiptResult at e
  cases e
  refine sound_onComplete l _ b _ _ s h (by decide) ?_ (fun t ht _ _ _ => ht)
  intro _ t ht hf hu
  split
  · exact sound_idleFault _ _ _ _ ht hf
  · exact sound_work (work_settleResult _ _ _ _) ht

theorem sound_execUnknownKindFrameEnd (l : LinkId) (b : List Byte) (s t : State) (h : s.linksSound)
    (e : execUnknownKindFrameEnd l b s = .next t) : t.linksSound := by
  unfold execUnknownKindFrameEnd at e
  cases e
  exact sound_onComplete l _ b _ _ s h (by decide) (fun _ t ht hf _ => sound_idleFault _ _ _ _ ht hf)
    (fun t ht _ _ _ => ht)

/-- The RECEIVING slot of the frame in progress takes its page, the frame being over. -/
theorem Link.sound_held {k : Link} (h : k.sound) {f : FrameProgress} {i : PageSlot} (hf : k.frame = some f)
    (hi : f.slot = some i) (p : Page) : ({ k.setSlot i (.held p) with frame := none } : Link).sound := by
  have hr := (h.1.2 f i hf hi).2.1
  have hu := (h.1.2 f i hf hi).1
  have ho : ({ k.setSlot i (.held p) with frame := none } : Link).occupied = k.occupied :=
    (Link.occupied_congr rfl).trans (k.occupied_setSlot_held i p (by rw [hr]; rfl))
  obtain ⟨⟨f1, f2⟩, ⟨c1, c2, c3⟩, q1, q2, q3, q4, q5⟩ := h
  refine ⟨⟨?_, ?_⟩, ⟨by rw [ho]; exact c1, by rw [ho]; exact c2, c3⟩, q1, q2, q3, q4, fun _ => rfl⟩
  · intro j hj
    have : (k.setSlot i (.held p)).slots[j] = .receiving := hj
    rw [k.slot_setSlot] at this
    split at this
    · simp at this
    · rename_i hne
      obtain ⟨g, e, hg⟩ := f1 j this
      rw [hf] at e
      cases e
      rw [hi] at hg
      simp only [Option.some.injEq] at hg
      exact absurd hg hne
  · intro g j e _
    simp at e

theorem sound_execPage (l : LinkId) (b : List Byte) (s t : State) (h : s.linksSound)
    (e : execPage l b s = .next t) : t.linksSound := by
  unfold execPage at e
  cases e
  unfold onComplete
  split
  · exact h
  · rename_i f hf
    obtain ⟨hs, hfr, hh⟩ := completing_spec hf
    split
    · rename_i hu
      dsimp only
      split
      · rename_i hnone
        have he := sound_endFrame l s h (fun g e => by rw [hfr] at e; cases e; exact hnone)
        split
        · exact sound_idleFault _ _ _ _ he (by simp [endFrame])
        · exact he
      · rename_i i hi
        have hr := ((h l).1.2 f i hfr hi).2.1
        have hr' : ((endFrame l s).link l).slots[i] = .receiving := by simpa [endFrame] using hr
        rw [if_pos hr']
        unfold pageInSlot
        split
        · refine sound_faultLink l _ _ _ ?_ ?_
          · simpa [endFrame] using h l.other
          · intro j
            have hrel := released_not_receiving l f s (h l) hfr j
            unfold releaseReserved at hrel
            rw [hi] at hrel
            simpa [endFrame] using hrel
        · rename_i p _
          unfold takePage
          refine sound_handOn _ _ _ _ (sound_work (work_countLink _ _ _ (fun _ c => ?_)) ?_)
          · simp only [LinkCounters.bounded] at c ⊢
            exact ⟨bump_le _, c.2⟩
          · have e : ∀ m, (modLink l (fun k => k.setSlot i (.held (acceptPage p))) (endFrame l s)).link m =
                (modLink l (fun k => { k.setSlot i (.held (acceptPage p)) with frame := none }) s).link m := by
              intro m
              unfold endFrame
              simp only [State.link_modLink]
              split <;> rfl
            exact sound_of_links e (sound_modLink l _ s h (Link.sound_held (h l) hfr hi _))
    · rename_i hu
      exact sound_endFrame l s h (Link.slot_none_of_not_up (h l) hu)

/-! ### Quarantine, transmitter, and the other blocks' commands -/

theorem sound_execQuarantineExpiry (l : LinkId) (s t : State) (h : s.linksSound)
    (e : execQuarantineExpiry l s = .next t) : t.linksSound := by
  unfold execQuarantineExpiry at e
  cases e
  split
  · rename_i c; exact sound_endQuarantine l s h c.1
  · exact h

theorem sound_execFrameSend (l : LinkId) (s t : State) (h : s.linksSound) (e : execFrameSend l s = .next t) :
    t.linksSound := by
  unfold execFrameSend at e
  cases e
  split
  · exact h
  · rename_i f rest hq
    refine sound_modLink l _ s h ?_
    obtain ⟨f', c, q1, q2, q3, q4, q5⟩ := h l
    refine ⟨f', c, q1, ?_, ?_, q4, q5⟩
    · intro n
      have := q2 n
      rw [hq] at this
      simp at this
    · intro n
      left
      rcases q3 n with g | g
      · rw [hq] at g; simp at g
      · rw [hq] at g; simp only [List.cons.injEq] at g; exact g.2

theorem sound_execLoadComplete (d : List Byte) (s t : State) (h : s.linksSound) (e : execLoadComplete d s = .next t) :
    t.linksSound := by
  unfold execLoadComplete at e
  cases e
  split
  · exact h
  · split
    · exact sound_completeLoad _ _ _ h
    · exact h

theorem sound_execWaitDeadlineExpiry (l : LinkId) (k : PageSlot) (s t : State) (h : s.linksSound)
    (e : execWaitDeadlineExpiry l k s = .next t) : t.linksSound := by
  unfold execWaitDeadlineExpiry at e
  cases e
  split
  · exact sound_judge _ _ _ _ h
  · exact h

theorem linksSound_host (s : State) (x : Option (List Byte)) (r : Option Response) (o : List Byte)
    (h : s.linksSound) : (s.setHost { s.host with txn := x, response := r, hcpOut := o }).linksSound := h

theorem sound_transact (code : Byte) (len : Nat) (work : List Byte → State → Answer)
    (hw : ∀ b s, s.linksSound → (work b s).1.linksSound) (bytes : List Byte) (s : State) (h : s.linksSound) :
    (transact code len work bytes s).linksSound :=
  transact_keeps State.linksSound linksSound_host code len work hw bytes s h

theorem sound_clearLinkFaultWork (b : List Byte) (s : State) (h : s.linksSound) :
    (clearLinkFaultWork b s).1.linksSound := by
  unfold clearLinkFaultWork
  split
  · exact h
  · split
    · rename_i c; exact sound_endQuarantine _ s h c
    · exact h

theorem link_abandonIfLoading (s : State) (l : LinkId) : (abandonIfLoading s).link l = s.link l := by
  unfold abandonIfLoading
  split <;> rfl

theorem sound_flushProfiles (s : State) (h : s.linksSound) : (flushProfiles s).linksSound := by
  refine sound_of_links (link_startLoad _) (sound_requestServingRegions _ ?_)
  exact sound_of_links (fun l => (link_abandonIfLoading _ l).trans rfl) h

theorem sound_yieldStore (s : State) (h : s.linksSound) : (yieldStore s).linksSound := by
  refine sound_work (work_post _ _) ?_
  exact sound_of_links (fun l => (link_abandonIfLoading s l)) h

theorem sound_returnStore (s : State) (h : s.linksSound) : (returnStore s).linksSound := by
  refine sound_of_links (link_startLoad _) ?_
  refine sound_work (work_post _ _) ?_
  exact sound_requestServingRegions (emptyCache (drivePins s)) h

theorem sound_writeSettingsWork (b : List Byte) (s : State) (h : s.linksSound) : (writeSettingsWork b s).1.linksSound := by
  unfold writeSettingsWork
  split
  · exact h
  · exact sound_work ((work_arbiterMeets _ _).trans (work_trigger _ _)) (s := s.setHost _) h

theorem sound_reset : State.reset.linksSound := by
  have h : Link.reset.sound := by
    refine ⟨⟨?_, ?_⟩, ⟨by decide, fun c => absurd c (by decide), fun _ => rfl⟩, fun _ => ⟨rfl, rfl⟩, fun _ => rfl,
      fun _ => Or.inl rfl, ⟨fun c => absurd c (by decide), fun c => absurd rfl c⟩, fun _ => rfl⟩
    · intro i hi
      have : Link.reset.slots[i] = .free := by simp [Link.reset]
      rw [this] at hi
      cases hi
    · intro f i e
      cases e
  intro l
  cases l <;> exact h

end Sys2Proof.Machine
end

