-- ==== Sys2Proof/Laws/ProfSound.lean ====
section
/-! SUPPORT. Every operation keeps the profile unit sound (State.profileSound). -/

namespace Sys2Proof.Machine

/-! ### What changes nothing that profileSound looks at -/

theorem profile_of_same {s t : State} (hp : t.prof = s.prof) (hh : ∀ l k, t.heldPage l k = s.heldPage l k)
    (h : s.profileSound) : t.profileSound := by
  obtain ⟨o, b, w1, w2⟩ := h
  refine ⟨hp ▸ o, hp ▸ b, ?_, hp ▸ w2⟩
  intro w hw
  rw [hp] at hw ⊢
  rw [hh]
  exact w1 w hw

theorem profile_work {s t : State} (w : Work s t) (h : s.profileSound) : t.profileSound :=
  profile_of_same w.prof w.heldPage h

theorem heldPage_modLink (l : LinkId) (f : Link → Link) (s : State)
    (hf : ∀ k : PageSlot, (f (s.link l)).slots[k].page = (s.link l).slots[k].page) (m : LinkId) (k : PageSlot) :
    (modLink l f s).heldPage m k = s.heldPage m k := by
  simp only [State.heldPage, State.link_modLink]
  by_cases e : m = l
  · subst e; simp only [if_true]; exact hf k
  · simp only [if_neg e]

/-- A change of a link record that leaves its slots. -/
theorem profile_modLink (l : LinkId) (f : Link → Link) (s : State) (hf : (f (s.link l)).slots = (s.link l).slots)
    (h : s.profileSound) : (modLink l f s).profileSound :=
  profile_of_same (by simp) (heldPage_modLink l f s (by intro k; rw [hf])) h

/-! ### The cache, the load queue, the load in flight -/

theorem ordered_mostRecent (p : ProfileUnit) (c : CacheEntry) (hc : c ∈ p.cache) (h : p.ordered) :
    ({ p with cache := mostRecent p.cache c } : ProfileUnit).ordered := by
  obtain ⟨h1, h2, h3⟩ := h
  have hlt : (p.cache.filter (fun x => !decide (x.region = c.region))).length < p.cache.length := by
    rw [List.length_filter_lt_length_iff_exists]
    exact ⟨c, hc, by simp⟩
  refine ⟨?_, ?_, h3⟩
  · show (mostRecent p.cache c).length ≤ _
    simp only [mostRecent, List.length_append, List.length_singleton]
    simp only [Config.cacheEntries] at *
    omega
  · show ((mostRecent p.cache c).map (·.region)).Nodup
    simp only [mostRecent, List.map_append, List.map_cons, List.map_nil]
    rw [List.nodup_append]
    refine ⟨(h2.sublist (List.filter_sublist.map _)), by simp, ?_⟩
    intro a ha b hb
    simp only [List.mem_singleton] at hb
    subst hb
    obtain ⟨x, hx, rfl⟩ := List.mem_map.1 ha
    simpa using (List.mem_filter.1 hx).2

theorem profile_useCache (n : Nat) (c : CacheEntry) (s : State) (hc : s.cached n = some c) (h : s.profileSound) :
    (useCache c s).profileSound :=
  ⟨ordered_mostRecent _ c (List.mem_of_find?_eq_some hc) h.1, h.2.1, h.2.2⟩

theorem ordered_install (p : ProfileUnit) (c : CacheEntry) (h : p.ordered) :
    ({ p with cache := makeRoom (p.cache.filter (fun x => !decide (x.region = c.region))) ++ [c] } :
      ProfileUnit).ordered := by
  obtain ⟨h1, h2, h3⟩ := h
  have hsub : (makeRoom (p.cache.filter (fun x => !decide (x.region = c.region)))).Sublist
      (p.cache.filter (fun x => !decide (x.region = c.region))) := by
    unfold makeRoom
    split
    · exact List.drop_sublist _ _
    · exact List.Sublist.refl _
  refine ⟨?_, ?_, h3⟩
  · show (makeRoom (p.cache.filter _) ++ [c]).length ≤ _
    have hl := List.length_filter_le (fun x : CacheEntry => !decide (x.region = c.region)) p.cache
    simp only [List.length_append, List.length_singleton, Config.cacheEntries] at *
    unfold makeRoom
    split
    · rename_i g
      simp only [Config.cacheEntries, List.length_drop] at *
      omega
    · rename_i g
      simp only [Config.cacheEntries] at *
      omega
  · show ((makeRoom (p.cache.filter _) ++ [c]).map (·.region)).Nodup
    simp only [List.map_append, List.map_cons, List.map_nil]
    rw [List.nodup_append]
    refine ⟨h2.sublist ((hsub.trans List.filter_sublist).map _), by simp, ?_⟩
    intro a ha b hb
    simp only [List.mem_singleton] at hb
    subst hb
    obtain ⟨x, hx, rfl⟩ := List.mem_map.1 ha
    simpa using (List.mem_filter.1 (hsub.subset hx)).2

/-- startLoad establishes that a load is in flight when one must be (R54). -/
theorem busy_startLoad (s : State) : (startLoad s).prof.busy := by
  unfold startLoad
  split
  · rename_i e
    intro _ hq
    exact absurd e hq
  · split
    · intro _ _
      simp
    · rename_i c
      intro ho _ hn
      exact c ⟨ho, hn⟩

theorem ordered_startLoad (s : State) (h : s.prof.ordered) : (startLoad s).prof.ordered := by
  unfold startLoad
  split
  · exact h
  · rename_i n rest e
    split
    · rename_i c
      obtain ⟨h1, h2, h3, h4, h5, h6, h7⟩ := h
      refine ⟨h1, h2, h3, h4, ?_, rfl, h7⟩
      intro f hf
      cases hf
      refine ⟨?_, c.1⟩
      show s.prof.loadQueue.head? = some n
      rw [e]
      rfl
    · exact h

theorem loadQueue_startLoad (s : State) : (startLoad s).prof.loadQueue = s.prof.loadQueue := by
  unfold startLoad
  split
  · rfl
  · split <;> rfl

theorem waiting_startLoad (s : State) : (startLoad s).prof.waiting = s.prof.waiting := by
  unfold startLoad
  split
  · rfl
  · split <;> rfl

theorem heldPage_of_link {s t : State} (e : ∀ l, t.link l = s.link l) (l : LinkId) (k : PageSlot) :
    t.heldPage l k = s.heldPage l k := by
  simp only [State.heldPage, e]

theorem waitingSound_of {s t : State} (hw : t.prof.waiting = s.prof.waiting)
    (hq : ∀ n ∈ s.prof.loadQueue, n ∈ t.prof.loadQueue) (hh : ∀ l k, t.heldPage l k = s.heldPage l k)
    (h : s.waitingSound) : t.waitingSound := by
  refine ⟨?_, hw ▸ h.2⟩
  intro w m
  rw [hw] at m
  obtain ⟨p, a, b⟩ := h.1 w m
  exact ⟨p, (hh _ _).trans a, hq _ b⟩

theorem waitingSound_startLoad (s : State) (h : s.waitingSound) : (startLoad s).waitingSound :=
  waitingSound_of (waiting_startLoad s) (by rw [loadQueue_startLoad]; exact fun _ m => m)
    (heldPage_of_link (link_startLoad s)) h

theorem profile_startLoad (s : State) (ho : s.prof.ordered) (hw : s.waitingSound) : (startLoad s).profileSound :=
  ⟨ordered_startLoad s ho, busy_startLoad s, waitingSound_startLoad s hw⟩

theorem ordered_appendLoad (n : Nat) (s : State) (h : s.prof.ordered) (hn : n ∉ s.prof.loadQueue)
    (hl : s.prof.loadQueue.length < Config.loadRegions) : (appendLoad n s).prof.ordered := by
  obtain ⟨h1, h2, h3, h4, h5, h6, h7⟩ := h
  refine ⟨h1, h2, ?_, ?_, ?_, h6, h7⟩
  · show (s.prof.loadQueue ++ [n]).length ≤ _
    simp only [List.length_append, List.length_singleton]
    omega
  · show (s.prof.loadQueue ++ [n]).Nodup
    rw [List.nodup_append]
    refine ⟨h4, by simp, ?_⟩
    intro a ha b hb
    simp only [List.mem_singleton] at hb
    subst hb
    exact fun e => hn (e ▸ ha)
  · intro f hf
    obtain ⟨a, b⟩ := h5 f hf
    refine ⟨?_, b⟩
    show (s.prof.loadQueue ++ [n]).head? = _
    rw [List.head?_append, a]
    rfl

theorem ordered_requestLoad (n : Nat) (s : State) (h : s.prof.ordered) : (requestLoad n s).prof.ordered := by
  unfold requestLoad
  split
  · exact h
  · rename_i c
    split
    · rename_i hl
      exact ordered_startLoad _ (ordered_appendLoad n s h (by simpa using c) hl)
    · exact h

theorem waiting_requestLoad (n : Nat) (s : State) : (requestLoad n s).prof.waiting = s.prof.waiting := by
  unfold requestLoad
  split
  · rfl
  · split
    · rw [waiting_startLoad]; rfl
    · rfl

theorem loadQueue_requestLoad (n : Nat) (s : State) : ∀ m ∈ s.prof.loadQueue, m ∈ (requestLoad n s).prof.loadQueue := by
  intro m hm
  unfold requestLoad
  split
  · exact hm
  · split
    · rw [loadQueue_startLoad]
      exact List.mem_append_left _ hm
    · exact hm

theorem mem_requestLoad (n : Nat) (s : State)
    (h : s.prof.loadQueue.contains n = true ∨ s.prof.loadQueue.length < Config.loadRegions) :
    n ∈ (requestLoad n s).prof.loadQueue := by
  unfold requestLoad
  split
  · rename_i c; simpa using c
  · rename_i c
    rw [if_pos (h.resolve_left c), loadQueue_startLoad]
    exact List.mem_append_right _ (by simp)

theorem waitingSound_requestLoad (n : Nat) (s : State) (h : s.waitingSound) : (requestLoad n s).waitingSound :=
  waitingSound_of (waiting_requestLoad n s) (loadQueue_requestLoad n s) (heldPage_of_link (link_requestLoad n s)) h

theorem profile_requestLoad (n : Nat) (s : State) (h : s.profileSound) : (requestLoad n s).profileSound := by
  refine ⟨ordered_requestLoad n s h.1, ?_, waitingSound_requestLoad n s h.2.2⟩
  unfold requestLoad
  split
  · exact h.2.1
  · split
    · exact busy_startLoad _
    · exact h.2.1

/-! ### Judging a page whose slot no pending record names -/

/-- No pending record refers to a slot. -/
def State.notWaiting (s : State) (l : LinkId) (k : PageSlot) : Prop :=
  ∀ w ∈ s.prof.waiting, ¬ (w.link = l ∧ w.slot = k)

theorem heldPage_freeSlot (l : LinkId) (k : PageSlot) (s : State) (m : LinkId) (j : PageSlot) (h : ¬ (m = l ∧ j = k)) :
    (freeSlot l k s).heldPage m j = s.heldPage m j := by
  simp only [freeSlot, State.heldPage, State.link_modLink]
  by_cases e : m = l
  · subst e
    have hs := (s.link m).slot_setSlot k j .free
    rw [if_neg (fun c => h ⟨rfl, c.symm⟩)] at hs
    simp only [if_true]
    exact congrArg Slot.page hs
  · simp only [if_neg e]

theorem prof_dispose (l : LinkId) (k : PageSlot) (d : Disposition) (s : State) : (dispose l k d s).prof = s.prof := by
  unfold dispose
  split
  · rfl
  · have a : (postIfFull d (countLink l (countCode d) s)).prof = s.prof := by
      rw [(work_postIfFull d _).prof, State.prof_countLink]
    dsimp only
    split
    · simp [freeSlot, enqueue, a]
    · simp [freeSlot, a]

theorem heldPage_dispose (l : LinkId) (k : PageSlot) (d : Disposition) (s : State) (m : LinkId) (j : PageSlot)
    (h : ¬ (m = l ∧ j = k)) : (dispose l k d s).heldPage m j = s.heldPage m j := by
  unfold dispose
  split
  · rfl
  · rename_i p _
    have a := (work_countLink l (countCode d) s (countCode_bounded d)).trans (work_postIfFull d _)
    dsimp only
    rw [heldPage_freeSlot l k _ m j h]
    split
    · exact (heldPage_enqueue _ _ _ _ _).trans (a.heldPage m j)
    · exact a.heldPage m j

theorem prof_judgeUnder (b : Bool) (f : Profile) (l : LinkId) (k : PageSlot) (s : State) :
    (judgeUnder b f l k s).prof = s.prof := by
  unfold judgeUnder
  split
  · rfl
  · split
    · exact prof_dispose _ _ _ _
    · dsimp only
      rw [prof_dispose, (work_workPage _ _ _).prof]

theorem heldPage_judgeUnder (b : Bool) (f : Profile) (l : LinkId) (k : PageSlot) (s : State) (m : LinkId) (j : PageSlot)
    (h : ¬ (m = l ∧ j = k)) : (judgeUnder b f l k s).heldPage m j = s.heldPage m j := by
  unfold judgeUnder
  split
  · rfl
  · split
    · exact heldPage_dispose _ _ _ _ _ _ h
    · dsimp only
      rw [heldPage_dispose _ _ _ _ _ _ h, (work_workPage _ _ _).heldPage]

/-- Judging leaves the profile unit as it is (R52). -/
theorem prof_judge (f : Option Profile) (l : LinkId) (k : PageSlot) (s : State) : (judge f l k s).prof = s.prof := by
  unfold judge
  split
  · exact prof_judgeUnder _ _ _ _ _
  · rw [prof_judgeUnder, (work_noteFallback s).prof]

/-- Judging a page touches no other page slot (R31). -/
theorem heldPage_judge (f : Option Profile) (l : LinkId) (k : PageSlot) (s : State) (m : LinkId) (j : PageSlot)
    (h : ¬ (m = l ∧ j = k)) : (judge f l k s).heldPage m j = s.heldPage m j := by
  unfold judge
  split
  · exact heldPage_judgeUnder _ _ _ _ _ _ _ h
  · rw [heldPage_judgeUnder _ _ _ _ _ _ _ h, (work_noteFallback s).heldPage]

theorem waitingSound_judge (f : Option Profile) (l : LinkId) (k : PageSlot) (s : State) (hn : s.notWaiting l k)
    (h : s.waitingSound) : (judge f l k s).waitingSound := by
  refine ⟨?_, by rw [prof_judge]; exact h.2⟩
  intro w hw
  rw [prof_judge] at hw ⊢
  rw [heldPage_judge _ _ _ _ _ _ (hn w hw)]
  exact h.1 w hw

theorem profile_judge (f : Option Profile) (l : LinkId) (k : PageSlot) (s : State) (hn : s.notWaiting l k)
    (h : s.profileSound) : (judge f l k s).profileSound :=
  ⟨by rw [prof_judge]; exact h.1, by rw [prof_judge]; exact h.2.1, waitingSound_judge f l k s hn h.2.2⟩

theorem waitingSound_parkPage (l : LinkId) (k : PageSlot) (p : Page) (s : State) (hp : s.heldPage l k = some p)
    (hn : s.notWaiting l k) (a : Nat) (h : s.waitingSound)
    (hr : s.prof.loadQueue.contains p.region = true ∨ s.prof.loadQueue.length < Config.loadRegions) :
    (requestLoad p.region (parkPage l k a s)).waitingSound := by
  have hw : (requestLoad p.region (parkPage l k a s)).prof.waiting = s.prof.waiting ++ [⟨l, k, a + Config.waitMs⟩] := by
    rw [waiting_requestLoad]; rfl
  have hh : ∀ m j, (requestLoad p.region (parkPage l k a s)).heldPage m j = s.heldPage m j := fun m j =>
    heldPage_of_link (fun l => (link_requestLoad _ _ l).trans rfl) m j
  refine ⟨?_, ?_⟩
  · intro w m
    rw [hw, List.mem_append] at m
    rw [hh]
    rcases m with m | m
    · obtain ⟨q, x, y⟩ := h.1 w m
      exact ⟨q, x, loadQueue_requestLoad _ _ _ y⟩
    · simp only [List.mem_singleton] at m
      subst m
      exact ⟨p, hp, mem_requestLoad p.region (parkPage l k a s) hr⟩
  · rw [hw, List.map_append, List.nodup_append]
    refine ⟨h.2, by simp, ?_⟩
    intro x hx y hy
    simp only [List.map_cons, List.map_nil, List.mem_singleton] at hy
    subst hy
    obtain ⟨w, hw, rfl⟩ := List.mem_map.1 hx
    intro e
    simp only [Prod.mk.injEq] at e
    exact hn w hw e

theorem profile_handOn (l : LinkId) (k : PageSlot) (p : Page) (s : State) (hp : s.heldPage l k = some p)
    (hn : s.notWaiting l k) (h : s.profileSound) : (handOn l k p s).profileSound := by
  unfold handOn
  split
  · rename_i c hc
    exact profile_judge _ _ _ _ hn (profile_useCache _ c s hc h)
  · split
    · rename_i hr
      have w := waitingSound_parkPage l k p s hp hn p.arrival h.2.2 hr
      refine ⟨ordered_requestLoad _ _ h.1, ?_, w⟩
      unfold requestLoad
      split
      · exact h.2.1
      · split
        · exact busy_startLoad _
        · exact h.2.1
    · exact profile_judge _ _ _ _ hn h

/-! ### A load completes -/

theorem ordered_endLoad (n : Nat) (s : State) (h : s.prof.ordered) : (endLoad n s).prof.ordered := by
  obtain ⟨h1, h2, h3, h4, h5, h6, h7⟩ := h
  refine ⟨h1, h2, ?_, h4.erase n, ?_, rfl, h7⟩
  · exact (List.length_erase_le).trans h3
  · intro f hf
    cases hf

theorem prof_foldl_judge (f : Option Profile) (out : List WaitingPage) (t : State) :
    (out.foldl (fun u w => judge f w.link w.slot u) t).prof = t.prof := by
  induction out generalizing t with
  | nil => rfl
  | cons w rest ih =>
    rw [List.foldl_cons, ih, prof_judge]

theorem waitingSound_foldl_judge (f : Option Profile) (out : List WaitingPage) (t : State)
    (hn : ∀ w ∈ out, t.notWaiting w.link w.slot) (h : t.waitingSound) :
    (out.foldl (fun u w => judge f w.link w.slot u) t).waitingSound := by
  induction out generalizing t with
  | nil => exact h
  | cons w rest ih =>
    rw [List.foldl_cons]
    refine ih _ ?_ (waitingSound_judge f _ _ t (hn w (by simp)) h)
    intro v hv
    have := hn v (by simp [hv])
    intro x hx
    rw [prof_judge] at hx
    exact this x hx

/-- After a load of region `n` releases its pages, the remaining records are sound (R55 step 3). -/
theorem waitingSound_releaseWaiting (n : Nat) (f : Option Profile) (s : State) (q : List Nat)
    (hq : ∀ m ∈ q, m ≠ n → m ∈ s.prof.loadQueue)
    (hw : ∀ w ∈ s.prof.waiting, ∃ p, s.heldPage w.link w.slot = some p ∧ p.region ∈ q)
    (hd : (s.prof.waiting.map (fun w => (w.link, w.slot))).Nodup) : (releaseWaiting n f s).waitingSound := by
  unfold releaseWaiting
  dsimp only
  refine waitingSound_foldl_judge f _ _ ?_ ⟨?_, ?_⟩
  · intro w hw' x hx
    have hx' : x ∈ s.prof.waiting.filter (fun w => !s.waitsFor n w) := hx
    obtain ⟨a, b⟩ := List.mem_filter.1 hw'
    obtain ⟨c, d⟩ := List.mem_filter.1 hx'
    rintro ⟨e1, e2⟩
    have hxw : x = w := List.inj_on_of_nodup_map hd c a (by simp [e1, e2])
    subst hxw
    simp [b] at d
  · intro w hw'
    have hx' : w ∈ s.prof.waiting.filter (fun w => !s.waitsFor n w) := hw'
    obtain ⟨a, b⟩ := List.mem_filter.1 hx'
    obtain ⟨p, hp, hr⟩ := hw w a
    refine ⟨p, hp, hq _ hr ?_⟩
    simpa [State.waitsFor, hp] using b
  · exact hd.sublist (List.filter_sublist.map _)

theorem profile_completeLoad (n : Nat) (b : List Byte) (s : State) (h : s.profileSound) :
    (completeLoad n b s).profileSound := by
  unfold completeLoad
  dsimp only
  generalize judgeRecord n b = f
  -- the state before the pages are released
  have ho : (countLoad f (install ⟨n, f⟩ (endLoad n s))).prof.ordered := by
    rw [(work_countLoad f _).prof]
    exact ordered_install _ _ (ordered_endLoad n s h.1)
  have hw : (releaseWaiting n f (countLoad f (install ⟨n, f⟩ (endLoad n s)))).waitingSound := by
    refine waitingSound_releaseWaiting n f _ s.prof.loadQueue ?_ ?_ ?_
    · intro m hm hne
      rw [(work_countLoad f _).prof]
      exact (List.mem_erase_of_ne hne).2 hm
    · intro w hw
      rw [(work_countLoad f _).prof] at hw
      rw [(work_countLoad f _).heldPage]
      exact h.2.2.1 w hw
    · rw [(work_countLoad f _).prof]
      exact h.2.2.2
  generalize hu : countLoad f (install ⟨n, f⟩ (endLoad n s)) = u at ho hw
  have hp : (releaseWaiting n f u).prof.ordered := by
    unfold releaseWaiting
    dsimp only
    rw [prof_foldl_judge]
    exact ho
  generalize releaseWaiting n f u = v at hw hp
  have hs : ∀ l (x : State), x.prof.ordered → x.waitingSound →
      (subscribeIfWaiting n f l x).prof.ordered ∧ (subscribeIfWaiting n f l x).waitingSound := by
    intro l x a c
    unfold subscribeIfWaiting
    split
    · have e1 : ∀ m j, (setSubWaiting none l (enqueue l (subscriptionOf f) x)).heldPage m j = x.heldPage m j := by
        intro m j
        unfold setSubWaiting enqueue
        rw [heldPage_modLink _ _ _ (fun _ => rfl), heldPage_modLink _ _ _ (fun _ => rfl)]
      have e2 : (setSubWaiting none l (enqueue l (subscriptionOf f) x)).prof = x.prof := by
        simp [setSubWaiting, enqueue]
      exact ⟨e2 ▸ a, waitingSound_of (by rw [e2]) (by rw [e2]; exact fun _ m => m) e1 c⟩
    · exact ⟨a, c⟩
  obtain ⟨a1, c1⟩ := hs .la v hp hw
  obtain ⟨a2, c2⟩ := hs .lb _ a1 c1
  split
  · exact profile_startLoad _ a2 c2
  · exact profile_startLoad _ a2 c2

/-! ### Commands of the store -/

theorem ordered_emptyCache (s : State) (h : s.prof.ordered) : (emptyCache s).prof.ordered :=
  ⟨Nat.zero_le _, List.nodup_nil, h.2.2⟩

theorem ordered_abandonIfLoading (s : State) (h : s.prof.ordered) : (abandonIfLoading s).prof.ordered := by
  unfold abandonIfLoading
  split
  · exact h
  · obtain ⟨h1, h2, h3, h4, _, _, h7⟩ := h
    exact ⟨h1, h2, h3, h4, (fun f e => absurd e (by simp [abandonLoad])), rfl, h7⟩

theorem flight_abandonIfLoading (s : State) : (abandonIfLoading s).prof.flight = none := by
  unfold abandonIfLoading
  split
  · assumption
  · rfl

theorem waitingSound_same (s t : State) (hl : ∀ l, t.link l = s.link l) (hw : t.prof.waiting = s.prof.waiting)
    (hq : t.prof.loadQueue = s.prof.loadQueue) (h : s.waitingSound) : t.waitingSound :=
  waitingSound_of hw (by rw [hq]; exact fun _ m => m) (heldPage_of_link hl) h

theorem waitingSound_abandonIfLoading (s : State) (h : s.waitingSound) : (abandonIfLoading s).waitingSound :=
  waitingSound_same s _ (link_abandonIfLoading s) (by unfold abandonIfLoading; split <;> rfl)
    (by unfold abandonIfLoading; split <;> rfl) h

theorem prof_requestServing (l : LinkId) (s : State) (h : s.prof.ordered) (hw : s.waitingSound) :
    (requestServing l s).prof.ordered ∧ (requestServing l s).waitingSound := by
  unfold requestServing
  split
  · split
    · exact ⟨h, hw⟩
    · rename_i n _
      have e : (setSubWaiting (some n) l (requestLoad n s)).prof = (requestLoad n s).prof := by simp [setSubWaiting]
      refine ⟨by rw [e]; exact ordered_requestLoad n s h, ?_⟩
      refine waitingSound_of (by rw [e]) (by rw [e]; exact fun _ m => m) ?_ (waitingSound_requestLoad n s hw)
      intro m j
      exact heldPage_modLink _ _ _ (fun _ => rfl) m j
  · exact ⟨h, hw⟩

theorem prof_requestServingRegions (s : State) (h : s.prof.ordered) (hw : s.waitingSound) :
    (requestServingRegions s).prof.ordered ∧ (requestServingRegions s).waitingSound := by
  obtain ⟨a, b⟩ := prof_requestServing .la s h hw
  exact prof_requestServing .lb _ a b

theorem profile_flushProfiles (s : State) (h : s.profileSound) : (flushProfiles s).profileSound := by
  obtain ⟨a, b⟩ := prof_requestServingRegions (abandonIfLoading (emptyCache s))
    (ordered_abandonIfLoading _ (ordered_emptyCache s h.1)) (waitingSound_abandonIfLoading (emptyCache s) h.2.2)
  exact profile_startLoad _ a b

theorem profile_yieldStore (s : State) (h : s.profileSound) : (yieldStore s).profileSound := by
  have hf := flight_abandonIfLoading s
  obtain ⟨h1, h2, h3, h4, _, _, _⟩ := ordered_abandonIfLoading s h.1
  refine profile_work (work_post _ _) ⟨⟨h1, h2, h3, h4, ?_, ?_, ?_⟩, ?_, waitingSound_abandonIfLoading s h.2.2⟩
  · intro f e
    have : (abandonIfLoading s).prof.flight = some f := e
    rw [hf] at this
    cases this
  · show false = (abandonIfLoading s).prof.flight.isSome
    rw [hf]
    rfl
  · constructor <;> intro c <;> cases c
  · intro c
    cases c

/-- While the store is YIELDED no load starts (R59). -/
theorem startLoad_yielded (s : State) (h : s.prof.store = .yielded) : startLoad s = s := by
  unfold startLoad
  split
  · rfl
  · rw [if_neg (fun c => by rw [h] at c; cases c.1)]

/-- A region requested while the store is YIELDED at most joins the load queue (R59). -/
theorem requestLoad_yielded (n : Nat) (s : State) (h : s.prof.store = .yielded) :
    requestLoad n s = s ∨ (requestLoad n s = appendLoad n s ∧ n ∉ s.prof.loadQueue ∧
      s.prof.loadQueue.length < Config.loadRegions) := by
  unfold requestLoad
  split
  · exact Or.inl rfl
  · rename_i c
    split
    · rename_i hl
      exact Or.inr ⟨startLoad_yielded _ h, by simpa using c, hl⟩
    · exact Or.inl rfl

/-- The unit between the host's return of the store and its being OWNED again (R60). -/
def State.returning (s : State) : Prop :=
  s.prof.cache = [] ∧ s.prof.loadQueue.length ≤ Config.loadRegions ∧ s.prof.loadQueue.Nodup ∧ s.prof.flight = none ∧
  s.prof.flashSelected = false ∧ s.prof.pspDriven = true ∧ s.prof.store = .yielded

theorem returning_requestServing (l : LinkId) (s : State) (h : s.returning) : (requestServing l s).returning := by
  have hr : ∀ n, (requestLoad n s).returning := by
    intro n
    rcases requestLoad_yielded n s h.2.2.2.2.2.2 with e | ⟨e, hn, hl⟩
    · rw [e]; exact h
    · rw [e]
      obtain ⟨h1, h2, h3, h4⟩ := h
      refine ⟨h1, ?_, ?_, h4⟩
      · show (s.prof.loadQueue ++ [n]).length ≤ _
        simp only [List.length_append, List.length_singleton]
        omega
      · show (s.prof.loadQueue ++ [n]).Nodup
        rw [List.nodup_append]
        refine ⟨h3, by simp, ?_⟩
        intro a ha b hb
        simp only [List.mem_singleton] at hb
        subst hb
        exact fun e => hn (e ▸ ha)
  unfold requestServing
  split
  · split
    · exact h
    · rename_i n _
      have e : (setSubWaiting (some n) l (requestLoad n s)).prof = (requestLoad n s).prof := by simp [setSubWaiting]
      have := hr n
      unfold State.returning at this ⊢
      rw [e]
      exact this
  · exact h

theorem waitingSound_requestServing (l : LinkId) (s : State) (hw : s.waitingSound) : (requestServing l s).waitingSound := by
  unfold requestServing
  split
  · split
    · exact hw
    · rename_i n _
      have e : (setSubWaiting (some n) l (requestLoad n s)).prof = (requestLoad n s).prof := by simp [setSubWaiting]
      refine waitingSound_of (by rw [e]) (by rw [e]; exact fun _ m => m) ?_ (waitingSound_requestLoad n s hw)
      intro m j
      exact heldPage_modLink _ _ _ (fun _ => rfl) m j
  · exact hw

theorem profile_returnStore (s : State) (hy : s.prof.store = .yielded) (h : s.profileSound) :
    (returnStore s).profileSound := by
  obtain ⟨⟨h1, h2, h3, h4, h5, h6, h7⟩, _, hw⟩ := h
  have hf : s.prof.flight = none := by
    cases e : s.prof.flight with
    | none => rfl
    | some f => exact absurd (h5 f e).2 (by rw [hy]; decide)
  have hr : (emptyCache (drivePins s)).returning := ⟨rfl, h3, h4, hf, rfl, rfl, hy⟩
  have hr2 := returning_requestServing .lb _ (returning_requestServing .la _ hr)
  have hw2 := waitingSound_requestServing .lb _ (waitingSound_requestServing .la (emptyCache (drivePins s)) hw)
  unfold returnStore requestServingRegions
  generalize requestServing .lb (requestServing .la (emptyCache (drivePins s))) = t at *
  obtain ⟨r1, r2, r3, r4, r5, r6, _⟩ := hr2
  refine profile_startLoad _ ⟨?_, ?_, r2, r3, ?_, ?_, ?_⟩ hw2
  · show t.prof.cache.length ≤ _
    rw [r1]; exact Nat.zero_le _
  · show (t.prof.cache.map _).Nodup
    rw [r1]; exact List.nodup_nil
  · intro f e
    have : t.prof.flight = some f := e
    rw [r4] at this
    cases this
  · show t.prof.flashSelected = t.prof.flight.isSome
    rw [r4, r5]; rfl
  · exact ⟨fun _ => rfl, fun _ => r6⟩

/-! ### The links' commands -/

/-- What a link's transition keeps: the profile unit and every held page. -/
structure Held (s t : State) : Prop where
  prof : t.prof = s.prof
  held : ∀ l k, t.heldPage l k = s.heldPage l k

theorem Held.refl (s : State) : Held s s := ⟨rfl, fun _ _ => rfl⟩

theorem Held.trans {s t u : State} (a : Held s t) (b : Held t u) : Held s u :=
  ⟨b.prof.trans a.prof, fun l k => (b.held l k).trans (a.held l k)⟩

theorem Work.held {s t : State} (w : Work s t) : Held s t := ⟨w.prof, w.heldPage⟩

theorem held_modLink (l : LinkId) (f : Link → Link) (s : State) (hf : (f (s.link l)).slots = (s.link l).slots) :
    Held s (modLink l f s) :=
  ⟨by simp, heldPage_modLink l f s (by intro k; rw [hf])⟩

theorem profile_held {s t : State} (h : Held s t) (p : s.profileSound) : t.profileSound :=
  profile_of_same h.prof h.held p

theorem held_openLink (l : LinkId) (s : State) : Held s (openLink l s) := by
  have he : ∀ t, Held t (enterUp l t) := fun t =>
    (held_modLink l openedLink t rfl).trans ((work_post _ _).trans ((work_servingTrigger _).trans (work_offer _ _))).held
  unfold openLink
  split
  · exact ((held_modLink l _ s rfl).trans (work_refuseOutstanding _ _).held).trans (he _)
  · exact he s

theorem held_leaveUp (l : LinkId) (x : LinkState) (s : State) : Held s (leaveUp l x s) :=
  (held_modLink l _ s rfl).trans ((work_refuseOutstanding _ _).trans (work_servingTrigger _)).held

theorem work_countFault (l : LinkId) (s : State) :
    Work s (countLink l (fun c => { c with faults := bump c.faults }) s) :=
  work_countLink _ _ _ (fun _ h => by
    simp only [LinkCounters.bounded] at h ⊢
    exact ⟨h.1, h.2.1, h.2.2.1, h.2.2.2.1, h.2.2.2.2.1, h.2.2.2.2.2.1, h.2.2.2.2.2.2.1, bump_le _⟩)

theorem held_faultLink (l : LinkId) (k : FaultKind) (f : FrameKind) (s : State) : Held s (faultLink l k f s) :=
  (((held_modLink l _ s rfl).trans (held_leaveUp _ _ _)).trans (held_modLink l _ _ rfl)).trans
    ((work_countFault _ _).trans (work_post _ _)).held

theorem held_endQuarantine (l : LinkId) (s : State) : Held s (endQuarantine l s) :=
  (held_modLink l _ s rfl).trans (work_post _ _).held

theorem held_endFrame (l : LinkId) (s : State) : Held s (endFrame l s) := held_modLink l _ s rfl

theorem held_huntByte (l : LinkId) (b : Byte) (s : State) : Held s (huntByte l b s) := by
  unfold huntByte
  split
  · exact held_modLink l _ s rfl
  · split
    · exact held_faultLink _ _ _ _
    · exact Held.refl s
    · exact Held.refl s
    · exact Held.refl s

/-- A slot that is not HELD may be freed or reserved without a held page changing. -/
theorem held_closeLink (l : LinkId) (s : State) : Held s (closeLink l s) :=
  (held_leaveUp _ _ _).trans (work_post _ _).held

theorem held_emptyFrame (l : LinkId) (k : FrameKind) (s : State) : Held s (emptyFrame l k s) := by
  have he := held_endFrame l s
  unfold emptyFrame
  split
  · cases k
    · exact he.trans (held_openLink _ _)
    · exact he.trans (held_closeLink _ _)
    all_goals exact he.trans (held_faultLink _ _ _ _)
  · split
    · exact he.trans (held_openLink _ _)
    · exact he
  · split
    · exact he.trans (held_openLink _ _)
    · exact he
  · exact Held.refl s

theorem held_setSlot (l : LinkId) (i : PageSlot) (v : Slot) (s : State) (hv : v.page = none)
    (hs : (s.link l).slots[i].page = none) : Held s (modLink l (fun k => k.setSlot i v) s) := by
  refine ⟨by simp, heldPage_modLink l _ s (fun k => ?_)⟩
  rw [Link.slot_setSlot]
  split
  · rename_i e; subst e; rw [hv, hs]
  · rfl

theorem held_reserveSlot (l : LinkId) (i : PageSlot) (s : State) (hs : (s.link l).slots[i].page = none) :
    Held s (reserveSlot l i s) := by
  refine ⟨by simp [reserveSlot], heldPage_modLink l _ s (fun k => ?_)⟩
  show ((s.link l).setSlot i .receiving).slots[k].page = _
  rw [Link.slot_setSlot]
  split
  · rename_i e; subst e; rw [hs]; rfl
  · rfl

theorem Slot.page_of_free {v : Slot} (h : v.occupied = false) : v.page = none := by
  cases v <;> first | rfl | simp [Slot.occupied] at h

theorem held_overrunLink (l : LinkId) (s : State) : Held s (overrunLink l s) :=
  (work_countLink l _ s (fun _ h => by
    simp only [LinkCounters.bounded] at h ⊢
    exact ⟨h.1, h.2.1, h.2.2.1, h.2.2.2.1, h.2.2.2.2.1, h.2.2.2.2.2.1, bump_le _, h.2.2.2.2.2.2.2⟩)).held.trans
    (held_faultLink _ _ _ _)

theorem held_headerUp (l : LinkId) (x : FrameHeader) (f : FrameProgress) (s : State) : Held s (headerUp l x f s) := by
  unfold headerUp
  split
  · split
    · split
      · exact held_overrunLink _ _
      · rename_i i hi
        exact (held_reserveSlot l i s (Slot.page_of_free (Link.lowestFree_free hi))).trans (held_modLink l _ _ rfl)
    · exact held_modLink l _ s rfl
  · exact held_faultLink _ _ _ _

theorem held_releaseReserved (l : LinkId) (f : FrameProgress) (s : State) (h : (s.link l).sound)
    (hf : (s.link l).frame = some f) : Held s (releaseReserved l f s) := by
  unfold releaseReserved
  split
  · exact Held.refl s
  · rename_i i hi
    refine held_setSlot l i .free s rfl ?_
    rw [(h.1.2 f i hf hi).2.1]
    rfl

/-- A command done with links that leaves the profile unit and every held page. -/
theorem held_onComplete (l : LinkId) (k : FrameKind) (b : List Byte) (up : FrameProgress → State → State)
    (other : State → State) (s : State) (hu : ∀ f t, Held t (up f t)) (ho : ∀ t, Held t (other t)) :
    Held s (onComplete l k b up other s) := by
  unfold onComplete
  split
  · exact Held.refl s
  · split
    · exact (held_endFrame _ _).trans (hu _ _)
    · exact (held_endFrame _ _).trans (ho _)

theorem held_settleResult (l : LinkId) (id : ReceiptId) (b : Bool) (s : State) : Held s (settleResult l id b s) :=
  (work_settleResult l id b s).held

theorem profile_takeServing (l : LinkId) (v : Serving) (s : State) (h : s.profileSound) :
    (takeServing l v s).profileSound := by
  have a : Held s (servingTrigger (modLink l (fun k => { k with serving := v }) s)) :=
    (held_modLink l _ s rfl).trans (work_servingTrigger _).held
  have hsub : ∀ x t, Held t (setSubWaiting x l t) := fun x t => held_modLink l _ t rfl
  have henq : ∀ x t, Held t (enqueue l x t) := fun x t => held_modLink l _ t rfl
  unfold takeServing
  dsimp only
  split
  · exact profile_held (a.trans (hsub _ _)) h
  · rename_i n _
    split
    · exact profile_held a h
    · have h' := profile_held a h
      generalize servingTrigger (modLink l (fun k => { k with serving := v }) s) = t at *
      unfold deriveSubscription
      dsimp only
      split
      · rename_i c hc
        exact profile_held (henq _ _) (profile_useCache n c _ hc (profile_held (hsub _ _) h'))
      · exact profile_requestLoad _ _ (profile_held (((hsub _ t).trans (henq _ _)).trans (hsub _ _)) h')

/-- A page accepted into its RECEIVING slot (R30): no pending record names that slot. -/
theorem profile_takePage (l : LinkId) (i : PageSlot) (p : Page) (s : State) (hs : (s.link l).slots[i] = .receiving)
    (h : s.profileSound) : (takePage l i p s).profileSound := by
  have hnone : s.heldPage l i = none := by simp [State.heldPage, hs, Slot.page]
  have hn : ∀ w ∈ s.prof.waiting, ¬ (w.link = l ∧ w.slot = i) := by
    rintro w hw ⟨e1, e2⟩
    obtain ⟨q, hq, _⟩ := h.2.2.1 w hw
    rw [e1, e2, hnone] at hq
    cases hq
  unfold takePage
  have hw : Work (modLink l (fun k => k.setSlot i (.held p)) s)
      (countLink l (fun c => { c with pages := bump c.pages }) (modLink l (fun k => k.setSlot i (.held p)) s)) :=
    work_countLink _ _ _ (fun _ c => by
      simp only [LinkCounters.bounded] at c ⊢
      exact ⟨bump_le _, c.2⟩)
  have hheld : ∀ m k, ¬ (m = l ∧ k = i) →
      (modLink l (fun k => k.setSlot i (.held p)) s).heldPage m k = s.heldPage m k := by
    intro m k hmk
    simp only [State.heldPage, State.link_modLink]
    by_cases e : m = l
    · subst e
      simp only [if_true]
      rw [Link.slot_setSlot, if_neg (fun c => hmk ⟨rfl, c.symm⟩)]
    · simp only [if_neg e]
  have hnew : (modLink l (fun k => k.setSlot i (.held p)) s).heldPage l i = some p := by
    simp only [State.heldPage, State.link_modLink_same]
    rw [Link.slot_setSlot, if_pos rfl]
    rfl
  have hsound : (modLink l (fun k => k.setSlot i (.held p)) s).profileSound := by
    have hp : (modLink l (fun k => k.setSlot i (.held p)) s).prof = s.prof := by simp
    refine ⟨hp ▸ h.1, hp ▸ h.2.1, ?_, hp ▸ h.2.2.2⟩
    intro w hw
    rw [hp] at hw ⊢
    rw [hheld _ _ (hn w hw)]
    exact h.2.2.1 w hw
  refine profile_handOn l i p _ ((hw.heldPage l i).trans hnew) ?_ (profile_work hw hsound)
  intro w hw' c
  rw [hw.prof] at hw'
  exact hn w (by simpa using hw') c

/-! ### The commands one by one -/

theorem profile_execFrameTimeout (l : LinkId) (b : Option Byte) (s t : State) (hl : s.linksSound) (h : s.profileSound)
    (e : execFrameTimeout l b s = .next t) : t.profileSound := by
  unfold execFrameTimeout at e
  cases e
  split
  · exact h
  · rename_i f hf
    split
    · unfold timeoutFrame
      split
      · exact profile_held ((held_releaseReserved l f s (hl l) hf).trans (held_faultLink _ _ _ _)) h
      · exact profile_held (held_endFrame _ _) h
      · exact profile_held (held_endFrame _ _) h
      · exact h
    · exact h

theorem profile_execPage (l : LinkId) (b : List Byte) (s t : State) (h : s.profileSound)
    (e : execPage l b s = .next t) : t.profileSound := by
  unfold execPage at e
  cases e
  unfold onComplete
  split
  · exact h
  · rename_i f hf
    have he := profile_held (held_endFrame l s) h
    split
    · dsimp only
      split
      · split
        · exact profile_held (held_faultLink _ _ _ _) he
        · exact he
      · rename_i i hi
        split
        · rename_i hr
          unfold pageInSlot
          split
          · refine profile_held ((held_setSlot l i .free _ rfl ?_).trans (held_faultLink _ _ _ _)) he
            rw [hr]
            rfl
          · exact profile_takePage _ _ _ _ hr he
        · exact he
    · exact he

theorem profile_execWaitDeadlineExpiry (l : LinkId) (k : PageSlot) (s t : State) (h : s.profileSound)
    (e : execWaitDeadlineExpiry l k s = .next t) : t.profileSound := by
  unfold execWaitDeadlineExpiry at e
  cases e
  split
  · refine profile_judge _ _ _ _ ?_ ⟨h.1, h.2.1, ?_, ?_⟩
    · intro w hw c
      have hw' : w ∈ s.prof.waiting.filter (fun w => !(decide (w.link = l) && decide (w.slot = k))) := hw
      have := (List.mem_filter.1 hw').2
      simp [c.1, c.2] at this
    · intro w hw
      have hw' : w ∈ s.prof.waiting.filter (fun w => !(decide (w.link = l) && decide (w.slot = k))) := hw
      exact h.2.2.1 w (List.mem_filter.1 hw').1
    · exact h.2.2.2.sublist (List.filter_sublist.map _)
  · exact h

theorem profile_execFrameSend (l : LinkId) (s t : State) (h : s.profileSound) (e : execFrameSend l s = .next t) :
    t.profileSound := by
  unfold execFrameSend at e
  cases e
  split
  · exact h
  · exact profile_held (held_modLink l _ s rfl) h

theorem profile_reset : State.reset.profileSound := by
  refine ⟨⟨by decide, by decide, by decide, by decide, ?_, rfl, by decide⟩, ?_, ?_, by decide⟩
  · intro f e; cases e
  · intro _ c; exact absurd rfl c
  · intro w hw; cases hw

/-! ### Loads starting (R53, R54, R194) -/

/-- What starting the head of the load queue leaves (R54, R194). -/
theorem headStarts_startLoad (s : State) (hf : s.prof.flight = none) (hs : s.prof.flashSelected = false) :
    HeadStarts s.prof (startLoad s).prof := by
  unfold startLoad
  split
  · rename_i h
    refine ⟨fun n _ hn => ?_, fun _ => ⟨hf, hs, rfl⟩⟩
    rw [h] at hn; cases hn
  · rename_i m q h
    split
    · rename_i hc
      refine ⟨fun n _ hn => ?_, fun hi => ?_⟩
      · have e : m = n := by simpa [h] using hn
        subst e; exact ⟨rfl, rfl, rfl⟩
      · rcases hi with hi | hi
        · exact absurd hc.1 hi
        · have : s.prof.loadQueue = [] := hi
          rw [h] at this; cases this
    · rename_i hc
      exact ⟨fun n ho _ => absurd ⟨ho, hf⟩ hc, fun _ => ⟨hf, hs, rfl⟩⟩

/-- What the request for a region does to the load in flight (R53, R54). -/
theorem loadRequested_requestLoad (n : Nat) (s : State) : LoadRequested n s.prof (requestLoad n s).prof := by
  unfold requestLoad
  split
  · rename_i h
    exact ⟨fun hc => by rw [h] at hc; exact Bool.noConfusion hc, fun _ => ⟨rfl, rfl, rfl⟩⟩
  · split
    · rename_i h hl
      unfold startLoad
      split
      · rename_i he; simp [appendLoad] at he
      · rename_i m q he
        split
        · rename_i hc
          refine ⟨fun _ _ _ _ k hk => ?_, fun hst => ?_⟩
          · have : m = k := by
              have he : s.prof.loadQueue ++ [n] = m :: q := he
              simpa [he] using hk
            subst this; exact ⟨rfl, rfl, rfl⟩
          · rcases hst with a | a | a | a
            · exact absurd a h
            · exact absurd hl (Nat.not_lt.2 a)
            · exact absurd hc.1 a
            · exact absurd hc.2 a
        · rename_i hc
          exact ⟨fun _ _ a b => absurd ⟨a, b⟩ hc, fun _ => ⟨rfl, rfl, rfl⟩⟩
    · rename_i hl
      exact ⟨fun _ h2 => absurd h2 hl, fun _ => ⟨rfl, rfl, rfl⟩⟩
end Sys2Proof.Machine
end

