-- ==== Sys2Proof/Laws/Entries.lean ====
section
/-! SUPPORT. How conditions on the directory's entries pass through the operations, and that every operation keeps the
shape of Table 21 (State.entriesShaped). -/

namespace Sys2Proof.Machine

/-- A condition that the moves of a receipt state leave alone. -/
def ReceiptFree (Q : EntrySlot → Entry → Prop) : Prop :=
  ∀ i e r, Q i e → Q i { e with receipt := r, changed := true }

/-- A condition that losing the request leaves alone. -/
def RequestFree (Q : EntrySlot → Entry → Prop) : Prop := ∀ i e, Q i e → Q i (setRequest none e)

theorem every_of_entries {s t : State} {Q : EntrySlot → Entry → Prop} (h : ∀ i, t.entryAt i = s.entryAt i)
    (q : s.everyEntry Q) : t.everyEntry Q := by
  intro i e he
  rw [h] at he
  exact q i e he

theorem every_of_dir {s t : State} {Q : EntrySlot → Entry → Prop} (h : t.dir = s.dir) (q : s.everyEntry Q) :
    t.everyEntry Q :=
  every_of_entries (fun i => by simp only [State.entryAt, h]) q

theorem every_modEntry {Q : EntrySlot → Entry → Prop} (i : EntrySlot) (f : Entry → Entry) (s : State)
    (hf : ∀ e, s.entryAt i = some e → Q i e → Q i (f e)) (q : s.everyEntry Q) : (modEntry i f s).everyEntry Q := by
  intro j e he
  rw [State.entryAt_modEntry] at he
  split at he
  · rename_i c
    subst c
    obtain ⟨e', h1, rfl⟩ := Option.map_eq_some_iff.1 he
    exact hf e' h1 (q i e' h1)
  · exact q j e he

theorem every_putEntry_none {Q : EntrySlot → Entry → Prop} (i : EntrySlot) (s : State) (q : s.everyEntry Q) :
    (s.putEntry i none).everyEntry Q := by
  intro j e he
  rw [State.entryAt_putEntry] at he
  split at he
  · cases he
  · exact q j e he

theorem every_mono {s : State} {P Q : EntrySlot → Entry → Prop} (h : ∀ i e, P i e → Q i e) (p : s.everyEntry P) :
    s.everyEntry Q :=
  fun i e he => h i e (p i e he)

theorem modEntry_modEntry (i : EntrySlot) (f g : Entry → Entry) (s : State) :
    modEntry i f (modEntry i g s) = modEntry i (fun e => f (g e)) s := by
  unfold modEntry
  cases h : s.entryAt i with
  | none => simp [h]
  | some e =>
    simp only [State.entryAt_putEntry_same]
    simp [State.putEntry, State.setDir]

@[simp] theorem entryAt_post (k : EventKind) (s : State) (i : EntrySlot) : (post k s).entryAt i = s.entryAt i := rfl

@[simp] theorem entryAt_setSegs (s : State) (v : List Segment) (i : EntrySlot) : (s.setSegs v).entryAt i = s.entryAt i := rfl

@[simp] theorem entryAt_setArb (s : State) (a : Arbiter) (i : EntrySlot) : (s.setArb a).entryAt i = s.entryAt i := rfl

@[simp] theorem entryAt_setRcpt (s : State) (a : ReceiptUnit) (i : EntrySlot) :
    (s.setRcpt a).entryAt i = s.entryAt i := rfl

/-! ### Receipts -/

theorem every_setReceipt {Q : EntrySlot → Entry → Prop} (hQ : ReceiptFree Q) (h : Handle) (r : ReceiptState) (s : State)
    (q : s.everyEntry Q) : (setReceipt h r s).everyEntry Q := by
  unfold setReceipt modNamed
  split
  · exact q
  · exact every_modEntry _ _ _ (fun e _ qe => hQ _ e r qe) q

theorem dir_modLink (l : LinkId) (f : Link → Link) (s : State) : (modLink l f s).dir = s.dir := by simp

theorem every_makeOffer {Q : EntrySlot → Entry → Prop} (hQ : ReceiptFree Q) (r : ReceiptRecord) (s : State)
    (q : s.everyEntry Q) : (makeOffer r s).everyEntry Q := by
  have a := every_setReceipt hQ r.handle .offered
    (modRecord r.id (fun x => { x with state := .offered, deadline := some (s.now + Config.offerMs) }) s) q
  exact every_of_dir ((dir_modLink _ _ _).trans (dir_modLink _ _ _)) a

theorem every_offer {Q : EntrySlot → Entry → Prop} (hQ : ReceiptFree Q) (l : LinkId) (s : State)
    (q : s.everyEntry Q) : (offer l s).everyEntry Q := by
  unfold offer
  split
  · split
    · exact q
    · exact every_makeOffer hQ _ _ q
  · exact q

theorem every_refuse {Q : EntrySlot → Entry → Prop} (hQ : ReceiptFree Q) (r : ReceiptRecord) (s : State)
    (q : s.everyEntry Q) : (refuse r s).everyEntry Q := by
  unfold refuse
  refine every_offer hQ _ _ (every_offer hQ _ _ ?_)
  have q' : (clearOutstanding r.target s).everyEntry Q := every_of_dir (dir_modLink _ _ _) q
  split
  · exact every_setReceipt hQ _ _ _ q'
  · have := every_setReceipt hQ r.handle (.failed .undelivered) (dropRecord r.id (clearOutstanding r.target s)) q'
    exact this

theorem every_receiptSent {Q : EntrySlot → Entry → Prop} (hQ : ReceiptFree Q) (r : ReceiptRecord) (s : State)
    (q : s.everyEntry Q) : (receiptSent r s).everyEntry Q := by
  unfold receiptSent
  refine every_offer hQ _ _ ?_
  have q' : (clearOutstanding r.target s).everyEntry Q := every_of_dir (dir_modLink _ _ _) q
  exact every_setReceipt hQ r.handle .sent (dropRecord r.id (clearOutstanding r.target s)) q'

theorem every_refuseOutstanding {Q : EntrySlot → Entry → Prop} (hQ : ReceiptFree Q) (l : LinkId) (s : State)
    (q : s.everyEntry Q) : (refuseOutstanding l s).everyEntry Q := by
  unfold refuseOutstanding
  have q' : (clearOutstanding l s).everyEntry Q := every_of_dir (dir_modLink _ _ _) q
  split
  · exact q
  · split
    · exact q'
    · exact every_refuse hQ _ _ q'

theorem every_entryGone {Q : EntrySlot → Entry → Prop} (hQ : ReceiptFree Q) (h : Handle) (s : State)
    (q : s.everyEntry Q) : (entryGone h s).everyEntry Q := by
  unfold entryGone
  split
  · exact q
  · rename_i r _
    have q' : (receiptFailed (dropRecord r.id s)).everyEntry Q := q
    dsimp only
    split
    · exact q'
    · exact every_offer hQ _ _ (every_of_dir (dir_modLink _ _ _) q')

theorem every_receiptStep {Q : EntrySlot → Entry → Prop} (hQ : ReceiptFree Q) (i : EntrySlot) (s : State)
    (q : s.everyEntry Q) : (receiptStep i s).everyEntry Q := by
  unfold receiptStep
  split
  · exact q
  · split
    · exact q
    · split
      · split
        · exact every_modEntry i (fun e => { e with receipt := .failed .queueFull, changed := true }) s
            (fun e _ qe => hQ _ e _ qe) q
        · exact every_offer hQ _ _ (every_modEntry _ _ _ (fun e _ qe => hQ _ e .queued qe) q)
      · exact q

/-! ### The arbiter leaves entries but for their requests -/

theorem entryAt_beginPlay (lv : Level) (i j : EntrySlot) (s : State) : (beginPlay lv i s).entryAt j = s.entryAt j := by
  unfold beginPlay
  split
  · rfl
  · split <;> rfl

theorem entryAt_selectFrom (f : Level → EntrySlot) (s : State) (j : EntrySlot) :
    (selectFrom f s).entryAt j = s.entryAt j := by
  unfold selectFrom
  split
  · rfl
  · exact entryAt_beginPlay _ _ _ _

theorem entryAt_select (s : State) (j : EntrySlot) : (select s).entryAt j = s.entryAt j := entryAt_selectFrom _ _ _

theorem entryAt_selectIfIdle (s : State) (j : EntrySlot) : (selectIfIdle s).entryAt j = s.entryAt j := by
  unfold selectIfIdle
  split
  · exact entryAt_select _ _
  · rfl

theorem entryAt_dropRequest (i j : EntrySlot) (s : State) :
    (dropRequest i s).entryAt j = (modEntry i (setRequest none) s).entryAt j := by
  unfold dropRequest
  split
  · rename_i h
    unfold modEntry
    rw [h]
  · dsimp only
    split
    · rw [entryAt_select]
      rfl
    · rfl

theorem every_dropRequest {Q : EntrySlot → Entry → Prop} (hQ : RequestFree Q) (i : EntrySlot) (s : State)
    (q : s.everyEntry Q) : (dropRequest i s).everyEntry Q :=
  every_of_entries (entryAt_dropRequest i · s) (every_modEntry _ _ _ (fun e _ qe => hQ _ e qe) q)

theorem entryAt_raiseAlert (i j : EntrySlot) (s : State) (e : Entry) (h : s.entryAt i = some e) :
    (raiseAlert i s).entryAt j = (modEntry i (setRequest (some (alertRequest s e.cls))) s).entryAt j := by
  unfold raiseAlert
  rw [h]
  exact entryAt_selectIfIdle _ _

theorem every_raiseAlert {Q : EntrySlot → Entry → Prop} (i : EntrySlot) (s : State)
    (hf : ∀ e r, s.entryAt i = some e → Q i e → Q i (setRequest (some r) e)) (q : s.everyEntry Q) :
    (raiseAlert i s).everyEntry Q := by
  cases h : s.entryAt i with
  | none => unfold raiseAlert; rw [h]; exact q
  | some e =>
    exact every_of_entries (entryAt_raiseAlert i · s e h)
      (every_modEntry _ _ _ (fun e' h' qe => hf e' _ h' qe) q)

theorem every_retrigger {Q : EntrySlot → Entry → Prop} (i : EntrySlot) (s : State)
    (hf : ∀ e r, s.entryAt i = some e → Q i e → Q i (setRequest (some r) e)) (q : s.everyEntry Q) :
    (retrigger i s).everyEntry Q := by
  unfold retrigger
  split
  · exact q
  · split
    · exact every_raiseAlert i s hf q
    · rename_i e _ _ _ _
      have := every_modEntry i (setRequest (some (alertRequest s e.cls))) s (fun e' h' qe => hf e' _ h' qe) q
      dsimp only
      split
      · exact this
      · exact this

/-! ### Entries leaving, segments taken -/

theorem entryAt_retireEntry (i j : EntrySlot) (d : Option Discarded) (s : State) :
    (retireEntry i d s).entryAt j = s.entryAt j := by
  unfold retireEntry
  split
  · rfl
  · split <;> rfl

theorem every_departEntry {Q : EntrySlot → Entry → Prop} (hr : ReceiptFree Q) (hq : RequestFree Q) (i : EntrySlot)
    (s : State) (q : s.everyEntry Q) : (departEntry i s).everyEntry Q := by
  unfold departEntry
  have a := every_entryGone hr (s.handleOf i) _ (every_dropRequest hq i s q)
  exact every_putEntry_none i (releaseAll i (entryGone (s.handleOf i) (dropRequest i s))) a

theorem every_evict {Q : EntrySlot → Entry → Prop} (hr : ReceiptFree Q) (hq : RequestFree Q) (i : EntrySlot)
    (s : State) (q : s.everyEntry Q) : (evict i s).everyEntry Q :=
  every_departEntry hr hq i (retireEntry i none s) (every_of_entries (entryAt_retireEntry i · none s) q)

@[simp] theorem entryAt_bumpUse (i : EntrySlot) (s : State) (j : EntrySlot) : (bumpUse i s).entryAt j = s.entryAt j :=
  rfl

theorem every_takeSegment {Q : EntrySlot → Entry → Prop} (hr : ReceiptFree Q) (hq : RequestFree Q) (i : EntrySlot)
    (part : Nat) (text : List Byte) (c : AlertClass) (s t : State) (h : takeSegment i part text c s = some t)
    (q : s.everyEntry Q) : t.everyEntry Q := by
  unfold takeSegment at h
  split at h
  · rw [← Option.some.inj h]; exact q
  · split at h
    · simp at h
    · rename_i v _
      rw [← Option.some.inj h]
      exact every_of_entries (s := evict v s) (fun j => entryAt_setSegs _ _ j) (every_evict hr hq v s q)

theorem every_allocate {Q : EntrySlot → Entry → Prop} (hr : ReceiptFree Q) (hq : RequestFree Q) (c : AlertClass)
    (s : State) {i : EntrySlot} {t : State} (h : allocate c s = some (i, t)) (q : s.everyEntry Q) : t.everyEntry Q := by
  unfold allocate at h
  split at h
  · simp only [Option.some.injEq, Prod.mk.injEq] at h
    rw [← h.2]; exact q
  · split at h
    · simp only [Option.some.injEq, Prod.mk.injEq] at h
      rename_i v _
      rw [← h.2]
      exact every_of_entries (s := evict v s) (fun j => entryAt_bumpUse _ _ j) (every_evict hr hq v s q)
    · simp at h

/-! ### Shapes -/

theorem shape_receipt {e : Entry} (h : e.Shape) (r : ReceiptState) : ({ e with receipt := r, changed := true } : Entry).Shape :=
  ⟨h.current, h.assembling, h.cancelled, h.cancel, h.area, h.hold, h.expiry, h.resting, h.request, h.reminder, h.backlog⟩

theorem shape_noRequest {e : Entry} (h : e.Shape) : (setRequest none e).Shape :=
  ⟨h.current, h.assembling, h.cancelled, h.cancel, h.area, h.hold, h.expiry, h.resting, fun c => absurd rfl c, h.reminder,
    h.backlog⟩

theorem shape_request {e : Entry} (h : e.Shape) (ha : e.state = .active) (r : Option Request) : (setRequest r e).Shape :=
  ⟨h.current, h.assembling, h.cancelled, h.cancel, h.area, h.hold, h.expiry, h.resting, fun _ => ha, h.reminder, h.backlog⟩

theorem receiptFree_shape : ReceiptFree (fun _ e => e.Shape) := fun _ _ r h => shape_receipt h r

theorem requestFree_shape : RequestFree (fun _ e => e.Shape) := fun _ _ h => shape_noRequest h

/-- Every entry has its shape, but the one in a slot meets another condition for the moment. -/
def butAt (i : EntrySlot) (Q : Entry → Prop) : EntrySlot → Entry → Prop :=
  fun j e => if j = i then Q e else e.Shape

theorem receiptFree_butAt (i : EntrySlot) (Q : Entry → Prop) (h : ∀ e r, Q e → Q { e with receipt := r, changed := true }) :
    ReceiptFree (butAt i Q) := by
  intro j e r q
  unfold butAt at q ⊢
  split
  · rename_i c; rw [if_pos c] at q; exact h e r q
  · rename_i c; rw [if_neg c] at q; exact shape_receipt q r

theorem requestFree_butAt (i : EntrySlot) (Q : Entry → Prop) (h : ∀ e, Q e → Q (setRequest none e)) :
    RequestFree (butAt i Q) := by
  intro j e q
  unfold butAt at q ⊢
  split
  · rename_i c; rw [if_pos c] at q; exact h e q
  · rename_i c; rw [if_neg c] at q; exact shape_noRequest q

theorem every_butAt {s : State} {i : EntrySlot} {Q : Entry → Prop} :
    s.everyEntry (butAt i Q) ↔ (∀ e, s.entryAt i = some e → Q e) ∧ ∀ j e, j ≠ i → s.entryAt j = some e → e.Shape := by
  constructor
  · intro q
    refine ⟨fun e he => ?_, fun j e hj he => ?_⟩
    · have := q i e he
      simpa [butAt] using this
    · have := q j e he
      simpa [butAt, hj] using this
  · rintro ⟨q1, q2⟩ j e he
    unfold butAt
    split
    · rename_i c; subst c; exact q1 e he
    · rename_i c; exact q2 j e c he

/-- The entry of slot `i` gets its shape back by a change. -/
theorem shaped_modEntry_butAt (i : EntrySlot) (Q : Entry → Prop) (f : Entry → Entry) (s : State)
    (hf : ∀ e, s.entryAt i = some e → Q e → (f e).Shape) (q : s.everyEntry (butAt i Q)) :
    (modEntry i f s).entriesShaped := by
  obtain ⟨q1, q2⟩ := every_butAt.1 q
  intro j e he
  rw [State.entryAt_modEntry] at he
  split at he
  · rename_i c
    subst c
    obtain ⟨e', h1, rfl⟩ := Option.map_eq_some_iff.1 he
    exact hf e' h1 (q1 e' h1)
  · rename_i c
    exact q2 j e (fun x => c x.symm) he

theorem shaped_butAt {s : State} (i : EntrySlot) (Q : Entry → Prop) (h : ∀ e, e.Shape → Q e) (q : s.entriesShaped) :
    s.everyEntry (butAt i Q) :=
  every_butAt.2 ⟨fun e he => h e (q i e he), fun j e _ he => q j e he⟩

theorem shaped_modEntry (i : EntrySlot) (f : Entry → Entry) (s : State)
    (hf : ∀ e, s.entryAt i = some e → e.Shape → (f e).Shape) (q : s.entriesShaped) : (modEntry i f s).entriesShaped :=
  every_modEntry i f s hf q

theorem shaped_raiseAlert (i : EntrySlot) (s : State) (ha : ∀ e, s.entryAt i = some e → e.state = .active)
    (q : s.entriesShaped) : (raiseAlert i s).entriesShaped :=
  every_raiseAlert i s (fun e r he h => shape_request h (ha e he) (some r)) q

theorem shaped_retrigger (i : EntrySlot) (s : State) (ha : ∀ e, s.entryAt i = some e → e.state = .active)
    (q : s.entriesShaped) : (retrigger i s).entriesShaped :=
  every_retrigger i s (fun e r he h => shape_request h (ha e he) (some r)) q

/-! ### Completion -/

/-- The entry of a slot just after its content was exchanged (R96): everything a complete entry has, its state not yet
moved from the one before. -/
structure Exchanged (before : EntryState) (e : Entry) : Prop where
  state : e.state = before
  current : e.current.isSome = true
  incoming : e.incoming = none
  cancel : e.cancel = none
  area : e.area.isSome = true
  hold : e.hold.isSome = decide (before = .held)
  expiry : e.expiry.isSome = true
  resting : e.restingAt.isSome = before.resting
  request : e.request ≠ none → before = .active
  reminder : e.nextReminder ≠ none → before = .active
  backlog : e.backlog ≤ 2

theorem exchanged_of_shape {e : Entry} (h : e.Shape) (hc : e.state ≠ .cancelled) (c : Content) (g : Governing)
    (r : AreaResult) (now : Nat) : Exchanged e.state (exchangeContent c g r now e) := by
  refine ⟨rfl, rfl, rfl, ?_, rfl, h.hold, rfl, h.resting, h.request, h.reminder, h.backlog⟩
  have := h.cancel
  show e.cancel = none
  simpa [hc] using this

theorem shape_present {b : EntryState} {e : Entry} (h : Exchanged b e) : (presentEntry e).Shape := by
  refine ⟨h.current, ?_, ?_, ?_, h.area, rfl, h.expiry, rfl, fun _ => rfl, ?_, Nat.zero_le _⟩
  · intro c; cases c
  · intro c; cases c
  · show e.cancel.isSome = false
    rw [h.cancel]; rfl
  · intro c; exact absurd rfl c

theorem shape_hold {b : EntryState} {e : Entry} (h : Exchanged b e) (hb : b ≠ .active) (x : HoldReason) (now : Nat) :
    (holdEntry x now e).Shape := by
  refine ⟨h.current, ?_, ?_, ?_, h.area, rfl, h.expiry, rfl, ?_, ?_, h.backlog⟩
  · intro c; cases c
  · intro c; cases c
  · show e.cancel.isSome = false
    rw [h.cancel]; rfl
  · intro c; exact absurd (h.request c) hb
  · intro c; exact absurd (h.reminder c) hb

theorem exchanged_reset {b : EntryState} {e : Entry} (h : Exchanged b e) : Exchanged b (resetReminders e) :=
  ⟨h.state, h.current, h.incoming, h.cancel, h.area, h.hold, h.expiry, h.resting, h.request, fun c => absurd rfl c,
    Nat.zero_le _⟩

theorem shape_active {e : Entry} (h : Exchanged .active e) : e.Shape := by
  obtain ⟨h1, h2, h3, h4, h5, h6, h7, h8, h9, h10, h11⟩ := h
  refine ⟨by rw [h2, h1]; rfl, ?_, ?_, ?_, by rw [h5, h1]; rfl, by rw [h6, h1], by rw [h7, h1]; rfl, by rw [h8, h1],
    fun c => h1, fun c => h1, h11⟩
  · intro c; rw [h1] at c; cases c
  · intro c; rw [h1] at c; cases c
  · rw [h4, h1]; rfl

theorem shaped_settle (i : EntrySlot) (b : EntryState) (v : Verdict) (s : State) (hb : b ≠ .cancelled)
    (q : s.everyEntry (butAt i (Exchanged b))) : (settleCompletion i b v s).entriesShaped := by
  have present : (raiseAlert i (modEntry i presentEntry s)).entriesShaped := by
    refine shaped_raiseAlert i _ ?_ (shaped_modEntry_butAt i _ _ s (fun e _ h => shape_present h) q)
    intro e he
    rw [State.entryAt_modEntry_same] at he
    obtain ⟨e', _, rfl⟩ := Option.map_eq_some_iff.1 he
    rfl
  cases b with
  | assembling =>
    simp only [settleCompletion]
    split
    · exact present
    · exact shaped_modEntry_butAt i _ _ s (fun e _ h => shape_hold (exchanged_reset h) (by decide) _ _) q
  | active =>
    simp only [settleCompletion]
    have a : (retrigger i (modEntry i resetReminders s)).entriesShaped := by
      refine shaped_retrigger i _ ?_ (shaped_modEntry_butAt i _ _ s (fun e _ h => shape_active (exchanged_reset h)) q)
      intro e he
      rw [State.entryAt_modEntry_same] at he
      obtain ⟨e', h', rfl⟩ := Option.map_eq_some_iff.1 he
      exact ((every_butAt.1 q).1 e' h').state
    exact a
  | held =>
    simp only [settleCompletion]
    split
    · exact present
    · exact shaped_modEntry_butAt i _ _ s (fun e _ h => shape_hold (exchanged_reset h) (by decide) _ _) q
  | acknowledged =>
    simp only [settleCompletion]
    split
    · exact present
    · exact shaped_modEntry_butAt i _ _ s (fun e _ h => shape_hold (exchanged_reset h) (by decide) _ _) q
  | cancelled => exact absurd rfl hb

theorem shaped_complete (i : EntrySlot) (g : Governing) (s : State) (q : s.entriesShaped) :
    (complete i g s).entriesShaped := by
  unfold complete
  split
  · exact q
  · rename_i e he
    split
    · exact q
    · rename_i inc hi
      split
      · exact q
      · have hc : e.state ≠ .cancelled := by
          intro c
          have := (q i e he).cancelled c
          rw [hi] at this
          cases this
        refine shaped_settle i e.state _ _ hc ?_
        refine every_butAt.2 ⟨fun x hx => ?_, fun j x hj hx => ?_⟩
        · rw [State.entryAt_modEntry_same] at hx
          obtain ⟨x', h', rfl⟩ := Option.map_eq_some_iff.1 hx
          have : x' = e := by
            have h'' : s.entryAt i = some x' := h'
            rw [he] at h''
            exact (Option.some.inj h'').symm
          subst this
          exact exchanged_of_shape (q i x' he) hc _ _ _ _
        · rw [State.entryAt_modEntry, if_neg (fun c => hj c.symm)] at hx
          exact q j x hx

/-! ### ISSUE pages -/

/-- An entry with everything its state asks for but an incoming revision: what a part may be started on. -/
structure Startable (e : Entry) : Prop where
  current : e.current.isSome = e.state.complete
  live : e.state ≠ .cancelled
  cancel : e.cancel = none
  area : e.area.isSome = e.state.complete
  hold : e.hold.isSome = decide (e.state = .held)
  expiry : e.expiry.isSome = !decide (e.state = .assembling)
  resting : e.restingAt.isSome = e.state.resting
  request : e.request ≠ none → e.state = .active
  reminder : e.nextReminder ≠ none → e.state = .active
  backlog : e.backlog ≤ 2

theorem startable_of_shape {e : Entry} (h : e.Shape) (hc : e.state ≠ .cancelled) : Startable e := by
  refine ⟨h.current, hc, ?_, h.area, h.hold, h.expiry, h.resting, h.request, h.reminder, h.backlog⟩
  have := h.cancel
  simpa [hc] using this

theorem startable_receipt (e : Entry) (r : ReceiptState) (h : Startable e) :
    Startable { e with receipt := r, changed := true } :=
  ⟨h.current, h.live, h.cancel, h.area, h.hold, h.expiry, h.resting, h.request, h.reminder, h.backlog⟩

theorem startable_noRequest (e : Entry) (h : Startable e) : Startable (setRequest none e) :=
  ⟨h.current, h.live, h.cancel, h.area, h.hold, h.expiry, h.resting, fun c => absurd rfl c, h.reminder, h.backlog⟩

theorem shape_started {e : Entry} (h : Startable e) (inc : Incoming) : ({ e with incoming := some inc } : Entry).Shape := by
  refine ⟨h.current, fun _ => rfl, fun c => absurd c h.live, ?_, h.area, h.hold, h.expiry, h.resting, h.request, h.reminder,
    h.backlog⟩
  show e.cancel.isSome = decide (e.state = .cancelled)
  rw [h.cancel]
  simp [h.live]

theorem shaped_startRevision (i : EntrySlot) (p : Page) (g : Governing) (s : State) {x : State × Disposition}
    (h : startRevision i p g s = some x) (q : s.everyEntry (butAt i Startable)) : x.1.entriesShaped := by
  unfold startRevision at h
  split at h
  · cases h
  · rename_i t ht
    have a := every_takeSegment (receiptFree_butAt i _ startable_receipt) (requestFree_butAt i _ startable_noRequest)
      _ _ _ _ _ _ ht q
    have b : (modEntry i (fun e => { e with incoming := some (startedRevision p g t.now) }) t).entriesShaped :=
      shaped_modEntry_butAt i _ _ t (fun e _ h => shape_started h _) a
    dsimp only at h
    split at h
    · cases h; exact shaped_complete i g _ b
    · cases h; exact b

theorem shaped_orFull (s : State) (r : Option (State × Disposition)) (q : s.entriesShaped)
    (h : ∀ x, r = some x → x.1.entriesShaped) : (orFull s r).1.entriesShaped := by
  cases r with
  | none => exact q
  | some x => exact h x rfl

theorem shaped_storePart (i : EntrySlot) (inc : Incoming) (p : Page) (g : Governing) (s : State)
    (hl : ∀ e, s.entryAt i = some e → e.state ≠ .cancelled) (q : s.entriesShaped) :
    (storePart i inc p g s).1.entriesShaped := by
  unfold storePart
  split
  · exact q
  · split
    · exact q
    · refine shaped_orFull _ _ q (fun x hx => ?_)
      obtain ⟨t, ht, rfl⟩ := Option.map_eq_some_iff.1 hx
      have q' : s.everyEntry (butAt i Startable) :=
        every_butAt.2 ⟨fun e he => startable_of_shape (q i e he) (hl e he), fun j e _ he => q j e he⟩
      have a := every_takeSegment (receiptFree_butAt i _ startable_receipt) (requestFree_butAt i _ startable_noRequest)
        _ _ _ _ _ _ ht q'
      have b : (modEntry i (fun e => { e with incoming := some (joinPart p inc) }) t).entriesShaped :=
        shaped_modEntry_butAt i _ _ t (fun e _ h => shape_started h _) a
      dsimp only
      split
      · exact shaped_complete i g _ b
      · exact b

theorem startable_dropped (i : EntrySlot) (s : State) (hl : ∀ e, s.entryAt i = some e → e.state ≠ .cancelled)
    (q : s.entriesShaped) : (dropIncoming i s).everyEntry (butAt i Startable) := by
  refine every_butAt.2 ⟨fun e he => ?_, fun j e hj he => ?_⟩
  · unfold dropIncoming at he
    rw [State.entryAt_modEntry_same] at he
    obtain ⟨e', h', rfl⟩ := Option.map_eq_some_iff.1 he
    have h := startable_of_shape (q i e' h') (hl e' h')
    exact ⟨h.current, h.live, h.cancel, h.area, h.hold, h.expiry, h.resting, h.request, h.reminder, h.backlog⟩
  · unfold dropIncoming at he
    rw [State.entryAt_modEntry, if_neg (fun c => hj c.symm)] at he
    exact q j e he

theorem shaped_issueAtLive (i : EntrySlot) (e : Entry) (p : Page) (g : Governing) (s : State)
    (he : s.entryAt i = some e) (hc : e.state ≠ .cancelled) (q : s.entriesShaped) :
    (issueAtLive i e p g s).1.entriesShaped := by
  have hl : ∀ x, s.entryAt i = some x → x.state ≠ .cancelled := by
    intro x hx
    rw [he] at hx
    cases hx
    exact hc
  unfold issueAtLive
  dsimp only
  split
  · split
    · exact shaped_storePart _ _ _ _ _ hl q
    · split
      · exact q
      · split
        · exact shaped_orFull _ _ q (fun x hx => shaped_startRevision _ _ _ _ hx (startable_dropped i s hl q))
        · exact q
  · split
    · exact q
    · split
      · refine shaped_orFull _ _ q (fun x hx => shaped_startRevision _ _ _ _ hx ?_)
        exact every_butAt.2 ⟨fun x hx => startable_of_shape (q i x hx) (hl x hx), fun j x _ hx => q j x hx⟩
      · exact q

/-! ### CANCEL pages, tombstones, misses -/

theorem shape_cancel {e : Entry} (hr : e.request = none) (p : Page) (g : Governing) (now : Nat) :
    (cancelEntry p g now e).Shape := by
  refine ⟨rfl, ?_, fun _ => rfl, rfl, rfl, rfl, rfl, rfl, ?_, ?_, Nat.zero_le _⟩
  · intro c; cases c
  · intro c; exact absurd hr c
  · intro c; exact absurd rfl c

theorem shaped_takeCancel (i : EntrySlot) (p : Page) (g : Governing) (s : State) (q : s.entriesShaped) :
    (takeCancel i p g s).entriesShaped := by
  unfold takeCancel
  have a : (releaseAll i (dropRequest i s)).entriesShaped := every_dropRequest requestFree_shape i s q
  have b : (modEntry i (cancelEntry p g s.now) (releaseAll i (dropRequest i s))).entriesShaped := by
    refine shaped_modEntry i _ _ (fun e he _ => shape_cancel ?_ _ _ _) a
    have he' : (dropRequest i s).entryAt i = some e := he
    rw [entryAt_dropRequest, State.entryAt_modEntry_same] at he'
    obtain ⟨e', _, rfl⟩ := Option.map_eq_some_iff.1 he'
    rfl
  exact b

theorem shape_recancel {e : Entry} (h : e.Shape) (hc : e.state = .cancelled) (k : CancelMark) :
    ({ e with cancel := some k, changed := true } : Entry).Shape := by
  refine ⟨h.current, h.assembling, h.cancelled, ?_, h.area, h.hold, h.expiry, h.resting, h.request, h.reminder, h.backlog⟩
  simp [hc]

theorem startable_revive {e : Entry} (h : e.Shape) (hc : e.state = .cancelled) (g : Governing) (now : Nat) :
    Startable (reviveEntry g now e) := by
  refine ⟨?_, by simp [reviveEntry], rfl, ?_, ?_, rfl, rfl, ?_, ?_, h.backlog⟩
  · show e.current.isSome = false
    rw [h.current, hc]; rfl
  · show e.area.isSome = false
    rw [h.area, hc]; rfl
  · show e.hold.isSome = false
    rw [h.hold, hc]; rfl
  · intro c
    have := h.request c
    rw [hc] at this
    cases this
  · intro c
    have := h.reminder c
    rw [hc] at this
    cases this

theorem shaped_workHit (i : EntrySlot) (e : Entry) (p : Page) (g : Governing) (s : State) (he : s.entryAt i = some e)
    (q : s.entriesShaped) : (workHit i e p g s).1.entriesShaped := by
  have hcan := (q i e he).cancel
  unfold workHit
  split
  · rename_i hn
    exact shaped_issueAtLive i e p g s he (fun c => by rw [hn, c] at hcan; simp at hcan) q
  · unfold cancelAtLive
    dsimp only
    split
    · exact q
    · split
      · exact shaped_takeCancel _ _ _ _ q
      · exact q
  · rename_i k hk
    have hc : e.state = .cancelled := by rw [hk] at hcan; simpa using hcan.symm
    unfold issueAtTombstone
    split
    · exact q
    · split
      · refine shaped_orFull _ _ q (fun x hx => shaped_startRevision _ _ _ _ hx ?_)
        refine every_butAt.2 ⟨fun x hx => ?_, fun j x hj hx => ?_⟩
        · rw [State.entryAt_modEntry_same] at hx
          obtain ⟨x', h', rfl⟩ := Option.map_eq_some_iff.1 hx
          rw [he] at h'
          cases h'
          exact startable_revive (q i e he) hc _ _
        · rw [State.entryAt_modEntry, if_neg (fun c => hj c.symm)] at hx
          exact q j x hx
      · exact q
  · rename_i k hk
    have hc : e.state = .cancelled := by rw [hk] at hcan; simpa using hcan.symm
    unfold cancelAtTombstone
    split
    · exact q
    · split
      · refine shaped_modEntry i _ s (fun x hx h => shape_recancel h ?_ _) q
        rw [he] at hx
        cases hx
        exact hc
      · exact q

theorem entryAt_placeEntry (i j : EntrySlot) (e : Entry) (s : State) :
    (placeEntry i e s).entryAt j = if i = j then some e else s.entryAt j := by
  unfold placeEntry reportOccupancy
  show (s.putEntry i (some e)).entryAt j = _
  rw [State.entryAt_putEntry]

theorem startable_newEntry (p : Page) (g : Governing) (now : Nat) : Startable (newEntry p g now) :=
  ⟨rfl, by simp [newEntry], rfl, rfl, rfl, rfl, rfl, fun c => absurd rfl c, fun c => absurd rfl c, Nat.zero_le _⟩

theorem shape_newTombstone (p : Page) (g : Governing) (now : Nat) : (newTombstone p g now).Shape := by
  refine ⟨rfl, ?_, fun _ => rfl, rfl, rfl, rfl, rfl, rfl, fun c => absurd rfl c, fun c => absurd rfl c, Nat.zero_le _⟩
  intro c; cases c

theorem shaped_workMiss (p : Page) (g : Governing) (s : State) (q : s.entriesShaped) :
    (workMiss p g s).1.entriesShaped := by
  unfold workMiss
  split
  · exact q
  · rename_i i t ht
    have a : t.entriesShaped := every_allocate receiptFree_shape requestFree_shape _ _ ht q
    split
    · dsimp only
      split
      · intro j e he
        rw [State.entryAt_putEntry] at he
        split at he
        · cases he
        · rename_i c
          rw [entryAt_placeEntry, if_neg c] at he
          exact a j e he
      · rename_i r hr
        refine shaped_startRevision _ _ _ _ hr (every_butAt.2 ⟨fun e he => ?_, fun j e hj he => ?_⟩)
        · rw [entryAt_placeEntry, if_pos rfl] at he
          cases he
          exact startable_newEntry _ _ _
        · rw [entryAt_placeEntry, if_neg (fun c => hj c.symm)] at he
          exact a j e he
    · intro j e he
      have he' : (placeEntry i (newTombstone p g t.now) t).entryAt j = some e := he
      rw [entryAt_placeEntry] at he'
      split at he'
      · cases he'; exact shape_newTombstone _ _ _
      · exact a j e he'

theorem shape_joinLink {e : Entry} (h : e.Shape) (l : LinkId) : (joinLink l e).Shape :=
  ⟨h.current, h.assembling, h.cancelled, h.cancel, h.area, h.hold, h.expiry, h.resting, h.request, h.reminder, h.backlog⟩

theorem entryOfKey_spec {s : State} {k : Key} {i : EntrySlot} {e : Entry} (h : s.entryOfKey k = some (i, e)) :
    s.entryAt i = some e ∧ e.key = k := by
  unfold State.entryOfKey at h
  obtain ⟨j, _, hj⟩ := List.exists_of_findSome?_eq_some h
  obtain ⟨x, hx, hxe⟩ := Option.map_eq_some_iff.1 hj
  simp only [Prod.mk.injEq] at hxe
  rw [Option.filter_eq_some_iff] at hx
  obtain ⟨rfl, rfl⟩ := hxe
  exact ⟨hx.1, by simpa using hx.2⟩

/-- A judged page leaves every entry with the shape of its state (R65). -/
theorem shaped_workPage (p : Page) (g : Governing) (s : State) (q : s.entriesShaped) :
    (workPage p g s).1.entriesShaped := by
  unfold workPage
  split
  · rename_i i e h
    have a := shaped_workHit i e p g s (entryOfKey_spec h).1 q
    unfold joinUnlessFull
    split
    · exact a
    · exact shaped_modEntry i _ _ (fun x _ hx => shape_joinLink hx _) a
  · split
    · exact shaped_workMiss _ _ _ q
    · split
      · exact shaped_workMiss p g (unretire (pageKey p) s) q
      · exact q

/-! ### The profile unit and the links -/

theorem dir_freeSlot (l : LinkId) (k : PageSlot) (s : State) : (freeSlot l k s).dir = s.dir := dir_modLink _ _ _

theorem dir_dispose (l : LinkId) (k : PageSlot) (d : Disposition) (s : State) : (dispose l k d s).dir = s.dir := by
  have a : (postIfFull d (countLink l (countCode d) s)).dir = s.dir := by
    unfold postIfFull
    split
    · rw [State.dir_post, State.dir_countLink]
    · rw [State.dir_countLink]
  unfold dispose
  split
  · rfl
  · dsimp only
    rw [dir_freeSlot]
    split
    · exact (dir_modLink _ _ _).trans a
    · exact a

theorem shaped_judgeUnder (b : Bool) (f : Profile) (l : LinkId) (k : PageSlot) (s : State) (q : s.entriesShaped) :
    (judgeUnder b f l k s).entriesShaped := by
  unfold judgeUnder
  split
  · exact q
  · split
    · exact every_of_dir (dir_dispose _ _ _ _) q
    · exact every_of_dir (dir_dispose _ _ _ _) (shaped_workPage _ _ _ q)

theorem shaped_judge (f : Option Profile) (l : LinkId) (k : PageSlot) (s : State) (q : s.entriesShaped) :
    (judge f l k s).entriesShaped := by
  unfold judge
  split
  · exact shaped_judgeUnder _ _ _ _ _ q
  · exact shaped_judgeUnder true fallbackProfile l k (noteFallback s) q

theorem dir_startLoad (s : State) : (startLoad s).dir = s.dir := by
  unfold startLoad
  split
  · rfl
  · split <;> rfl

theorem dir_requestLoad (n : Nat) (s : State) : (requestLoad n s).dir = s.dir := by
  unfold requestLoad
  split
  · rfl
  · split
    · rw [dir_startLoad]; rfl
    · rfl

theorem shaped_handOn (l : LinkId) (k : PageSlot) (p : Page) (s : State) (q : s.entriesShaped) :
    (handOn l k p s).entriesShaped := by
  unfold handOn
  split
  · rename_i c _
    exact shaped_judge _ _ _ (useCache c s) q
  · split
    · exact every_of_dir (dir_requestLoad _ (parkPage l k p.arrival s)) q
    · exact shaped_judge _ _ _ _ q

theorem dir_subscribeIfWaiting (n : Nat) (f : Option Profile) (l : LinkId) (s : State) :
    (subscribeIfWaiting n f l s).dir = s.dir := by
  unfold subscribeIfWaiting
  split
  · exact (dir_modLink _ _ _).trans (dir_modLink _ _ _)
  · rfl

theorem shaped_completeLoad (n : Nat) (b : List Byte) (s : State) (q : s.entriesShaped) :
    (completeLoad n b s).entriesShaped := by
  unfold completeLoad
  dsimp only
  refine every_of_dir (dir_startLoad _) ?_
  have a : (releaseWaiting n (judgeRecord n b)
      (countLoad (judgeRecord n b) (install ⟨n, judgeRecord n b⟩ (endLoad n s)))).entriesShaped :=
    preserved_foldl State.entriesShaped _ (fun u (w : WaitingPage) => shaped_judge _ w.link w.slot u) _ _ q
  have c := every_of_dir (dir_subscribeIfWaiting n (judgeRecord n b) .lb _)
    (every_of_dir (dir_subscribeIfWaiting n (judgeRecord n b) .la _) a)
  split
  · exact c
  · exact c

theorem dir_requestServing (l : LinkId) (s : State) : (requestServing l s).dir = s.dir := by
  unfold requestServing
  split
  · split
    · rfl
    · exact (dir_modLink _ _ _).trans (dir_requestLoad _ _)
  · rfl

theorem dir_abandonIfLoading (s : State) : (abandonIfLoading s).dir = s.dir := by
  unfold abandonIfLoading
  split <;> rfl

theorem dir_flushProfiles (s : State) : (flushProfiles s).dir = s.dir := by
  unfold flushProfiles requestServingRegions
  rw [dir_startLoad, dir_requestServing, dir_requestServing, dir_abandonIfLoading]
  rfl

theorem dir_yieldStore (s : State) : (yieldStore s).dir = s.dir := by
  show (abandonIfLoading s).dir = s.dir
  exact dir_abandonIfLoading s

theorem dir_returnStore (s : State) : (returnStore s).dir = s.dir := by
  unfold returnStore requestServingRegions
  rw [dir_startLoad]
  show (requestServing .lb (requestServing .la (emptyCache (drivePins s)))).dir = s.dir
  rw [dir_requestServing, dir_requestServing]
  rfl

theorem every_enterUp {Q : EntrySlot → Entry → Prop} (hQ : ReceiptFree Q) (l : LinkId) (s : State)
    (q : s.everyEntry Q) : (enterUp l s).everyEntry Q := by
  unfold enterUp
  refine every_offer hQ _ _ ?_
  have a : (modLink l openedLink s).everyEntry Q := every_of_dir (dir_modLink _ _ _) q
  exact a

theorem every_openLink {Q : EntrySlot → Entry → Prop} (hQ : ReceiptFree Q) (l : LinkId) (s : State)
    (q : s.everyEntry Q) : (openLink l s).everyEntry Q := by
  unfold openLink
  split
  · exact every_enterUp hQ _ _ (every_refuseOutstanding hQ _ _ (every_of_dir (dir_modLink _ _ _) q))
  · exact every_enterUp hQ _ _ q

theorem every_leaveUp {Q : EntrySlot → Entry → Prop} (hQ : ReceiptFree Q) (l : LinkId) (x : LinkState) (s : State)
    (q : s.everyEntry Q) : (leaveUp l x s).everyEntry Q := by
  have a := every_refuseOutstanding hQ l (modLink l (closedLink x) s) (every_of_dir (dir_modLink _ _ _) q)
  exact a

theorem every_faultLink {Q : EntrySlot → Entry → Prop} (hQ : ReceiptFree Q) (l : LinkId) (k : FaultKind) (f : FrameKind)
    (s : State) (q : s.everyEntry Q) : (faultLink l k f s).everyEntry Q := by
  have a := every_leaveUp hQ l .faulted (recordFault l k f s) (every_of_dir (dir_modLink _ _ _) q)
  have b : (startQuarantine l (leaveUp l .faulted (recordFault l k f s))).everyEntry Q :=
    every_of_dir (dir_modLink _ _ _) a
  unfold faultLink
  refine every_of_entries (fun i => ?_) b
  simp only [State.entryAt, State.dir_post, State.dir_countLink]

theorem every_settleResult {Q : EntrySlot → Entry → Prop} (hQ : ReceiptFree Q) (l : LinkId) (id : ReceiptId) (b : Bool)
    (s : State) (q : s.everyEntry Q) : (settleResult l id b s).everyEntry Q := by
  have c : (clearOutstanding l s).everyEntry Q := every_of_dir (dir_modLink _ _ _) q
  unfold settleResult
  split
  · split
    · exact c
    · split
      · exact every_receiptSent hQ _ _ c
      · exact every_refuse hQ _ _ c
  · exact q

theorem dir_deriveSubscription (l : LinkId) (n : Nat) (s : State) : (deriveSubscription l n s).dir = s.dir := by
  unfold deriveSubscription
  dsimp only
  split
  · simp [enqueue, useCache, setSubWaiting]
  · rw [dir_requestLoad]
    simp [enqueue, setSubWaiting]

theorem dir_takeServing (l : LinkId) (v : Serving) (s : State) : (takeServing l v s).dir = s.dir := by
  have a : (servingTrigger (modLink l (fun k => { k with serving := v }) s)).dir = s.dir := by
    unfold servingTrigger trigger
    rw [State.dir_setArea, dir_modLink]
  unfold takeServing
  dsimp only
  split
  · exact (dir_modLink _ _ _).trans a
  · split
    · exact a
    · rw [dir_deriveSubscription, a]

/-! ### The directory's and the arbiter's own commands -/

theorem shape_dropIncoming {e : Entry} (h : e.Shape) (hs : e.state ≠ .assembling) :
    ({ e with incoming := none } : Entry).Shape :=
  ⟨h.current, fun c => absurd c hs, fun _ => rfl, h.cancel, h.area, h.hold, h.expiry, h.resting, h.request, h.reminder,
    h.backlog⟩

theorem shaped_departEntry (i : EntrySlot) (s : State) (q : s.entriesShaped) : (departEntry i s).entriesShaped :=
  every_departEntry receiptFree_shape requestFree_shape i s q

theorem shaped_expireEntry (i : EntrySlot) (s : State) (q : s.entriesShaped) : (expireEntry i s).entriesShaped :=
  shaped_departEntry i (retireEntry i _ s) (every_of_entries (entryAt_retireEntry i · _ s) q)

theorem shape_heard {e : Entry} (h : e.Shape) (hr : e.state = .active) (now : Nat) (k : RequestKind) :
    (heardEntry now k (setRequest none e)).Shape := by
  cases k
  · simp only [heardEntry, startReminders]
    split
    · exact ⟨h.current, h.assembling, h.cancelled, h.cancel, h.area, h.hold, h.expiry, h.resting, fun c => absurd rfl c,
        fun _ => hr, h.backlog⟩
    · exact ⟨h.current, h.assembling, h.cancelled, h.cancel, h.area, h.hold, h.expiry, h.resting, fun c => absurd rfl c,
        h.reminder, h.backlog⟩
  · exact ⟨h.current, h.assembling, h.cancelled, h.cancel, h.area, h.hold, h.expiry, h.resting, fun c => absurd rfl c,
        fun _ => hr, Nat.zero_le _⟩

theorem shaped_hearRequest (i : EntrySlot) (k : RequestKind) (s : State)
    (ha : ∀ e, s.entryAt i = some e → e.state = .active) (q : s.entriesShaped) : (hearRequest i k s).entriesShaped :=
  shaped_modEntry i _ s (fun e he h => shape_heard h (ha e he) _ _) q

theorem named_entryAt {s : State} {h : Handle} {e : Entry} (x : s.named h = some e) : s.entryAt h.slot = some e := by
  unfold State.named at x
  split at x
  · exact x
  · cases x

theorem playingRequest_spec {s : State} {p : Play} {e : Entry} {r : Request} (h : s.playingRequest = some (p, e, r)) :
    s.arb.play = some p ∧ s.named p.handle = some e ∧ e.request = some r := by
  unfold State.playingRequest State.playing at h
  cases hp : s.arb.play with
  | none => rw [hp] at h; cases h
  | some p' =>
    rw [hp] at h
    dsimp only at h
    cases hn : s.named p'.handle with
    | none => rw [hn] at h; cases h
    | some e' =>
      rw [hn] at h
      simp only [Option.map_some] at h
      obtain ⟨r', hr, hx⟩ := Option.map_eq_some_iff.1 h
      simp only [Prod.mk.injEq] at hx
      obtain ⟨rfl, rfl, rfl⟩ := hx
      exact ⟨rfl, hn, hr⟩

theorem playing_active {s : State} {p : Play} {e : Entry} {r : Request} (q : s.entriesShaped)
    (h : s.playingRequest = some (p, e, r)) : ∀ x, s.entryAt p.handle.slot = some x → x.state = .active := by
  obtain ⟨_, h2, h3⟩ := playingRequest_spec h
  intro x hx
  rw [named_entryAt h2] at hx
  cases hx
  exact (q _ _ (named_entryAt h2)).request (by rw [h3]; simp)

theorem shaped_finishPlay (p : Play) (r : Request) (s : State)
    (ha : ∀ e, s.entryAt p.handle.slot = some e → e.state = .active) (q : s.entriesShaped) :
    (finishPlay p r s).entriesShaped := by
  unfold finishPlay
  exact every_of_entries (fun i => (entryAt_select _ i).trans (entryAt_setArb _ _ i)) (shaped_hearRequest _ _ _ ha q)

theorem entryAt_preempt (s : State) (i : EntrySlot) : (preempt s).entryAt i = s.entryAt i :=
  (entryAt_select _ i).trans (entryAt_setArb _ _ i)

theorem entryAt_yieldTurn (p : Play) (r : Request) (s : State) (i : EntrySlot) :
    (yieldTurn p r s).entryAt i = s.entryAt i :=
  (entryAt_selectFrom _ _ i).trans (entryAt_setArb _ _ i)

theorem waitingRequest_spec {s : State} {i : EntrySlot} {r : Request} (h : s.waitingRequest i = some r) :
    ∃ e, s.entryAt i = some e ∧ e.request = some r := by
  unfold State.waitingRequest at h
  split at h
  · cases h
  · rename_i e he
    split at h
    · cases h
    · exact ⟨e, he, h⟩

theorem waiting_active {s : State} {i : EntrySlot} {r : Request} (q : s.entriesShaped) (h : s.waitingRequest i = some r) :
    ∀ x, s.entryAt i = some x → x.state = .active := by
  obtain ⟨e, h1, h2⟩ := waitingRequest_spec h
  intro x hx
  rw [h1] at hx
  cases hx
  exact (q i e h1).request (by rw [h2]; simp)

theorem shaped_silenceWaiting (i : EntrySlot) (s : State) (q : s.entriesShaped) : (silenceWaiting i s).entriesShaped := by
  unfold silenceWaiting
  split
  · exact q
  · split
    · exact q
    · rename_i r hr
      have ha := waiting_active q hr
      split
      · exact shaped_modEntry i _ s (fun e he h => shape_request h (ha e he) _) q
      · exact shaped_hearRequest _ _ _ ha q

theorem shaped_silenceAll (s : State) (q : s.entriesShaped) : (silenceAll s).entriesShaped := by
  have a := preserved_foldl State.entriesShaped (fun t i => silenceWaiting i t)
    (fun t i h => shaped_silenceWaiting i t h) entrySlotList s q
  unfold silenceAll silencePlaying
  split
  · exact a
  · rename_i p e r h
    have ha := playing_active a h
    split
    · exact shaped_modEntry _ _ _ (fun e he h => shape_request h (ha e he) _) a
    · exact shaped_finishPlay _ _ _ ha a

theorem shaped_arbiterMeets (old : Settings) (s : State) (q : s.entriesShaped) : (arbiterMeets old s).entriesShaped := by
  have hw : ∀ t i, t.entriesShaped → (silencedWaitingEnd i t).entriesShaped := by
    intro t i h
    unfold silencedWaitingEnd
    split
    · exact h
    · rename_i r hr
      split
      · exact shaped_hearRequest _ _ _ (waiting_active h hr) h
      · exact h
  have hp : ∀ t, t.entriesShaped → (silencedPlayingEnd t).entriesShaped := by
    intro t h
    unfold silencedPlayingEnd
    split
    · exact h
    · rename_i p e r hr
      split
      · exact shaped_finishPlay _ _ _ (playing_active h hr) h
      · exact h
  have hc : ∀ t, t.entriesShaped → (comparePlay t).entriesShaped := by
    intro t h
    unfold comparePlay
    split
    · exact h
    · split
      · exact every_of_entries (entryAt_preempt t) h
      · split
        · exact every_of_entries (entryAt_yieldTurn _ _ t) h
        · exact h
  have a : (silencedPlayingEnd (entrySlotList.foldl (fun t i => silencedWaitingEnd i t) s)).entriesShaped :=
    hp _ (preserved_foldl State.entriesShaped (fun t i => silencedWaitingEnd i t) hw _ _ q)
  by_cases h : s.host.settings.minimumPlay < old.minimumPlay
  · simp only [arbiterMeets, if_pos h]
    split
    · exact hc _ a
    · exact a
  · simp only [arbiterMeets, if_neg h]
    split
    · exact hc _ q
    · exact q

theorem shape_remind {e : Entry} (h : e.Shape) (ha : e.state = .active) (now : Nat) : (reminderFallsDue now e).Shape :=
  ⟨h.current, h.assembling, h.cancelled, h.cancel, h.area, h.hold, h.expiry, h.resting, h.request, fun _ => ha,
    Nat.min_le_right _ _⟩

theorem shape_escalate {e : Entry} (h : e.Shape) : (escalateEntry e).Shape := by
  unfold escalateEntry
  split
  · exact h
  · rename_i r hr
    split
    · exact h
    · exact shape_request h (h.request (by rw [hr]; simp)) _

theorem shaped_raiseReminder (i : EntrySlot) (s : State) (ha : ∀ e, s.entryAt i = some e → e.state = .active)
    (q : s.entriesShaped) : (raiseReminder i s).entriesShaped := by
  unfold raiseReminder
  split
  · exact q
  · split
    · exact q
    · exact every_of_entries (entryAt_selectIfIdle _) (shaped_modEntry i _ s (fun e he h => shape_request h (ha e he) _) q)

theorem shaped_remind (i : EntrySlot) (s : State) (ha : ∀ e, s.entryAt i = some e → e.state = .active)
    (q : s.entriesShaped) : (remind i s).entriesShaped := by
  have a : (modEntry i (reminderFallsDue s.now) s).entriesShaped :=
    shaped_modEntry i _ s (fun e he h => shape_remind h (ha e he) _) q
  have b : (raiseReminder i (modEntry i (reminderFallsDue s.now) s)).entriesShaped := by
    refine shaped_raiseReminder i _ ?_ a
    intro e he
    rw [State.entryAt_modEntry_same] at he
    obtain ⟨e', h', rfl⟩ := Option.map_eq_some_iff.1 he
    exact ha e' h'
  unfold remind
  dsimp only
  split
  · exact b
  · split
    · exact shaped_modEntry i _ _ (fun e _ h => shape_escalate h) b
    · exact b

theorem shape_recordArea {e : Entry} (h : e.Shape) (hc : e.state.complete = true) (r : AreaResult) : (recordArea r e).Shape :=
  ⟨h.current, h.assembling, h.cancelled, h.cancel, by rw [show (recordArea r e).state = e.state from rfl, hc]; rfl, h.hold,
    h.expiry, h.resting, h.request, h.reminder, h.backlog⟩

theorem shaped_redecideEntry (i : EntrySlot) (e : Entry) (s : State) (he : s.entryAt i = some e) (hs : e.state = .held)
    (q : s.entriesShaped) : (redecideEntry i e s).entriesShaped := by
  have hx : ∀ x, s.entryAt i = some x → x.state = .held := by
    intro x hx
    rw [he] at hx
    cases hx
    exact hs
  have hp : ∀ x r, x.Shape → x.state = .held → (presentEntry (recordArea r x)).Shape := by
    intro x r h hh
    refine ⟨?_, ?_, ?_, ?_, rfl, rfl, ?_, rfl, fun _ => rfl, fun c => absurd rfl c, Nat.zero_le _⟩
    · show x.current.isSome = true
      rw [h.current, hh]; rfl
    · intro c; cases c
    · intro c; cases c
    · show x.cancel.isSome = false
      rw [h.cancel, hh]; rfl
    · show x.expiry.isSome = true
      rw [h.expiry, hh]; rfl
  have hh : ∀ x r k, x.Shape → x.state = .held → (rehold k (recordArea r x)).Shape := by
    intro x r k h hst
    have a := shape_recordArea h (by rw [hst]; rfl) r
    refine ⟨a.current, a.assembling, a.cancelled, a.cancel, a.area, ?_, a.expiry, a.resting, a.request, a.reminder,
      a.backlog⟩
    show true = decide (x.state = .held)
    rw [hst]
    rfl
  unfold redecideEntry
  dsimp only
  split
  · have a : (raiseAlert i (modEntry i (fun e' => presentEntry (recordArea
        (s.decideArea e.key.region e.cls e.areaBlock).result e')) s)).entriesShaped := by
      refine shaped_raiseAlert i _ ?_ (shaped_modEntry i _ s (fun x hx' h => hp x _ h (hx x hx')) q)
      intro x hx'
      rw [State.entryAt_modEntry_same] at hx'
      obtain ⟨e', _, rfl⟩ := Option.map_eq_some_iff.1 hx'
      rfl
    exact a
  · exact shaped_modEntry i _ s (fun x hx' h => hh x _ _ h (hx x hx')) q

/-! ### Host commands that touch entries -/

theorem shape_acknowledged {e : Entry} (h : e.Shape) (hc : e.state = .active ∨ e.state = .held) (hr : e.request = none)
    (now : Nat) : (acknowledgeEntry now e).Shape := by
  have hcomp : e.state.complete = true := by rcases hc with c | c <;> rw [c] <;> rfl
  refine ⟨?_, ?_, ?_, ?_, ?_, rfl, ?_, rfl, fun c => absurd hr c, fun c => absurd rfl c, Nat.zero_le _⟩
  · show e.current.isSome = true
    rw [h.current, hcomp]
  · intro c; cases c
  · intro c; cases c
  · show e.cancel.isSome = false
    rw [h.cancel]
    rcases hc with c | c <;> rw [c] <;> rfl
  · show e.area.isSome = true
    rw [h.area, hcomp]
  · show e.expiry.isSome = true
    rw [h.expiry]
    rcases hc with c | c <;> rw [c] <;> rfl

theorem shaped_takeAcknowledgement (i : EntrySlot) (s : State)
    (hc : ∀ e, s.entryAt i = some e → e.state = .active ∨ e.state = .held) (q : s.entriesShaped) :
    (takeAcknowledgement i s).entriesShaped := by
  have a : (dropRequest i (modEntry i (acknowledgeEntry s.now) s)).entriesShaped := by
    refine every_of_entries (s := modEntry i (fun e => acknowledgeEntry s.now (setRequest none e)) s) (fun j => ?_) ?_
    · rw [entryAt_dropRequest, modEntry_modEntry]
      rfl
    · exact shaped_modEntry i _ s (fun e he h => shape_acknowledged (shape_noRequest h) (hc e he) rfl _) q
  exact every_receiptStep receiptFree_shape i _ a

theorem shaped_acknowledgeWork (b : List Byte) (s : State) (q : s.entriesShaped) :
    (acknowledgeWork b s).1.entriesShaped := by
  unfold acknowledgeWork onHandle
  split
  · exact q
  · split
    · exact q
    · rename_i h _ _ e he
      have hx : ∀ x, s.entryAt h.slot = some x → x = e := by
        intro x hx
        rw [named_entryAt he] at hx
        exact (Option.some.inj hx).symm
      dsimp only
      split
      · rename_i hs
        exact shaped_takeAcknowledgement _ _ (fun x hx' => Or.inl (by rw [hx x hx']; exact hs)) q
      · rename_i hs
        exact shaped_takeAcknowledgement _ _ (fun x hx' => Or.inr (by rw [hx x hx']; exact hs)) q
      · exact q
      · exact q
      · exact q

theorem entryAt_clearChanged (s : State) (i : EntrySlot) :
    (clearChanged s).entryAt i = (s.entryAt i).map (fun e => { e with changed := false }) := by
  simp [clearChanged, State.entryAt, Vector.getElem_map]

theorem shaped_clearChanged (s : State) (q : s.entriesShaped) : (clearChanged s).entriesShaped := by
  intro i e he
  rw [entryAt_clearChanged] at he
  obtain ⟨x, hx, rfl⟩ := Option.map_eq_some_iff.1 he
  have h := q i x hx
  exact ⟨h.current, h.assembling, h.cancelled, h.cancel, h.area, h.hold, h.expiry, h.resting, h.request, h.reminder,
    h.backlog⟩

theorem shaped_countPlay (s : State) (q : s.entriesShaped) : (countPlay s).entriesShaped := by
  unfold countPlay
  split
  · exact q
  · rename_i p e r h
    have ha := playing_active q h
    exact shaped_modEntry _ _ s (fun e he h => shape_request h (ha e he) _) q

theorem shaped_reset : State.reset.entriesShaped := by
  intro i e he
  simp [State.entryAt, State.reset, Directory.reset] at he

end Sys2Proof.Machine
end

