-- ==== Sys2Proof/Laws/Kept.lean ====
section
/-! SUPPORT. What the receipt unit's operations leave of the directory and the other blocks: entries but their receipt
state and changed flag, use counts, texts, retired list, arbiter, area decision unit. -/

namespace Sys2Proof.Machine

/-- The directory but receipt states and changed flags, the arbiter, the area decision unit and the counters of the
links are as before. -/
structure ReceiptWork (s t : State) : Prop where
  directory : directoryKept s t
  arb : t.arb = s.arb
  area : t.area = s.area
  counters : ∀ l, t.host.counters l = s.host.counters l

theorem directoryKept.refl (s : State) : directoryKept s s := ⟨fun _ => rfl, rfl, rfl, rfl⟩

theorem directoryKept.trans {s t u : State} (a : directoryKept s t) (b : directoryKept t u) : directoryKept s u :=
  ⟨fun j => (b.1 j).trans (a.1 j), b.2.1.trans a.2.1, b.2.2.1.trans a.2.2.1, b.2.2.2.trans a.2.2.2⟩

theorem directoryKept.of_dir {s t : State} (h : t.dir = s.dir) : directoryKept s t := by
  refine ⟨fun j => ?_, ?_, ?_, ?_⟩ <;> simp [State.entryAt, h]

theorem ReceiptWork.refl (s : State) : ReceiptWork s s := ⟨directoryKept.refl s, rfl, rfl, fun _ => rfl⟩

theorem ReceiptWork.trans {s t u : State} (a : ReceiptWork s t) (b : ReceiptWork t u) : ReceiptWork s u :=
  ⟨a.directory.trans b.directory, b.arb.trans a.arb, b.area.trans a.area, fun l => (b.counters l).trans (a.counters l)⟩

theorem ReceiptWork.of_eq {s t : State} (d : t.dir = s.dir) (a : t.arb = s.arb) (r : t.area = s.area)
    (c : ∀ l, t.host.counters l = s.host.counters l) : ReceiptWork s t :=
  ⟨directoryKept.of_dir d, a, r, c⟩

theorem receiptWork_modLink (l : LinkId) (f : Link → Link) (s : State) : ReceiptWork s (modLink l f s) :=
  .of_eq (by simp) (by simp) (by simp) (by simp)

theorem receiptWork_setRcpt (s : State) (r : ReceiptUnit) : ReceiptWork s (s.setRcpt r) :=
  .of_eq rfl rfl rfl (fun _ => rfl)

theorem receiptWork_post (k : EventKind) (s : State) : ReceiptWork s (post k s) :=
  .of_eq rfl rfl rfl (fun l => by cases l <;> rfl)

theorem receiptWork_countGlobal (f : GlobalCounters → GlobalCounters) (s : State) : ReceiptWork s (countGlobal f s) :=
  .of_eq rfl rfl rfl (fun l => by cases l <;> rfl)

theorem receiptWork_modEntry (i : EntrySlot) (f : Entry → Entry) (s : State)
    (hf : ∀ e, (f e).butReceipt = e.butReceipt) : ReceiptWork s (modEntry i f s) := by
  refine ⟨⟨fun j => ?_, ?_, ?_, ?_⟩, ?_, ?_, fun l => ?_⟩
  · rw [State.entryAt_modEntry]
    split
    · rw [Option.map_map]
      congr 1
      funext e
      exact hf e
    · rfl
  all_goals unfold modEntry; split <;> rfl

theorem receiptWork_setReceipt (h : Handle) (r : ReceiptState) (s : State) : ReceiptWork s (setReceipt h r s) := by
  unfold setReceipt modNamed
  split
  · exact ReceiptWork.refl s
  · exact receiptWork_modEntry _ _ _ (fun _ => rfl)

theorem receiptWork_enqueue (l : LinkId) (f : OutFrame) (s : State) : ReceiptWork s (enqueue l f s) :=
  receiptWork_modLink _ _ _

theorem receiptWork_makeOffer (r : ReceiptRecord) (s : State) : ReceiptWork s (makeOffer r s) := by
  unfold makeOffer
  dsimp only
  refine ((ReceiptWork.trans ?_ (receiptWork_setReceipt _ _ _)).trans (receiptWork_enqueue _ _ _)).trans
    (receiptWork_modLink _ _ _)
  exact receiptWork_setRcpt s _

theorem receiptWork_offer (l : LinkId) (s : State) : ReceiptWork s (offer l s) := by
  unfold offer
  split
  · split
    · exact ReceiptWork.refl s
    · exact receiptWork_makeOffer _ _
  · exact ReceiptWork.refl s

theorem receiptWork_clearOutstanding (l : LinkId) (s : State) : ReceiptWork s (clearOutstanding l s) :=
  receiptWork_modLink _ _ _

theorem receiptWork_receiptFailed (s : State) : ReceiptWork s (receiptFailed s) :=
  (receiptWork_post _ _).trans (receiptWork_countGlobal _ _)

theorem receiptWork_refuse (r : ReceiptRecord) (s : State) : ReceiptWork s (refuse r s) := by
  unfold refuse
  dsimp only
  refine (ReceiptWork.trans ?_ (receiptWork_offer _ _)).trans (receiptWork_offer _ _)
  refine (receiptWork_clearOutstanding r.target s).trans ?_
  split
  · exact (receiptWork_setRcpt _ _).trans (receiptWork_setReceipt _ _ _)
  · exact ((receiptWork_setRcpt _ _).trans (receiptWork_setReceipt _ _ _)).trans (receiptWork_receiptFailed _)

theorem receiptWork_receiptSent (r : ReceiptRecord) (s : State) : ReceiptWork s (receiptSent r s) := by
  unfold receiptSent
  dsimp only
  exact ((((receiptWork_clearOutstanding _ s).trans (receiptWork_setRcpt _ _)).trans
    (receiptWork_setReceipt _ _ _)).trans ((receiptWork_post _ _).trans (receiptWork_countGlobal _ _))).trans
    (receiptWork_offer _ _)

theorem receiptWork_refuseOutstanding (l : LinkId) (s : State) : ReceiptWork s (refuseOutstanding l s) := by
  unfold refuseOutstanding
  split
  · exact ReceiptWork.refl s
  · split
    · exact receiptWork_clearOutstanding _ _
    · exact (receiptWork_clearOutstanding _ _).trans (receiptWork_refuse _ _)

theorem receiptWork_entryGone (h : Handle) (s : State) : ReceiptWork s (entryGone h s) := by
  unfold entryGone
  split
  · exact ReceiptWork.refl s
  · rename_i r _
    dsimp only
    have a : ReceiptWork s (receiptFailed (dropRecord r.id s)) :=
      (receiptWork_setRcpt s _).trans (receiptWork_receiptFailed (dropRecord r.id s))
    split
    · exact a
    · exact (a.trans (receiptWork_clearOutstanding _ _)).trans (receiptWork_offer _ _)

theorem receiptWork_settleResult (l : LinkId) (id : ReceiptId) (b : Bool) (s : State) :
    ReceiptWork s (settleResult l id b s) := by
  unfold settleResult
  split
  · split
    · exact receiptWork_clearOutstanding _ _
    · split
      · exact (receiptWork_clearOutstanding _ _).trans (receiptWork_receiptSent _ _)
      · exact (receiptWork_clearOutstanding _ _).trans (receiptWork_refuse _ _)
  · exact ReceiptWork.refl s

/-! ### Triggers look only at what receipts leave alone -/

/-- The slots that a condition blind to receipts selects. -/
theorem slotsWhere_kept {s t : State} (h : directoryKept s t) (p : Entry → Bool) (hp : ∀ e, p e.butReceipt = p e) :
    t.slotsWhere p = s.slotsWhere p := by
  unfold State.slotsWhere
  congr 1
  funext i
  have k := h.1 i
  revert k
  cases t.entryAt i <;> cases s.entryAt i <;> intro k <;> simp at k ⊢
  rw [← hp, k, hp]

theorem handleOf_kept {s t : State} (h : directoryKept s t) (i : EntrySlot) : t.handleOf i = s.handleOf i := by
  simp [State.handleOf, h.2.1]

/-- The serving trigger after receipt work is the serving trigger before it (R124). -/
theorem servingTrigger_kept {s t : State} (h : ReceiptWork s t) : (servingTrigger t).area = (servingTrigger s).area := by
  have e := slotsWhere_kept h.directory (fun e => decide (e.state = .held) && selectedByServing e) (fun _ => rfl)
  have f : t.handleOf = s.handleOf := funext (handleOf_kept h.directory)
  simp only [servingTrigger, trigger, e, f, h.area, State.area_setArea]

end Sys2Proof.Machine
end

