-- ==== Sys2Proof/Laws/LinkEffects.lean ====
section
/-! SUPPORT. What a fault, an entry to UP and a leaving of UP do to the whole state: one lemma per transition of a
link. -/

namespace Sys2Proof.Machine

/-- The serving trigger alone. -/
theorem link_servingTrigger (l : LinkId) (s : State) : (servingTrigger s).link l = s.link l := by
  simp [servingTrigger, trigger]

/-- Whoever refuses the outstanding receipt of a link that is not UP leaves its record but outstanding and output queue,
and these are none and as before. -/
theorem link_refuseOutstanding (l : LinkId) (s : State) (hu : (s.link l).state ≠ .up) :
    (refuseOutstanding l s).link l = { s.link l with outstanding := none } := by
  have w := work_refuseOutstanding l s
  have hc := w.link l
  have hq := w.outQ l hu
  have ho := outstanding_refuseOutstanding l s hu
  generalize (refuseOutstanding l s).link l = m at hc hq ho
  generalize s.link l = k at hc hq
  cases m; cases k
  simp [Link.core] at *
  simp_all

/-- Leaving UP (R21): the closed record, every other block as before but receipts and the serving trigger. -/
theorem link_leaveUp (l : LinkId) (x : LinkState) (s : State) (hx : x ≠ .up) :
    (leaveUp l x s).link l = { closedLink x (s.link l) with outstanding := none } := by
  unfold leaveUp
  rw [link_servingTrigger, link_refuseOutstanding _ _ (by simp [closedLink, hx])]
  simp

theorem core_other_leaveUp (l : LinkId) (x : LinkState) (s : State) :
    ((leaveUp l x s).link l.other).core = (s.link l.other).core := by
  unfold leaveUp
  rw [link_servingTrigger, (work_refuseOutstanding l _).link l.other]
  cases l <;> rfl

theorem directory_leaveUp (l : LinkId) (x : LinkState) (s : State) : directoryKept s (leaveUp l x s) := by
  unfold leaveUp
  have a := (receiptWork_modLink l (closedLink x) s).trans (receiptWork_refuseOutstanding l _)
  exact a.directory.trans (directoryKept.of_dir (by simp [servingTrigger, trigger]))

theorem area_leaveUp (l : LinkId) (x : LinkState) (s : State) : (leaveUp l x s).area = (servingTrigger s).area :=
  servingTrigger_kept ((receiptWork_modLink l (closedLink x) s).trans (receiptWork_refuseOutstanding l _))

theorem arb_leaveUp (l : LinkId) (x : LinkState) (s : State) : (leaveUp l x s).arb = s.arb := by
  unfold leaveUp
  have a := (receiptWork_modLink l (closedLink x) s).trans (receiptWork_refuseOutstanding l _)
  simpa [servingTrigger, trigger] using a.arb

theorem prof_leaveUp (l : LinkId) (x : LinkState) (s : State) : (leaveUp l x s).prof = s.prof := by
  unfold leaveUp
  have a := (work_refuseOutstanding l (modLink l (closedLink x) s)).prof
  simpa [servingTrigger, trigger] using a

theorem counters_leaveUp (l m : LinkId) (x : LinkState) (s : State) :
    (leaveUp l x s).host.counters m = s.host.counters m :=
  ((receiptWork_modLink l (closedLink x) s).trans (receiptWork_refuseOutstanding l _)).counters m

/-- The link record after a fault (R32). -/
theorem link_faultLink (l : LinkId) (k : FaultKind) (f : FrameKind) (s : State) :
    (faultLink l k f s).link l =
      { closedLink .faulted (s.link l) with
        outstanding := none, fault := some ⟨k, s.now, f⟩, frame := none, quarantine := some (s.now + 60000) } := by
  have n : (leaveUp l .faulted (recordFault l k f s)).now = s.now := by
    rw [(told_leaveUp _ _ _).now]; simp [recordFault]
  have e : (leaveUp l .faulted (recordFault l k f s)).link l = _ := link_leaveUp l .faulted _ (by decide)
  simp only [faultLink, startQuarantine, State.link_post, State.link_countLink, State.link_modLink_same, e, n]
  simp [recordFault, closedLink, Config.quarantineMs]

theorem slots_faultLink (l : LinkId) (k : FaultKind) (f : FrameKind) (s : State) :
    ((faultLink l k f s).link l).slots = (s.link l).slots := by rw [link_faultLink]; rfl

theorem holds_post (k : EventKind) (s : State) : EventSet.holds (post k s).host.events k = true := by
  cases k <;> simp [post, EventSet.holds, EventKind.bit, EventKind.code]

/-! ### Entry to UP (R19, R20) and GOODBYE (R22) -/

theorem state_enterUp (l : LinkId) (s : State) : ReceiptWork (servingTrigger (post .linkState (modLink l openedLink s))) (enterUp l s) :=
  receiptWork_offer _ _

/-- Entry to UP of a link without a frame in progress: all of what OpenedBy says. -/
theorem openedBy_enterUp (l : LinkId) (s : State) (hf : (s.link l).frame = none) : OpenedBy l s (enterUp l s) := by
  have w := work_offer l (servingTrigger (post .linkState (modLink l openedLink s)))
  have c := w.link l
  have b : (servingTrigger (post .linkState (modLink l openedLink s))).link l = openedLink (s.link l) := by
    rw [link_servingTrigger]; simp
  rw [b] at c
  exact
    { state := (Link.state_of_core c).trans rfl
      credits := (Link.credits_of_core c).trans rfl
      serving := (Link.serving_of_core c).trans rfl
      subWaiting := (Link.subWaiting_of_core c).trans rfl
      noFrame := (Link.frame_of_core c).trans hf
      slots := (Link.slots_of_core c).trans rfl
      fault := (Link.fault_of_core c).trans rfl
      trigger := by
        rw [show (enterUp l s).area = _ from (state_enterUp l s).area]
        exact servingTrigger_kept ((receiptWork_modLink _ _ _).trans (receiptWork_post _ _))
      posted := by
        have := w.events EventKind.linkState.code
        exact this (holds_post .linkState (modLink l openedLink s))
      other := by
        rw [show ((enterUp l s).link l.other).core = _ from w.link l.other, link_servingTrigger]
        cases l <;> rfl
      profile := by
        rw [show (enterUp l s).prof = _ from w.prof]
        simp [servingTrigger, trigger]
      arbiter := by
        rw [show (enterUp l s).arb = _ from (state_enterUp l s).arb]
        simp [servingTrigger, trigger]
      directory := by
        refine directoryKept.trans (directoryKept.of_dir ?_) (state_enterUp l s).directory
        simp [servingTrigger, trigger]
      told := told_enterUp l s }

theorem OpenedBy.after {l : LinkId} {s t u : State} (h : OpenedBy l t u) (r : ReceiptWork s t) (d : Told s t)
    (hp : t.prof = s.prof) (hs : (t.link l).slots = (s.link l).slots) (hf : (t.link l).fault = (s.link l).fault)
    (ho : (t.link l.other).core = (s.link l.other).core) : OpenedBy l s u where
  state := h.state
  credits := by
    rw [h.credits]
    exact congrArg (6 - ·) (Link.occupied_congr hs)
  serving := h.serving
  subWaiting := h.subWaiting
  noFrame := h.noFrame
  slots := h.slots.trans hs
  fault := h.fault.trans hf
  trigger := h.trigger.trans (servingTrigger_kept r)
  posted := h.posted
  other := h.other.trans ho
  profile := h.profile.trans hp
  arbiter := h.arbiter.trans r.arb
  directory := r.directory.trans h.directory
  told := d.trans h.told

/-- The output queue and the outstanding receipt after entry to UP (R19, R39). -/
theorem offer_enterUp (l : LinkId) (s : State) (ho : (s.link l).outstanding = none)
    (hq : (s.link l).outQ = [] ∨ (s.link l).outQ = [.helloRequest]) :
    ((enterUp l s).link l).outstanding = (s.nextReceipt l).map (·.id) ∧
    ((enterUp l s).link l).outQ =
      [.credit (s.link l).freeCount, .subscribe [(0, 1023)]] ++
        ((s.nextReceipt l).map (fun r => OutFrame.receipt r.id r.key r.revision r.delay)).toList ∧
    (enterUp l s).link l.other = s.link l.other := by
  have b : (servingTrigger (post .linkState (modLink l openedLink s))).link l = openedLink (s.link l) := by
    rw [link_servingTrigger]; simp
  have bo : (servingTrigger (post .linkState (modLink l openedLink s))).link l.other = s.link l.other := by
    rw [link_servingTrigger]; cases l <;> rfl
  have n : (servingTrigger (post .linkState (modLink l openedLink s))).nextReceipt l = s.nextReceipt l := by
    simp [State.nextReceipt, servingTrigger, trigger]
  have q : (openedLink (s.link l)).outQ = [.credit (s.link l).freeCount, .subscribe [(0, 1023)]] := by
    rcases hq with h | h <;>
      simp [openedLink, h, pushFrame, OutFrame.isSubscribe, OutFrame.isReceipt, fallbackSubscription, OutFrame.isHelloRequest]
  unfold enterUp offer
  rw [b, n]
  simp only [show (openedLink (s.link l)).state = .up from rfl, show (openedLink (s.link l)).outstanding = none from ho,
    and_self, if_true]
  cases hr : s.nextReceipt l with
  | none => exact ⟨by simp [b, openedLink, ho], by simp [b, q], bo⟩
  | some r =>
    have ht := nextReceipt_target hr
    simp only [makeOffer, ht, enqueue, State.link_modLink_same, link_setReceipt]
    refine ⟨by simp, ?_, ?_⟩
    · simp [modRecord, State.setQueue, b, q, pushFrame, OutFrame.isSubscribe, OutFrame.isReceipt]
    · rw [← bo]
      simp [modRecord, State.setQueue, link_setReceipt]

end Sys2Proof.Machine
end

