-- ==== Sys2Proof/Laws/Selection.lean ====
section
/-! SUPPORT. Selection: which request is chosen and what the arbiter then holds (R134, R135). -/

namespace Sys2Proof.Machine

/-- Levels of one rank are one level. -/
theorem Level.rank_inj {a b : Level} (h : a.rank = b.rank) : a = b := by
  rcases a with (_|_|_|_|_) | _ <;> rcases b with (_|_|_|_|_) | _ <;> simp_all [Level.rank, AlertClass.num]

/-- Every level is examined. -/
theorem mem_levelOrder (lv : Level) : lv ∈ levelOrder := by rcases lv with (_|_|_|_|_) | _ <;> decide

/-- Every slot is examined. -/
theorem slotsAfter_mem (p i : EntrySlot) : i ∈ slotsAfter p := by
  revert p i; decide +kernel
/-- The slots in search order. -/
theorem slotsAfter_eq (p : EntrySlot) (k : Nat) (h : k < 48) : (slotsAfter p)[k]? = some (Fin.ofNat 48 (p.val + 1 + k)) := by
  simp [slotsAfter, Config.entrySlots, h]

/-- On an IDLE generator every request waits. -/
theorem waitsAt_idle (s : State) (hp : s.arb.play = none) (lv i) : s.waitsAt lv i = true ↔ ∃ e r, s.entryAt i = some e ∧ e.request = some r ∧ r.level = lv := by
  have : s.playsAt i = false := by simp [State.playsAt, hp]
  simp only [State.waitsAt, State.waitingRequest]
  cases he : s.entryAt i with
  | none => simp
  | some e => simp [this, Option.any_eq_true]

/-- The first slot of the search that meets a condition is the one at the least distance (R134). -/
theorem find_slotsAfter (p : EntrySlot) (q : EntrySlot → Bool) (i : EntrySlot) (hi : q i = true)
   (hm : ∀ j, q j = true → searchDistance p i ≤ searchDistance p j) : (slotsAfter p).find? q = some i := by
  rw [List.find?_eq_some_iff_getElem]
  refine ⟨hi, searchDistance p i, ?_, ?_, ?_⟩
  · simp [slotsAfter, searchDistance, Config.entrySlots]; omega
  · have hl : searchDistance p i < 48 := by simp [searchDistance]; omega
    have := slotsAfter_eq p _ hl
    rw [List.getElem?_eq_some_iff] at this
    obtain ⟨h1, h2⟩ := this
    rw [h2]
    have := i.isLt; have := p.isLt
    apply Fin.ext
    simp only [Fin.val_ofNat, searchDistance, Config.entrySlots] at *
    omega
  · intro k hk
    have hl : searchDistance p i < 48 := by simp [searchDistance]; omega
    have e := slotsAfter_eq p k (by omega)
    rw [List.getElem?_eq_some_iff] at e
    obtain ⟨h1, h2⟩ := e
    rw [h2]
    by_contra hc
    have hc : q (Fin.ofNat 48 (p.val + 1 + k)) = true := by simpa using hc
    have := hm _ hc
    have := p.isLt
    have hd : searchDistance p (Fin.ofNat 48 (p.val + 1 + k)) = k := by
      simp only [searchDistance, Fin.val_ofNat, Config.entrySlots] at *; omega
    omega

/-- What the search finds comes no later than any other slot that meets the condition (R134). -/
theorem find_slotsAfter_first {p : EntrySlot} {q : EntrySlot → Bool} {i : EntrySlot} (h : (slotsAfter p).find? q = some i)
    (j : EntrySlot) (hj : q j = true) : searchDistance p i ≤ searchDistance p j := by
  by_contra hlt
  obtain ⟨k, hk, hmin⟩ : ∃ k, q k = true ∧ ∀ l, q l = true → searchDistance p k ≤ searchDistance p l := by
    have := Set.exists_min_image {l : EntrySlot | q l = true} (searchDistance p) (Set.toFinite _) ⟨j, hj⟩
    exact this
  have := find_slotsAfter p q k hk hmin
  rw [h] at this
  cases this
  exact hlt (hmin j hj)

/-- Selection on an IDLE generator finds nothing exactly when no entry holds a request, and else a request at the
highest level, of that level the first in search order (R134). -/
theorem choice_spec (s : State) (start : Level → EntrySlot) (hp : s.arb.play = none) :
   (s.choice start = none ∧ ∀ i e, s.entryAt i = some e → e.request = none) ∨
   ∃ lv i e r, s.choice start = some (lv, i) ∧ s.entryAt i = some e ∧ e.request = some r ∧ r.level = lv ∧
     (∀ j x y, s.entryAt j = some x → x.request = some y → lv.rank ≤ y.level.rank) ∧
     (∀ j x y, s.entryAt j = some x → x.request = some y → y.level = lv →
       searchDistance (start lv) i ≤ searchDistance (start lv) j) := by
  rcases hc : s.choice start with _ | ⟨lv, i⟩
  · left
    refine ⟨rfl, fun i e he => ?_⟩
    by_contra hr
    obtain ⟨r, hr⟩ := Option.ne_none_iff_exists'.mp hr
    simp only [State.choice, List.findSome?_eq_none_iff] at hc
    have := hc r.level (mem_levelOrder _)
    rw [Option.map_eq_none_iff, List.find?_eq_none] at this
    exact this i (slotsAfter_mem _ _) ((waitsAt_idle s hp _ _).2 ⟨e, r, he, hr, rfl⟩)
  · right
    have hc' := hc
    simp only [State.choice] at hc
    rw [List.findSome?_eq_some_iff] at hc
    obtain ⟨l1, x, l2, hl, hx, hn⟩ := hc
    rw [Option.map_eq_some_iff] at hx
    obtain ⟨j, hj, he⟩ := hx
    simp only [Prod.mk.injEq] at he
    obtain ⟨rfl, rfl⟩ := he
    have hw := List.find?_some hj
    obtain ⟨e, r, he, hr, hlv⟩ := (waitsAt_idle s hp _ _).1 hw
    refine ⟨x, j, e, r, rfl, he, hr, hlv, fun k u v hu hv => ?_, fun k u v hu hv hl =>
      find_slotsAfter_first hj k ((waitsAt_idle s hp _ _).2 ⟨u, v, hu, hv, hl⟩)⟩
    by_contra hlt
    have hmem : v.level ∈ l1 := by
      have h1 := mem_levelOrder v.level
      rw [hl] at h1
      have hsort : levelOrder.Pairwise (fun a b => a.rank < b.rank) := by decide
      rw [hl] at hsort
      rcases List.mem_append.1 h1 with h | h
      · exact h
      · exfalso
        rcases List.mem_cons.1 h with h | h
        · rw [h] at hlt; omega
        · have := (List.pairwise_append.1 hsort).2.1
          have := (List.pairwise_cons.1 this).1 _ h
          omega
    have := hn _ hmem
    rw [Option.map_eq_none_iff, List.find?_eq_none] at this
    exact this k (slotsAfter_mem _ _) ((waitsAt_idle s hp _ _).2 ⟨u, v, hu, hv, rfl⟩)

/-- A pointer just set. -/
theorem pointer_set (a : Vector EntrySlot 6) (lv : Level) (i : EntrySlot) : (a.set lv.index i)[lv.index] = i := by
  simp

/-- What selection leaves on an IDLE generator (R134, R135). -/
theorem selects_selectFrom (s : State) (start) (hp : s.arb.play = none) : s.selectsFrom start (selectFrom start s) := by
  rcases choice_spec s start hp with ⟨h, hn⟩ | ⟨lv, i, e, r, h, he, hr, hlv, hmin, hfirst⟩
  · simp only [selectFrom, h, State.selectsFrom, hp]; exact ⟨trivial, hn⟩
  · simp only [selectFrom, h, beginPlay, he, hr, State.selectsFrom, State.arb_setArb]
    subst hlv
    refine ⟨rfl, trivial, trivial, trivial, e, r, he, hr, rfl, rfl, ?_, hmin, hfirst⟩
    simp [State.pointer, State.handleOf]

/-- Selection looks at the pointers alone of the state before it. -/
theorem State.selectsFrom_congr {s u t : State} {start : Level → EntrySlot} (h : u.selectsFrom start t)
    (hp : u.arb.pointers = s.arb.pointers) : s.selectsFrom start t := by
  unfold State.selectsFrom at h ⊢; rw [← hp]; exact h
theorem State.selects_congr {s u t : State} (h : u.selects t) (hp : u.arb.pointers = s.arb.pointers) : s.selects t := by
  have : u.pointer = s.pointer := by funext lv; simp [State.pointer, hp]
  unfold State.selects at h ⊢; rw [← this]; exact State.selectsFrom_congr h hp

/-- Selection from the round-robin pointers, after work that moved none. -/
theorem selects_select {s u : State} (hu : u.arb.play = none) (hp : u.arb.pointers = s.arb.pointers) :
    s.selects (select u) :=
  State.selects_congr (selects_selectFrom u u.pointer hu) hp

/-- Selection changes the arbiter only. -/
theorem selectFrom_arb (start) (s : State) : selectFrom start s = s.setArb (selectFrom start s).arb := by
  unfold selectFrom
  split
  · rfl
  · unfold beginPlay; split; rfl; split <;> rfl

/-! ### What the arbiter's work can change -/

/-- Only entries and the arbiter differ. -/
def RequestWork (s t : State) : Prop :=
  t = { s with dir := { s.dir with entries := t.dir.entries }, arb := t.arb }

theorem RequestWork.refl (s : State) : RequestWork s s := rfl
theorem RequestWork.trans {s t u : State} (a : RequestWork s t) (b : RequestWork t u) : RequestWork s u := by
  unfold RequestWork at *
  rw [b]
  simp only
  rw [a]
theorem RequestWork.host {s t : State} (h : RequestWork s t) : t.host = s.host := by rw [h]
theorem RequestWork.now {s t : State} (h : RequestWork s t) : t.now = s.now := by rw [h]
theorem RequestWork.handleOf {s t : State} (h : RequestWork s t) (i : EntrySlot) : t.handleOf i = s.handleOf i := by
  rw [h]; rfl
theorem requestWork_modEntry (i : EntrySlot) (f : Entry → Entry) (s : State) : RequestWork s (modEntry i f s) := by
  unfold modEntry; split <;> rfl
theorem requestWork_setArb (a : Arbiter) (s : State) : RequestWork s (s.setArb a) := rfl
theorem requestWork_selectFrom (start : Level → EntrySlot) (s : State) : RequestWork s (selectFrom start s) := by
  rw [selectFrom_arb]; exact requestWork_setArb _ _
theorem requestWork_select (s : State) : RequestWork s (select s) := requestWork_selectFrom _ _
theorem requestWork_selectIfIdle (s : State) : RequestWork s (selectIfIdle s) := by
  unfold selectIfIdle
  split
  · exact requestWork_select _
  · exact RequestWork.refl _
theorem requestWork_hearRequest (i : EntrySlot) (k : RequestKind) (s : State) : RequestWork s (hearRequest i k s) :=
  requestWork_modEntry _ _ _
theorem requestWork_finishPlay (p : Play) (r : Request) (s : State) : RequestWork s (finishPlay p r s) :=
  (requestWork_hearRequest _ _ _).trans ((requestWork_setArb _ _).trans (requestWork_select _))
theorem requestWork_dropRequest (i : EntrySlot) (s : State) : RequestWork s (dropRequest i s) := by
  unfold dropRequest
  split
  · exact RequestWork.refl _
  · dsimp only
    split
    · exact (requestWork_modEntry _ _ _).trans ((requestWork_setArb _ _).trans (requestWork_select _))
    · exact requestWork_modEntry _ _ _
theorem requestWork_raiseAlert (i : EntrySlot) (s : State) : RequestWork s (raiseAlert i s) := by
  unfold raiseAlert
  split
  · exact RequestWork.refl _
  · exact (requestWork_modEntry _ _ _).trans (requestWork_selectIfIdle _)
theorem requestWork_raiseReminder (i : EntrySlot) (s : State) : RequestWork s (raiseReminder i s) := by
  unfold raiseReminder
  split
  · exact RequestWork.refl _
  · split
    · exact RequestWork.refl _
    · exact (requestWork_modEntry _ _ _).trans (requestWork_selectIfIdle _)
theorem requestWork_foldl {α : Type} (f : State → α → State) (hf : ∀ s a, RequestWork s (f s a)) (xs : List α) (s : State) :
    RequestWork s (xs.foldl f s) := by
  induction xs generalizing s with
  | nil => exact RequestWork.refl _
  | cons x xs ih => exact (hf s x).trans (ih _)

/-- A raised ALERT begins to play only on an IDLE generator (R132, R134). -/
theorem arb_selectIfIdle (s : State) (h : s.arb.play ≠ none) : (selectIfIdle s).arb = s.arb := by
  unfold selectIfIdle
  split
  · rename_i e; exact absurd e h
  · rfl
theorem arb_raiseAlert (i : EntrySlot) (s : State) (h : s.arb.play ≠ none) : (raiseAlert i s).arb = s.arb := by
  unfold raiseAlert
  split
  · rfl
  · rw [arb_selectIfIdle _ (by simpa using h)]; simp
theorem arb_dropRequest (i : EntrySlot) (s : State) (h : s.playsAt i = false) : (dropRequest i s).arb = s.arb := by
  unfold dropRequest
  split
  · rfl
  · simp [h]

/-- What selection left survives whatever keeps the arbiter, the use counts and the requests and classes of entries. -/
theorem selects_of_same {r s t : State} {start : Level → EntrySlot} (h : r.selectsFrom start s) (ha : t.arb = s.arb) (hu : t.dir.useCounts = s.dir.useCounts)
    (he : ∀ i, (t.entryAt i).map (fun e => (e.request, e.cls)) = (s.entryAt i).map (fun e => (e.request, e.cls)) ∨
      (t.entryAt i = none ∧ ∀ e, s.entryAt i = some e → e.request = none)) : r.selectsFrom start t := by
  have back : ∀ i x y, t.entryAt i = some x → x.request = some y →
      ∃ z, s.entryAt i = some z ∧ z.request = some y ∧ z.cls = x.cls := by
    intro i x y hx hy
    rcases he i with h1 | ⟨h1, _⟩
    · rw [hx] at h1
      cases hz : s.entryAt i with
      | none => rw [hz] at h1; simp at h1
      | some z =>
        rw [hz] at h1
        simp only [Option.map_some, Option.some.injEq, Prod.mk.injEq] at h1
        exact ⟨z, rfl, by rw [← h1.1, hy], h1.2.symm⟩
    · rw [hx] at h1; cases h1
  unfold State.selectsFrom at h ⊢
  rw [ha]
  cases hp : s.arb.play with
  | none =>
    rw [hp] at h
    refine ⟨h.1, ?_⟩
    intro i e hi
    by_contra hr
    obtain ⟨r, hr⟩ := Option.ne_none_iff_exists'.mp hr
    obtain ⟨z, hz, hzr, _⟩ := back i e r hi hr
    rw [h.2 i z hz] at hzr; cases hzr
  | some q =>
    rw [hp] at h
    obtain ⟨h1, h2, h3, h4, e, w, h5, h6, h7, h8, h9, h10, h11⟩ := h
    have hE : ∃ z, t.entryAt q.handle.slot = some z ∧ z.request = some w ∧ z.cls = e.cls := by
      rcases he q.handle.slot with h' | ⟨_, h'⟩
      · rw [h5] at h'
        cases hz : t.entryAt q.handle.slot with
        | none => rw [hz] at h'; simp at h'
        | some z =>
          rw [hz] at h'
          simp only [Option.map_some, Option.some.injEq, Prod.mk.injEq] at h'
          exact ⟨z, rfl, by rw [h'.1, h6], h'.2⟩
      · have := h' e h5; rw [h6] at this; cases this
    obtain ⟨z, hz, hzr, hzc⟩ := hE
    refine ⟨?_, h2, h3, h4, z, w, hz, hzr, by rw [hzc]; exact h7, h8, ?_, ?_, ?_⟩
    · rw [h1]; simp [State.handleOf, hu]
    · rw [← h9]; simp [State.pointer, ha]
    · intro i x y hx hy
      obtain ⟨v, hv, hvr, _⟩ := back i x y hx hy
      exact h10 i v y hv hvr
    · intro i x y hx hy
      obtain ⟨v, hv, hvr, _⟩ := back i x y hx hy
      exact h11 i v y hv hvr

/-- After a request that was playing is dropped, selection has been made (R142). -/
theorem selects_dropRequest (i : EntrySlot) (e : Entry) (s : State) (he : s.entryAt i = some e) (hp : s.playsAt i = true) :
    s.selects (dropRequest i s) := by
  unfold dropRequest
  rw [he]
  simp only [hp, if_true]
  exact selects_select rfl (by simp [clearPlay])
/-- After a request is raised on an IDLE generator, selection has been made (R132). -/
theorem selects_raiseAlert (i : EntrySlot) (e : Entry) (s : State) (he : s.entryAt i = some e) (hp : s.arb.play = none) :
    s.selects (raiseAlert i s) := by
  unfold raiseAlert selectIfIdle
  rw [he]
  have : (modEntry i (setRequest (some (alertRequest s e.cls))) s).arb.play = none := by simpa using hp
  simp only [this]
  exact selects_select this (by simp)

end Sys2Proof.Machine
end

