-- ==== Sys2Proof/Laws/Leaving.lean ====
section
/-! SUPPORT. An entry leaving the directory, and its request being dropped: what changes and what stays (R79, R80, R83,
R87, R142, R165). -/

namespace Sys2Proof.Machine

/-- Only the slot's own request is dropped. -/
theorem entryAt_dropRequest_other (i j : EntrySlot) (s : State) (h : j ≠ i) : (dropRequest i s).entryAt j = s.entryAt j := by
  rw [entryAt_dropRequest, State.entryAt_modEntry, if_neg (fun x => h x.symm)]
/-- The slot's entry without its request (R142). -/
theorem entryAt_dropRequest_same (i : EntrySlot) (s : State) : (dropRequest i s).entryAt i = (s.entryAt i).map (setRequest none) := by
  rw [entryAt_dropRequest, State.entryAt_modEntry, if_pos rfl]

/-- The slot is free (R83, R85). -/
theorem entryAt_departEntry (i : EntrySlot) (s : State) : (departEntry i s).entryAt i = none := by
  simp [departEntry]
/-- The other entries stay, receipts apart. -/
theorem othersKept_departEntry (i : EntrySlot) (s : State) : othersKept i s (departEntry i s) := by
  intro j hj
  have hne : ¬ i = j := fun x => hj x.symm
  have k := receiptWork_entryGone (s.handleOf i) (dropRequest i s)
  have := k.directory.1 j
  rw [entryAt_dropRequest_other i j s hj] at this
  simp only [departEntry, entryAt_post, State.entryAt_putEntry, if_neg hne]
  exact this

/-- An entry without a receipt record leaves no receipt to fail (R165). -/
theorem entryGone_none (h : Handle) (s : State) (hq : ∀ r ∈ s.rcpt.queue, r.handle ≠ h) : entryGone h s = s := by
  unfold entryGone
  have : s.rcpt.queue.find? (fun r => r.handle = h) = none := by
    rw [List.find?_eq_none]; intro x hx; simpa using hq x hx
  rw [this]

/-- What else the leaving of an entry does (R79, R87, R142, R165). -/
theorem departEntry_spec (i : EntrySlot) (e : Entry) (s : State) (he : s.entryAt i = some e) :
   (departEntry i s).dir.useCounts = s.dir.useCounts ∧
   (departEntry i s).dir.segs = s.dir.segs.filter (fun g => !decide (g.slot = i)) ∧
   (departEntry i s).dir.retired = s.dir.retired ∧
   EventSet.holds (departEntry i s).host.events .entryRemoved = true ∧
   (s.playsAt i = false → (departEntry i s).arb = s.arb) ∧
   (s.playsAt i = true → s.selects (departEntry i s)) ∧
   ((∀ r ∈ s.rcpt.queue, r.handle ≠ s.handleOf i) → (departEntry i s).rcpt = s.rcpt) := by
  have k := receiptWork_entryGone (s.handleOf i) (dropRequest i s)
  have rw' := requestWork_dropRequest i s
  have hs : (dropRequest i s).dir.segs = s.dir.segs := by rw [rw']
  have hu : (dropRequest i s).dir.useCounts = s.dir.useCounts := by rw [rw']
  have hr : (dropRequest i s).dir.retired = s.dir.retired := by rw [rw']
  refine ⟨k.directory.2.1.trans hu, ?_, k.directory.2.2.2.trans hr, holds_post _ _, fun h => ?_, fun h => ?_, fun h => ?_⟩
  · show List.filter _ (entryGone _ _).dir.segs = _
    rw [k.directory.2.2.1, hs]
  · show (entryGone _ _).arb = _
    rw [k.arb]; exact arb_dropRequest i s h
  · refine selects_of_same (selects_dropRequest i e s he h) k.arb k.directory.2.1 (fun j => ?_)
    by_cases hj : j = i
    · subst hj; right; exact ⟨entryAt_departEntry _ _, fun x hx => by rw [entryAt_dropRequest_same, he] at hx; cases hx; rfl⟩
    · left
      have := k.directory.1 j
      have hne : ¬ i = j := fun x => hj x.symm
      have e2 : (departEntry i s).entryAt j = (entryGone (s.handleOf i) (dropRequest i s)).entryAt j := by
        simp only [departEntry, entryAt_post, State.entryAt_putEntry, if_neg hne]; rfl
      rw [e2]
      generalize (entryGone (s.handleOf i) (dropRequest i s)).entryAt j = a at *
      generalize (dropRequest i s).entryAt j = b at *
      cases a <;> cases b <;> simp_all [Entry.butReceipt]
  · show (entryGone _ _).rcpt = _
    rw [entryGone_none]; rw [rw']; rw [rw']; exact h

/-- Retirement changes the retired list only (R80). -/
theorem retireEntry_spec (i : EntrySlot) (d : Option Discarded) (s : State) :
    retireEntry i d s = s.setDir { s.dir with retired := (retireEntry i d s).dir.retired } := by
  unfold retireEntry; split; rfl; split <;> rfl

/-- What an expiry leaves on the retired list: the revision named by the entry's state, with the incoming revision it
discards (R80, R83; log 24). -/
theorem retired_expireEntry (i : EntrySlot) (e : Entry) (r : Revision) (s : State) (he : s.entryAt i = some e)
    (hr : e.retiredRevision = some r) :
    (expireEntry i s).dir.retired =
      (if 64 ≤ s.dir.retired.length then s.dir.retired.drop 1 else s.dir.retired) ++
        [⟨e.key, r, e.incoming.map (fun d => ⟨d.revision, d.partCount, d.parts, s.now⟩)⟩] := by
  have he' : (retireEntry i (s.discardedAt i) s).entryAt i = some e := by rw [entryAt_retireEntry]; exact he
  have h3 := (departEntry_spec i e _ he').2.2.1
  unfold expireEntry
  rw [h3]
  simp only [retireEntry, he, hr, retire, State.dir_setDir, State.discardedAt, Config.retiredRecords]

/-- Of keys that differ from the last record's, the lookup finds the last record (R71, R80). -/
theorem retiredRecord_last (s : State) (old : List Retired) (x : Retired) (h : s.dir.retired = old ++ [x])
    (hk : ∀ y ∈ old, y.key ≠ x.key) : s.retiredRecord x.key = some x := by
  unfold State.retiredRecord
  rw [h, List.find?_append, List.find?_eq_none.2 (by simpa using hk)]
  simp

/-- When a page repeats a part that an expiry discarded in this moment (R84; log 24). -/
theorem repeatsDiscarded_iff (s : State) (p : Page) (r : Retired) :
    s.repeatsDiscarded p r = true ↔ ∃ d, r.discarded = some d ∧ d.moment = s.now ∧ p.action = .issue ∧
      p.revision = d.revision ∧ p.partCount = d.partCount ∧ p.partIndex ∈ d.parts := by
  simp [State.repeatsDiscarded, Option.any_eq_true]

/-- A newer revision differs (R13). -/
theorem newer_ne (c h : Revision) (x : newer c h = true) : c ≠ h := by
  rintro rfl; simp [newer, revDistance] at x
/-- A newer candidate is not the same as what is held (R13, R14). -/
theorem newerThan_not_same (c : Revision) (h : Option Revision) (x : newerThan c h = true) : sameAs c h = false := by
  cases h with
  | none => rfl
  | some r => simpa [sameAs] using newer_ne c r x

end Sys2Proof.Machine
end

