-- ==== Sys2Proof/Laws/Completion.lean ====
section
/-! SUPPORT. The completion of a revision (R96 to R102): what `complete`, with the page's link joined, leaves. -/

namespace Sys2Proof.Machine

/-- The slot's own request is the fresh one (R132). -/
theorem entryAt_raiseAlert_same (i : EntrySlot) (s : State) (e : Entry) (he : s.entryAt i = some e) :
    (raiseAlert i s).entryAt i = some (setRequest (some (alertRequest s e.cls)) e) := by
  rw [entryAt_raiseAlert i i s e he, State.entryAt_modEntry_same, he]; rfl
/-- Other slots keep theirs. -/
theorem entryAt_raiseAlert_other (i j : EntrySlot) (s : State) (h : j ≠ i) : (raiseAlert i s).entryAt j = s.entryAt j := by
  cases he : s.entryAt i with
  | none => unfold raiseAlert; rw [he]
  | some e => rw [entryAt_raiseAlert i j s e he, State.entryAt_modEntry, if_neg (fun x => h x.symm)]

/-- Table 25 as the statements say it (R98). -/
theorem classAfter_eq (e : Entry) (g : Governing) : classAfter e g = classByTable25 e g := by
  unfold classAfter classByTable25
  cases e.current with
  | none => rfl
  | some c =>
    dsimp only
    split_ifs <;> first | rfl | (exfalso; tauto)

/-- What a step of the attention work leaves of the other blocks of the directory. -/
theorem requestWork_kept {s t : State} (w : RequestWork s t) :
    t.dir.segs = s.dir.segs ∧ t.dir.useCounts = s.dir.useCounts ∧ t.dir.retired = s.dir.retired ∧ t.rcpt = s.rcpt ∧
      t.area = s.area ∧ t.host = s.host := by
  rw [w]; exact ⟨rfl, rfl, rfl, rfl, rfl, rfl⟩

/-- A retrigger is attention work. -/
theorem requestWork_retrigger (i : EntrySlot) (s : State) : RequestWork s (retrigger i s) := by
  unfold retrigger
  split
  · exact RequestWork.refl s
  · split
    · exact requestWork_raiseAlert i s
    · dsimp only
      split
      · exact (requestWork_modEntry _ _ _).trans (requestWork_setArb _ _)
      · exact requestWork_modEntry _ _ _

/-- The slot's entry after a retrigger (R140). -/
theorem entryAt_retrigger_same (i : EntrySlot) (s : State) (e : Entry) (he : s.entryAt i = some e) :
    (retrigger i s).entryAt i = some (setRequest (some (alertRequest s e.cls)) e) := by
  unfold retrigger
  rw [he]
  dsimp only
  split
  · exact entryAt_raiseAlert_same i s e he
  · split
    · show (modEntry _ _ _).entryAt i = _
      rw [State.entryAt_modEntry_same, he]; rfl
    · rw [State.entryAt_modEntry_same, he]; rfl
/-- Other slots keep theirs. -/
theorem entryAt_retrigger_other (i j : EntrySlot) (s : State) (h : j ≠ i) : (retrigger i s).entryAt j = s.entryAt j := by
  have hne : ¬ i = j := fun x => h x.symm
  unfold retrigger
  split
  · rfl
  · split
    · exact entryAt_raiseAlert_other i j s h
    · dsimp only
      split
      · show (modEntry _ _ _).entryAt j = _
        rw [State.entryAt_modEntry, if_neg hne]
      · rw [State.entryAt_modEntry, if_neg hne]

/-- Joining a link changes neither arbiter, port, nor the rest of the directory, and keeps a selection. -/
theorem selects_joinLink {r : State} (i : EntrySlot) (l : LinkId) (s : State) (h : r.selects s) :
    r.selects (modEntry i (joinLink l) s) := by
  refine selects_of_same h (by simp) (by simp) (fun j => .inl ?_)
  rw [State.entryAt_modEntry]
  split
  · cases s.entryAt j <;> rfl
  · rfl

/-- The state in which the revision `inc` of the entry `e` in slot `i` is whole, its texts placed. -/
def gathered (i : EntrySlot) (e : Entry) (inc : Incoming) (segs : List Segment) (s : State) : State :=
  s.setDir { s.dir with entries := s.dir.entries.set i (some { e with incoming := some inc }), segs := segs }

/-- What a completion leaves, the page's link joined (R96 to R102, R107). -/
theorem completedBy_complete (i : EntrySlot) (e : Entry) (inc : Incoming) (p : Page) (g : Governing) (d : Descriptive)
    (segs : List Segment) (s : State) (hc : e.state ≠ .cancelled) (hp : inc.part1 = some d)
    (hr : inc.revision = p.revision) (hn : inc.partCount = p.partCount) :
    CompletedBy i e p g d segs s (modEntry i (joinLink p.link) (complete i g (gathered i e inc segs s))) := by
  obtain ⟨u, hu⟩ : ∃ u, u = gathered i e inc segs s := ⟨_, rfl⟩
  rw [← hu]
  have huw : Work s u := by rw [hu]; exact work_setDir _ _
  have hue : u.entryAt i = some { e with incoming := some inc } := by
    rw [hu]; simp [gathered, State.entryAt]
  have huo : ∀ j, j ≠ i → u.entryAt j = s.entryAt j := by
    intro j hj
    have hne : ¬ i.val = j.val := fun x => hj (Fin.ext x.symm)
    rw [hu]; simp [gathered, State.entryAt, hne]
  obtain ⟨v, hv⟩ : ∃ v, v = s.decideArea e.key.region (classByTable25 e g).1 d.area := ⟨_, rfl⟩
  obtain ⟨c, hcd⟩ : ∃ c, c = contentOf inc d g s.now := ⟨_, rfl⟩
  obtain ⟨y, hy⟩ : ∃ y, y = modEntry i (exchangeContent c g v.result s.now) (promoteSegs i (releaseGroup i .current u)) :=
    ⟨_, rfl⟩
  have hcomp : complete i g u = settleCompletion i e.state v y := by
    have hdec : u.decideArea e.key.region (classAfter { e with incoming := some inc } g).1 d.area = v := by
      rw [hv, hu, classAfter_eq]; rfl
    unfold complete
    rw [hue]
    dsimp only
    rw [hp]
    dsimp only
    rw [hdec, hy, hcd, huw.now]
  obtain ⟨e1, he1⟩ : ∃ e1, e1 = exchangeContent c g v.result s.now { e with incoming := some inc } := ⟨_, rfl⟩
  have hye : y.entryAt i = some e1 := by
    rw [hy, State.entryAt_modEntry_same]
    show (u.entryAt i).map _ = _
    rw [hue, he1]; rfl
  have hyo : ∀ j, j ≠ i → y.entryAt j = s.entryAt j := by
    intro j hj
    rw [hy, State.entryAt_modEntry, if_neg (fun x => hj x.symm)]
    exact huo j hj
  have hseg : y.dir.segs = (segs.filter (fun x => !(decide (x.slot = i) && decide (x.group = .current)))).map
      (fun x => if x.slot = i then { x with group := .current } else x) := by
    rw [hy]; simp only [State.segs_modEntry]
    show List.map _ (List.filter _ u.dir.segs) = _
    rw [hu]; rfl
  have hkept : y.dir.useCounts = s.dir.useCounts ∧ y.dir.retired = s.dir.retired ∧ y.rcpt = s.rcpt ∧ y.area = s.area ∧
      y.host = s.host ∧ y.arb = s.arb ∧ y.now = s.now := by
    rw [hy, hu]; simp [gathered, promoteSegs, releaseGroup, State.setSegs, State.setDir]
  obtain ⟨k1, k2, k3, k4, k5, k6, k7⟩ := hkept
  have hcls : e1.cls = (classByTable25 e g).1 := by
    rw [he1, exchangeContent, classAfter_eq]; rfl
  have hplay : y.playsAt i = s.playsAt i := by
    have hh : y.handleOf i = s.handleOf i := by simp only [State.handleOf, k1]
    unfold State.playsAt
    rw [k6, hh]
  have halert : ∀ t : State, t.host = s.host → alertRequest t e1.cls = freshAlert s (classByTable25 e g).1 := by
    intro t ht; simp only [alertRequest, State.attentionMs, freshAlert, hcls, ht]
  have hreq : e1.request = e.request := by rw [he1]; rfl
  have hE : completedEntry p g d s e = joinLink p.link (resetReminders e1) := by
    rw [he1, hcd, completedEntry, exchangeContent, classAfter_eq, contentOf, hr, hn, ← hv]
    rfl
  have hch : e1.changed = true := by rw [he1]; rfl
  have hst : e1.state = e.state := by rw [he1]; rfl
  have hl : e1.links = e.links := by rw [he1]; rfl
  obtain ⟨z, hz⟩ : ∃ z, z = modEntry i (joinLink p.link) (settleCompletion i e.state v y) := ⟨_, rfl⟩
  have hW : Work s z := by
    rw [hz, ← hcomp]
    exact huw.trans ((work_complete i g u).trans (work_modEntry _ _ _))
  rw [hcomp, ← hz]
  -- the three endings: presented, held back, updated
  have present : ∀ k : EventKind, settleCompletion i e.state v y = post k (raiseAlert i (modEntry i presentEntry y)) →
      z.entryAt i = some { completedEntry p g d s e with
        state := .active, hold := none, restingAt := none, request := some (freshAlert s (classByTable25 e g).1) } ∧
      z.host.events = (post k s).host.events ∧ (s.arb.play ≠ none → z.arb = s.arb) ∧
      (s.arb.play = none → s.selects z) ∧ z.dir.segs = y.dir.segs ∧ z.dir.useCounts = s.dir.useCounts ∧
      z.dir.retired = s.dir.retired ∧ z.rcpt = s.rcpt ∧ z.area = s.area ∧ ∀ j, j ≠ i → z.entryAt j = s.entryAt j := by
    intro k hk
    obtain ⟨x, hx⟩ : ∃ x, x = modEntry i presentEntry y := ⟨_, rfl⟩
    rw [← hx] at hk
    have hxe : x.entryAt i = some (presentEntry e1) := by rw [hx, State.entryAt_modEntry_same, hye]; rfl
    have hxh : x.host = s.host := by rw [hx]; simpa using k5
    have hxa : x.arb = s.arb := by rw [hx]; simpa using k6
    obtain ⟨w1, w2, w3, w4, w5, w6⟩ := requestWork_kept (requestWork_raiseAlert i x)
    have hze : (raiseAlert i x).entryAt i = some (setRequest (some (alertRequest x e1.cls)) (presentEntry e1)) :=
      entryAt_raiseAlert_same i x _ hxe
    refine ⟨?_, ?_, fun h => ?_, fun h => ?_, ?_, ?_, ?_, ?_, ?_, fun j hj => ?_⟩
    · rw [hz, hk, State.entryAt_modEntry_same, entryAt_post, hze, halert x hxh, hE]
      simp [joinLink, presentEntry, resetReminders, setRequest, hch]
    · rw [hz, hk]; simp [post, w6, hxh]
    · rw [hz, hk]
      simp only [State.arb_modEntry]
      show (raiseAlert i x).arb = _
      rw [arb_raiseAlert i x (by rw [hxa]; exact h), hxa]
    · rw [hz, hk]
      refine selects_joinLink i p.link _ ?_
      exact State.selects_congr (selects_raiseAlert i _ x hxe (by rw [hxa]; exact h)) (by rw [hxa])
    · rw [hz, hk, State.segs_modEntry]; show (raiseAlert i x).dir.segs = _; rw [w1, hx, State.segs_modEntry]
    · rw [hz, hk, State.useCounts_modEntry]; show (raiseAlert i x).dir.useCounts = _; rw [w2, hx, State.useCounts_modEntry, k1]
    · rw [hz, hk, State.retired_modEntry]; show (raiseAlert i x).dir.retired = _; rw [w3, hx, State.retired_modEntry, k2]
    · rw [hz, hk, State.rcpt_modEntry]; show (raiseAlert i x).rcpt = _; rw [w4, hx, State.rcpt_modEntry, k3]
    · rw [hz, hk, State.area_modEntry]; show (raiseAlert i x).area = _; rw [w5, hx, State.area_modEntry, k4]
    · rw [hz, hk, State.entryAt_modEntry, if_neg (fun x => hj x.symm), entryAt_post, entryAt_raiseAlert_other i j x hj, hx,
        State.entryAt_modEntry, if_neg (fun x => hj x.symm), hyo j hj]
  have hold : ∀ h : HoldReason,
      settleCompletion i e.state v y = modEntry i (fun e => holdEntry h y.now (resetReminders e)) y →
      z.entryAt i = some { completedEntry p g d s e with state := .held, hold := some h, restingAt := some s.now } ∧
      z.host = s.host ∧ z.arb = s.arb ∧ z.dir.segs = y.dir.segs ∧ z.dir.useCounts = s.dir.useCounts ∧
      z.dir.retired = s.dir.retired ∧ z.rcpt = s.rcpt ∧ z.area = s.area ∧ ∀ j, j ≠ i → z.entryAt j = s.entryAt j := by
    intro h hk
    refine ⟨?_, ?_, ?_, ?_, ?_, ?_, ?_, ?_, fun j hj => ?_⟩
    · rw [hz, hk, State.entryAt_modEntry_same, State.entryAt_modEntry_same, hye, hE, k7]
      simp [joinLink, holdEntry, resetReminders, hch]
    all_goals first
      | (rw [hz, hk, State.entryAt_modEntry, if_neg (fun x => hj x.symm), State.entryAt_modEntry,
          if_neg (fun x => hj x.symm), hyo j hj])
      | (rw [hz, hk]; simp [k1, k2, k3, k4, k5, k6])
  have update : settleCompletion i e.state v y = post .alertUpdated (retrigger i (modEntry i resetReminders y)) →
      z.entryAt i = some { completedEntry p g d s e with request := some (freshAlert s (classByTable25 e g).1) } ∧
      z.host.events = (post .alertUpdated s).host.events ∧
      (e.request = none → (s.arb.play ≠ none → z.arb = s.arb) ∧ (s.arb.play = none → s.selects z)) ∧
      (e.request ≠ none → s.playsAt i = false → z.arb = s.arb) ∧
      (∀ q, e.request ≠ none → s.arb.play = some q → s.playsAt i = true →
        z.arb = { s.arb with
          play := if q.pattern = patternOf .alert (classByTable25 e g).1 then some { q with turn := 0 }
            else some { q with pattern := patternOf .alert (classByTable25 e g).1, segment := 0, into := 0, turn := 0 } }) ∧
      z.dir.segs = y.dir.segs ∧ z.dir.useCounts = s.dir.useCounts ∧
      z.dir.retired = s.dir.retired ∧ z.rcpt = s.rcpt ∧ z.area = s.area ∧ ∀ j, j ≠ i → z.entryAt j = s.entryAt j := by
    intro hk
    obtain ⟨x, hx⟩ : ∃ x, x = modEntry i resetReminders y := ⟨_, rfl⟩
    rw [← hx] at hk
    have hxe : x.entryAt i = some (resetReminders e1) := by rw [hx, State.entryAt_modEntry_same, hye]; rfl
    have hxh : x.host = s.host := by rw [hx]; simpa using k5
    have hxa : x.arb = s.arb := by rw [hx]; simpa using k6
    have hxp : x.playsAt i = s.playsAt i := by
      rw [← hplay, hx]; simp only [State.playsAt, State.arb_modEntry, State.handleOf_modEntry]
    have hxr : (resetReminders e1).request = e.request := hreq
    have hxc : (resetReminders e1).cls = (classByTable25 e g).1 := hcls
    obtain ⟨w1, w2, w3, w4, w5, w6⟩ := requestWork_kept (requestWork_retrigger i x)
    have hza : z.arb = (retrigger i x).arb := by rw [hz, hk, State.arb_modEntry]; rfl
    have hret : ∀ r, e.request = some r → retrigger i x = if x.playsAt i then
        (modEntry i (setRequest (some (alertRequest x (resetReminders e1).cls))) x).setArb { x.arb with
          play := x.arb.play.map (retriggerPlay (patternOf .alert (classByTable25 e g).1)) }
        else modEntry i (setRequest (some (alertRequest x (resetReminders e1).cls))) x := by
      intro r hr'
      unfold retrigger
      rw [hxe]
      dsimp only
      rw [hxr, hr', hxc]
      dsimp only
      rw [State.arb_modEntry]
    have hra : e.request = none → retrigger i x = raiseAlert i x := by
      intro hn'
      unfold retrigger
      rw [hxe]
      dsimp only
      rw [hxr, hn']
    refine ⟨?_, ?_, fun hn' => ⟨fun h => ?_, fun h => ?_⟩, fun hn' h => ?_, fun q hn' hq h => ?_, ?_, ?_, ?_, ?_, ?_, fun j hj => ?_⟩
    · rw [hz, hk, State.entryAt_modEntry_same, entryAt_post, entryAt_retrigger_same i x _ hxe]
      show some (joinLink _ (setRequest (some (alertRequest x e1.cls)) _)) = _
      rw [halert x hxh, hE]
      simp [joinLink, resetReminders, setRequest, hch]
    · rw [hz, hk]; simp [post, w6, hxh]
    · rw [hza, hra hn', arb_raiseAlert i x (by rw [hxa]; exact h), hxa]
    · rw [hz, hk]
      refine selects_joinLink i p.link _ ?_
      show s.selects (retrigger i x)
      rw [hra hn']
      exact State.selects_congr (selects_raiseAlert i _ x hxe (by rw [hxa]; exact h)) (by rw [hxa])
    · obtain ⟨r, hr'⟩ := Option.ne_none_iff_exists'.mp hn'
      rw [hza, hret r hr', hxp, h]
      simpa using hxa
    · obtain ⟨r, hr'⟩ := Option.ne_none_iff_exists'.mp hn'
      rw [hza, hret r hr', hxp, h]
      simp only [if_true]
      show ({ x.arb with play := _ } : Arbiter) = _
      rw [hxa, hq]
      simp only [Option.map_some, retriggerPlay]
      split <;> rfl
    · rw [hz, hk, State.segs_modEntry]; show (retrigger i x).dir.segs = _; rw [w1, hx, State.segs_modEntry]
    · rw [hz, hk, State.useCounts_modEntry]; show (retrigger i x).dir.useCounts = _; rw [w2, hx, State.useCounts_modEntry, k1]
    · rw [hz, hk, State.retired_modEntry]; show (retrigger i x).dir.retired = _; rw [w3, hx, State.retired_modEntry, k2]
    · rw [hz, hk, State.rcpt_modEntry]; show (retrigger i x).rcpt = _; rw [w4, hx, State.rcpt_modEntry, k3]
    · rw [hz, hk, State.area_modEntry]; show (retrigger i x).area = _; rw [w5, hx, State.area_modEntry, k4]
    · rw [hz, hk, State.entryAt_modEntry, if_neg (fun x => hj x.symm), entryAt_post, entryAt_retrigger_other i j x hj, hx,
        State.entryAt_modEntry, if_neg (fun x => hj x.symm), hyo j hj]
  have other : ∀ k : EventKind, e.state ≠ .active → (k = if e.state = .assembling then .newAlert else .alertUpdated) →
      (settleCompletion i e.state v y = match v.hold with
        | none => post k (raiseAlert i (modEntry i presentEntry y))
        | some h => modEntry i (fun e => holdEntry h y.now (resetReminders e)) y) →
      CompletedBy i e p g d segs s z := by
    intro k hna hk hset
    cases hh : v.hold with
    | none =>
      obtain ⟨a1, a2, a3, a4, a6, a7, a8, a9, a10, a11⟩ := present k (by rw [hset, hh])
      exact { presented := fun _ _ => ⟨a1, by rw [a2, hk], a3, a4⟩
              heldBack := fun _ h hx => by rw [← hv, hh] at hx; cases hx
              updated := fun h => absurd h hna
              texts := a6.trans hseg, others := a11, useCounts := a7, retired := a8, receipts := a9, area := a10, work := hW }
    | some r =>
      obtain ⟨a1, a2, a3, a6, a7, a8, a9, a10, a11⟩ := hold r (by rw [hset, hh])
      exact { presented := fun _ hx => by rw [← hv, hh] at hx; cases hx
              heldBack := fun _ h hx => by rw [← hv, hh] at hx; cases hx; exact ⟨a1, by rw [a2], a3⟩
              updated := fun h => absurd h hna
              texts := a6.trans hseg, others := a11, useCounts := a7, retired := a8, receipts := a9, area := a10, work := hW }
  cases hs : e.state with
  | cancelled => exact absurd hs hc
  | active =>
    obtain ⟨a1, a2, a3, a4, a5, a6, a7, a8, a9, a10, a11⟩ := update (by rw [hs]; rfl)
    exact { presented := fun h => absurd hs h, heldBack := fun h => absurd hs h, updated := fun _ => ⟨a1, a2, a3, a4, a5⟩,
            texts := a6.trans hseg, others := a11, useCounts := a7, retired := a8, receipts := a9, area := a10, work := hW }
  | assembling => exact other .newAlert (by simp [hs]) (by simp [hs]) (by rw [hs]; rfl)
  | held => exact other .alertUpdated (by simp [hs]) (by simp [hs]) (by rw [hs]; rfl)
  | acknowledged => exact other .alertUpdated (by simp [hs]) (by simp [hs]) (by rw [hs]; rfl)

/-- A change of an entry that is there. -/
theorem modEntry_some {i : EntrySlot} {e : Entry} {s : State} (h : s.entryAt i = some e) (f : Entry → Entry) :
    modEntry i f s = s.putEntry i (some (f e)) := by simp [modEntry, h]

/-- All parts are present (R96). -/
theorem allPartsPresent_iff (ps : List Nat) (n : Nat) : allPartsPresent ps n = true ↔ ∀ k, 1 ≤ k → k ≤ n → k ∈ ps := by
  simp only [allPartsPresent, List.all_eq_true, List.mem_range, List.contains_iff_mem]
  constructor
  · intro h k h1 h2; have := h (k-1) (by omega); rwa [Nat.sub_add_cancel h1] at this
  · intro h k hk; exact h _ (by omega) (by omega)

/-- A revision started with a segment free (R92, R96). -/
theorem startRevision_free (i : EntrySlot) (p : Page) (g : Governing) (e : Entry) (s : State) (he : s.entryAt i = some e) (hl : s.dir.segs.length < 160) :
   startRevision i p g s = if p.partCount = 1 then some (complete i g (gathered i e (startedRevision p g s.now) (s.dir.segs ++ [⟨i, .incoming, p.partIndex, p.text⟩]) s), .storedDone)
      else some (gathered i e (startedRevision p g s.now) (s.dir.segs ++ [⟨i, .incoming, p.partIndex, p.text⟩]) s, .storedMore) := by
  unfold startRevision takeSegment
  rw [if_pos hl]
  dsimp only
  have : modEntry i (fun e => { e with incoming := some (startedRevision p g (putSegment i p.partIndex p.text s).now) }) (putSegment i p.partIndex p.text s)
     = gathered i e (startedRevision p g s.now) (s.dir.segs ++ [⟨i, .incoming, p.partIndex, p.text⟩]) s := by
    rw [modEntry_some (show (putSegment i p.partIndex p.text s).entryAt i = some e from he)]; rfl
  rw [this]

end Sys2Proof.Machine
end

