-- ==== Sys2Proof/Laws/Offers.lean ====
section
/-! SUPPORT. What an offer, a receipt state's move and a refusal do: one lemma for each, over the records of the queue, the
entry named, and the target's outstanding receipt (R157, R160, R161). -/

namespace Sys2Proof.Machine

theorem entryAt_setReceipt (h : Handle) (x : ReceiptState) (s : State) (j : EntrySlot) :
    (setReceipt h x s).entryAt j =
      if j = h.slot then (s.entryAt j).map (fun e => if s.named h = none then e else { e with receipt := x, changed := true })
      else s.entryAt j := by
  unfold setReceipt modNamed
  cases hn : s.named h with
  | none => simp
  | some e =>
    simp only
    rw [State.entryAt_modEntry]
    simp [eq_comm]

theorem setReceipt_only (h : Handle) (x : ReceiptState) (s : State) : setReceipt h x s = s.setDir (setReceipt h x s).dir := by
  unfold setReceipt modNamed modEntry
  split
  · rfl
  · split <;> rfl

/-- Entries and names depend on the directory alone. -/
theorem entryAt_congr {s t : State} (h : t.dir = s.dir) (j : EntrySlot) : t.entryAt j = s.entryAt j := by
  unfold State.entryAt; rw [h]
theorem named_congr {s t : State} (h : t.dir = s.dir) (x : Handle) : t.named x = s.named x := by
  unfold State.named; rw [h, entryAt_congr h]

theorem dir_setReceipt_congr {s t : State} (h : t.dir = s.dir) (g : Handle) (x : ReceiptState) : (setReceipt g x t).dir = (setReceipt g x s).dir := by
  unfold setReceipt modNamed modEntry
  rw [named_congr h, entryAt_congr h]
  split
  · exact h
  · split
    · exact h
    · simp [State.putEntry, h]

theorem dir_makeOffer (r : ReceiptRecord) (s : State) : (makeOffer r s).dir = (setReceipt r.handle .offered s).dir := by
  unfold makeOffer
  simp only [State.dir_modLink, enqueue]
  exact dir_setReceipt_congr (s := s) (t := modRecord r.id _ s) rfl _ _

theorem rcpt_setReceipt (h : Handle) (x : ReceiptState) (s : State) : (setReceipt h x s).rcpt = s.rcpt := by
  rw [setReceipt_only]; rfl
theorem queue_makeOffer (r : ReceiptRecord) (s : State) : (makeOffer r s).rcpt.queue =
    s.rcpt.queue.map (fun x => if x.id = r.id then { x with state := .offered, deadline := some (s.now + 30000) } else x) := by
  unfold makeOffer
  simp only [State.rcpt_modLink, enqueue, rcpt_setReceipt, modRecord, State.setQueue]
  rfl

theorem link_makeOffer (r : ReceiptRecord) (s : State) (l : LinkId) : (makeOffer r s).link l =
    if l = r.target then { s.link l with outQ := pushFrame (s.link l).outQ (.receipt r.id r.key r.revision r.delay), outstanding := some r.id }
    else s.link l := by
  unfold makeOffer
  simp only [enqueue]
  rw [State.link_modLink, State.link_modLink, link_setReceipt]
  split <;> rfl

theorem offeredBy_makeOffer (r : ReceiptRecord) (s : State) : OfferedBy r s (makeOffer r s) := by
  have he : ∀ j, (makeOffer r s).entryAt j = (setReceipt r.handle .offered s).entryAt j := fun j => entryAt_congr (dir_makeOffer r s) j
  refine ⟨queue_makeOffer r s, ?_, ?_, ?_⟩
  · intro e hn
    have hx : s.entryAt r.handle.slot = some e := by
      unfold State.named at hn; split at hn; exact hn; cases hn
    rw [he, entryAt_setReceipt, if_pos rfl, hx]; simp [hn]
  · intro j hj
    rw [he, entryAt_setReceipt]
    split
    · rename_i e; rcases hj with hj | hj
      · exact absurd e hj
      · simp [hj]
    · rfl
  · rw [link_makeOffer, if_pos rfl]


/-- What an offer does: nothing, or the offer of the oldest QUEUED record of a link in UP with none outstanding. -/
theorem offer_cases (l : LinkId) (s : State) :
    (offer l s = s ∧ ((s.link l).state ≠ .up ∨ (s.link l).outstanding ≠ none ∨ s.nextReceipt l = none)) ∨
    ∃ y, (s.link l).state = .up ∧ (s.link l).outstanding = none ∧ s.nextReceipt l = some y ∧ offer l s = makeOffer y s := by
  unfold offer
  split
  · rename_i h
    cases hn : s.nextReceipt l with
    | none => exact .inl ⟨rfl, .inr (.inr rfl)⟩
    | some y => exact .inr ⟨y, h.1, h.2, rfl, rfl⟩
  · rename_i h
    refine .inl ⟨rfl, ?_⟩
    by_cases hu : (s.link l).state = .up
    · exact .inr (.inl fun ho => h ⟨hu, ho⟩)
    · exact .inl hu

theorem nextReceipt_mem {s : State} {l : LinkId} {r : ReceiptRecord} (h : s.nextReceipt l = some r) : r ∈ s.rcpt.queue :=
  List.mem_of_find?_eq_some h

/-- A record of another id stays, in its place, when a record is offered. -/
theorem mem_makeOffer {r x : ReceiptRecord} {s : State} (h : x.id ≠ r.id) : x ∈ (makeOffer r s).rcpt.queue ↔ x ∈ s.rcpt.queue := by
  rw [queue_makeOffer, List.mem_map]
  constructor
  · rintro ⟨y, hy, rfl⟩
    split at h
    · rename_i e; exact absurd e h
    · rename_i e; rw [if_neg e]; exact hy
  · intro hx; exact ⟨x, hx, if_neg h⟩

theorem ids_makeOffer (r : ReceiptRecord) (s : State) : (makeOffer r s).rcpt.queue.map (·.id) = s.rcpt.queue.map (·.id) := by
  rw [queue_makeOffer, List.map_map]
  apply List.map_congr_left
  intro x _
  simp only [Function.comp]
  split <;> rfl

theorem entry_makeOffer (r : ReceiptRecord) (s : State) (j : EntrySlot) (h : j ≠ r.handle.slot ∨ s.named r.handle = none) :
    (makeOffer r s).entryAt j = s.entryAt j := (offeredBy_makeOffer r s).entries j h

/-- What a refused record becomes when it is retargeted. -/
def moved (r : ReceiptRecord) : ReceiptRecord := { r with target := r.target.other, attempts := 1, state := .queued, deadline := none }

/-- An entry's receipt is not touched by the offer of another's record. -/
theorem receipt_makeOffer {y : ReceiptRecord} {h : Handle} {s : State} {e : Entry} (hn : s.named h = some e) (hy : y.handle ≠ h) :
    (makeOffer y s).named h = some e := by
  have hd := dir_makeOffer y s
  have hu : (makeOffer y s).dir.useCounts = s.dir.useCounts := by
    rw [hd]; exact (receiptWork_setReceipt _ _ _).directory.2.1
  unfold State.named at hn ⊢
  rw [hu]
  split at hn
  · rename_i hc
    rw [if_pos hc, entry_makeOffer]
    · exact hn
    · by_cases hs : h.slot = y.handle.slot
      · right
        unfold State.named
        rw [if_neg]
        intro hc2
        apply hy
        have : y.handle.use = h.use := by simp only [← hs] at hc2; exact hc2.symm.trans hc
        cases hh : h; cases hy2 : y.handle; simp_all
      · exact .inl hs
  · cases hn


theorem named_setReceipt {s : State} {h : Handle} {e : Entry} (x : ReceiptState) (hn : s.named h = some e) :
    (setReceipt h x s).named h = some { e with receipt := x, changed := true } := by
  have hu : (setReceipt h x s).dir.useCounts = s.dir.useCounts := (receiptWork_setReceipt _ _ _).directory.2.1
  have he := named_entryAt hn
  unfold State.named
  rw [hu]
  unfold State.named at hn
  split at hn
  · rename_i hc
    rw [if_pos hc, entryAt_setReceipt, if_pos rfl, he]
    simp [State.named, hc, he]
  · cases hn

theorem offered_named {r : ReceiptRecord} {s : State} {e : Entry} (hn : s.named r.handle = some e) :
    (makeOffer r s).named r.handle = some { e with receipt := .offered, changed := true } := by
  have := named_setReceipt .offered hn
  rw [← this]
  exact named_congr (dir_makeOffer r s) _

theorem host_setReceipt (h : Handle) (x : ReceiptState) (s : State) : (setReceipt h x s).host = s.host := by
  rw [setReceipt_only]; rfl
theorem now_setReceipt (h : Handle) (x : ReceiptState) (s : State) : (setReceipt h x s).now = s.now := by
  rw [setReceipt_only]; rfl

theorem host_makeOffer (r : ReceiptRecord) (s : State) : (makeOffer r s).host = s.host := by
  unfold makeOffer
  simp only [State.host_modLink, enqueue, host_setReceipt]
  rfl

/-- A first refusal while the other link is UP retargets the record (R161). -/
theorem refusedBy_retarget (r : ReceiptRecord) (s : State) (hr : r ∈ s.rcpt.queue) (hn : (s.rcpt.queue.map (·.id)).Nodup)
    (hu : ∀ x ∈ s.rcpt.queue, x.handle = r.handle → x.id = r.id)
    (h0 : r.attempts = 0) (hup : (s.link r.target.other).state = .up) :
    RefusedBy r s (refuse r s) ∧ (refuse r s).host = s.host := by
  have uniq : ∀ x ∈ s.rcpt.queue, x.id = r.id → x = r := by
    intro x hx he
    exact List.inj_on_of_nodup_map hn hx hr he
  -- the middle state
  obtain ⟨mid, hmid⟩ : ∃ m, m = setReceipt r.handle .queued
        (modRecord r.id
          (fun x => { x with target := r.target.other, attempts := r.attempts + 1, state := .queued, deadline := none })
          (clearOutstanding r.target s)) := ⟨_, rfl⟩
  have hnm : (clearOutstanding r.target s).dir = s.dir := by simp [clearOutstanding]
  have href : refuse r s = offer r.target.other (offer r.target mid) := by
    have hl : ((clearOutstanding r.target s).link r.target.other).state = .up := by simpa [clearOutstanding] using hup
    unfold refuse
    simp only [h0, hl]
    simp [hmid, h0]
  have mq : mid.rcpt.queue = s.rcpt.queue.map (fun x => if x.id = r.id then moved x else x) := by
    rw [hmid, rcpt_setReceipt]
    simp only [modRecord, State.setQueue, clearOutstanding, State.rcpt_modLink]
    show List.map _ _ = _
    apply List.map_congr_left
    intro x hx
    split
    · rename_i he; rw [uniq x hx he]; simp [moved, h0]
    · rfl
  have mids : mid.rcpt.queue.map (·.id) = s.rcpt.queue.map (·.id) := by
    rw [mq, List.map_map]; apply List.map_congr_left; intro x _; simp only [Function.comp]; split <;> rfl
  have mr : moved r ∈ mid.rcpt.queue := by rw [mq, List.mem_map]; exact ⟨r, hr, if_pos rfl⟩
  have mother : ∀ y ∈ mid.rcpt.queue, y.id ≠ r.id → y ∈ s.rcpt.queue := by
    intro y hy hne
    rw [mq, List.mem_map] at hy
    obtain ⟨x, hx, rfl⟩ := hy
    split at hne
    · rename_i he; exact absurd (by simpa [moved] using he) hne
    · rename_i he; rw [if_neg he]; exact hx
  have mmoved : ∀ y ∈ mid.rcpt.queue, y.id = r.id → y = moved r := by
    intro y hy he
    rw [mq, List.mem_map] at hy
    obtain ⟨x, hx, rfl⟩ := hy
    split at he
    · rename_i h2; rw [if_pos h2, uniq x hx h2]
    · rename_i h2; exact absurd he h2
  have mname : ∀ e, s.named r.handle = some e → mid.named r.handle = some { e with receipt := .queued, changed := true } := by
    intro e he
    rw [hmid]
    apply named_setReceipt
    rw [← he]; exact named_congr hnm _
  have mlink : ∀ l, mid.link l = if l = r.target then { s.link l with outstanding := none } else s.link l := by
    intro l
    rw [hmid, link_setReceipt]
    show (clearOutstanding r.target s).link l = _
    unfold clearOutstanding
    rw [State.link_modLink]
  have mhost : mid.host = s.host := by rw [hmid, host_setReceipt]; simp [modRecord, State.setQueue, clearOutstanding]
  have mnow : mid.now = s.now := by rw [hmid, now_setReceipt]; simp [modRecord, State.setQueue, clearOutstanding]
  -- first offer
  obtain ⟨A, hA⟩ : ∃ A, A = offer r.target mid := ⟨_, rfl⟩
  have a : (moved r ∈ A.rcpt.queue ∧ A.rcpt.queue.map (·.id) = s.rcpt.queue.map (·.id) ∧
      (∀ e, s.named r.handle = some e → A.named r.handle = some { e with receipt := .queued, changed := true }) ∧
      A.link r.target.other = s.link r.target.other ∧ A.host = s.host ∧ A.now = s.now ∧ (A.link r.target).outstanding ≠ some r.id) ∧
      (∀ y ∈ A.rcpt.queue, y.target = r.target.other → y.state = .queued → y.id ≠ r.id → y ∈ s.rcpt.queue) ∧
      (∀ y ∈ A.rcpt.queue, y.id ≠ r.id → ∃ z ∈ s.rcpt.queue, z.id = y.id ∧ z.handle = y.handle) := by
    rcases offer_cases r.target mid with ⟨h, _⟩ | ⟨y, h1, h2, h3, h4⟩
    · rw [hA, h]
      refine ⟨⟨mr, mids, mname, ?_, mhost, mnow, ?_⟩, fun y hy _ _ hne => mother y hy hne, fun y hy hne => ⟨y, mother y hy hne, rfl, rfl⟩⟩
      · rw [mlink, if_neg (LinkId.other_ne _)]
      · rw [mlink, if_pos rfl]; simp
    · have ht := nextReceipt_target h3
      have hy := nextReceipt_mem h3
      have hid : y.id ≠ r.id := by
        intro he
        have := mmoved y hy he
        rw [this] at ht
        exact LinkId.other_ne _ ht.1
      have hys := mother y hy hid
      have hh : y.handle ≠ r.handle := fun he => hid (hu y hys he)
      rw [hA, h4]
      refine ⟨⟨(mem_makeOffer (x := moved r) (fun e => hid e.symm)).2 mr, (ids_makeOffer _ _).trans mids, fun e he => receipt_makeOffer (mname e he) hh, ?_, (host_makeOffer _ _).trans mhost, ?_, ?_⟩, ?_, ?_⟩
      · rw [link_makeOffer, ht.1, if_neg (LinkId.other_ne _), mlink, if_neg (LinkId.other_ne _)]
      · have := (receiptWork_makeOffer y mid); exact (work_makeOffer y mid (by rw [ht.1]; exact h1)).now.trans mnow
      · rw [link_makeOffer, ht.1, if_pos rfl]; simp [hid]
      · intro z hz htz hsz hne
        by_cases hzy : z.id = y.id
        · rw [queue_makeOffer, List.mem_map] at hz
          obtain ⟨w, hw, rfl⟩ := hz
          split at hzy
          · rename_i e; rw [if_pos e] at hsz; cases hsz
          · rename_i e; exact absurd hzy e
        · exact mother z ((mem_makeOffer hzy).1 hz) hne
      · intro z hz hne
        rw [queue_makeOffer, List.mem_map] at hz
        obtain ⟨w, hw, rfl⟩ := hz
        have : w.id ≠ r.id := by split at hne <;> exact hne
        exact ⟨w, mother w hw this, by split <;> rfl, by split <;> rfl⟩
  obtain ⟨⟨a1, a2, a3, a4, a5, a6, a7⟩, a8, a9⟩ := a
  rw [href, ← hA]
  rcases offer_cases r.target.other A with ⟨h, hc⟩ | ⟨y, h1, h2, h3, h4⟩
  · rw [h]
    refine ⟨⟨a7, fun _ _ => ⟨a2, moved r, a1, rfl, rfl, rfl, rfl, rfl, rfl, rfl, ?_, ?_, ?_⟩, fun h => ?_⟩, a5⟩
    · intro e he; rw [named_entryAt (a3 e he)]; rfl
    · intro hno hq
      exfalso
      rcases hc with hc | hc | hc
      · rw [a4] at hc; exact hc hup
      · rw [a4] at hc; exact hc hno
      · have := List.find?_eq_none.1 hc (moved r) a1; simp [moved] at this
    · intro _; exact ⟨rfl, rfl⟩
    · rcases h with h | h
      · omega
      · exact absurd hup h
  · have ht := nextReceipt_target h3
    have hy := nextReceipt_mem h3
    rw [h4]
    have hout : ((makeOffer y A).link r.target).outstanding ≠ some r.id := by
      rw [link_makeOffer, ht.1, if_neg (fun e => LinkId.other_ne _ e.symm)]; exact a7
    have hids := (ids_makeOffer y A).trans a2
    by_cases hid : y.id = r.id
    · have hym : y = moved r := by
        have : (A.rcpt.queue.map (·.id)).Nodup := by rw [a2]; exact hn
        exact List.inj_on_of_nodup_map this hy a1 (by simpa [moved] using hid)
      subst hym
      refine ⟨⟨hout, fun _ _ => ⟨hids, { moved r with state := .offered, deadline := some (s.now + 30000) }, ?_, rfl, rfl, rfl, rfl, rfl, rfl, rfl, ?_, ?_, ?_⟩, fun h => ?_⟩, (host_makeOffer _ _).trans a5⟩
      · rw [queue_makeOffer, List.mem_map]; exact ⟨moved r, a1, by rw [a6]; simp⟩
      · intro e he
        have := named_entryAt (offered_named (r := moved r) (a3 e he))
        rw [show (moved r).handle = r.handle from rfl] at this
        rw [this]; rfl
      · intro _ _
        refine ⟨rfl, rfl, ?_, ?_⟩
        · rw [link_makeOffer, show (moved r).target = r.target.other from rfl, if_pos rfl]; rfl
        · rw [link_makeOffer, show (moved r).target = r.target.other from rfl, if_pos rfl, a4]; rfl
      · intro hno; rw [a4] at h2; exact absurd h2 hno
      · rcases h with h | h
        · omega
        · exact absurd hup h
    · refine ⟨⟨hout, fun _ _ => ⟨hids, moved r, ?_, rfl, rfl, rfl, rfl, rfl, rfl, rfl, ?_, ?_, ?_⟩, fun h => ?_⟩, (host_makeOffer _ _).trans a5⟩
      · exact (mem_makeOffer (x := moved r) (fun e => hid e.symm)).2 a1
      · intro e he
        have hh : y.handle ≠ r.handle := by
          intro hh
          obtain ⟨z, hz, hz1, hz2⟩ := a9 y hy hid
          exact hid (hz1 ▸ hu z hz (hz2.trans hh))
        rw [named_entryAt (receipt_makeOffer (a3 e he) hh)]; rfl
      · intro _ hq
        exact absurd ht.2 (hq y (a8 y hy ht.1 ht.2 hid) ht.1)
      · intro _; exact ⟨rfl, rfl⟩
      · rcases h with h | h
        · omega
        · exact absurd hup h


/-- An offer keeps a record absent that was absent, events and counters, and an entry's name that no record has. -/
theorem offer_absent (l : LinkId) (id : ReceiptId) (h : Handle) (s : State) (hq : ∀ x ∈ s.rcpt.queue, x.id ≠ id)
    (hh : ∀ x ∈ s.rcpt.queue, x.handle ≠ h) :
    (∀ x ∈ (offer l s).rcpt.queue, x.id ≠ id) ∧ (∀ x ∈ (offer l s).rcpt.queue, x.handle ≠ h) ∧
    (offer l s).host = s.host ∧ (∀ e, s.named h = some e → (offer l s).named h = some e) ∧
    (∀ m, (s.link m).outstanding ≠ some id → ((offer l s).link m).outstanding ≠ some id) := by
  rcases offer_cases l s with ⟨e, _⟩ | ⟨y, h1, h2, h3, e⟩
  · rw [e]; exact ⟨hq, hh, rfl, fun _ h => h, fun _ h => h⟩
  · have hy := nextReceipt_mem h3
    rw [e]
    refine ⟨?_, ?_, host_makeOffer _ _, fun e he => receipt_makeOffer he (hh y hy), ?_⟩
    · intro x hx
      rw [queue_makeOffer, List.mem_map] at hx
      obtain ⟨z, hz, rfl⟩ := hx
      have := hq z hz
      split <;> exact this
    · intro x hx
      rw [queue_makeOffer, List.mem_map] at hx
      obtain ⟨z, hz, rfl⟩ := hx
      have := hh z hz
      split <;> exact this
    · intro m hm
      rw [link_makeOffer]
      split
      · simp only [ne_eq, Option.some.injEq]; exact hq y hy
      · exact hm

/-- A second refusal, or one while the other link is not UP, fails the record (R161). -/
theorem refusedBy_fail (r : ReceiptRecord) (s : State)
    (hu : ∀ x ∈ s.rcpt.queue, x.handle = r.handle → x.id = r.id)
    (h : 1 ≤ r.attempts ∨ (s.link r.target.other).state ≠ .up) : RefusedBy r s (refuse r s) := by
  obtain ⟨mid, hmid⟩ : ∃ m, m = receiptFailed (setReceipt r.handle (.failed .undelivered) (dropRecord r.id (clearOutstanding r.target s))) := ⟨_, rfl⟩
  have href : refuse r s = offer r.target.other (offer r.target mid) := by
    have hn : ¬ (r.attempts + 1 < 2 ∧ ((clearOutstanding r.target s).link r.target.other).state = .up) := by
      rintro ⟨h1, h2⟩
      rcases h with h | h
      · omega
      · exact h (by simpa [clearOutstanding] using h2)
    unfold refuse
    simp only
    rw [if_neg hn, hmid]
  have mq : mid.rcpt.queue = s.rcpt.queue.filter (fun x => !decide (x.id = r.id)) := by
    rw [hmid]
    simp only [receiptFailed, State.rcpt_countGlobal, State.rcpt_post, rcpt_setReceipt, dropRecord, State.setQueue, State.rcpt_setRcpt, clearOutstanding, State.rcpt_modLink]
  have hq : ∀ x ∈ mid.rcpt.queue, x.id ≠ r.id := by intro x hx; rw [mq] at hx; simpa using (List.mem_filter.1 hx).2
  have hh : ∀ x ∈ mid.rcpt.queue, x.handle ≠ r.handle := by
    intro x hx e; exact hq x hx (hu x (by rw [mq] at hx; exact (List.mem_filter.1 hx).1) e)
  have hlink : (mid.link r.target).outstanding ≠ some r.id := by
    rw [hmid]; simp only [receiptFailed, State.link_countGlobal, State.link_post, link_setReceipt]
    show ((clearOutstanding r.target s).link r.target).outstanding ≠ _
    simp [clearOutstanding]
  have hname : ∀ e, s.named r.handle = some e → mid.named r.handle = some { e with receipt := .failed .undelivered, changed := true } := by
    intro e he
    rw [hmid]
    refine (named_congr (t := receiptFailed _) rfl r.handle).trans (named_setReceipt (.failed .undelivered) ?_)
    rw [← he]; exact named_congr (by simp [dropRecord, State.setQueue, clearOutstanding]) _
  obtain ⟨b1, b2, b3, b4, b5⟩ := offer_absent r.target r.id r.handle mid hq hh
  obtain ⟨c1, c2, c3, c4, c5⟩ := offer_absent r.target.other r.id r.handle _ b1 b2
  rw [href]
  refine ⟨c5 _ (b5 _ hlink), fun h0 h1 => ?_, fun _ => ⟨c1, ?_, ?_, ?_⟩⟩
  · rcases h with h | h
    · omega
    · exact absurd h1 h
  · rw [c3, b3, hmid]
    exact holds_post .receiptDone _
  · rw [c3, b3, hmid]
    simp only [receiptFailed, countGlobal, post, State.host_setHost, host_setReceipt, dropRecord, State.setQueue, State.host_setRcpt, clearOutstanding, State.host_modLink]
    rfl
  · intro e he
    rw [named_entryAt (c4 _ (b4 _ (hname e he)))]; rfl

/-- A frame in progress that its last byte completes (R189). -/
theorem completing_of {s : State} {l : LinkId} {k : FrameKind} {b : List Byte} {f : FrameProgress}
    (hs : (s.link l).state ≠ .faulted) (hf : (s.link l).frame = some f) (hh : f.header = if b.length = 0 then none else some ⟨k, b.length⟩) :
    s.completing l k b = some f := by
  unfold State.completing
  rw [if_neg hs, hf]
  cases b <;> simp [Option.filter, hh]

end Sys2Proof.Machine
end

