-- ==== Sys2Proof/Laws/NextOffers.lean ====
section
/-! SUPPORT. What follows at a link once its record is settled or refused: the next QUEUED record is offered, every other
record stands (R39, R157, R159, R161). -/

namespace Sys2Proof.Machine

/-- An offer leaves the last id. -/
theorem lastId_makeOffer (r : ReceiptRecord) (s : State) : (makeOffer r s).rcpt.lastId = s.rcpt.lastId := by
  unfold makeOffer
  simp only [State.rcpt_modLink, enqueue, rcpt_setReceipt, modRecord, State.setQueue]; rfl

/-- The records of other ids. -/
def othersOf (r : ReceiptRecord) (q : List ReceiptRecord) : List ReceiptRecord := q.filter (fun y => decide (y.id ≠ r.id))

/-- Of two handles of one slot, the use count is that of the one that names an entry. -/
theorem use_ne {s : State} {g h : Handle} {e : Entry} (hn : s.named g = some e) (hg : g ≠ h) (hs : g.slot = h.slot) :
    s.dir.useCounts[h.slot] ≠ h.use := by
  intro hc2
  unfold State.named at hn
  split at hn
  · rename_i hc
    apply hg
    have : h.use = g.use := by simp only [← hs] at hc2; exact hc2.symm.trans hc
    cases g; cases h; simp_all
  · cases hn

/-- A handle that is not a current one names no entry. -/
theorem named_of_use_ne {s : State} {h : Handle} (hc : s.dir.useCounts[h.slot] ≠ h.use) : s.named h = none := by
  unfold State.named; rw [if_neg hc]

/-- A receipt state's move leaves what another handle names. -/
theorem entryAt_setReceipt_other {s : State} {g h : Handle} {e : Entry} (x : ReceiptState) (hn : s.named g = some e)
    (hg : g ≠ h) : (setReceipt h x s).entryAt g.slot = s.entryAt g.slot := by
  rw [entryAt_setReceipt]
  split
  · rename_i hs; simp [named_of_use_ne (use_ne hn hg hs)]
  · rfl

theorem useCounts_setReceipt (h : Handle) (x : ReceiptState) (s : State) :
    (setReceipt h x s).dir.useCounts = s.dir.useCounts := (receiptWork_setReceipt _ _ _).directory.2.1

/-- An offer maps the other records alone when it is of one of them, and none when it is of the record itself. -/
theorem others_makeOffer (r x : ReceiptRecord) (s : State) :
    othersOf r (makeOffer x s).rcpt.queue = (othersOf r s.rcpt.queue).map
      (fun y => if y.id = x.id then { y with state := .offered, deadline := some (s.now + 30000) } else y) := by
  rw [queue_makeOffer]
  unfold othersOf
  rw [List.filter_map]
  congr 1
  apply List.filter_congr
  intro y _
  simp only [Function.comp]
  split <;> rfl

/-- The offer to the target of a record that is settled or refused, in the state it then finds. -/
theorem nextOffered_offer (r : ReceiptRecord) (s t : State)
    (hq : othersOf r t.rcpt.queue = othersOf r s.rcpt.queue)
    (hr : ∀ y ∈ t.rcpt.queue, y.id = r.id → y.target ≠ r.target)
    (hu : (t.link r.target).state = .up) (ho : (t.link r.target).outstanding = none)
    (hoq : (t.link r.target).outQ = (s.link r.target).outQ) (hnow : t.now = s.now)
    (huse : t.dir.useCounts = s.dir.useCounts) (he : ∀ j, j ≠ r.handle.slot → t.entryAt j = s.entryAt j)
    (hn : ∀ g e, g ≠ r.handle → s.named g = some e → t.entryAt g.slot = s.entryAt g.slot)
    (hs : ∀ y ∈ s.rcpt.queue, y.handle = r.handle → y.id = r.id) :
    NextOffered r s (offer r.target t) where
  none hno := by
    have : t.nextReceipt r.target = none := by
      unfold State.nextReceipt
      rw [List.find?_eq_none]
      intro y hy hc
      simp only [Bool.and_eq_true, decide_eq_true_eq] at hc
      have hid : y.id ≠ r.id := fun h => hr y hy h hc.1
      have : y ∈ othersOf r s.rcpt.queue := by rw [← hq]; simp [othersOf, hy, hid]
      exact hno y (List.mem_of_mem_filter this) hid hc.1 hc.2
    have e : offer r.target t = t := by
      unfold offer; rw [if_pos ⟨hu, ho⟩, this]
    rw [e]
    exact ⟨hq, ho, hoq, he⟩
  next a x b hab ht hx ha hnd := by
    have hab : othersOf r s.rcpt.queue = a ++ x :: b := hab
    have hxm : x ∈ othersOf r s.rcpt.queue := by rw [hab]; simp
    have hxid : x.id ≠ r.id := by simpa using (List.mem_filter.1 hxm).2
    have hxs : x ∈ s.rcpt.queue := List.mem_of_mem_filter hxm
    have hxh : x.handle ≠ r.handle := fun h => hxid (hs x hxs h)
    have hnd' : ((a ++ x :: b).map (·.id)).Nodup := by
      rw [← hab]; exact (List.filter_sublist.map _).nodup hnd
    have hfind : t.nextReceipt r.target = some x := by
      unfold State.nextReceipt
      have e : (fun y : ReceiptRecord => decide (y.target = r.target) && decide (y.state = .queued)) =
          (fun y => decide (y.target = r.target) && decide (y.state = .queued)) := rfl
      have h1 : t.rcpt.queue.find? (fun y => decide (y.target = r.target) && decide (y.state = .queued)) =
          (othersOf r t.rcpt.queue).find? (fun y => decide (y.target = r.target) && decide (y.state = .queued)) := by
        unfold othersOf
        rw [List.find?_filter]
        have : ∀ q : List ReceiptRecord, (∀ y ∈ q, y.id = r.id → y.target ≠ r.target) →
            q.find? (fun y => decide (y.target = r.target) && decide (y.state = .queued)) =
            q.find? (fun y => decide (decide (y.id ≠ r.id) = true ∧
              (decide (y.target = r.target) && decide (y.state = .queued)) = true)) := by
          intro q h
          induction q with
          | nil => rfl
          | cons z q ih =>
            have ih := ih (fun y hy => h y (List.mem_cons_of_mem _ hy))
            have hz := h z List.mem_cons_self
            simp only [List.find?_cons, ih]
            by_cases hzi : z.id = r.id
            · have := hz hzi
              simp [this, hzi]
            · simp [hzi]
        exact this _ hr
      rw [h1, hq, hab, List.find?_append, List.find?_eq_none.2]
      · simp [ht, hx]
      · intro y hy hc
        simp only [Bool.and_eq_true, decide_eq_true_eq] at hc
        exact ha y hy hc.1 hc.2
    have e : offer r.target t = makeOffer x t := by
      unfold offer; rw [if_pos ⟨hu, ho⟩, hfind]
    rw [e]
    refine ⟨?_, ?_, ?_, ?_, ?_⟩
    · show othersOf r (makeOffer x t).rcpt.queue = _
      rw [others_makeOffer, hq, hab, hnow, List.map_append, List.map_cons]
      rw [List.map_append, List.map_cons, List.nodup_append] at hnd'
      obtain ⟨_, h2, h3⟩ := hnd'
      rw [List.nodup_cons] at h2
      have ka : ∀ y ∈ a, y.id ≠ x.id := fun y hy h =>
        h3 y.id (List.mem_map.2 ⟨y, hy, rfl⟩) x.id List.mem_cons_self h
      have kb : ∀ y ∈ b, y.id ≠ x.id := fun y hy h => h2.1 (List.mem_map.2 ⟨y, hy, h⟩)
      congr 1
      · conv_rhs => rw [← List.map_id a]
        exact List.map_congr_left fun y hy => if_neg (ka y hy)
      · rw [if_pos rfl]
        congr 1
        conv_rhs => rw [← List.map_id b]
        exact List.map_congr_left fun y hy => if_neg (kb y hy)
    · rw [link_makeOffer, if_pos ht.symm]
    · rw [link_makeOffer, if_pos ht.symm, ← hoq]
    · intro w hw
      refine (offeredBy_makeOffer x t).entry w ?_
      have h1 := hn _ w hxh hw
      unfold State.named at hw ⊢
      rw [huse, h1]; exact hw
    · intro j h1 h2
      rw [entry_makeOffer x t j (.inl h2)]
      exact he j h1

/-- The offer of the record itself, or of none, to the other link changes none of it. -/
theorem NextOffered.offer {r : ReceiptRecord} {s t : State} (h : NextOffered r s t)
    (hr : (t.link r.target.other).state = .up → (t.link r.target.other).outstanding = .none →
      ∀ y, t.nextReceipt r.target.other = some y → y.id = r.id ∧ y.handle = r.handle)
    (hs : ∀ y ∈ s.rcpt.queue, y.handle = r.handle → y.id = r.id) (huse : t.dir.useCounts = s.dir.useCounts) :
    NextOffered r s (offer r.target.other t) := by
  rcases offer_cases r.target.other t with ⟨e, _⟩ | ⟨y, h1, h2, h3, e⟩ <;> rw [e]
  · exact h
  obtain ⟨hid, hh⟩ := hr h1 h2 y h3
  have ht : y.target = r.target.other := by
    have := List.find?_some h3
    simp only [Bool.and_eq_true, decide_eq_true_eq] at this
    exact this.1
  have hq : othersOf r (makeOffer y t).rcpt.queue = othersOf r t.rcpt.queue := by
    rw [others_makeOffer]
    conv_rhs => rw [← List.map_id (othersOf r t.rcpt.queue)]
    refine List.map_congr_left fun z hz => if_neg ?_
    rw [hid]; simpa using (List.mem_filter.1 hz).2
  have hl : (makeOffer y t).link r.target = t.link r.target := by
    rw [link_makeOffer, if_neg]; rw [ht]; exact fun e => LinkId.other_ne _ e.symm
  have hent : ∀ j, j ≠ r.handle.slot → (makeOffer y t).entryAt j = t.entryAt j := fun j hj =>
    entry_makeOffer y t j (.inl (by rw [hh]; exact hj))
  constructor
  · intro hno
    obtain ⟨a1, a2, a3, a4⟩ := h.none hno
    exact ⟨hq.trans a1, by rw [hl]; exact a2, by rw [hl]; exact a3, fun j hj => (hent j hj).trans (a4 j hj)⟩
  · intro a x b hab hxt hx ha hnd
    obtain ⟨a1, a2, a3, a4, a5⟩ := h.next a x b hab hxt hx ha hnd
    refine ⟨hq.trans a1, by rw [hl]; exact a2, by rw [hl]; exact a3, ?_, fun j hj h2 => (hent j hj).trans (a5 j hj h2)⟩
    intro w hw
    rw [← a4 w hw]
    have hxm : x ∈ s.rcpt.queue.filter (fun y => decide (y.id ≠ r.id)) := by rw [hab]; simp
    have hxh : x.handle ≠ r.handle := fun h => by
      have := hs x (List.mem_of_mem_filter hxm) h
      simpa [this] using (List.mem_filter.1 hxm).2
    apply entry_makeOffer
    rw [hh]
    by_cases hsl : x.handle.slot = r.handle.slot
    · exact .inr (named_of_use_ne (by rw [huse]; exact use_ne hw hxh hsl))
    · exact .inl hsl

/-- What the links and the other records find once the receipt state of a record's entry has moved: the other records, the
links but for the outstanding receipt, the time and the other entries are those before. -/
structure Stands (r : ReceiptRecord) (s t : State) : Prop where
  others : othersOf r t.rcpt.queue = othersOf r s.rcpt.queue
  again : ∀ y ∈ t.rcpt.queue, y.id = r.id → y.target = r.target.other ∧ y.handle = r.handle
  links : ∀ l, t.link l = (clearOutstanding r.target s).link l
  time : t.now = s.now
  uses : t.dir.useCounts = s.dir.useCounts
  elsewhere : ∀ j, j ≠ r.handle.slot → t.entryAt j = s.entryAt j
  named : ∀ g e, g ≠ r.handle → s.named g = some e → t.entryAt g.slot = s.entryAt g.slot

theorem link_clearOutstanding (l m : LinkId) (s : State) :
    (clearOutstanding l s).link m = if m = l then { s.link m with outstanding := none } else s.link m := by
  unfold clearOutstanding; rw [State.link_modLink]
theorem rcpt_clearOutstanding (l : LinkId) (s : State) : (clearOutstanding l s).rcpt = s.rcpt := State.rcpt_modLink _ _ _
theorem now_clearOutstanding (l : LinkId) (s : State) : (clearOutstanding l s).now = s.now := State.now_modLink _ _ _
theorem dir_clearOutstanding (l : LinkId) (s : State) : (clearOutstanding l s).dir = s.dir := State.dir_modLink _ _ _

/-- From a state whose receipts hold `q` and whose directory is the former one, by a receipt state's move. -/
theorem Stands.moved (r : ReceiptRecord) (s : State) (x : ReceiptState) (q : List ReceiptRecord)
    (hq : othersOf r q = othersOf r s.rcpt.queue)
    (ha : ∀ y ∈ q, y.id = r.id → y.target = r.target.other ∧ y.handle = r.handle) :
    Stands r s (setReceipt r.handle x ((clearOutstanding r.target s).setQueue q)) := by
  have hd : ((clearOutstanding r.target s).setQueue q).dir = s.dir := dir_clearOutstanding _ _
  refine ⟨?_, ?_, fun l => ?_, ?_, ?_, fun j hj => ?_, fun g e hg hn => ?_⟩
  · rw [rcpt_setReceipt]; exact hq
  · rw [rcpt_setReceipt]; exact ha
  · rw [link_setReceipt]; rfl
  · rw [now_setReceipt]; exact now_clearOutstanding _ _
  · rw [useCounts_setReceipt, hd]
  · rw [entryAt_setReceipt, if_neg hj, entryAt_congr hd]
  · rw [entryAt_setReceipt_other x (by rw [named_congr hd]; exact hn) hg, entryAt_congr hd]

/-- A post and a count change none of it. -/
theorem Stands.told {r : ReceiptRecord} {s t : State} (h : Stands r s t) (f : GlobalCounters → GlobalCounters) (k : EventKind) :
    Stands r s (countGlobal f (post k t)) where
  others := h.others
  again := h.again
  links l := by rw [State.link_countGlobal, State.link_post]; exact h.links l
  time := h.time
  uses := h.uses
  elsewhere j hj := by
    rw [entryAt_congr (s := t) (by rw [State.dir_countGlobal, State.dir_post])]; exact h.elsewhere j hj
  named g e hg hn := by
    rw [entryAt_congr (s := t) (by rw [State.dir_countGlobal, State.dir_post])]; exact h.named g e hg hn

/-- The queue without a record holds the other records and no record of its id. -/
theorem others_dropped (r : ReceiptRecord) (q : List ReceiptRecord) :
    othersOf r (q.filter (fun y => !decide (y.id = r.id))) = othersOf r q ∧
      ∀ y ∈ q.filter (fun y => !decide (y.id = r.id)), y.id ≠ r.id := by
  refine ⟨?_, fun y hy hid => ?_⟩
  · unfold othersOf
    rw [List.filter_filter]
    exact List.filter_congr fun y _ => by by_cases h : y.id = r.id <;> simp [h]
  · have := (List.mem_filter.1 hy).2
    rw [hid] at this
    simp at this

theorem stands_dropped (r : ReceiptRecord) (s : State) (x : ReceiptState) :
    Stands r s (setReceipt r.handle x (dropRecord r.id (clearOutstanding r.target s))) := by
  unfold dropRecord
  rw [rcpt_clearOutstanding]
  exact .moved r s x _ (others_dropped r _).1 (fun y hy hid => absurd hid ((others_dropped r _).2 y hy))

/-- A change of the record alone that keeps its id leaves the others. -/
theorem stands_retargeted (r : ReceiptRecord) (s : State) (hn : (s.rcpt.queue.map (·.id)).Nodup) (hr : r ∈ s.rcpt.queue) :
    Stands r s (setReceipt r.handle .queued (modRecord r.id (fun x => { x with
      target := r.target.other, attempts := r.attempts + 1, state := .queued, deadline := none })
      (clearOutstanding r.target s))) := by
  unfold modRecord
  rw [rcpt_clearOutstanding]
  refine .moved r s .queued _ ?_ ?_
  · unfold othersOf
    rw [List.filter_map]
    conv_rhs => rw [← List.map_id (s.rcpt.queue.filter _)]
    rw [List.filter_congr (q := fun y => decide (y.id ≠ r.id)) (fun y _ => by
      simp only [Function.comp]; split <;> rfl)]
    refine List.map_congr_left fun y hy => if_neg ?_
    simpa using (List.mem_filter.1 hy).2
  · intro y hy hid
    rw [List.mem_map] at hy
    obtain ⟨z, hz, rfl⟩ := hy
    have hzid : z.id = r.id := by split at hid <;> exact hid
    have : z = r := List.inj_on_of_nodup_map hn hz hr hzid
    rw [if_pos hzid, this]; exact ⟨rfl, rfl⟩

/-- The offer to the target that then follows. -/
theorem Stands.nextOffered {r : ReceiptRecord} {s t : State} (h : Stands r s t) (hu : (s.link r.target).state = .up)
    (hs : ∀ y ∈ s.rcpt.queue, y.handle = r.handle → y.id = r.id) : NextOffered r s (Sys2Proof.Machine.offer r.target t) := by
  have hl : t.link r.target = { s.link r.target with outstanding := none } := by
    rw [h.links, link_clearOutstanding, if_pos rfl]
  refine nextOffered_offer r s t h.others (fun y hy hid e => LinkId.other_ne _ ((h.again y hy hid).1.symm.trans e)) ?_ ?_ ?_
    h.time h.uses h.elsewhere h.named hs
  all_goals rw [hl]
  exact hu

/-- A record settled as sent (R159). -/
theorem nextOffered_receiptSent (r : ReceiptRecord) (s : State) (hu : (s.link r.target).state = .up)
    (hs : ∀ y ∈ s.rcpt.queue, y.handle = r.handle → y.id = r.id) : NextOffered r s (receiptSent r s) :=
  ((stands_dropped r s .sent).told _ _).nextOffered hu hs

/-- A refusal is a move of the record that lets the others stand, then the offers to both links. -/
theorem refuse_offers (r : ReceiptRecord) (s : State) (hn : (s.rcpt.queue.map (·.id)).Nodup) (hr : r ∈ s.rcpt.queue) :
    ∃ mid, Stands r s mid ∧
      refuse r s = Sys2Proof.Machine.offer r.target.other (Sys2Proof.Machine.offer r.target mid) := by
  unfold refuse
  refine ⟨_, ?_, rfl⟩
  split
  · exact stands_retargeted r s hn hr
  · exact (stands_dropped r s (.failed .undelivered)).told _ _

/-- Refused: the record waits for the other link, or is gone (R161); both ways the refusing link is offered its next. -/
theorem nextOffered_refuse (r : ReceiptRecord) (s : State) (hu : (s.link r.target).state = .up)
    (hn : (s.rcpt.queue.map (·.id)).Nodup) (hr : r ∈ s.rcpt.queue)
    (hs : ∀ y ∈ s.rcpt.queue, y.handle = r.handle → y.id = r.id) (hno : s.nothingToOffer r.target.other) :
    NextOffered r s (refuse r s) := by
  obtain ⟨mid, h, hf⟩ := refuse_offers r s hn hr
  have m1 := h.others
  have m2 := h.again
  have hlo' : mid.link r.target.other = s.link r.target.other := by
    rw [h.links, link_clearOutstanding, if_neg (LinkId.other_ne _)]
  have first := h.nextOffered hu hs
  rw [hf]
  refine first.offer ?_ hs (((receiptWork_offer r.target mid).directory.2.1).trans h.uses)
  intro h1 h2 y hy
  have hlo : (Sys2Proof.Machine.offer r.target mid).link r.target.other = s.link r.target.other := by
    rcases offer_cases r.target mid with ⟨e, _⟩ | ⟨x, _, _, h3, e⟩ <;> rw [e]
    · exact hlo'
    · have ht : x.target = r.target := by
        have := List.find?_some h3
        simp only [Bool.and_eq_true, decide_eq_true_eq] at this
        exact this.1
      rw [link_makeOffer, ht, if_neg (LinkId.other_ne _), hlo']
  rw [hlo] at h1 h2
  have hwait := hno h1 h2
  have hyq := nextReceipt_mem hy
  have hyt := List.find?_some hy
  simp only [Bool.and_eq_true, decide_eq_true_eq] at hyt
  -- a record of the queue that is QUEUED now was so before the offer
  have back : y ∈ mid.rcpt.queue := by
    rcases offer_cases r.target mid with ⟨e, _⟩ | ⟨x, _, _, h3, e⟩ <;> rw [e] at hyq
    · exact hyq
    · rw [queue_makeOffer, List.mem_map] at hyq
      obtain ⟨z, hz, rfl⟩ := hyq
      by_cases hc : z.id = x.id
      · rw [if_pos hc] at hyt; cases hyt.2
      · rw [if_neg hc]; exact hz
  by_cases hid : y.id = r.id
  · exact ⟨hid, (m2 y back hid).2⟩
  · exfalso
    have : y ∈ othersOf r s.rcpt.queue := by rw [← m1]; simp [othersOf, back, hid]
    exact hwait y (List.mem_of_mem_filter this) hyt.1 hyt.2

/-! ### The receipt record of an entry that leaves (R165) -/

/-- What follows an offer depends on the receipts, the links, the time and the other entries alone. -/
theorem NextOffered.congr {r : ReceiptRecord} {s u t v : State} (h : NextOffered r u t) (hq : u.rcpt = s.rcpt)
    (hl : ∀ l, u.link l = s.link l) (hn : u.now = s.now) (hu : u.dir.useCounts = s.dir.useCounts)
    (he : ∀ j, j ≠ r.handle.slot → u.entryAt j = s.entryAt j) (hc : s.dir.useCounts[r.handle.slot] = r.handle.use)
    (hs : ∀ y ∈ s.rcpt.queue, y.handle = r.handle → y.id = r.id) (tq : v.rcpt = t.rcpt)
    (tl : ∀ l, v.link l = t.link l) (te : ∀ j, j ≠ r.handle.slot → v.entryAt j = t.entryAt j) : NextOffered r s v := by
  constructor
  · intro h0
    obtain ⟨a1, a2, a3, a4⟩ := h.none (by rw [hq]; exact h0)
    rw [hq] at a1
    rw [hl] at a3
    exact ⟨by rw [tq]; exact a1, by rw [tl]; exact a2, by rw [tl]; exact a3,
      fun j hj => (te j hj).trans ((a4 j hj).trans (he j hj))⟩
  · intro a x b hab hx hxs ha hnd
    obtain ⟨a1, a2, a3, a4, a5⟩ := h.next a x b (by rw [hq]; exact hab) hx hxs ha (by rw [hq]; exact hnd)
    have hxm : x ∈ s.rcpt.queue.filter (fun y => decide (y.id ≠ r.id)) := by rw [hab]; simp
    have hxh : x.handle ≠ r.handle := fun h => by
      have := hs x (List.mem_of_mem_filter hxm) h
      simpa [this] using (List.mem_filter.1 hxm).2
    refine ⟨by rw [tq, a1, hn], by rw [tl]; exact a2, by rw [tl, a3, hl], fun e hw => ?_, fun j h1 h2 =>
      (te j h1).trans ((a5 j h1 h2).trans (he j h1))⟩
    have hsl : x.handle.slot ≠ r.handle.slot := fun hsl => use_ne hw hxh hsl hc
    rw [te _ hsl]
    refine a4 e ?_
    unfold State.named at hw ⊢
    rw [hu, he _ hsl]; exact hw

/-- The state of a leaving entry's receipt record settled, before the offer that follows (R165). -/
theorem stands_gone (r : ReceiptRecord) (s : State) :
    Stands r s (clearOutstanding r.target (receiptFailed (dropRecord r.id s))) := by
  have hd : (clearOutstanding r.target (receiptFailed (dropRecord r.id s))).dir = s.dir := by
    rw [dir_clearOutstanding]; rfl
  have hq : (clearOutstanding r.target (receiptFailed (dropRecord r.id s))).rcpt.queue =
      s.rcpt.queue.filter (fun y => !decide (y.id = r.id)) := by
    rw [rcpt_clearOutstanding]; rfl
  refine ⟨?_, ?_, fun l => ?_, ?_, by rw [hd], fun j _ => entryAt_congr hd j, fun g e _ _ => entryAt_congr hd _⟩
  · rw [hq]; exact (others_dropped r _).1
  · intro y hy hid; rw [hq] at hy; exact absurd hid ((others_dropped r _).2 y hy)
  · rw [link_clearOutstanding, link_clearOutstanding]; rfl
  · rw [now_clearOutstanding]; rfl

theorem filter_ne (r : ReceiptRecord) (q : List ReceiptRecord) :
    q.filter (fun y => !decide (y.id = r.id)) = q.filter (fun y => decide (y.id ≠ r.id)) :=
  List.filter_congr fun y _ => by by_cases h : y.id = r.id <;> simp [h]

/-- What the leaving of an entry does to its receipt record, of the handle that names it now (R165). -/
theorem recordGone_entryGone (h : Handle) (s : State) : RecordGone h s (entryGone h s) := by
  have find : ∀ r ∈ s.rcpt.queue, (∀ y ∈ s.rcpt.queue, y.handle = h ↔ y = r) →
      s.rcpt.queue.find? (fun r => r.handle = h) = some r := by
    intro r hr hu
    cases hf : s.rcpt.queue.find? (fun r => r.handle = h) with
    | none => exact absurd ((hu r hr).2 rfl) (by simpa using List.find?_eq_none.1 hf r hr)
    | some y =>
      have h1 := List.find?_some hf
      rw [(hu y (List.mem_of_find?_eq_some hf)).1 (by simpa using h1)]
  have isQ : ∀ r ∈ s.rcpt.queue, (∀ y ∈ s.rcpt.queue, y.handle = h ↔ y = r) → r.state = .queued →
      entryGone h s = receiptFailed (dropRecord r.id s) := by
    intro r hr hu hst; unfold entryGone; rw [find r hr hu]; simp only [hst]
  have isO : ∀ r ∈ s.rcpt.queue, (∀ y ∈ s.rcpt.queue, y.handle = h ↔ y = r) → r.state = .offered →
      entryGone h s = Sys2Proof.Machine.offer r.target (clearOutstanding r.target (receiptFailed (dropRecord r.id s))) := by
    intro r hr hu hst; unfold entryGone; rw [find r hr hu]; simp only [hst]
  refine ⟨fun hno => ?_, fun r hr hu => ?_, fun r hr hu hst => ?_, fun r hr hu hst => ?_⟩
  · rw [entryGone_none h s hno]; exact ⟨rfl, fun _ => rfl, fun _ _ => rfl, rfl⟩
  · cases hst : r.state with
    | queued =>
      rw [isQ r hr hu hst]
      exact ⟨fun y hy => (others_dropped r _).2 y hy, rfl, holds_post _ _, rfl, rfl⟩
    | offered =>
      rw [isO r hr hu hst]
      have hS := stands_gone r s
      obtain ⟨mid, hm⟩ : ∃ m, m = clearOutstanding r.target (receiptFailed (dropRecord r.id s)) := ⟨_, rfl⟩
      rw [← hm] at hS ⊢
      have hhost : mid.host = (receiptFailed (dropRecord r.id s)).host := by rw [hm]; simp [clearOutstanding]
      have hno : ∀ y ∈ mid.rcpt.queue, y.id ≠ r.id := by
        intro y hy; rw [hm, rcpt_clearOutstanding] at hy; exact (others_dropped r _).2 y hy
      have hlast : mid.rcpt.lastId = s.rcpt.lastId := by rw [hm, rcpt_clearOutstanding]; rfl
      have hoth : mid.link r.target.other = s.link r.target.other := by
        rw [hS.links, link_clearOutstanding, if_neg (LinkId.other_ne _)]
      rcases offer_cases r.target mid with ⟨e, _⟩ | ⟨y, _, _, h3, e⟩ <;> rw [e]
      · exact ⟨hno, hlast, by rw [hhost]; exact holds_post _ _, by rw [hhost]; rfl, hoth⟩
      · have ht : y.target = r.target := by
          have := List.find?_some h3
          simp only [Bool.and_eq_true, decide_eq_true_eq] at this
          exact this.1
        refine ⟨?_, ?_, by rw [host_makeOffer, hhost]; exact holds_post _ _, by rw [host_makeOffer, hhost]; rfl, ?_⟩
        · intro z hz
          rw [queue_makeOffer, List.mem_map] at hz
          obtain ⟨w, hw, rfl⟩ := hz
          have := hno w hw
          split <;> exact this
        · rw [lastId_makeOffer]; exact hlast
        · rw [link_makeOffer, ht, if_neg (LinkId.other_ne _)]; exact hoth
  · rw [isQ r hr hu hst]
    exact ⟨filter_ne r _, rfl, fun _ _ => rfl⟩
  · rw [isO r hr hu hst]
    have hS := stands_gone r s
    have hh : r.handle = h := (hu r hr).2 rfl
    have hs : ∀ y ∈ s.rcpt.queue, y.handle = r.handle → y.id = r.id := fun y hy hyh => by
      rw [(hu y hy).1 (hyh.trans hh)]
    obtain ⟨mid, hm⟩ : ∃ m, m = clearOutstanding r.target (receiptFailed (dropRecord r.id s)) := ⟨_, rfl⟩
    rw [← hm] at hS ⊢
    have hl : mid.link r.target = { s.link r.target with outstanding := none } := by
      rw [hS.links, link_clearOutstanding, if_pos rfl]
    refine ⟨?_, fun hup => hS.nextOffered hup hs, fun hup => ?_⟩
    · rcases offer_cases r.target mid with ⟨e, _⟩ | ⟨y, _, _, h3, e⟩ <;> rw [e]
      · rw [hl]; simp
      · have ht : y.target = r.target := by
          have := List.find?_some h3
          simp only [Bool.and_eq_true, decide_eq_true_eq] at this
          exact this.1
        rw [link_makeOffer, if_pos ht.symm]
        have hy := nextReceipt_mem h3
        rw [hm, rcpt_clearOutstanding] at hy
        have := (others_dropped r _).2 y hy
        simpa using this
    · have e : Sys2Proof.Machine.offer r.target mid = mid := by
        unfold Sys2Proof.Machine.offer; rw [if_neg]; rw [hl]; exact fun x => hup x.1
      rw [e]
      refine ⟨?_, hl, fun j hj => hS.elsewhere j (by rw [hh]; exact hj)⟩
      rw [hm, rcpt_clearOutstanding]; exact filter_ne r _

/-- It depends on the receipts, the links, the time and the other entries alone. -/
theorem RecordGone.congr {h : Handle} {s u t v : State} (g : RecordGone h u t) (hq : u.rcpt = s.rcpt)
    (hl : ∀ l, u.link l = s.link l) (hn : u.now = s.now) (hu : u.dir.useCounts = s.dir.useCounts)
    (he : ∀ j, j ≠ h.slot → u.entryAt j = s.entryAt j) (hc : s.dir.useCounts[h.slot] = h.use)
    (hf : u.host.cntG.receiptsFailed = s.host.cntG.receiptsFailed) (tq : v.rcpt = t.rcpt) (tl : ∀ l, v.link l = t.link l)
    (te : ∀ j, j ≠ h.slot → v.entryAt j = t.entryAt j) (tf : v.host.cntG.receiptsFailed = t.host.cntG.receiptsFailed)
    (tv : EventSet.holds t.host.events .receiptDone = true → EventSet.holds v.host.events .receiptDone = true) :
    RecordGone h s v := by
  refine ⟨fun h0 => ?_, fun r hr hi => ?_, fun r hr hi hst => ?_, fun r hr hi hst => ?_⟩
  · obtain ⟨a1, a2, a3, a4⟩ := g.absent (by rw [hq]; exact h0)
    exact ⟨by rw [tq, a1, hq], fun l => by rw [tl, a2, hl], fun j hj => by rw [te j hj, a3 j hj, he j hj], by rw [tf, a4, hf]⟩
  · obtain ⟨a1, a2, a3, a4, a5⟩ := g.failed r (by rw [hq]; exact hr) (by rw [hq]; exact hi)
    exact ⟨by rw [tq]; exact a1, by rw [tq, a2, hq], tv a3, by rw [tf, a4, hf], by rw [tl, a5, hl]⟩
  · obtain ⟨a1, a2, a3⟩ := g.queued r (by rw [hq]; exact hr) (by rw [hq]; exact hi) hst
    exact ⟨by rw [tq, a1, hq], by rw [tl, a2, hl], fun j hj => by rw [te j hj, a3 j hj, he j hj]⟩
  · obtain ⟨a1, a2, a3⟩ := g.offered r (by rw [hq]; exact hr) (by rw [hq]; exact hi) hst
    have hh : r.handle = h := (hi r hr).2 rfl
    refine ⟨by rw [tl]; exact a1, fun hup => ?_, fun hup => ?_⟩
    · refine (a2 (by rw [hl]; exact hup)).congr hq hl hn hu (by rw [hh]; exact he) (by subst hh; exact hc) ?_ tq tl
        (by rw [hh]; exact te)
      intro y hy hyh; rw [(hi y hy).1 (hyh.trans hh)]
    · obtain ⟨b1, b2, b3⟩ := a3 (by rw [hl]; exact hup)
      exact ⟨by rw [tq, b1, hq], by rw [tl, b2, hl], fun j hj => by rw [te j hj, b3 j hj, he j hj]⟩

/-- The record of an entry that departs (R75, R83, R85, R165). -/
theorem recordGone_departEntry (i : EntrySlot) (s : State) : RecordGone (s.handleOf i) s (departEntry i s) := by
  have w := requestWork_dropRequest i s
  have hu : (dropRequest i s).dir.useCounts = s.dir.useCounts := by rw [w]
  have hl : ∀ l, (dropRequest i s).link l = s.link l := fun l => by rw [w]; cases l <;> rfl
  refine (recordGone_entryGone (s.handleOf i) (dropRequest i s)).congr (by rw [w]) hl w.now hu
    (fun j hj => entryAt_dropRequest_other i j s hj) rfl (by rw [w.host]) rfl (fun _ => rfl) (fun j hj => ?_) rfl
    (fun h => ?_)
  · have hne : ¬ i = j := fun x => hj x.symm
    simp only [departEntry, entryAt_post, State.entryAt_putEntry, if_neg hne]; rfl
  · simp only [departEntry, post, State.setHost, EventSet.holds, BitVec.getLsbD_or] at h ⊢
    simp only [Bool.or_eq_true]; exact .inl h
end Sys2Proof.Machine
end

