-- ==== Sys2Proof/Laws/Eviction.lean ====
section
/-! SUPPORT. The eviction order (R74, Table 23): what a victim is, and what the eviction of one leaves (R75). -/

namespace Sys2Proof.Machine

/-! ### One step of Table 23 -/

/-- A pair of age and slot comes no later than another: earlier, or of equal age and in no higher slot. -/
def earlier (a b : Nat × EntrySlot) : Prop := a.1 < b.1 ∨ (a.1 = b.1 ∧ a.2 ≤ b.2)

theorem earlier_trans {a b c : Nat × EntrySlot} (h : earlier a b) (k : earlier b c) : earlier a c := by
  rcases h with h | ⟨h, x⟩ <;> rcases k with k | ⟨k, y⟩
  · exact .inl (by omega)
  · exact .inl (by omega)
  · exact .inl (by omega)
  · exact .inr ⟨by omega, le_trans x y⟩

/-- Over pairs in slot order the fold keeps the earliest. -/
theorem elder_fold (xs : List (Nat × EntrySlot)) (a : Nat × EntrySlot)
    (hs : (a :: xs).Pairwise (fun x y => x.2 < y.2)) :
    ∃ m, xs.foldl elder (some a) = some m ∧ m ∈ a :: xs ∧ ∀ x ∈ a :: xs, earlier m x := by
  induction xs generalizing a with
  | nil => exact ⟨a, rfl, by simp, fun x hx => by rw [List.mem_singleton.1 hx]; exact .inr ⟨rfl, le_refl _⟩⟩
  | cons b r ih =>
    obtain ⟨ha, hbr⟩ := List.pairwise_cons.1 hs
    have hab : a.2 < b.2 := ha b (by simp)
    by_cases hlt : b.1 < a.1
    · obtain ⟨m, h1, h2, h3⟩ := ih b hbr
      refine ⟨m, by simpa [elder, hlt] using h1, by simp only [List.mem_cons] at h2 ⊢; tauto, fun x hx => ?_⟩
      rcases List.mem_cons.1 hx with rfl | hx
      · exact earlier_trans (h3 b (by simp)) (.inl hlt)
      · exact h3 x hx
    · obtain ⟨hb, hr⟩ := List.pairwise_cons.1 hbr
      obtain ⟨m, h1, h2, h3⟩ := ih a (List.pairwise_cons.2 ⟨fun y hy => ha y (by simp [hy]), hr⟩)
      refine ⟨m, by simpa [elder, hlt] using h1, by simp only [List.mem_cons] at h2 ⊢; tauto, fun x hx => ?_⟩
      rcases List.mem_cons.1 hx with rfl | hx
      · exact h3 x (by simp)
      · rcases List.mem_cons.1 hx with rfl | hx
        · refine earlier_trans (h3 a (by simp)) ?_
          rcases Nat.lt_or_eq_of_le (Nat.not_lt.1 hlt) with k | k
          · exact .inl k
          · exact .inr ⟨k, le_of_lt hab⟩
        · exact h3 x (by simp [hx])

theorem elder_none (xs : List (Nat × EntrySlot)) (hs : xs.Pairwise (fun x y => x.2 < y.2)) :
    (xs.foldl elder none = none ∧ xs = []) ∨
      ∃ m, xs.foldl elder none = some m ∧ m ∈ xs ∧ ∀ x ∈ xs, earlier m x := by
  cases xs with
  | nil => exact .inl ⟨rfl, rfl⟩
  | cons a r =>
    obtain ⟨m, h1, h2, h3⟩ := elder_fold r a hs
    exact .inr ⟨m, h1, h2, h3⟩

/-- The candidates of one step, in slot order. -/
def State.candidates (s : State) (may : EntrySlot → Bool) (age : Entry → Option Nat) : List (Nat × EntrySlot) :=
  entrySlotList.filterMap (fun i => if may i then ((s.entryAt i).bind age).map (fun t => (t, i)) else none)

theorem mem_candidates {s : State} {may : EntrySlot → Bool} {age : Entry → Option Nat} {x : Nat × EntrySlot} :
    x ∈ s.candidates may age ↔ may x.2 = true ∧ ∃ e, s.entryAt x.2 = some e ∧ age e = some x.1 := by
  obtain ⟨a, i⟩ := x
  simp only [State.candidates, List.mem_filterMap]
  constructor
  · rintro ⟨j, -, h⟩
    split at h
    · rename_i hm
      simp only [Option.map_eq_some_iff, Option.bind_eq_some_iff, Prod.mk.injEq] at h
      obtain ⟨t, ⟨e, he, hg⟩, rfl, rfl⟩ := h
      exact ⟨hm, e, he, hg⟩
    · simp at h
  · rintro ⟨hm, e, he, hg⟩
    exact ⟨i, List.mem_finRange i, by
      simp [show may i = true from hm, show s.entryAt i = some e from he, show age e = some a from hg]⟩

theorem candidates_ordered (s : State) (may : EntrySlot → Bool) (age : Entry → Option Nat) :
    (s.candidates may age).Pairwise (fun x y => x.2 < y.2) := by
  unfold State.candidates
  refine List.Pairwise.filterMap _ ?_ (List.pairwise_lt_finRange 48)
  intro i j hij x hx y hy
  have key : ∀ (k : EntrySlot) (z : Nat × EntrySlot),
      (if may k then ((s.entryAt k).bind age).map (fun t => (t, k)) else none) = some z → z.2 = k := by
    intro k z hz
    split at hz
    · obtain ⟨t, -, rfl⟩ := Option.map_eq_some_iff.1 hz; rfl
    · simp at hz
  rw [key i x hx, key j y hy]
  exact hij

/-- What the victim of one step is (R74). -/
theorem victimOf_cases (s : State) (may : EntrySlot → Bool) (age : Entry → Option Nat) :
    (s.victimOf may age = none ∧ ∀ j y, may j = true → s.entryAt j = some y → age y = none) ∨
    ∃ v x a, s.victimOf may age = some v ∧ may v = true ∧ s.entryAt v = some x ∧ age x = some a ∧
      ∀ j y b, may j = true → s.entryAt j = some y → age y = some b → earlier (a, v) (b, j) := by
  have hd : s.victimOf may age = ((s.candidates may age).foldl elder none).map (·.2) := rfl
  rcases elder_none _ (candidates_ordered s may age) with ⟨h, hn⟩ | ⟨m, h, hm, hle⟩
  · refine .inl ⟨by rw [hd, h]; rfl, fun j y hj hy => ?_⟩
    cases hg : age y with
    | none => rfl
    | some b =>
      have : ((b, j) : Nat × EntrySlot) ∈ s.candidates may age := mem_candidates.2 ⟨hj, y, hy, hg⟩
      rw [hn] at this
      simp at this
  · obtain ⟨h1, e, h2, h3⟩ := mem_candidates.1 hm
    exact .inr ⟨m.2, e, m.1, by rw [hd, h]; rfl, h1, h2, h3,
      fun j y b hj hy hg => hle (b, j) (mem_candidates.2 ⟨hj, y, hy, hg⟩)⟩

/-! ### The four steps -/

theorem candidateFor_step {page : AlertClass} {e : Entry} {k a : Nat} (h : e.candidateFor page = some (k, a)) :
    (k = 1 ∧ ageStep1 e = some a) ∨ (k = 2 ∧ ageStep2 e = some a) ∨ (k = 3 ∧ ageStep3 e = some a) ∨
      (k = 4 ∧ ageStep4 page e = some a) := by
  unfold Entry.candidateFor at h
  cases hs : e.state <;> simp only [hs] at h
  · split_ifs at h with c
    simp only [Option.some.injEq, Prod.mk.injEq] at h
    exact .inr (.inr (.inr ⟨h.1.symm, by simp [ageStep4, hs, c, h.2]⟩))
  · simp at h
  · split_ifs at h with c
    simp only [Option.some.injEq, Prod.mk.injEq] at h
    exact .inr (.inr (.inl ⟨h.1.symm, by simp [ageStep3, evictableClass, hs, c, h.2]⟩))
  · split_ifs at h with c
    simp only [Option.some.injEq, Prod.mk.injEq] at h
    simp only [not_or] at c
    exact .inr (.inl ⟨h.1.symm, by simp [ageStep2, evictableClass, hs, c, h.2]⟩)
  · split_ifs at h with c
    simp only [Option.some.injEq, Prod.mk.injEq] at h
    exact .inl ⟨h.1.symm, by simp [ageStep1, evictableClass, hs, c, h.2]⟩

theorem candidate_of_step {page : AlertClass} {e : Entry} {a : Nat} :
    (ageStep1 e = some a → e.candidateFor page = some (1, a)) ∧
    (ageStep2 e = some a → e.candidateFor page = some (2, a)) ∧
    (ageStep3 e = some a → e.candidateFor page = some (3, a)) ∧
    (ageStep4 page e = some a → e.candidateFor page = some (4, a)) := by
  unfold Entry.candidateFor
  cases hs : e.state <;> simp_all [ageStep1, ageStep2, ageStep3, ageStep4, evictableClass]

/-- The victim of the eviction order: at the first step of Table 23 with a candidate, the earliest there, the lowest slot
among equals; none exactly without a candidate (R74). -/
theorem victim_cases (s : State) (may : EntrySlot → Bool) (page : AlertClass) :
    (s.victim may page = none ∧ ∀ j y, may j = true → s.entryAt j = some y → y.candidateFor page = none) ∨
    ∃ v x k a, s.victim may page = some v ∧ may v = true ∧ s.entryAt v = some x ∧ x.candidateFor page = some (k, a) ∧
      ∀ j y m b, may j = true → s.entryAt j = some y → y.candidateFor page = some (m, b) →
        k < m ∨ (k = m ∧ (a < b ∨ (a = b ∧ v ≤ j))) := by
  have hd : s.victim may page = ((s.victimOf may ageStep1).or ((s.victimOf may ageStep2).or
      ((s.victimOf may ageStep3).or (s.victimOf may (ageStep4 page))))) := by
    simp only [State.victim, List.findSome?_cons, List.findSome?_nil]
    cases s.victimOf may ageStep1 <;> cases s.victimOf may ageStep2 <;> cases s.victimOf may ageStep3 <;>
      cases s.victimOf may (ageStep4 page) <;> rfl
  rcases victimOf_cases s may ageStep1 with ⟨h1, n1⟩ | ⟨v, x, a, h1, hm, hx, ha, hle⟩
  swap
  · refine .inr ⟨v, x, 1, a, by rw [hd, h1]; rfl, hm, hx, candidate_of_step.1 ha, fun j y m b hj hy hc => ?_⟩
    rcases candidateFor_step hc with ⟨rfl, g⟩ | ⟨rfl, g⟩ | ⟨rfl, g⟩ | ⟨rfl, g⟩
    · exact .inr ⟨rfl, hle j y b hj hy g⟩
    all_goals exact .inl (by omega)
  rcases victimOf_cases s may ageStep2 with ⟨h2, n2⟩ | ⟨v, x, a, h2, hm, hx, ha, hle⟩
  swap
  · refine .inr ⟨v, x, 2, a, by rw [hd, h1, h2]; rfl, hm, hx, candidate_of_step.2.1 ha, fun j y m b hj hy hc => ?_⟩
    rcases candidateFor_step hc with ⟨rfl, g⟩ | ⟨rfl, g⟩ | ⟨rfl, g⟩ | ⟨rfl, g⟩
    · simp [n1 j y hj hy] at g
    · exact .inr ⟨rfl, hle j y b hj hy g⟩
    all_goals exact .inl (by omega)
  rcases victimOf_cases s may ageStep3 with ⟨h3, n3⟩ | ⟨v, x, a, h3, hm, hx, ha, hle⟩
  swap
  · refine .inr ⟨v, x, 3, a, by rw [hd, h1, h2, h3]; rfl, hm, hx, candidate_of_step.2.2.1 ha,
      fun j y m b hj hy hc => ?_⟩
    rcases candidateFor_step hc with ⟨rfl, g⟩ | ⟨rfl, g⟩ | ⟨rfl, g⟩ | ⟨rfl, g⟩
    · simp [n1 j y hj hy] at g
    · simp [n2 j y hj hy] at g
    · exact .inr ⟨rfl, hle j y b hj hy g⟩
    · exact .inl (by omega)
  rcases victimOf_cases s may (ageStep4 page) with ⟨h4, n4⟩ | ⟨v, x, a, h4, hm, hx, ha, hle⟩
  swap
  · refine .inr ⟨v, x, 4, a, by rw [hd, h1, h2, h3, h4]; rfl, hm, hx, candidate_of_step.2.2.2 ha,
      fun j y m b hj hy hc => ?_⟩
    rcases candidateFor_step hc with ⟨rfl, g⟩ | ⟨rfl, g⟩ | ⟨rfl, g⟩ | ⟨rfl, g⟩
    · simp [n1 j y hj hy] at g
    · simp [n2 j y hj hy] at g
    · simp [n3 j y hj hy] at g
    · exact .inr ⟨rfl, hle j y b hj hy g⟩
  refine .inl ⟨by rw [hd, h1, h2, h3, h4]; rfl, fun j y hj hy => ?_⟩
  cases hc : y.candidateFor page with
  | none => rfl
  | some p =>
    obtain ⟨k, a⟩ := p
    rcases candidateFor_step hc with ⟨-, g⟩ | ⟨-, g⟩ | ⟨-, g⟩ | ⟨-, g⟩
    · simp [n1 j y hj hy] at g
    · simp [n2 j y hj hy] at g
    · simp [n3 j y hj hy] at g
    · simp [n4 j y hj hy] at g

/-! ### Eviction -/

/-- The lowest free slot is free (R73). -/
theorem lowestFreeEntry_free {s : State} {i} (h : s.lowestFreeEntry = some i) : s.entryAt i = none := by
  have := List.find?_some h; simpa using this

/-- Without a free slot there is none. -/
theorem lowestFreeEntry_full {s : State} (h : ∀ j, (s.entryAt j).isSome = true) : s.lowestFreeEntry = none := by
  unfold State.lowestFreeEntry; rw [List.find?_eq_none]; intro x _; have := h x; cases hx : s.entryAt x <;> simp_all

/-- The occupancy rises by one when a free slot is taken (R63). -/
theorem occupancy_putEntry (s : State) (i : EntrySlot) (e : Entry) (h : s.entryAt i = none) : (s.putEntry i (some e)).occupancy = s.occupancy + 1 := by
  unfold State.occupancy
  have key : ∀ xs : List EntrySlot, xs.Nodup → List.countP (fun j => ((s.putEntry i (some e)).entryAt j).isSome) xs =
      List.countP (fun j => (s.entryAt j).isSome) xs + if i ∈ xs then 1 else 0 := by
    intro xs
    induction xs with
    | nil => intro _; simp
    | cons a r ih =>
      intro hn
      obtain ⟨ha, hr⟩ := List.nodup_cons.1 hn
      rw [List.countP_cons, List.countP_cons, ih hr, State.entryAt_putEntry]
      by_cases hia : i = a
      · subst hia; simp [ha, h]
      · have : (i ∈ a :: r) ↔ i ∈ r := by simp [hia]
        simp only [if_neg hia, this]
        omega
  have hk := key entrySlotList (List.nodup_finRange 48)
  rw [if_pos (show i ∈ entrySlotList from List.mem_finRange i)] at hk
  exact hk

/-- What retirement adds to the list (R80). -/
theorem retired_retireEntry (v : EntrySlot) (d : Option Discarded) (x : Entry) (s : State) (hx : s.entryAt v = some x) (o : Option Revision)
   (ho : (if x.state = .assembling then none else if x.state = .cancelled then x.cancel.map (·.revision)
      else x.current.map (·.revision)) = o) :
   (o = none → (retireEntry v d s).dir.retired = s.dir.retired) ∧
   ∀ r, o = some r → (retireEntry v d s).dir.retired =
     (if 64 ≤ s.dir.retired.length then s.dir.retired.drop 1 else s.dir.retired) ++ [⟨x.key, r, d⟩] := by
  have : x.retiredRevision = o := by
    rw [← ho]; unfold Entry.retiredRevision; cases x.state <;> rfl
  unfold retireEntry
  rw [hx]
  dsimp only
  rw [this]
  cases o with
  | none => exact ⟨fun _ => rfl, fun r h => (by cases h)⟩
  | some r => exact ⟨fun h => (by cases h), fun r' h => (by cases h; rfl)⟩

/-- The receipt of a leaving entry counts no eviction. -/
theorem evictions_entryGone (h : Handle) (s : State) : (entryGone h s).host.cntG.evictions = s.host.cntG.evictions := by
  unfold entryGone
  split
  · rfl
  · dsimp only
    have ho : ∀ l t, (offer l t).host = t.host := by
      intro l t; rcases offer_cases l t with ⟨h, _⟩ | ⟨y, _, _, _, h⟩
      · rw [h]
      · rw [h, host_makeOffer]
    split <;> simp [ho, receiptFailed, clearOutstanding, countGlobal, post, dropRecord, State.setQueue]

/-- What an eviction leaves (R75, R79, R80). -/
theorem evict_spec (v : EntrySlot) (x : Entry) (s : State) (hx : s.entryAt v = some x) :
    EvictedFor v x s (evict v s) ∧ (evict v s).entryAt v = none ∧ othersKept v s (evict v s) ∧
    (evict v s).dir.useCounts = s.dir.useCounts ∧
    (evict v s).dir.segs = s.dir.segs.filter (fun g => !decide (g.slot = v)) := by
  have hr := retireEntry_spec v none s
  have hx' : (retireEntry v none s).entryAt v = some x := by rw [entryAt_retireEntry]; exact hx
  obtain ⟨d1, d2, d3, d4, -, -, -⟩ := departEntry_spec v x (retireEntry v none s) hx'
  refine ⟨⟨?_, d4, ?_, work_evict v s⟩, ?_, ?_, ?_, ?_⟩
  · show (departEntry v (retireEntry v none s)).dir.retired = _
    rw [d3]
    generalize ho : (if x.state = EntryState.assembling then none else if x.state = .cancelled then x.cancel.map (·.revision)
      else x.current.map (·.revision)) = o
    obtain ⟨r1, r2⟩ := retired_retireEntry v none x s hx o ho
    cases o with
    | none => exact r1 rfl
    | some r => exact r2 r rfl
  · have : (departEntry v (retireEntry v none s)).host.cntG.evictions = s.host.cntG.evictions := by
      have e1 : (departEntry v (retireEntry v none s)).host.cntG.evictions = (entryGone ((retireEntry v none s).handleOf v) (dropRequest v (retireEntry v none s))).host.cntG.evictions := by
        simp only [departEntry, post, State.putEntry, releaseAll, State.setSegs, State.setDir, State.setHost]
      rw [e1, evictions_entryGone, (requestWork_dropRequest v (retireEntry v none s)).host, hr]; simp only [State.setDir]
    have e2 : (evict v s).host.cntG.evictions = bump (departEntry v (retireEntry v none s)).host.cntG.evictions := by
      simp only [evict, countGlobal, State.setHost]
    rw [e2, this]; simp only [bump, Config.counterLimit]
  · exact entryAt_departEntry v (retireEntry v none s)
  · intro j hj
    have := othersKept_departEntry v (retireEntry v none s) j hj
    rw [entryAt_retireEntry] at this
    exact this
  · show (departEntry v (retireEntry v none s)).dir.useCounts = _; rw [d1, hr]; rfl
  · show (departEntry v (retireEntry v none s)).dir.segs = _; rw [d2, hr]; rfl

/-- The eviction of an entry, whole (R75, R79, R80, R165). -/
theorem evicted_evict (v : EntrySlot) (x : Entry) (s : State) (hx : s.entryAt v = some x) : Evicted v x s (evict v s) := by
  obtain ⟨h1, h2, h3, h4, h5⟩ := evict_spec v x s hx
  refine ⟨h1, h2, h3, h4, h5, ?_⟩
  have hr := retireEntry_spec v none s
  have g := recordGone_departEntry v (retireEntry v none s)
  have hu : (retireEntry v none s).dir.useCounts = s.dir.useCounts := by rw [hr]; rfl
  have hh : (retireEntry v none s).handleOf v = s.handleOf v := by unfold State.handleOf; rw [hu]
  rw [hh] at g
  refine g.congr (by rw [hr]; rfl) (fun l => by rw [hr]; rfl) (by rw [hr]; rfl) hu
    (fun j _ => entryAt_retireEntry _ _ _ _) rfl (by rw [hr]; rfl) rfl (fun _ => rfl) (fun _ _ => rfl) rfl id

/-- Which entry is the victim depends on the entries alone. -/
theorem victim_congr {s t : State} {may may' : EntrySlot → Bool} (c : AlertClass)
    (hm : ∀ j, may' j = may j) (he : ∀ j, may j = true → t.entryAt j = s.entryAt j) :
    t.victim may' c = s.victim may c := by
  have key : ∀ age, t.victimOf may' age = s.victimOf may age := by
    intro age
    have : t.candidates may' age = s.candidates may age := by
      unfold State.candidates
      apply List.filterMap_congr
      intro j _
      rw [hm j]
      split
      · rename_i h; rw [he j h]
      · rfl
    have a : t.victimOf may' age = ((t.candidates may' age).foldl elder none).map (·.2) := rfl
    have b : s.victimOf may age = ((s.candidates may age).foldl elder none).map (·.2) := rfl
    rw [a, b, this]
  simp only [State.victim, List.findSome?_cons, List.findSome?_nil, key]

end Sys2Proof.Machine
end

