-- ==== Sys2Proof/Laws/Framed.lean ====
section
/-! SUPPORT. A host command of the right length on an idle port: its work on the taken state, then its response (R171,
R173, R192). -/

namespace Sys2Proof.Machine

/-- What an idle port is after a command's transaction. -/
theorem endTransaction_taken (code : Byte) (body : List Byte) (s : State) (h : s.portIdle) :
    endTransaction (code :: framed body) s = s.taken body.length := by
  obtain ⟨ht, hr⟩ := h
  have hl : (bytesOf 2 body.length ++ body).length = body.length + 2 := by simp [bytesOf]
  simp only [endTransaction, State.status, hr, framed, State.taken, State.shifted, Option.isSome_none, accepting]
  simp only [List.length_cons, Nat.add_sub_cancel, hl]
  rcases s with ⟨p, n, f, la, lb, pr, d, a, ar, rc, ⟨txn, resp, ev, mk, wk, se, c1, c2, c3, w, o⟩⟩
  simp only at ht; subst ht; rfl

/-- The length field of a framed body reads as the body's length. -/
theorem fieldAt_framed (body : List Byte) (h : body.length < 65536) : fieldAt (framed body) 0 2 = body.length := by
  simp only [framed, fieldAt, bytesAt, bytesOf, valueOf, List.drop_zero, List.cons_append, List.nil_append,
    List.take_succ_cons, List.take_zero, List.foldl_cons, List.foldl_nil, BitVec.toNat_ofNat]
  omega

/-- A framed command on an idle port works on the taken state and is answered. -/
theorem transact_framed (code : Byte) (len : Nat) (work : List Byte → State → Answer) (body : List Byte) (s : State)
    (h : s.portIdle) (hl : body.length = len) (hb : len < 65536) :
    transact code len work (framed body) s =
      (work body (s.taken len)).1.answered (work body (s.taken len)).2 := by
  subst hl
  rw [transact_taken code _ work _ s h.1 h.2 (by simp [framed, bytesOf]; omega) (fieldAt_framed _ hb)]
  rw [endTransaction_taken code body s h]
  have : (framed body).drop 2 = body := by simp [framed, bytesOf]
  rw [this]; rfl

end Sys2Proof.Machine
end

