-- ==== Sys2Proof/Laws/Tally.lean ====
section
/-! SUPPORT. The counters that receipt, attention, area, directory and assembler work leaves alone: the counters of the
links, LOADS, LOAD-FAILS and FALLBACK-PAGES (R185, R186); one lemma per operation. -/

namespace Sys2Proof.Machine

/-- The per-link counters and the counters of loads and fallback pages. -/
def HostPort.tally (h : HostPort) : LinkCounters × LinkCounters × Nat × Nat × Nat :=
  (h.cntLa, h.cntLb, h.cntG.loads, h.cntG.loadFails, h.cntG.fallbackPages)

@[simp] theorem tally_post (k : EventKind) (s : State) : (post k s).host.tally = s.host.tally := rfl

theorem tally_countSent (s : State) :
    (countGlobal (fun c => { c with receiptsSent := bump c.receiptsSent }) s).host.tally = s.host.tally := rfl

@[simp] theorem tally_modNamed (h : Handle) (f : Entry → Entry) (s : State) : (modNamed h f s).host.tally = s.host.tally := by
  unfold modNamed
  repeat' (first | split | dsimp only)
  all_goals simp

@[simp] theorem tally_setReceipt (h : Handle) (r : ReceiptState) (s : State) : (setReceipt h r s).host.tally = s.host.tally := by
  simp [setReceipt]

@[simp] theorem tally_enqueue (l : LinkId) (f : OutFrame) (s : State) : (enqueue l f s).host.tally = s.host.tally := by
  simp [enqueue]

@[simp] theorem tally_makeOffer (r : ReceiptRecord) (s : State) : (makeOffer r s).host.tally = s.host.tally := by
  simp [makeOffer, modRecord, State.setQueue]

@[simp] theorem tally_offer (l : LinkId) (s : State) : (offer l s).host.tally = s.host.tally := by
  unfold offer
  repeat' (first | split | dsimp only)
  all_goals simp

@[simp] theorem tally_clearOutstanding (l : LinkId) (s : State) : (clearOutstanding l s).host.tally = s.host.tally := by
  simp [clearOutstanding]

@[simp] theorem tally_receiptFailed (s : State) : (receiptFailed s).host.tally = s.host.tally := by
  rfl

@[simp] theorem tally_refuse (r : ReceiptRecord) (s : State) : (refuse r s).host.tally = s.host.tally := by
  unfold refuse
  repeat' (first | split | dsimp only)
  all_goals simp [modRecord, State.setQueue, dropRecord]

@[simp] theorem tally_receiptSent (r : ReceiptRecord) (s : State) : (receiptSent r s).host.tally = s.host.tally := by
  unfold receiptSent
  dsimp only
  rw [tally_offer, tally_countSent, tally_post, tally_setReceipt]
  simp [dropRecord, State.setQueue]

@[simp] theorem tally_refuseOutstanding (l : LinkId) (s : State) : (refuseOutstanding l s).host.tally = s.host.tally := by
  unfold refuseOutstanding
  repeat' (first | split | dsimp only)
  all_goals simp

@[simp] theorem tally_entryGone (h : Handle) (s : State) : (entryGone h s).host.tally = s.host.tally := by
  unfold entryGone
  repeat' (first | split | dsimp only)
  all_goals simp [dropRecord, State.setQueue]

@[simp] theorem tally_receiptStep (i : EntrySlot) (s : State) : (receiptStep i s).host.tally = s.host.tally := by
  unfold receiptStep
  repeat' (first | split | dsimp only)
  all_goals simp

@[simp] theorem tally_beginPlay (lv : Level) (i : EntrySlot) (s : State) : (beginPlay lv i s).host.tally = s.host.tally := by
  unfold beginPlay
  repeat' (first | split | dsimp only)
  all_goals simp

@[simp] theorem tally_selectFrom (start : Level → EntrySlot) (s : State) : (selectFrom start s).host.tally = s.host.tally := by
  unfold selectFrom
  repeat' (first | split | dsimp only)
  all_goals simp

@[simp] theorem tally_select (s : State) : (select s).host.tally = s.host.tally := by
  simp [select]

@[simp] theorem tally_clearPlay (s : State) : (clearPlay s).host.tally = s.host.tally := by
  simp [clearPlay]

@[simp] theorem tally_selectIfIdle (s : State) : (selectIfIdle s).host.tally = s.host.tally := by
  unfold selectIfIdle
  repeat' (first | split | dsimp only)
  all_goals simp

@[simp] theorem tally_raiseAlert (i : EntrySlot) (s : State) : (raiseAlert i s).host.tally = s.host.tally := by
  unfold raiseAlert
  repeat' (first | split | dsimp only)
  all_goals simp

@[simp] theorem tally_retrigger (i : EntrySlot) (s : State) : (retrigger i s).host.tally = s.host.tally := by
  unfold retrigger
  repeat' (first | split | dsimp only)
  all_goals simp

@[simp] theorem tally_dropRequest (i : EntrySlot) (s : State) : (dropRequest i s).host.tally = s.host.tally := by
  unfold dropRequest
  repeat' (first | split | dsimp only)
  all_goals simp

@[simp] theorem tally_trigger (p : Entry → Bool) (s : State) : (trigger p s).host.tally = s.host.tally := by
  simp [trigger]

@[simp] theorem tally_servingTrigger (s : State) : (servingTrigger s).host.tally = s.host.tally := by
  simp [servingTrigger]

@[simp] theorem tally_retire (k : Key) (r : Revision) (d : Option Discarded) (s : State) :
    (retire k r d s).host.tally = s.host.tally := by
  simp [retire]

@[simp] theorem tally_unretire (k : Key) (s : State) : (unretire k s).host.tally = s.host.tally := by
  simp [unretire]

@[simp] theorem tally_releaseAll (i : EntrySlot) (s : State) : (releaseAll i s).host.tally = s.host.tally := by
  simp [releaseAll, State.setSegs]

@[simp] theorem tally_releaseGroup (i : EntrySlot) (g : SegmentGroup) (s : State) : (releaseGroup i g s).host.tally = s.host.tally := by
  simp [releaseGroup, State.setSegs]

@[simp] theorem tally_promoteSegs (i : EntrySlot) (s : State) : (promoteSegs i s).host.tally = s.host.tally := by
  simp [promoteSegs, State.setSegs]

@[simp] theorem tally_retireEntry (i : EntrySlot) (d : Option Discarded) (s : State) :
    (retireEntry i d s).host.tally = s.host.tally := by
  unfold retireEntry
  repeat' (first | split | dsimp only)
  all_goals simp

@[simp] theorem tally_departEntry (i : EntrySlot) (s : State) : (departEntry i s).host.tally = s.host.tally := by
  simp [departEntry]

@[simp] theorem tally_evict (i : EntrySlot) (s : State) : (evict i s).host.tally = s.host.tally := by
  exact (tally_departEntry i (retireEntry i none s)).trans (tally_retireEntry i none s)

@[simp] theorem tally_bumpUse (i : EntrySlot) (s : State) : (bumpUse i s).host.tally = s.host.tally := by
  simp [bumpUse]

@[simp] theorem tally_reportOccupancy (s : State) : (reportOccupancy s).host.tally = s.host.tally := by
  rfl

@[simp] theorem tally_placeEntry (i : EntrySlot) (e : Entry) (s : State) : (placeEntry i e s).host.tally = s.host.tally := by
  simp [placeEntry]

@[simp] theorem tally_putSegment (i : EntrySlot) (part : Nat) (text : List Byte) (s : State) : (putSegment i part text s).host.tally = s.host.tally := by
  simp [putSegment, State.setSegs]

@[simp] theorem tally_dropIncoming (i : EntrySlot) (s : State) : (dropIncoming i s).host.tally = s.host.tally := by
  simp [dropIncoming]

@[simp] theorem tally_settleCompletion (i : EntrySlot) (b : EntryState) (v : Verdict) (s : State) : (settleCompletion i b v s).host.tally = s.host.tally := by
  unfold settleCompletion
  repeat' (first | split | dsimp only)
  all_goals simp

@[simp] theorem tally_complete (i : EntrySlot) (g : Governing) (s : State) : (complete i g s).host.tally = s.host.tally := by
  unfold complete
  repeat' (first | split | dsimp only)
  all_goals simp

@[simp] theorem tally_takeCancel (i : EntrySlot) (p : Page) (g : Governing) (s : State) : (takeCancel i p g s).host.tally = s.host.tally := by
  simp [takeCancel]

theorem tally_allocate (c : AlertClass) (s : State) {i : EntrySlot} {t : State} (h : allocate c s = some (i, t)) :
    t.host.tally = s.host.tally := by
  unfold allocate at h
  split at h
  · cases h; simp
  · split at h
    · cases h; simp
    · cases h

theorem tally_takeSegment (i : EntrySlot) (part : Nat) (text : List Byte) (c : AlertClass) (s : State) {t : State}
    (h : takeSegment i part text c s = some t) : t.host.tally = s.host.tally := by
  unfold takeSegment at h
  split at h
  · cases h; simp
  · split at h
    · cases h
    · cases h; simp

theorem tally_startRevision (i : EntrySlot) (p : Page) (g : Governing) (s : State) {x : State × Disposition}
    (h : startRevision i p g s = some x) : x.1.host.tally = s.host.tally := by
  unfold startRevision at h
  split at h
  · cases h
  · rename_i t ht
    have a := tally_takeSegment _ _ _ _ _ ht
    dsimp only at h
    split at h <;> cases h <;> simp [a]

theorem tally_orFull (s : State) (r : Option (State × Disposition)) (h : ∀ x, r = some x → x.1.host.tally = s.host.tally) :
    (orFull s r).1.host.tally = s.host.tally := by
  unfold orFull
  split
  · rfl
  · exact h _ rfl

theorem tally_storePart (i : EntrySlot) (inc : Incoming) (p : Page) (g : Governing) (s : State) :
    (storePart i inc p g s).1.host.tally = s.host.tally := by
  unfold storePart
  split
  · rfl
  · split
    · rfl
    · refine tally_orFull s _ (fun x hx => ?_)
      obtain ⟨t, ht, rfl⟩ := Option.map_eq_some_iff.1 hx
      have a := tally_takeSegment _ _ _ _ _ ht
      dsimp only
      split <;> simp [a]

theorem tally_restartRevision (i : EntrySlot) (p : Page) (g : Governing) (s : State) :
    (restartRevision i p g s).1.host.tally = s.host.tally :=
  tally_orFull s _ (fun _ hx => (tally_startRevision _ _ _ _ hx).trans (tally_dropIncoming i s))

theorem tally_workHit (i : EntrySlot) (e : Entry) (p : Page) (g : Governing) (s : State) :
    (workHit i e p g s).1.host.tally = s.host.tally := by
  unfold workHit
  split
  · unfold issueAtLive
    dsimp only
    repeat' split
    all_goals first
      | rfl
      | exact tally_storePart _ _ _ _ _
      | exact tally_restartRevision _ _ _ _
      | exact tally_orFull s _ (fun _ hx => tally_startRevision _ _ _ _ hx)
  · unfold cancelAtLive
    dsimp only
    repeat' split
    all_goals first
      | rfl
      | exact tally_takeCancel _ _ _ _
  · unfold issueAtTombstone
    repeat' split
    all_goals first
      | rfl
      | exact tally_orFull s _ (fun x hx => (tally_startRevision _ _ _ _ hx).trans (by simp))
  · unfold cancelAtTombstone
    repeat' split
    all_goals first
      | rfl
      | simp

theorem tally_workMiss (p : Page) (g : Governing) (s : State) : (workMiss p g s).1.host.tally = s.host.tally := by
  unfold workMiss
  split
  · rfl
  · rename_i i t ht
    have a := tally_allocate _ _ ht
    split
    · dsimp only
      split
      · simp [a]
      · rename_i x hx
        exact (tally_startRevision _ _ _ _ hx).trans (by simp [a])
    · simp [a]

/-- The directory and the assembler count no page, load or fallback page (R185, R186). -/
theorem tally_workPage (p : Page) (g : Governing) (s : State) : (workPage p g s).1.host.tally = s.host.tally := by
  unfold workPage
  split
  · unfold joinUnlessFull
    split
    · exact tally_workHit _ _ _ _ _
    · simp [tally_workHit]
  · split
    · exact tally_workMiss _ _ _
    · split
      · exact (tally_workMiss _ _ _).trans (by simp)
      · rfl

end Sys2Proof.Machine
end

