-- ==== Sys2Proof/Laws/Judging.lean ====
section
/-! SUPPORT. What the judging of a held page leaves: its slot freed, its credit returned, one DISPOSITION queued (R31, R41,
R50 to R52). -/

namespace Sys2Proof.Machine

/-- A held page left its slot with a disposition: on a link in UP one DISPOSITION joined the frames waiting, receipts
apart, and one credit returned; the rest of both link records, the profile unit, and all that `Told` names stand. -/
structure Disposed (l : LinkId) (k : PageSlot) (p : Page) (d : Disposition) (s t : State) : Prop where
  core : (t.link l).core = { (s.link l).core with
    slots := (s.link l).slots.set k .free
    credits := if (s.link l).state = .up then (s.link l).credits + 1 else (s.link l).credits }
  up : (s.link l).state = .up → nonReceipts (t.link l).outQ =
    nonReceipts (s.link l).outQ ++ [.disposition (pageKey p) p.revision p.partIndex d]
  notUp : (s.link l).state ≠ .up → (t.link l).outQ = (s.link l).outQ
  other : (t.link l.other).core = (s.link l.other).core
  otherFrames : nonReceipts (t.link l.other).outQ = nonReceipts (s.link l.other).outQ
  otherNotUp : (s.link l.other).state ≠ .up → (t.link l.other).outQ = (s.link l.other).outQ
  pages : ∀ m, (t.host.counters m).pages = (s.host.counters m).pages
  prof : t.prof = s.prof
  told : Told s t

/-- Work before the disposition does not disturb it. -/
theorem Disposed.after {l : LinkId} {k : PageSlot} {p : Page} {d : Disposition} {s u t : State} (w : Work s u)
    (hp : ∀ m, (u.host.counters m).pages = (s.host.counters m).pages) (h : Disposed l k p d u t) : Disposed l k p d s t where
  core := by
    have e := h.core
    rw [w.link l, w.state l, Link.slots_of_core (w.link l), Link.credits_of_core (w.link l)] at e
    exact e
  up := fun hu => by rw [h.up (by rw [w.state]; exact hu), w.frames]
  notUp := fun hu => by rw [h.notUp (by rw [w.state]; exact hu), w.outQ l hu]
  other := h.other.trans (w.link _)
  otherFrames := h.otherFrames.trans (w.frames _)
  otherNotUp := fun hu => by rw [h.otherNotUp (by rw [w.state]; exact hu), w.outQ _ hu]
  pages := fun m => (h.pages m).trans (hp m)
  prof := h.prof.trans w.prof
  told := w.told.trans h.told

/-- The disposition of a held page (R31). -/
theorem disposed_dispose (l : LinkId) (k : PageSlot) (p : Page) (d : Disposition) (s : State)
    (hp : s.heldPage l k = some p) : Disposed l k p d s (dispose l k d s) ∧ (dispose l k d s).dir = s.dir ∧
      (dispose l k d s).host.cntG = s.host.cntG ∧
      (∀ e, EventSet.holds s.host.events e = true → EventSet.holds (dispose l k d s).host.events e = true) := by
  have told := told_dispose l k d s
  obtain ⟨u, hu⟩ : ∃ u, u = postIfFull d (countLink l (countCode d) s) := ⟨_, rfl⟩
  have hl : ∀ m, u.link m = s.link m := by
    intro m; rw [hu]; unfold postIfFull; split <;> simp
  have hc : ∀ m, (u.host.counters m).pages = (s.host.counters m).pages := by
    intro m; rw [hu]; unfold postIfFull
    cases l <;> cases m <;> cases d <;> rfl
  have hg : u.host.cntG = s.host.cntG := by
    rw [hu]; unfold postIfFull; split <;> cases l <;> rfl
  have hd : dispose l k d s = freeSlot l k (if (s.link l).state = .up
      then enqueue l (.disposition (pageKey p) p.revision p.partIndex d) u else u) := by
    simp only [dispose, hp, ← hu, hl]
  have hpush : ∀ q, pushFrame q (.disposition (pageKey p) p.revision p.partIndex d) =
      q ++ [.disposition (pageKey p) p.revision p.partIndex d] := fun q => by
    simp [pushFrame, OutFrame.isSubscribe, OutFrame.isReceipt]
  have hhost : (dispose l k d s).host = u.host := by
    rw [hd]; split <;> simp [freeSlot, enqueue]
  by_cases hup : (s.link l).state = .up
  · have hlk : (dispose l k d s).link l = { s.link l with
        outQ := (s.link l).outQ ++ [.disposition (pageKey p) p.revision p.partIndex d]
        slots := (s.link l).slots.set k .free
        credits := (s.link l).credits + 1 } := by
      rw [hd, if_pos hup]; simp [freeSlot, enqueue, hl, Link.setSlot, hup, hpush]
    have hlo : (dispose l k d s).link l.other = s.link l.other := by
      rw [hd, if_pos hup]; simp [freeSlot, enqueue, hl]
    refine ⟨⟨?_, fun _ => ?_, fun h => absurd hup h, ?_, ?_, fun _ => ?_, ?_, prof_dispose _ _ _ _, told⟩, dir_dispose _ _ _ _, ?_, fun e h => told.events _ h⟩
    · rw [hlk, if_pos hup]; rfl
    · rw [hlk]; simp [nonReceipts, OutFrame.isReceipt]
    · rw [hlo]
    · rw [hlo]
    · rw [hlo]
    · intro m; rw [hhost]; exact hc m
    · rw [hhost, hg]
  · have hlk : (dispose l k d s).link l = { s.link l with slots := (s.link l).slots.set k .free } := by
      rw [hd, if_neg hup]; simp [freeSlot, hl, Link.setSlot, hup]
    have hlo : (dispose l k d s).link l.other = s.link l.other := by
      rw [hd, if_neg hup]; simp [freeSlot, hl]
    refine ⟨⟨?_, fun h => absurd h hup, fun _ => ?_, ?_, ?_, fun _ => ?_, ?_, prof_dispose _ _ _ _, told⟩, dir_dispose _ _ _ _, ?_, fun e h => told.events _ h⟩
    · rw [hlk, if_neg hup]; rfl
    · rw [hlk]
    · rw [hlo]
    · rw [hlo]
    · rw [hlo]
    · intro m; rw [hhost]; exact hc m
    · rw [hhost, hg]

/-- Working a page keeps the counts of pages and of fallback pages. -/
theorem counts_workPage (p : Page) (g : Governing) (s : State) :
    (∀ m, ((workPage p g s).1.host.counters m).pages = (s.host.counters m).pages) ∧
      (workPage p g s).1.host.cntG.fallbackPages = s.host.cntG.fallbackPages := by
  have t := tally_workPage p g s
  refine ⟨fun m => ?_, congrArg (fun x => x.2.2.2.2) t⟩
  cases m
  · exact congrArg (fun x : _ × _ => x.1.pages) t
  · exact congrArg (fun x : _ × _ × _ => x.2.1.pages) t

/-- Working a page never earns IGNORED (R52). -/
theorem workPage_not_ignored (p : Page) (g : Governing) (s : State) : (workPage p g s).2 ≠ .ignored := by
  have start : ∀ i u x, startRevision i p g u = some x → x.2 ≠ .ignored := by
    intro i u x h
    unfold startRevision at h
    split at h
    · cases h
    · dsimp only at h; split at h <;> (cases h; simp)
  have full : ∀ (u : State) r, (∀ x, r = some x → x.2 ≠ Disposition.ignored) → (orFull u r).2 ≠ .ignored := by
    intro u r h
    cases r with
    | none => simp [orFull]
    | some x => exact h x rfl
  have miss : ∀ u, (workMiss p g u).2 ≠ .ignored := by
    intro u
    unfold workMiss
    split
    · simp
    · split
      · dsimp only
        split
        · simp
        · rename_i h; exact start _ _ _ h
      · simp
  unfold workPage
  split
  · rename_i i e _
    have hj : (joinUnlessFull i p (workHit i e p g s)).2 = (workHit i e p g s).2 := by
      unfold joinUnlessFull; split <;> rfl
    rw [hj]
    unfold workHit issueAtLive cancelAtLive issueAtTombstone cancelAtTombstone
    split
    · dsimp only
      split
      · split
        · unfold storePart
          split
          · simp
          · split
            · simp
            · refine full _ _ (fun x h => ?_)
              obtain ⟨t, _, rfl⟩ := Option.map_eq_some_iff.1 h
              dsimp only
              split <;> simp
        · split
          · simp
          · split
            · exact full _ _ (start _ _)
            · simp
      · split
        · simp
        · split
          · exact full _ _ (start _ _)
          · simp
    · dsimp only; split <;> [simp; split <;> simp]
    · split <;> [simp; (split <;> [exact full _ _ (start _ _); simp])]
    · split <;> [simp; split <;> simp]
  · split
    · exact miss _
    · split
      · exact miss _
      · simp

/-- Judging a held page under a profile (R52, R31). -/
theorem disposed_judgeUnder (b : Bool) (f : Profile) (l : LinkId) (k : PageSlot) (p : Page) (s : State)
    (hp : s.heldPage l k = some p) :
    ∃ d, Disposed l k p d s (judgeUnder b f l k s) ∧
      (governingRange f.ranges p.channel = none → d = .ignored ∧ (judgeUnder b f l k s).dir = s.dir) ∧
      (governingRange f.ranges p.channel ≠ none → d ≠ .ignored) ∧
      (judgeUnder b f l k s).host.cntG.fallbackPages = s.host.cntG.fallbackPages ∧
      (∀ n r, governingRange f.ranges p.channel = some (n, r) → d = (workPage p (governing b f n r) s).2) := by
  unfold judgeUnder
  simp only [hp]
  cases hg : governingRange f.ranges p.channel with
  | none =>
    obtain ⟨h1, h2, h3, _⟩ := disposed_dispose l k p .ignored s hp
    exact ⟨.ignored, h1, fun _ => ⟨rfl, h2⟩, fun h => absurd rfl h, by rw [h3], fun n r h => (by cases h)⟩
  | some x =>
    obtain ⟨n, r⟩ := x
    have w := work_workPage p (governing b f n r) s
    have c := counts_workPage p (governing b f n r) s
    obtain ⟨h1, h2, h3, _⟩ := disposed_dispose l k p (workPage p (governing b f n r) s).2 (workPage p (governing b f n r) s).1
      ((w.heldPage l k).trans hp)
    exact ⟨_, h1.after w c.1, fun h => (by cases h), fun _ => workPage_not_ignored _ _ _, by rw [h3]; exact c.2,
      fun n r h => by cases h; rfl⟩

/-- Judging a held page (R47, R50, R52, R31). -/
theorem disposed_judge (f : Option Profile) (l : LinkId) (k : PageSlot) (p : Page) (s : State)
    (hp : s.heldPage l k = some p) :
    ∃ d, Disposed l k p d s (judge f l k s) ∧
      (∀ g, f = some g → governingRange g.ranges p.channel = none → d = .ignored ∧ (judge f l k s).dir = s.dir) ∧
      (f = none → (p.channel ≤ 1023 → d ≠ .ignored) ∧
        (judge f l k s).host.cntG.fallbackPages = min (s.host.cntG.fallbackPages + 1) 65535 ∧
        EventSet.holds (judge f l k s).host.events .profileFallback = true) ∧
      d = (judgedWork f p s).2 := by
  cases f with
  | some g =>
    obtain ⟨d, h1, h2, _, _, h5⟩ := disposed_judgeUnder false g l k p s hp
    refine ⟨d, h1, fun g' e hg => by cases e; exact h2 hg, fun h => (by cases h), ?_⟩
    simp only [judgedWork]
    cases hg : governingRange g.ranges p.channel with
    | none => exact (h2 hg).1
    | some x => exact h5 x.1 x.2 hg
  | none =>
    have w := work_noteFallback s
    obtain ⟨d, h1, h2, h3, h4, h5⟩ := disposed_judgeUnder true fallbackProfile l k p (noteFallback s) ((w.heldPage l k).trans hp)
    refine ⟨d, h1.after w (fun m => by cases m <;> rfl), fun g h => (by cases h), fun _ => ⟨fun hc => h3 ?_, ?_, ?_⟩, ?_⟩
    · simp [governingRange, fallbackProfile, hc]
    · exact h4.trans rfl
    · refine h1.told.events _ ?_
      exact holds_post .profileFallback _
    · simp only [judgedWork]
      by_cases hc : p.channel ≤ 1023
      · rw [if_pos hc]
        exact h5 1 ⟨0, 1023, .severe, false⟩ (by simp [governingRange, fallbackProfile, hc])
      · rw [if_neg hc]
        exact (h2 (by simp [governingRange, fallbackProfile, hc])).1

/-- The dispositions of a run of held pages, in their order (R55, R41). -/
theorem frames_foldl_judge (f : Option Profile) (out : List WaitingPage) (s : State) (hn : (out.map (fun w => (w.link, w.slot))).Nodup)
    (hh : ∀ w ∈ out, (s.heldPage w.link w.slot).isSome = true) :
    ∃ d : WaitingPage → Disposition, ∀ l, (s.link l).state = .up →
      nonReceipts ((out.foldl (fun u w => judge f w.link w.slot u) s).link l).outQ = nonReceipts (s.link l).outQ ++
        (out.filter (fun w => decide (w.link = l))).filterMap (fun w => (s.heldPage w.link w.slot).map (fun p =>
          OutFrame.disposition (pageKey p) p.revision p.partIndex (d w))) := by
  induction out generalizing s with
  | nil => exact ⟨fun _ => .full, fun l _ => by simp⟩
  | cons w r ih =>
    simp only [List.map_cons, List.nodup_cons] at hn
    obtain ⟨hw, hr⟩ := hn
    have hwr : ∀ x ∈ r, ¬ (x.link = w.link ∧ x.slot = w.slot) := by
      intro x hx ⟨h1, h2⟩
      exact hw (List.mem_map.2 ⟨x, hx, by rw [h1, h2]⟩)
    obtain ⟨p, hp⟩ := Option.isSome_iff_exists.1 (hh w (by simp))
    obtain ⟨d, h, _⟩ := disposed_judge f w.link w.slot p s hp
    have hst : ∀ l, ((judge f w.link w.slot s).link l).state = (s.link l).state := by
      intro l
      rcases LinkId.eq_or_other w.link l with e | e
      · subst e; have := congrArg Link.state h.core; simpa [Link.core] using this
      · subst e; exact Link.state_of_core h.other
    have hheld : ∀ x ∈ r, (judge f w.link w.slot s).heldPage x.link x.slot = s.heldPage x.link x.slot := by
      intro x hx; exact heldPage_judge f w.link w.slot s x.link x.slot (hwr x hx)
    obtain ⟨dr, ihr⟩ := ih (judge f w.link w.slot s) hr (fun x hx => by rw [hheld x hx]; exact hh x (by simp [hx]))
    refine ⟨fun x => if x.link = w.link ∧ x.slot = w.slot then d else dr x, fun l hl => ?_⟩
    rw [List.foldl_cons, ihr l (by rw [hst]; exact hl)]
    have tail : ∀ xs : List WaitingPage, (∀ x ∈ xs, x ∈ r) → xs.filterMap (fun x => ((judge f w.link w.slot s).heldPage x.link x.slot).map (fun p =>
          OutFrame.disposition (pageKey p) p.revision p.partIndex (dr x))) = xs.filterMap (fun x => (s.heldPage x.link x.slot).map (fun p =>
          OutFrame.disposition (pageKey p) p.revision p.partIndex (if x.link = w.link ∧ x.slot = w.slot then d else dr x))) := by
      intro xs hxs
      apply List.filterMap_congr
      intro x hx
      rw [hheld x (hxs x hx), if_neg (hwr x (hxs x hx))]
    rw [tail _ (fun x hx => (List.mem_filter.1 hx).1)]
    by_cases hwl : w.link = l
    · subst hwl
      rw [h.up hl]
      simp [hp]
    · have : l = w.link.other := by rcases LinkId.eq_or_other w.link l with e | e; exact absurd e.symm hwl; exact e
      rw [List.filter_cons_of_neg (by simpa using hwl), this, h.otherFrames]

/-- A SUBSCRIBE takes its place among the frames, receipts apart (R38). -/
theorem nonReceipts_pushSubscribe (q : List OutFrame) (f : OutFrame) (h : f.isSubscribe = true) (h2 : f.isReceipt = false) : nonReceipts (pushFrame q f) = pushFrame (nonReceipts q) f := by
  have e : (nonReceipts q).any OutFrame.isSubscribe = q.any OutFrame.isSubscribe := by
    induction q with
    | nil => rfl
    | cons a r ih =>
      cases ha : a.isReceipt
      · have : nonReceipts (a :: r) = a :: nonReceipts r := by simp [nonReceipts, ha]
        rw [this, List.any_cons, List.any_cons, ih]
      · have : nonReceipts (a :: r) = nonReceipts r := by simp [nonReceipts, ha]
        have hs : a.isSubscribe = false := by cases a <;> simp_all [OutFrame.isReceipt, OutFrame.isSubscribe]
        rw [this, List.any_cons, ih, hs]; rfl
  unfold pushFrame
  rw [e]
  by_cases hq : q.any OutFrame.isSubscribe = true
  · simp only [h, hq, Bool.and_self, if_true]
    unfold nonReceipts
    rw [List.filter_map]
    have hf : List.filter ((fun f => !f.isReceipt) ∘ fun g => if g.isSubscribe = true then f else g) q = List.filter (fun f => !f.isReceipt) q := by
      apply List.filter_congr
      intro x _
      simp only [Function.comp]
      split
      · rename_i hx; cases x <;> simp_all [OutFrame.isReceipt, OutFrame.isSubscribe]
      · rfl
    rw [hf]
  · simp [h, hq, h2, nonReceipts]

/-- A subscription is a SUBSCRIBE frame (R37). -/
theorem subscriptionOf_isSubscribe (p) : (subscriptionOf p).isSubscribe = true ∧ (subscriptionOf p).isReceipt = false := by cases p <;> exact ⟨rfl, rfl⟩

/-! ### The judged page as one equation -/

theorem bump_eq (n : Nat) : bump n = min (n + 1) 65535 := rfl

theorem countLink_eq (l : LinkId) (f : LinkCounters → LinkCounters) (s : State) :
    countLink l f s = s.setHost (s.host.withCounters l (f (s.host.counters l))) := by cases l <;> rfl

theorem countCode_eq (d : Disposition) (c : LinkCounters) : countCode d c = countersAfter d c := by cases d <;> rfl

/-- The disposition of a held page, whole. -/
theorem dispose_eq {l : LinkId} {k : PageSlot} {p : Page} (d : Disposition) {s : State} (hp : s.heldPage l k = some p) :
    dispose l k d s = s.disposed l k p d := by
  have hpush : ∀ q, pushFrame q (.disposition (pageKey p) p.revision p.partIndex d) =
      q ++ [.disposition (pageKey p) p.revision p.partIndex d] := fun q => by
    simp [pushFrame, OutFrame.isSubscribe, OutFrame.isReceipt]
  simp only [dispose, hp, State.disposed, postIfFull, countLink_eq, countCode_eq]
  by_cases hd : d = .full <;> by_cases hu : (s.link l).state = .up <;> cases l <;>
    simp_all [freeSlot, enqueue, post, modLink, Link.setSlot, State.setLink, State.setHost, State.link]

theorem noteFallback_eq (s : State) : noteFallback s = s.fallbackNoted := rfl

/-- Judging a held page, whole (R46, R47, R52, R31). -/
theorem judge_eq (f : Option Profile) {l : LinkId} {k : PageSlot} {p : Page} {s : State} (hp : s.heldPage l k = some p) :
    judge f l k s = s.judgedPage f l k p := by
  cases f with
  | some g =>
    simp only [judge, judgeUnder, hp, State.judgedPage, judgedWork]
    cases hg : governingRange g.ranges p.channel with
    | none => exact dispose_eq _ hp
    | some x =>
      obtain ⟨n, r⟩ := x
      exact dispose_eq _ (((work_workPage p (governing false g n r) s).heldPage l k).trans hp)
  | none =>
    have hn : s.fallbackNoted.heldPage l k = some p := ((work_noteFallback s).heldPage l k).trans hp
    simp only [judge, judgeUnder, noteFallback_eq, hn, State.judgedPage, judgedWork]
    by_cases hc : p.channel ≤ 1023
    · have hg : governingRange fallbackProfile.ranges p.channel = some (1, ⟨0, 1023, .severe, false⟩) := by
        simp [governingRange, fallbackProfile, hc]
      simp only [hg, if_pos hc]
      exact dispose_eq _ (((work_workPage p _ s.fallbackNoted).heldPage l k).trans hn)
    · have hg : governingRange fallbackProfile.ranges p.channel = none := by
        simp [governingRange, fallbackProfile, hc]
      simp only [hg, if_neg hc]
      exact dispose_eq _ hn

/-- Judging a run of held pages in order (R55). -/
theorem foldl_judge_eq (f : Option Profile) (ws : List WaitingPage) (s : State)
    (hn : (ws.map (fun w => (w.link, w.slot))).Nodup) (hh : ∀ w ∈ ws, (s.heldPage w.link w.slot).isSome = true) :
    ws.foldl (fun u w => judge f w.link w.slot u) s = s.judgedInOrder f ws := by
  induction ws generalizing s with
  | nil => rfl
  | cons w r ih =>
    simp only [List.map_cons, List.nodup_cons] at hn
    obtain ⟨p, hp⟩ := Option.isSome_iff_exists.1 (hh w (by simp))
    have hheld : ∀ x ∈ r, (judge f w.link w.slot s).heldPage x.link x.slot = s.heldPage x.link x.slot := by
      intro x hx
      refine heldPage_judge f w.link w.slot s x.link x.slot (fun ⟨h1, h2⟩ => hn.1 (List.mem_map.2 ⟨x, hx, by rw [h1, h2]⟩))
    have := ih (judge f w.link w.slot s) hn.2 (fun x hx => by rw [hheld x hx]; exact hh x (by simp [hx]))
    rw [List.foldl_cons, this, judge_eq f hp]
    simp [State.judgedInOrder, hp]

end Sys2Proof.Machine
end

