-- ==== Sys2Proof/Laws/Layouts.lean ====
section
/-! SUPPORT. The bytes of the records the device reports are those of their layouts (R188, R193, Table 51). -/

namespace Sys2Proof.Machine

/-- Zero in any width. -/
theorem bytesOf_zero (w : Nat) : bytesOf w 0 = List.replicate w 0#8 := by
  induction w with
  | zero => rfl
  | succ n ih => simp [bytesOf, ih, List.replicate_succ]

/-- One byte. -/
theorem bytesOf_one (v : Nat) : bytesOf 1 v = [byteOf v] := by simp [bytesOf, byteOf]

/-- The width of a field (R188). -/
theorem length_bytesOf (w v : Nat) : (bytesOf w v).length = w := by
  induction w with
  | zero => rfl
  | succ n ih => simp [bytesOf, ih]

/-- A yes or no as a byte. -/
theorem bytesOf_yesNo (b : Bool) : bytesOf 1 (yesNo b) = [flagByte b] := by cases b <;> rfl

/-- A yes or no as a byte. -/
theorem ofNat_yesNo (b : Bool) : BitVec.ofNat 8 (yesNo b) = flagByte b := by cases b <;> rfl

/-- Each byte of a field, most significant first (R188). -/
theorem bytesOf_place (n v : Nat) : (bytesOf n v).length = n ∧ ∀ k < n, (bytesOf n v)[k]? = some (BitVec.ofNat 8 (v / 256 ^ (n - 1 - k))) := by
  refine ⟨length_bytesOf n v, ?_⟩
  induction n with
  | zero => simp
  | succ n ih =>
    intro k hk
    cases k with
    | zero => simp [bytesOf]
    | succ k =>
      simp only [bytesOf, List.getElem?_cons_succ]
      rw [ih k (by omega)]
      congr 4; omega

/-- Layouts join. -/
theorem laidOut_append (a b) : laidOut (a ++ b) = laidOut a ++ laidOut b := by simp [laidOut]

/-- A byte through its number. -/
theorem ofNat_toNat_byte (b : Byte) : BitVec.ofNat 8 b.toNat = b := by simp

/-- A signed field in two's complement (R188). -/
theorem bytesOfSigned_eq (v : Int) : bytesOfSigned v = bytesOf 4 (v % 4294967296).toNat := by
  simp [bytesOfSigned, BitVec.toNat_ofInt]

/-- The settings record (Table 51). -/
theorem settingsBytes_laidOut (g : Settings) : settingsBytes g = laidOut (settingsLayout g) := by
  simp only [settingsBytes, laidOut, settingsLayout, List.flatMap_cons, List.flatMap_nil, bytesOf_one]
  simp [byteOf, ofNat_yesNo]

/-- The serving record of READ-LINKS (R193). -/
theorem servingBytes_laidOut (v : Serving) : servingBytes v = laidOut (servingLayout v) := by
  cases v <;> simp [servingBytes, laidOut, servingLayout, bytesOf_one, bytesOf_zero, byteOf]

/-- The counters (R193). -/
theorem counterBytes_laidOut (h : HostPort) : counterBytes h = laidOut (counterLayout h) := by
  simp [counterBytes, laidOut, counterLayout, linkCounterLayout, LinkCounters.bytes, GlobalCounters.bytes]

/-- An optional time (R193). -/
theorem optTimeBytes_laidOut (t) : optTimeBytes t = laidOut (timeLayout t) := by
  cases t <;> simp [optTimeBytes, laidOut, timeLayout, bytesOf_zero, bytesOf_one, timeBytes, byteOf]

/-- The current content of READ-ENTRY (R193). -/
theorem contentBytes_laidOut (c) : contentBytes c = laidOut (contentLayout c) := by
  cases c with
  | none => simp [contentBytes, contentLayout, laidOut, bytesOf_zero]
  | some c => simp [contentBytes, contentLayout, laidOut, bytesOf_one, timeBytes, revisionByte, byteOf, ofNat_yesNo]

/-- The area block of READ-ENTRY (R193). -/
theorem areaBlockBytes_laidOut (a : Option AreaBlock) (h : (areaPlaces a).length ≤ 16) : areaBlockBytes a = laidOut (areaLayout a) := by
  rcases a with _ | (es | ⟨vs, m⟩)
  · simp [areaBlockBytes, areaLayout, laidOut, bytesOf_zero, areaForm, areaPlaces, padTo, byteOf, AreaBlock.mark, flagByte]
  · have hl : es.length ≤ 16 := by simpa [areaPlaces] using h
    have hp : (areaPlaces (some (.cells es))).flatten = es.flatMap (fun x => bytesOf 4 x.base.toNat ++ (bytesOf 1 x.len ++ bytesOf 3 0)) := by
      simp only [areaPlaces, List.flatMap_def]
      congr 1
      apply List.map_congr_left
      intro x _
      simp [padTo, length_bytesOf, bytesOf_one, bytesOf_zero]
    have hlen : ((areaPlaces (some (.cells es))).flatten).length = 8 * es.length := by
      rw [hp, List.length_flatMap]; simp [length_bytesOf, Nat.mul_comm]
    simp only [areaBlockBytes, padTo, List.length_cons, hlen, areaLayout, laidOut_append]
    rw [hp]
    simp only [laidOut, List.flatMap_cons, List.flatMap_nil, List.append_nil, bytesOf_one, bytesOf_zero, List.flatMap_assoc]
    simp only [areaForm, AreaBlock.mark, flagByte, areaPlaces, List.length_map]
    rw [show 131 - (8 * es.length + 1 + 1 + 1) = 128 - 8 * es.length by omega]
    simp [byteOf]
  · have hl : vs.length ≤ 16 := by simpa [areaPlaces] using h
    have hp : (areaPlaces (some (.polygon vs m))).flatten = vs.flatMap (fun v => bytesOf 4 (v.lat % 4294967296).toNat ++ bytesOf 4 (v.lon % 4294967296).toNat) := by
      simp only [areaPlaces, List.flatMap_def]
      simp only [bytesOfSigned_eq]
    have hlen : ((areaPlaces (some (.polygon vs m))).flatten).length = 8 * vs.length := by
      rw [hp, List.length_flatMap]; simp [length_bytesOf, Nat.mul_comm]
    simp only [areaBlockBytes, padTo, List.length_cons, hlen, areaLayout, laidOut_append]
    rw [hp]
    simp only [laidOut, List.flatMap_cons, List.flatMap_nil, List.append_nil, bytesOf_one, bytesOf_zero, List.flatMap_assoc]
    simp only [areaForm, AreaBlock.mark, areaPlaces, List.length_map]
    rw [show 131 - (8 * vs.length + 1 + 1 + 1) = 128 - 8 * vs.length by omega]
    simp [byteOf, ofNat_yesNo]

/-- Bit `j` of the parts byte stands for part `j + 1` (R193). -/
theorem partsByte_bit (parts : List Nat) (hp : ∀ x ∈ parts, 1 ≤ x) : ∀ j < 8, (partsByte parts).getLsbD j = decide (j + 1 ∈ parts) := by
  intro j hj
  unfold partsByte
  have key : ∀ (ps : List Nat) (b : Byte), (∀ x ∈ ps, 1 ≤ x) → (ps.foldl (fun b k => b ||| (1#8 <<< (k - 1))) b).getLsbD j = (b.getLsbD j || decide (j + 1 ∈ ps)) := by
    intro ps
    induction ps with
    | nil => intro b _; simp
    | cons a r ih =>
      intro b h
      rw [List.foldl_cons, ih _ (fun x hx => h x (by simp [hx]))]
      have ha := h a (by simp)
      simp only [BitVec.getLsbD_or, BitVec.getLsbD_shiftLeft, List.mem_cons]
      by_cases hja : j + 1 = a
      · subst hja; simp [hj]
      · have : (decide (j < 8) && !decide (j < a - 1) && (1#8).getLsbD (j - (a - 1))) = false := by
          by_cases h2 : j < a - 1
          · simp [h2]
          · have : j - (a - 1) ≠ 0 := by omega
            simp [this]
        simp only [this, Bool.or_false, hja, false_or]
  rw [key parts 0 hp]; simp

/-- The record of READ-ENTRY (R193). -/
theorem entryBytes_laidOut (h : Handle) (now : Nat) (e : Entry) (ha : (areaPlaces (e.current.bind (·.desc.area))).length ≤ 16) :
    entryBytes h now e = laidOut (entryLayout h now e) := by
  unfold entryBytes entryLayout
  simp only [laidOut_append, ← optTimeBytes_laidOut, ← contentBytes_laidOut, ← areaBlockBytes_laidOut _ ha]
  have e1 : handleBytes h ++ keyBytes e.key ++ [e.state.code, holdCode e.hold, byteOf e.cls.num, flagByte e.provisional] =
    laidOut [(1, h.slot.val), (1, h.use.toNat), (2, e.key.region), (2, e.key.channel), (2, e.key.alertNo),
    (1, e.key.reach.code.toNat), (4, e.key.scope.getD 0), (1, e.state.code.toNat), (1, (holdCode e.hold).toNat),
    (1, e.cls.num), (1, yesNo e.provisional)] := by
    simp [laidOut, bytesOf_one, handleBytes, keyBytes, byteOf, ofNat_yesNo]
  have e5 : linksBytes e.links = laidOut [(1, yesNo e.links.la + 2 * yesNo e.links.lb), (1, if e.links.first = .la then 1 else 2)] := by
    rcases e.links with ⟨a, b, c⟩; cases a <;> cases b <;> cases c <;> decide
  rw [← e1, ← e5]
  have f2 : incomingBytes none = laidOut [(10, 0)] := by simp [incomingBytes, laidOut, bytesOf_zero]
  have f2' : ∀ r, incomingBytes (some r) = laidOut [(1, 1), (1, r.revision.toNat), (1, r.partCount), (1, (partsByte r.parts).toNat), (6, r.deadline)] := by
    intro r; simp [incomingBytes, laidOut, bytesOf_one, byteOf, revisionByte, timeBytes]
  have f3 : cancelBytes none = laidOut [(4, 0)] := by simp [cancelBytes, laidOut, bytesOf_zero]
  have f3' : ∀ c, cancelBytes (some c) = laidOut [(1, 1), (1, c.revision.toNat), (2, c.carrier)] := by
    intro c; simp [cancelBytes, laidOut, bytesOf_one, byteOf, revisionByte]
  have f4 : areaResultBytes none = laidOut [(3, 0)] := by simp [areaResultBytes, laidOut, bytesOf_zero]
  have f4' : ∀ a, areaResultBytes (some a) = laidOut [(1, 1), (1, a.decision.code.toNat), (1, yesNo a.malformed)] := by
    intro a; simp [areaResultBytes, laidOut, bytesOf_one, byteOf, ofNat_yesNo]
  have f6 : requestBytes none = laidOut [(7, 0)] := by simp [requestBytes, laidOut, bytesOf_zero]
  have f6' : ∀ r, requestBytes (some r) = laidOut [(1, 1), (1, r.kind.code.toNat), (1, r.level.rank), (2, r.remaining), (2, r.played)] := by
    intro r; simp [requestBytes, laidOut, bytesOf_one, byteOf]
  have g1 : ∀ b, laidOut [(1, yesNo b)] = [flagByte b] := by intro b; simp [laidOut, bytesOf_one, byteOf, ofNat_yesNo]
  have g2 : ∀ t, laidOut [(6, t)] = timeBytes t := by intro b; simp [laidOut, timeBytes]
  have g3 : ∀ a b, laidOut [(1, a), (1, b)] = [byteOf a, byteOf b] := by intro a b; simp [laidOut, bytesOf_one]
  have g4 : ∀ a t, laidOut [(1, yesNo a), (6, t)] = [flagByte a] ++ timeBytes t := by intro a b; simp [laidOut, bytesOf_one, timeBytes, byteOf, ofNat_yesNo]
  rw [g1, g2, g3, g3, g4]
  simp only [byteOf, ofNat_toNat_byte]
  cases e.incoming <;> cases e.cancel <;> cases e.area <;> cases e.request <;> simp only [f2, f2', f3, f3', f4, f4', f6, f6', List.append_assoc]

end Sys2Proof.Machine
end

