-- ==== Sys2Proof/Laws/Polygon.lean ====
section
/-! SUPPORT. The parts of the polygon test as quantified statements: extremes of a list, the edges by their number (R119 to
R123). -/

namespace Sys2Proof.Machine

/-- The least of a list lies at or below a bound exactly when some member does. -/
theorem leastOf_le (a : Int) (xs : List Int) (c : Int) : leastOf a xs ≤ c ↔ ∃ x ∈ a :: xs, x ≤ c := by
  unfold leastOf
  induction xs generalizing a with
  | nil => simp
  | cons b r ih => simp only [List.foldl_cons, ih, List.mem_cons, exists_eq_or_imp]; rw [min_le_iff]; tauto

/-- The greatest of a list lies at or above a bound exactly when some member does. -/
theorem le_greatestOf (a : Int) (xs : List Int) (c : Int) : c ≤ greatestOf a xs ↔ ∃ x ∈ a :: xs, c ≤ x := by
  unfold greatestOf
  induction xs generalizing a with
  | nil => simp
  | cons b r ih => simp only [List.foldl_cons, ih, List.mem_cons, exists_eq_or_imp]; rw [le_max_iff]; tauto

/-- Edge `k` runs from vertex `k` to the next, the last to the first (R7). -/
theorem edgesOf_eq (a : Point) (r : List Point) :
    edgesOf (a :: r) = (List.range (r.length + 1)).map (fun k =>
      ((a :: r).getD (k % (r.length + 1)) a, (a :: r).getD ((k + 1) % (r.length + 1)) a)) := by
  unfold edgesOf
  apply List.ext_getElem
  · simp
  · intro k h1 h2
    simp only [List.length_map, List.length_range] at h2
    simp only [List.getElem_zip, List.getElem_map, List.getElem_range, Prod.mk.injEq]
    have e1 : k % (r.length + 1) = k := Nat.mod_eq_of_lt h2
    refine ⟨?_, ?_⟩
    · rw [e1]; rw [List.getD_eq_getElem _ _ (by simp; omega)]
    · by_cases hk : k + 1 = r.length + 1
      · rw [hk, Nat.mod_self]
        have : k = r.length := by omega
        subst this
        simp
      · rw [Nat.mod_eq_of_lt (by omega), List.getD_eq_getElem _ _ (by simp; omega)]
        simp [show k < r.length by omega]

end Sys2Proof.Machine
end

