-- ==== Sys2Proof/Laws/Queries.lean ====
section
/-! SUPPORT. Lookups over the 48 slots as quantified statements, and the re-decision list after a trigger (R124, R125). -/

namespace Sys2Proof.Machine

/-- The slots whose entry meets a condition. -/
theorem mem_slotsWhere {s : State} {p : Entry → Bool} {i : EntrySlot} : i ∈ s.slotsWhere p ↔ ∃ e, s.entryAt i = some e ∧ p e = true := by
  simp [State.slotsWhere, entrySlotList, Option.any_eq_true]

/-- A deadline is reached when it is present and not in the future. -/
theorem reached_iff (s : State) (d : Option Nat) : s.reached d = true ↔ ∃ x, d = some x ∧ x ≤ s.now := by
  cases d <;> simp [State.reached]

/-- Some request waits at a level of which a condition holds (R134). -/
theorem someWaits_iff (s : State) (p : Nat → Bool) : s.someWaits p = true ↔ ∃ i q, s.waitingRequest i = some q ∧ p q.level.rank = true := by
  simp [State.someWaits, entrySlotList, Option.any_eq_true]

/-- A rank names one level. -/
theorem rank_iff {a b : Level} : a.rank = b.rank ↔ a = b := ⟨Level.rank_inj, fun h => by rw [h]⟩

/-- What every yield asks, in full. -/
theorem yieldOpen_iff (s : State) (r : Request) : s.yieldOpen r = true ↔
    0 < r.remaining ∧ r.silenced = false ∧ ∃ i q, s.waitingRequest i = some q ∧ q.level = r.level := by
  simp only [State.yieldOpen, Bool.and_eq_true, decide_eq_true_eq, someWaits_iff, rank_iff, Bool.not_eq_true', and_assoc]

/-- When a YIELD is carried out: at the point of R138, or under the leave of R139. -/
theorem yieldAllowed_iff (s : State) (p : Play) (r : Request) : (s.yieldDue p r || s.mayYieldEarly p r) = true ↔
    (s.minimumMs + s.maximumMs ≤ p.turn ∨ r.kind = .reminder ∧ r.level ≠ .trickle ∧ s.minimumMs ≤ p.turn) ∧
      0 < r.remaining ∧ r.silenced = false ∧ ∃ i q, s.waitingRequest i = some q ∧ q.level = r.level := by
  simp only [State.yieldDue, State.mayYieldEarly, Request.escalated, Bool.or_eq_true, Bool.and_eq_true, decide_eq_true_eq,
    yieldOpen_iff]
  rw [← or_and_right, and_assoc (a := r.kind = .reminder)]

/-- When the arbiter makes the play yield. -/
theorem yieldsNow_iff (s : State) (p : Play) (r : Request) : s.yieldsNow p r = true ↔
    (s.minimumMs + s.maximumMs ≤ p.turn ∨ r.kind = .reminder ∧ r.level ≠ .trickle ∧ s.minimumMs ≤ p.turn ∧
        Config.freeEarlyYield s.freeCtr s.now = true) ∧
      0 < r.remaining ∧ r.silenced = false ∧ ∃ i q, s.waitingRequest i = some q ∧ q.level = r.level := by
  simp only [State.yieldsNow, State.yieldDue, State.mayYieldEarly, Request.escalated, Bool.or_eq_true, Bool.and_eq_true,
    decide_eq_true_eq, yieldOpen_iff]
  rw [and_right_comm (c := Config.freeEarlyYield s.freeCtr s.now = true), ← or_and_right, and_assoc (a := r.kind = .reminder ∧ _),
    and_assoc (a := r.kind = .reminder)]

/-- A play that has begun in this moment does not yield. -/
theorem yieldsNow_fresh {s : State} {p : Play} (r : Request) (hm : 0 < s.minimumMs) (ht : p.turn = 0) :
    s.yieldsNow p r = false := by
  rw [Bool.eq_false_iff]
  intro h
  rcases (yieldsNow_iff s p r).1 h with ⟨h | h, _⟩ <;> omega

/-- A trigger appends what is not listed, keeps listed handles in place and drops stale ones of the same slots (R125). -/
theorem foldl_listHandle (chosen : List Handle) (hn : (chosen.map (·.slot)).Nodup) (q : List Handle) :
   chosen.foldl listHandle q = q.filter (fun g => chosen.all (fun h => decide (h.slot ≠ g.slot) || decide (h ∈ q))) ++
        chosen.filter (fun h => decide (h ∉ q)) := by
  induction chosen generalizing q with
  | nil => simp
  | cons h rest ih =>
    simp only [List.map_cons, List.nodup_cons, List.mem_map, not_exists, not_and] at hn
    rw [List.foldl_cons, ih hn.2]
    have hne : ∀ x ∈ rest, x.slot ≠ h.slot := hn.1
    have hne' : ∀ x ∈ rest, x ≠ h := fun x hx e => hne x hx (by rw [e])
    by_cases hq : h ∈ q
    · simp only [listHandle, hq, if_true]
      simp [hq]
    · simp only [listHandle, hq, if_false]
      have m : ∀ x ∈ rest, (x ∈ q.filter (fun g => !decide (g.slot = h.slot)) ++ [h] ↔ x ∈ q) := by
        intro x hx; simp [hne x hx, hne' x hx]
      have e1 : rest.filter (fun x => decide (x ∉ q.filter (fun g => !decide (g.slot = h.slot)) ++ [h])) = rest.filter (fun x => decide (x ∉ q)) := by
        apply List.filter_congr; intro x hx; simp only [m x hx]
      have e2 : ∀ g : Handle, (rest.all fun x => decide (x.slot ≠ g.slot) || decide (x ∈ q.filter (fun g => !decide (g.slot = h.slot)) ++ [h])) = (rest.all fun x => decide (x.slot ≠ g.slot) || decide (x ∈ q)) := by
        intro g; apply Bool.eq_iff_iff.2; simp only [List.all_eq_true, Bool.or_eq_true, decide_eq_true_eq]
        exact forall_congr' fun x => forall_congr' fun hx => by rw [m x hx]
      simp only [e1, e2, List.filter_append, List.filter_filter, List.filter_cons, hq, not_false_eq_true, decide_true, if_true, List.filter_nil, List.all_cons, decide_false, Bool.or_false]
      have e3 : (rest.all fun x => decide (x.slot ≠ h.slot) || decide (x ∈ q)) = true := by
        simp only [List.all_eq_true, Bool.or_eq_true, decide_eq_true_eq]; exact fun x hx => .inl (hne x hx)
      simp only [e3, if_true, List.append_assoc, List.singleton_append]
      congr 1
      apply List.filter_congr; intro g _
      rw [Bool.and_comm]; congr 1
      simp [eq_comm]

end Sys2Proof.Machine
end

