-- ==== Sys2Proof/Laws/Readers.lean ====
section
/-! SUPPORT. What the readers of incoming bytes answer: bounds of a field, and each reader as an equivalence (R188, R190). -/

namespace Sys2Proof.Machine

/-- A run of bytes as a number stays below the power of its length. -/
theorem valueOf_lt (b : List Byte) : ∀ a, b.foldl (fun v x => v * 256 + x.toNat) a < (a + 1) * 256 ^ b.length := by
  induction b with
  | nil => intro a; simp
  | cons x r ih =>
    intro a
    have := ih (a * 256 + x.toNat)
    have hx := x.isLt
    simp only [List.foldl_cons, List.length_cons, pow_succ]
    calc _ < (a * 256 + x.toNat + 1) * 256 ^ r.length := this
      _ ≤ ((a + 1) * 256) * 256 ^ r.length := Nat.mul_le_mul_right _ (by omega)
      _ = _ := by ring

/-- A field of `w` bytes lies below 256 to the `w` (R188). -/
theorem fieldAt_lt (b : List Byte) (p w : Nat) : fieldAt b p w < 256 ^ w := by
  have h := valueOf_lt (bytesAt b p w) 0
  have hl : (bytesAt b p w).length ≤ w := by simp [bytesAt]
  have : 256 ^ (bytesAt b p w).length ≤ 256 ^ w := Nat.pow_le_pow_right (by omega) hl
  unfold fieldAt valueOf
  omega

/-- A reach byte is 1 to 3 (Table 52). -/
theorem readReach_isSome (v : Nat) : (readReach v).isSome = true ↔ 1 ≤ v ∧ v ≤ 3 := by
  rcases v with _ | _ | _ | _ | v <;> simp [readReach]

/-- The reach a byte names is the one with that code. -/
theorem readReach_code (v : Nat) (a) : readReach v = some a ↔ v = a.code.toNat := by
  rcases v with _ | _ | _ | _ | v <;> cases a <;> simp [readReach, Reach.code]

/-- The action a byte names (Table 52). -/
theorem readAction_iff (v : Nat) (a) : readAction v = some a ↔ (v = 1 ∧ a = .issue) ∨ (v = 2 ∧ a = .cancel) := by
  rcases v with _ | _ | _ | v <;> simp [readAction, eq_comm]

/-- A flag byte is 0 or 1 (R190). -/
theorem readFlag_iff (v : Nat) (a) : readFlag v = some a ↔ (v = 0 ∧ a = false) ∨ (v = 1 ∧ a = true) := by
  rcases v with _ | _ | v <;> simp [readFlag, eq_comm]

/-- The area block by its form (R9, Table 48). -/
theorem readArea_iff (b : List Byte) (form count : Nat) (a : Option AreaBlock) : readArea b form count = some a ↔
   (form = 0 ∧ a = none) ∨ (form = 1 ∧ 1 ≤ count ∧ count ≤ 8 ∧ (∀ k < count, fieldAt b (30 + 5 * k) 1 ≤ 32) ∧
     a = some (.cells ((List.range count).map fun k =>
            ⟨BitVec.ofNat 32 (fieldAt b (26 + 5 * k) 4), fieldAt b (30 + 5 * k) 1⟩))) ∨
   (form = 2 ∧ 3 ≤ count ∧ count ≤ 16 ∧ a = some (.polygon ((List.range count).map fun k =>
            ⟨signedAt b (26 + 8 * k), signedAt b (30 + 8 * k)⟩) false)) := by
  have e1 : (prefixEntryAt b) = fun k => ⟨BitVec.ofNat 32 (fieldAt b (26 + 5 * k) 4), fieldAt b (30 + 5 * k) 1⟩ := by
    funext k; simp only [prefixEntryAt]; rw [show 26 + 5 * k + 4 = 30 + 5 * k by omega]
  have e2 : (vertexAt b) = fun k => ⟨signedAt b (26 + 8 * k), signedAt b (30 + 8 * k)⟩ := by
    funext k; simp only [vertexAt]; rw [show 26 + 8 * k + 4 = 30 + 8 * k by omega]
  rcases form with _ | _ | _ | f
  · simp [readArea, eq_comm]
  · simp only [readArea, e1, List.all_map, List.all_eq_true]
    simp
    grind
  · simp only [readArea, e2]
    simp
    grind
  · simp [readArea]

/-! ### The check value (R194) -/

/-- The eight bits of a byte, most significant first, taken into the remainder. -/
theorem foldl_checkBit (z : BitVec 16) (x : Byte) : (bitsOf x).foldl checkBit z =
    (List.range 8).foldl (fun (r : BitVec 16) k =>
      if r.getMsbD 0 = x.getMsbD k then r <<< 1 else (r <<< 1) ^^^ 0x1021#16) z := by
  have e : bitsOf x = (List.range 8).map (fun k => x.getMsbD k) := by
    simp [bitsOf, List.range_succ, BitVec.getMsbD]
  rw [e, List.foldl_map]
  congr 1
  funext r k
  unfold checkBit
  rw [BitVec.msb]
  by_cases h : r.getMsbD 0 = x.getMsbD k
  · rw [if_pos h, if_neg (by rw [h]; simp)]
  · rw [if_neg h, if_pos (by simpa using h)]

/-- The check value byte by byte. -/
theorem checkValue_snoc (b : List Byte) (x : Byte) : checkValue (b ++ [x]) = (bitsOf x).foldl checkBit (checkValue b) := by
  unfold checkValue
  rw [List.foldl_append, List.foldl_cons, List.foldl_nil]

end Sys2Proof.Machine
end

