-- ==== Sys2Proof/Laws/Refusals.lean ====
section
/-! SUPPORT. The receipt outstanding on a link that leaves UP or resyncs is settled as refused (R20, R21, R160), and what a
fault leaves. -/

namespace Sys2Proof.Machine

/-- A refusal reads of the state before it only receipts, directory, clock, the other link and the count of failures. -/
theorem RefusedBy.before {r : ReceiptRecord} {s u t : State} (h : RefusedBy r u t) (hr : u.rcpt = s.rcpt) (hd : u.dir = s.dir)
    (hn : u.now = s.now) (hc : u.host.cntG = s.host.cntG) (ho : u.link r.target.other = s.link r.target.other) :
    RefusedBy r s t where
  outstanding := h.outstanding
  retargeted := by
    have := h.retargeted
    simpa only [hr, hn, ho, named_congr hd] using this
  failed := by
    have := h.failed
    simpa only [hc, ho, named_congr hd] using this

/-- A refusal stands through whatever keeps receipts, directory, both links' receipts, the failures counted and the events
posted. -/
theorem RefusedBy.later {r : ReceiptRecord} {s t u : State} (h : RefusedBy r s t) (hr : u.rcpt = t.rcpt) (hd : u.dir = t.dir)
    (hc : u.host.cntG = t.host.cntG) (hl : (u.link r.target).outstanding ≠ some r.id)
    (ho : u.link r.target.other = t.link r.target.other)
    (he : EventSet.holds t.host.events .receiptDone = true → EventSet.holds u.host.events .receiptDone = true) :
    RefusedBy r s u where
  outstanding := hl
  retargeted := by
    have := h.retargeted
    simpa only [hr, ho, entryAt_congr hd] using this
  failed hf := by
    obtain ⟨h1, h2, h3, h4⟩ := h.failed hf
    exact ⟨by rwa [hr], he h2, by rwa [hc], by simpa only [entryAt_congr hd] using h4⟩

theorem recordOf_mem {s : State} {id : ReceiptId} {r : ReceiptRecord} (h : s.recordOf id = some r) : r ∈ s.rcpt.queue :=
  List.mem_of_find?_eq_some h

/-- Every refusal, retargeting or final (R161). -/
theorem refusedBy_refuse (r : ReceiptRecord) (s : State) (hr : r ∈ s.rcpt.queue) (hn : (s.rcpt.queue.map (·.id)).Nodup)
    (hu : ∀ x ∈ s.rcpt.queue, x.handle = r.handle → x.id = r.id) : RefusedBy r s (refuse r s) := by
  by_cases h : 1 ≤ r.attempts ∨ (s.link r.target.other).state ≠ .up
  · exact refusedBy_fail r s hu h
  · have h : r.attempts = 0 ∧ (s.link r.target.other).state = .up := by
      rw [not_or] at h; exact ⟨by omega, not_not.1 h.2⟩
    exact (refusedBy_retarget r s hr hn hu h.1 h.2).1

/-- The outstanding receipt of a link whose record a change closed is refused (R160). -/
theorem refused_refuseOutstanding (l : LinkId) (f : Link → Link) (s : State)
    (hf : (f (s.link l)).outstanding = (s.link l).outstanding) :
    OutstandingRefused l s (refuseOutstanding l (modLink l f s)) := by
  intro r ho hr ht _ hn hu
  subst ht
  have e : refuseOutstanding r.target (modLink r.target f s) = refuse r (clearOutstanding r.target (modLink r.target f s)) := by
    unfold refuseOutstanding
    rw [show ((modLink r.target f s).link r.target).outstanding = some r.id by simp [hf, ho]]
    have : (modLink r.target f s).recordOf r.id = some r := by simpa [State.recordOf] using hr
    simp only [this]
  rw [e]
  have hq : (clearOutstanding r.target (modLink r.target f s)).rcpt = s.rcpt := by simp [clearOutstanding]
  refine (refusedBy_refuse r _ ?_ ?_ ?_).before hq ?_ ?_ ?_ ?_
  · rw [hq]; exact recordOf_mem hr
  · rw [hq]; exact hn
  · rw [hq]; exact hu
  · simp [clearOutstanding]
  · simp [clearOutstanding]
  · simp [clearOutstanding]
  · simp [clearOutstanding]

/-- Leaving UP refuses the outstanding receipt (R21). -/
theorem refused_leaveUp (l : LinkId) (x : LinkState) (s : State) : OutstandingRefused l s (leaveUp l x s) := by
  intro r ho hr ht hs hn hu
  have h := refused_refuseOutstanding l (closedLink x) s rfl r ho hr ht hs hn hu
  unfold leaveUp
  refine h.later ?_ ?_ ?_ ?_ ?_ ?_
  · simp [servingTrigger, trigger]
  · simp [servingTrigger, trigger]
  · simp [servingTrigger, trigger]
  · rw [link_servingTrigger]; exact h.outstanding
  · rw [link_servingTrigger]
  · simp [servingTrigger, trigger]

/-- Ids and handles of the records are those of before. -/
def SameRecords (s t : State) : Prop := ∀ y ∈ t.rcpt.queue, ∃ z ∈ s.rcpt.queue, z.id = y.id ∧ z.handle = y.handle

theorem sameRecords_offer (l : LinkId) (s : State) : SameRecords s (offer l s) := by
  intro y hy
  rcases offer_cases l s with ⟨e, _⟩ | ⟨r, _, _, _, e⟩ <;> rw [e] at hy
  · exact ⟨y, hy, rfl, rfl⟩
  · rw [queue_makeOffer, List.mem_map] at hy
    obtain ⟨z, hz, rfl⟩ := hy
    exact ⟨z, hz, by split <;> rfl, by split <;> rfl⟩

theorem SameRecords.trans {s t u : State} (a : SameRecords s t) (b : SameRecords t u) : SameRecords s u := by
  intro y hy
  obtain ⟨z, hz, h1, h2⟩ := b y hy
  obtain ⟨w, hw, h3, h4⟩ := a z hz
  exact ⟨w, hw, h3.trans h1, h4.trans h2⟩

theorem sameRecords_refuse (r : ReceiptRecord) (s : State) : SameRecords s (refuse r s) := by
  unfold refuse
  refine SameRecords.trans (SameRecords.trans ?_ (sameRecords_offer _ _)) (sameRecords_offer _ _)
  intro y hy
  split at hy
  · rw [rcpt_setReceipt] at hy
    simp only [modRecord, State.setQueue, clearOutstanding, State.rcpt_setRcpt, State.rcpt_modLink, List.mem_map] at hy
    obtain ⟨z, hz, rfl⟩ := hy
    exact ⟨z, hz, by split <;> rfl, by split <;> rfl⟩
  · simp only [receiptFailed, State.rcpt_countGlobal, State.rcpt_post, rcpt_setReceipt, dropRecord, State.setQueue,
      State.rcpt_setRcpt, clearOutstanding, State.rcpt_modLink] at hy
    exact ⟨y, List.mem_of_mem_filter hy, rfl, rfl⟩

/-- An offer keeps the ids and their places. -/
theorem ids_offer (l : LinkId) (s : State) : (offer l s).rcpt.queue.map (·.id) = s.rcpt.queue.map (·.id) := by
  rcases offer_cases l s with ⟨e, _⟩ | ⟨r, _, _, _, e⟩ <;> rw [e]
  exact ids_makeOffer _ _

/-- A refusal keeps the other records' ids in their places. -/
theorem ids_refuse (r : ReceiptRecord) (s : State) :
    ((refuse r s).rcpt.queue.map (·.id)).Sublist (s.rcpt.queue.map (·.id)) := by
  unfold refuse
  simp only [ids_offer]
  split
  · rw [rcpt_setReceipt]
    simp only [modRecord, State.setQueue, clearOutstanding, State.rcpt_setRcpt, State.rcpt_modLink, List.map_map]
    rw [List.map_congr_left (g := fun x => x.id) (fun x _ => by simp only [Function.comp]; split <;> rfl)]
  · simp only [receiptFailed, State.rcpt_countGlobal, State.rcpt_post, rcpt_setReceipt, dropRecord, State.setQueue,
      State.rcpt_setRcpt, clearOutstanding, State.rcpt_modLink]
    exact List.filter_sublist.map _

/-- A refusal stands when the link that refused is offered another record. -/
theorem RefusedBy.offer {r : ReceiptRecord} {s t : State} (h : RefusedBy r s t) (hc : t.dir.useCounts = s.dir.useCounts)
    (hs : ∀ y ∈ t.rcpt.queue, y.handle = r.handle → y.id = r.id)
    (hn : (t.rcpt.queue.map (·.id)).Nodup) :
    RefusedBy r s (offer r.target t) := by
  rcases offer_cases r.target t with ⟨e, _⟩ | ⟨y, h1, h2, h3, e⟩ <;> rw [e]
  · exact h
  have ht := nextReceipt_target h3
  have hy := nextReceipt_mem h3
  have hid : y.id ≠ r.id := by
    intro he
    by_cases hf : r.attempts = 0 ∧ (s.link r.target.other).state = .up
    · obtain ⟨h0, hu⟩ := hf
      obtain ⟨_, x, hx, h5, h6, _⟩ := h.retargeted h0 hu
      have := List.inj_on_of_nodup_map hn hy hx (he.trans h5.symm)
      rw [this, h6] at ht
      exact LinkId.other_ne _ ht.1
    · exact (h.failed (by rw [not_and_or] at hf; exact hf.imp_left (by omega))).1 y hy he
  have hh : y.handle ≠ r.handle := fun he => hid (hs y hy he)
  have hent : ∀ e, s.named r.handle = some e → (makeOffer y t).entryAt r.handle.slot = t.entryAt r.handle.slot := by
    intro e he
    apply entry_makeOffer
    by_cases hsl : r.handle.slot = y.handle.slot
    · right
      unfold State.named at he ⊢
      split at he
      · rename_i hu
        rw [if_neg]
        intro hu2
        apply hh
        rw [← hc] at hu
        simp only [← hsl] at hu2
        have : y.handle.use = r.handle.use := hu2.symm.trans hu
        have e2 : y.handle = ⟨y.handle.slot, y.handle.use⟩ := rfl
        rw [e2, ← hsl, this]
      · cases he
    · exact .inl hsl
  refine ⟨?_, fun h0 hu => ?_, fun hff => ?_⟩
  · rw [link_makeOffer, ht.1, if_pos rfl]; simp [hid]
  · obtain ⟨a1, x, a2, a3, a4, a5, a6, a7, a8, a9, a10, a11, a12⟩ := h.retargeted h0 hu
    refine ⟨(ids_makeOffer _ _).trans a1, x, (mem_makeOffer (by rw [a3]; exact fun e => hid e.symm)).2 a2, a3, a4, a5, a6, a7,
      a8, a9, fun e he => by rw [hent e he]; exact a10 e he, ?_, a12⟩
    intro b1 b2
    rw [link_makeOffer, ht.1, if_neg (LinkId.other_ne _)]
    exact a11 b1 b2
  · obtain ⟨a1, a2, a3, a4⟩ := h.failed hff
    refine ⟨?_, by rwa [host_makeOffer], by rwa [host_makeOffer], fun e he => by rw [hent e he]; exact a4 e he⟩
    intro x hx
    rw [queue_makeOffer, List.mem_map] at hx
    obtain ⟨z, hz, rfl⟩ := hx
    have := a1 z hz
    split <;> exact this

/-- A resync refuses the outstanding receipt before the link enters UP again (R20, R160). -/
theorem refused_resync (l : LinkId) (s : State) : OutstandingRefused l s (enterUp l (suspendLink l s)) := by
  intro r ho hr ht hs hn hu
  subst ht
  have h := refused_refuseOutstanding r.target (fun k => { k with state := .down, outQ := [] }) s rfl r ho hr rfl hs hn hu
  have e : suspendLink r.target s = refuse r (clearOutstanding r.target
      (modLink r.target (fun k => { k with state := .down, outQ := [] }) s)) := by
    unfold suspendLink refuseOutstanding
    rw [State.link_modLink_same]
    simp only [ho]
    have : (modLink r.target (fun k => { k with state := .down, outQ := [] }) s).recordOf r.id = some r := by
      simpa [State.recordOf] using hr
    simp only [this]
  have hq : (clearOutstanding r.target (modLink r.target (fun k => { k with state := .down, outQ := [] }) s)).rcpt = s.rcpt := by
    simp [clearOutstanding]
  obtain ⟨u, hu'⟩ : ∃ u, u = suspendLink r.target s := ⟨_, rfl⟩
  have hids : (u.rcpt.queue.map (·.id)).Nodup := by
    rw [hu', e]; exact (ids_refuse _ _).nodup (by rwa [hq])
  have hrec : ∀ y ∈ u.rcpt.queue, y.handle = r.handle → y.id = r.id := by
    intro y hy hh
    rw [hu', e] at hy
    obtain ⟨z, hz, h1, h2⟩ := sameRecords_refuse _ _ y hy
    rw [hq] at hz
    rw [← h1]; exact hu z hz (h2.trans hh)
  have huse : u.dir.useCounts = s.dir.useCounts := by
    rw [hu']
    exact ((receiptWork_modLink _ _ s).trans (receiptWork_refuseOutstanding _ _)).directory.2.1
  have h : RefusedBy r s u := by rw [hu']; exact h
  rw [← hu']
  unfold enterUp
  obtain ⟨v, hv⟩ : ∃ v, v = servingTrigger (post .linkState (modLink r.target openedLink u)) := ⟨_, rfl⟩
  have hr2 : v.rcpt = u.rcpt := by rw [hv]; simp [servingTrigger, trigger]
  have hd2 : v.dir = u.dir := by rw [hv]; simp [servingTrigger, trigger]
  have hl2 : ∀ l, v.link l = (modLink r.target openedLink u).link l := fun l => by rw [hv, link_servingTrigger]; simp
  have h2 : RefusedBy r s v := by
    refine h.later hr2 hd2 ?_ ?_ ?_ ?_
    · rw [hv]; simp [servingTrigger, trigger]
    · rw [hl2, State.link_modLink_same]; exact h.outstanding
    · rw [hl2]; simp
    · intro he
      have := (work_post .linkState (modLink r.target openedLink u)).events EventKind.receiptDone.code
      rw [hv]
      simpa [servingTrigger, trigger, EventSet.holds] using this (by simpa [EventSet.holds] using he)
  rw [← hv]
  exact h2.offer (by rw [hd2, huse]) (by rw [hr2]; exact hrec) (by rw [hr2]; exact hids)

/-- A fault refuses the outstanding receipt (R32, R21). -/
theorem refused_faultLink (l : LinkId) (k : FaultKind) (f : FrameKind) (s : State) : OutstandingRefused l s (faultLink l k f s) := by
  intro r ho hr ht hs hn hu
  subst ht
  have h := refused_leaveUp r.target .faulted (recordFault r.target k f s) r (by simpa [recordFault] using ho)
    (by simpa [recordFault, State.recordOf] using hr) rfl hs (by simpa [recordFault] using hn) (by simpa [recordFault] using hu)
  have h := h.before (s := s) (by simp [recordFault]) (by simp [recordFault]) (by simp [recordFault]) (by simp [recordFault])
    (by simp [recordFault])
  refine h.later ?_ ?_ ?_ ?_ ?_ ?_
  · simp [faultLink, startQuarantine]
  · simp [faultLink, startQuarantine]
  · simp [faultLink, startQuarantine]
  · rw [link_faultLink]; simp
  · simp [faultLink, startQuarantine]
  · intro e
    have := (work_post .linkFault (countLink r.target (fun c => { c with faults := bump c.faults })
      (startQuarantine r.target (leaveUp r.target .faulted (recordFault r.target k f s))))).events EventKind.receiptDone.code
    exact this (by simpa [startQuarantine, EventSet.holds] using e)

/-- A fault on a link (R32): all of what FaultedBy says. -/
theorem faultedBy_faultLink (l : LinkId) (k : FaultKind) (f : FrameKind) (s : State) :
    FaultedBy l k f s (faultLink l k f s) where
  state := by rw [link_faultLink]; rfl
  fault := by rw [link_faultLink]
  quarantine := by rw [link_faultLink]
  credits := by rw [link_faultLink]; rfl
  subWaiting := by rw [link_faultLink]; rfl
  outstanding := by rw [link_faultLink]
  refused := refused_faultLink l k f s
  outQ := by rw [link_faultLink]; rfl
  noFrame := by rw [link_faultLink]
  serving := by rw [link_faultLink]; rfl
  trigger := by
    have e : (faultLink l k f s).area = (leaveUp l .faulted (recordFault l k f s)).area := by
      simp [faultLink, startQuarantine]
    rw [e, area_leaveUp]
    exact servingTrigger_kept (receiptWork_modLink _ _ _)
  posted := holds_post _ _
  counted := by
    have e : (startQuarantine l (leaveUp l .faulted (recordFault l k f s))).host.counters l = s.host.counters l := by
      simp only [startQuarantine, State.host_modLink, counters_leaveUp]
      simp [recordFault]
    cases l <;> simp [faultLink, HostPort.counters, countLink, bump, Config.counterLimit] at e ⊢ <;> rw [e]
  other := by
    have e : (faultLink l k f s).link l.other = (leaveUp l .faulted (recordFault l k f s)).link l.other := by
      cases l <;> rfl
    rw [e, core_other_leaveUp]
    cases l <;> rfl
  profile := by
    have e : (faultLink l k f s).prof = (leaveUp l .faulted (recordFault l k f s)).prof := by
      simp [faultLink, startQuarantine]
    rw [e, prof_leaveUp]; simp [recordFault]
  arbiter := by
    have e : (faultLink l k f s).arb = (leaveUp l .faulted (recordFault l k f s)).arb := by
      simp [faultLink, startQuarantine]
    rw [e, arb_leaveUp]; simp [recordFault]
  directory := by
    have e : (faultLink l k f s).dir = (leaveUp l .faulted (recordFault l k f s)).dir := by
      simp [faultLink, startQuarantine]
    exact ((receiptWork_modLink l _ s).directory.trans (directory_leaveUp l .faulted _)).trans (directoryKept.of_dir e)
  told := told_faultLink l k f s

end Sys2Proof.Machine
end

