-- ==== Sys2Proof/Tests/Slice0.lean ====
section
/-! SUPPORT. The model's own tests: an ill-formed term for each check of WellFormed, the spec's worked values, and states
that meet the hypotheses of the statements (the number of each clause in the theorem's name or its conjunct). -/

namespace Sys2Proof.Machine

-- one theorem at a time: each waits for the kernel, and many waiting at once exhaust the threads
set_option Elab.async false

/-! ### Ill-formed commands are refused -/

/-- 65 536 bytes, one more than a frame's length field counts. -/
def tooLong : List Byte := List.replicate 65536 0#8

theorem tooLong_length : tooLong.length = 65536 := by
  unfold tooLong; exact List.length_replicate

/-- A body that its length field cannot count does not fit (R189). -/
theorem test_tooLong : ¬ bodyFits tooLong := by
  intro h
  have h : tooLong.length ≤ 65535 := h
  rw [tooLong_length] at h
  omega

theorem test_tooLong_hello : ¬ Instr.WellFormed (.hello .la tooLong) := test_tooLong
theorem test_tooLong_goodbye : ¬ Instr.WellFormed (.goodbye .la tooLong) := test_tooLong
theorem test_tooLong_page : ¬ Instr.WellFormed (.page .la tooLong) := test_tooLong
theorem test_tooLong_serving : ¬ Instr.WellFormed (.serving .la tooLong) := test_tooLong
theorem test_tooLong_receiptResult : ¬ Instr.WellFormed (.receiptResult .la tooLong) := test_tooLong
theorem test_tooLong_unknownKind : ¬ Instr.WellFormed (.unknownKindFrameEnd .la tooLong) := test_tooLong
theorem test_noBytes_loadComplete : ¬ Instr.WellFormed (.loadComplete []) := by decide
theorem test_tooMany_loadComplete : ¬ Instr.WellFormed (.loadComplete (List.replicate 513 0#8)) := by
  intro h
  have h : (List.replicate 513 0#8).length ≤ 512 := h.2
  rw [List.length_replicate] at h
  omega
theorem test_knownCode_badCommand : ¬ Instr.WellFormed (.badCommand 0x12#8 []) := by decide
theorem test_readCode_badCommand : ¬ Instr.WellFormed (.badCommand 0xFF#8 []) := by decide
theorem test_wellFormed_badCommand : Instr.WellFormed (.badCommand 0x13#8 []) := by decide

/-! ### The spec's worked values -/

/-- R194: the check value of the nine bytes "123456789". -/
theorem test_checkValue :
    checkValue [0x31#8, 0x32#8, 0x33#8, 0x34#8, 0x35#8, 0x36#8, 0x37#8, 0x38#8, 0x39#8] = 0x29B1#16 := by decide +kernel

/-- The rectangle of the points P and Q (section 6.6). -/
def rectangle : List Vertex :=
  [⟨4500000, 700000⟩, ⟨4500000, 720000⟩, ⟨4520000, 720000⟩, ⟨4520000, 700000⟩]

theorem test_pointP : polygonTest ⟨4512345, 717000, 1500, 0, 0⟩ 500 rectangle = .inside := by decide +kernel
theorem test_pointQ : polygonTest ⟨4512345, 722000, 1500, 0, 0⟩ 500 rectangle = .near := by decide +kernel
theorem test_beyondBox : polygonTest ⟨4512345, 722798, 1500, 0, 0⟩ 500 rectangle = .outside := by decide +kernel
theorem test_margins :
    latMargin (marginRadius 1500 500) = 1797 ∧ lonMargin 1797 4512345 = 2797 ∧
    latMargin (marginRadius 65000 1000) = 58882 ∧ lonMargin 58882 7000000 = 340651 ∧
    lonMargin 58882 (-8000000) = 36000000 := by decide +kernel
theorem test_antimeridian :
    polygonTest ⟨-1750000, -17950000, 0, 0, 0⟩ 500
      [⟨-1700000, 17900000⟩, ⟨-1700000, -17900000⟩, ⟨-1800000, -17900000⟩, ⟨-1800000, 17900000⟩] = .inside := by
  decide +kernel

/-- R13: forward over the wrap, 31 steps, 32 steps. -/
theorem test_revisions :
    newer 1#6 63#6 = true ∧ newer 31#6 0#6 = true ∧ newer 32#6 0#6 = false ∧ newer 0#6 32#6 = false := by decide

/-- A settings record's bytes with a stale limit, attention length, minimum and maximum play. -/
def settingsBody (stale attention minimum maximum : Byte) : List Byte :=
  [0xFF#8, 1#8, 0#8, 1#8, 0#8, 1#8, 0#8, 100#8, 0#8, stale, attention, minimum, maximum, 1#8, 0#8]

/-- R183's two examples. -/
theorem test_settingsClamped :
    (readSettingsRecord (settingsBody 10#8 40#8 12#8 0#8)).map
        (fun r => (r.1.attentionLength, r.1.minimumPlay, r.1.maximumPlay, r.1.staleLimit, r.2)) = some (30, 10, 1, 30, true) ∧
    (readSettingsRecord (settingsBody 30#8 5#8 8#8 5#8)).map (fun r => (r.1.attentionLength, r.1.minimumPlay, r.2)) =
      some (5, 5, true) ∧
    (readSettingsRecord (settingsBody 30#8 12#8 3#8 5#8)).map (fun r => r.2) = some false := by decide +kernel

/-! ### Small states -/

/-- A page body: region 1, channel 5, alert 7, reach REGION, ISSUE, revision 1, part 1 of 1, no area, no text. -/
def issueBody : List Byte :=
  [0#8, 1#8, 0#8, 2#8, 0#8, 0#8, 0#8, 9#8, 0#8, 4#8, 0#8, 5#8, 0#8, 7#8, 3#8, 1#8, 1#8, 1#8, 1#8, 0#8, 1#8, 0#8, 0#8,
    0#8, 0#8, 0#8]

/-- The page of that body. -/
def issuePage : Page where
  region := 1
  carrier := 2
  cellTag := 9#32
  district := 4
  channel := 5
  alertNo := 7
  reach := .region
  action := .issue
  revision := 1#6
  partIndex := 1
  partCount := 1
  language := 1
  validity := 0
  receiptRequested := false
  area := none
  text := []
  link := .la
  slot := 0
  arrival := 0

theorem test_readPage : readPage .la 0 0 issueBody = some issuePage := by decide +kernel
/-- Table 7: reach 0, a cut body, a revision above 63 and a part above its count are refused. -/
theorem test_readPage_refuses :
    readPage .la 0 0 (issueBody.set 14 0#8) = none ∧ readPage .la 0 0 (issueBody.take 25) = none ∧
    readPage .la 0 0 (issueBody.set 16 64#8) = none ∧ readPage .la 0 0 (issueBody.set 17 2#8) = none := by
  decide +kernel

/-- Governing values of class 3. -/
def values : Governing := ⟨false, 1, 1, .severe, true, 60, 120, 10, 3⟩

/-- A link in UP without any page. -/
def upLink : Link := { Link.reset with state := .up, credits := 6 }

/-- A link whose frame in progress has a header. -/
def Link.receiving (k : Link) (kind : FrameKind) (len : Nat) (slot : Option PageSlot) : Link :=
  { k with frame := some ⟨0, 4, some ⟨kind, len⟩, slot⟩ }

/-- A link whose frame in progress has no header yet. -/
def Link.started (k : Link) : Link := { k with frame := some ⟨0, 4, none, none⟩ }

/-- The reset state with another LA. -/
def withLa (k : Link) : State := State.reset.setLink .la k

/-- A link in UP receiving a PAGE frame in slot 0. -/
def pageLink (len : Nat) : Link :=
  { upLink.receiving .page len (some 0) with credits := 5, slots := Link.reset.slots.set 0 .receiving }

/-- A FAULTED link. -/
def faultedLink : Link :=
  { Link.reset with state := .faulted, fault := some ⟨.malformed, 0, .unknown⟩, quarantine := some 0 }

/-- The profile of `values`, over one channel. -/
def oneProfile : Profile := ⟨1, 60, 120, 10, 3, [⟨5, 5, .severe, true⟩]⟩

/-- Current content of the page. -/
def content : Content := ⟨1#6, 1, { pageDescriptive issuePage with receiptRequested := true }, 0, values.rules⟩

/-- An entry in a state, class 3, of the page. -/
def entryIn (st : EntryState) : Entry :=
  { newEntry issuePage values 0 with
    state := st, current := some content, area := some ⟨.inside, false⟩, expiry := some 60000 }

/-- A request of a class. -/
def alertOf (c : AlertClass) (remaining played : Nat) (silenced : Bool) : Request :=
  ⟨.alert, .cls c, remaining, played, silenced⟩

/-- The reset state with entries in slots 0 and 1, use counts 0. -/
def withEntries (a b : Option Entry) : State := (State.reset.putEntry 0 a).putEntry 1 b

/-- The same with the request of slot 0 playing. -/
def withPlay (a b : Option Entry) (turn : Nat) : State :=
  (withEntries a b).setArb { State.reset.arb with play := some ⟨⟨0, 0#8⟩, .p2, 0, 0, turn⟩ }

/-- A receipt record offered on LA for the entry in slot 0. -/
def offered : ReceiptRecord := ⟨0, ⟨0, 0#8⟩, pageKey issuePage, 1#6, 0, .la, 0, .offered, some 0⟩

/-- The same record before its offer. -/
def queued : ReceiptRecord := { offered with state := .queued, deadline := none }

/-! ### The hypotheses of the statements are met -/

theorem test_hyp_IdleStepTicks :
    State.reset.pending = [] ∧ State.reset.dueEvents = [] ∧ State.reset.playingRequest = none ∧
    (let s := withPlay (some { entryIn .active with request := some (alertOf .severe 12000 0 false) }) none 0
     s.pending = [] ∧ s.dueEvents = [] ∧ s.playingRequest.isSome = true) ∧
    (withLa { upLink with outQ := [.credit 6] }).dueEvents ≠ [] ∧
    Instr.frameSend .la ∈ (withLa { upLink with outQ := [.credit 6] }).dueEvents ∧
    Instr.quarantineExpiry .la ∈ (withLa faultedLink).dueEvents ∧
    Instr.silencedPlayEnd ∈ (withPlay (some { entryIn .active with request := some (alertOf .severe 5 3000 true) })
      none 3000).dueEvents ∧
    Instr.preemption ∉ (withPlay (some { entryIn .active with request := some (alertOf .severe 5 3000 true) })
      (some { entryIn .active with request := some (alertOf .extreme 9 0 false) }) 3000).dueEvents := by decide +kernel

theorem test_hyp_EventsStayUntilRead :
    (∀ b, Instr.redecision ≠ .getEvents b) ∧ Instr.redecision ≠ .powerOnReset ∧
    State.reset.host.events = 0#10 ∧ (post .linkFault State.reset).host.events.getLsbD 5 = true ∧
    (post .linkFault State.reset).host.wake = true := by
  refine ⟨fun b => by simp, by decide, by decide, by decide, by decide⟩

theorem test_hyp_HuntingByteBeginsFrameOrFaults :
    ((State.reset.link .la).frame = none ∧ (State.reset.link .la).state ≠ .faulted ∧
      (State.reset.link .la).state ≠ .up) ∧
    (((withLa faultedLink).link .la).frame = none ∧ ((withLa faultedLink).link .la).state = .faulted) ∧
    (((withLa upLink).link .la).frame = none ∧ ((withLa upLink).link .la).state = .up) := by decide +kernel

/-- Headers at both length bounds, with slot 0 the first FREE one and with none. -/
theorem test_hyp_PageHeaderReservesOrOverruns :
    (let s := withLa { upLink with frame := some ⟨0, 4, none, none⟩ }
     (s.link .la).state = .up ∧ (s.link .la).frame = some ⟨0, 4, none, none⟩ ∧ (s.link .la).slots[(0 : PageSlot)] = .free ∧
     (∀ j : PageSlot, j < 0 → (s.link .la).slots[j] ≠ .free)) ∧
    (26 ≤ (26#16).toNat ∧ (26#16).toNat ≤ 275) ∧ (26 ≤ (275#16).toNat ∧ (275#16).toNat ≤ 275) ∧
    (∀ i : PageSlot, (({ upLink with slots := Vector.replicate 6 .receiving, credits := 0 } : Link)).slots[i] ≠ .free) := by
  decide +kernel

theorem test_hyp_HeaderJudgedByKindAndLength :
    lengthInBounds (readFrameKind 0x01#8) 1 = false ∧ lengthInBounds (readFrameKind 0x03#8) 25 = false ∧
    lengthInBounds (readFrameKind 0x03#8) 276 = false ∧ lengthInBounds (readFrameKind 0x06#8) 0 = false ∧
    lengthInBounds (readFrameKind 0x04#8) 1 = true ∧ lengthInBounds (readFrameKind 0x04#8) 13 = true ∧
    (withLa { Link.reset with frame := some ⟨0, 4, none, none⟩ }).la.state = .down ∧
    (withLa { Link.reset with state := .sync, frame := some ⟨0, 4, none, none⟩ }).la.state = .sync ∧
    (withLa upLink.started).la.frame = some ⟨0, 4, none, none⟩ := by decide +kernel

theorem test_hyp_FrameTimeoutFaultsOnlyInUp :
    (let s := { withLa (pageLink 26) with now := 4 }
     (s.link .la).frame = some ⟨0, 4, some ⟨.page, 26⟩, some 0⟩ ∧ 4 ≤ s.now ∧ (s.link .la).state = .up) ∧
    (let s := { withLa (Link.reset.receiving .serving 1 none) with now := 4 }
     (s.link .la).frame = some ⟨0, 4, some ⟨.serving, 1⟩, none⟩ ∧ (s.link .la).state = .down) := by decide +kernel

/-- A sound machine receiving a HELLO in DOWN, with and without a receipt to offer. -/
theorem test_hyp_HelloOpensLink :
    (withLa Link.reset.started).linksSound ∧ ((withLa Link.reset.started).link .la).state = .down ∧
    (withLa Link.reset.started).receives .la .hello 0 ∧ (withLa Link.reset.started).nextReceipt .la = none ∧
    ((withLa Link.reset.started).setRcpt ⟨[queued], 0⟩).nextReceipt .la = some queued := by
  have hr := sound_reset .la
  refine ⟨fun l => ?_, by decide +kernel, ⟨_, rfl, rfl⟩, by decide +kernel, by decide +kernel⟩
  cases l
  · exact Link.sound_frame hr (by decide +kernel) _ (by intro f h; cases h; rfl) (by intro h; exact absurd h (by decide))
  · exact sound_reset .lb

theorem test_hyp_framesInUp :
    (withLa upLink.started).receives .la .hello 0 ∧ (withLa upLink.started).receives .la .goodbye 0 ∧
    ((withLa upLink.started).link .la).state = .up := ⟨⟨_, rfl, rfl⟩, ⟨_, rfl, rfl⟩, by decide +kernel⟩

theorem test_hyp_FramesOutsideUpAreDiscarded :
    (withLa (Link.reset.receiving .serving 1 none)).receives .la .serving 1 ∧
    ((withLa faultedLink).link .la).state = .faulted := ⟨⟨_, rfl, rfl⟩, by decide +kernel⟩

theorem test_hyp_MalformedFrameFaultsLink :
    (withLa (upLink.receiving .serving 1 none)).receives .la .serving 1 ∧ readServing [2#8] = none ∧
    (withLa (upLink.receiving .receiptResult 2 none)).receives .la .receiptResult 2 ∧
    readReceiptResult [16#8, 1#8] = none ∧ readReceiptResult [15#8, 3#8] = none ∧
    ((withLa (pageLink 26)).link .la).frame = some ⟨0, 4, some ⟨.page, 26⟩, some 0⟩ ∧
    ((withLa (pageLink 26)).link .la).slots[(0 : PageSlot)] = .receiving ∧
    readPage .la 0 0 (issueBody.set 15 3#8) = none ∧
    ((withLa upLink.started).link .la).frame = some ⟨0, 4, none, none⟩ :=
  ⟨⟨_, rfl, rfl⟩, by decide +kernel, ⟨_, rfl, rfl⟩, by decide +kernel, by decide +kernel, by decide +kernel,
    by decide +kernel, by decide +kernel, by decide +kernel⟩

/-- R190: a cell-prefix list of one entry of length 32 and a polygon of three vertices, each with a text byte; no list of
zero or nine entries, no length 33, no polygon of two vertices. -/
theorem test_readPage_areas :
    (readPage .la 0 0 (issueBody.take 24 ++ [1#8, 1#8, 0#8, 0#8, 0#8, 9#8, 32#8, 1#8, 65#8])).map
        (fun p => (p.area, p.text)) = some (some (.cells [⟨9#32, 32⟩]), [65#8]) ∧
    (readPage .la 0 0 (issueBody.take 24 ++ [2#8, 3#8] ++ List.replicate 24 255#8 ++ [1#8, 65#8])).map
        (fun p => (p.area, p.text)) =
      some (some (.polygon [⟨-1, -1⟩, ⟨-1, -1⟩, ⟨-1, -1⟩] false), [65#8]) ∧
    readPage .la 0 0 (issueBody.take 24 ++ [1#8, 1#8, 0#8, 0#8, 0#8, 9#8, 33#8, 0#8]) = none ∧
    readPage .la 0 0 (issueBody.take 24 ++ [1#8, 0#8, 0#8]) = none ∧
    readPage .la 0 0 (issueBody.take 24 ++ [1#8, 9#8] ++ List.replicate 45 0#8 ++ [0#8]) = none ∧
    readPage .la 0 0 (issueBody.take 24 ++ [2#8, 2#8] ++ List.replicate 16 0#8 ++ [0#8]) = none := by decide +kernel

theorem test_hyp_PageWithoutProfileWaits :
    let s := withLa (pageLink 26)
    (s.link .la).state = .up ∧ (s.link .la).frame = some ⟨0, 4, some ⟨.page, issueBody.length⟩, some 0⟩ ∧
    (s.link .la).slots[(0 : PageSlot)] = .receiving ∧ readPage .la 0 s.now issueBody = some issuePage ∧
    s.cached 1 = none ∧ s.prof.loadQueue.length < 8 ∧
    (s.setProf { s.prof with loadQueue := [2, 3, 4, 5, 6, 7, 8, 9] }).prof.loadQueue.contains 1 = false ∧
    8 ≤ (s.setProf { s.prof with loadQueue := [2, 3, 4, 5, 6, 7, 8, 9] }).prof.loadQueue.length ∧
    (s.setProf { s.prof with loadQueue := [2, 3, 4, 5, 6, 7, 8, 1] }).prof.loadQueue.contains 1 = true := by
  decide +kernel

/-- A region that joins an OWNED store without a load starts its head, with 03h and the address; a store given to the host
or a load in flight lets flight and request stand (R53, R54, R194). -/
theorem test_loadRequests :
    let s := State.reset
    let y := s.setProf { s.prof with store := .yielded, pspDriven := false }
    let f := s.setProf { s.prof with loadQueue := [2], flight := some ⟨2, [0#8]⟩, flashSelected := true }
    s.prof.loadQueue.contains 1 = false ∧ s.prof.store = .owned ∧ s.prof.flight = none ∧
    (requestLoad 1 s).prof.reads 1 ∧ (requestLoad 1 s).prof.pspOut = [0x03#8, 0#8, 2#8, 0#8] ∧
    (requestLoad 1 y).prof.flight = none ∧ (requestLoad 1 f).prof.flight = some ⟨2, [0#8]⟩ ∧
    s.prof.flashSelected = s.prof.flight.isSome ∧ f.prof.flashSelected = f.prof.flight.isSome :=
  ⟨by decide, by decide, by decide, ⟨by decide +kernel, by decide +kernel, by decide +kernel⟩, by decide +kernel,
    by decide +kernel, by decide +kernel, by decide, by decide⟩

theorem test_hyp_PageWithCachedRegionIsDisposed :
    let s := (withLa (pageLink 26)).setProf { ProfileUnit.reset with cache := [⟨1, some oneProfile⟩] }
    let u := (withLa (pageLink 26)).setProf { ProfileUnit.reset with cache := [⟨1, none⟩] }
    s.cached 1 = some ⟨1, some oneProfile⟩ ∧ governingRange oneProfile.ranges 6 = none ∧ u.cached 1 = some ⟨1, none⟩ := by
  decide +kernel

theorem test_hyp_ServingReplacesRecord :
    readServing [0#8] = some .noService ∧
    readServing [1#8, 0#8, 0#8, 0#8, 1#8, 3#8, 0xFF#8, 0#8, 0#8, 0#8, 2#8, 0#8, 3#8] = some (.service 1#32 1023 2#32 3) ∧
    (withLa (upLink.receiving .serving 13 none)).receives .la .serving 13 ∧
    (withLa { upLink with serving := .service 1#32 1023 2#32 3 }).la.serving.region = some 1023 ∧
    ((withLa upLink).setProf { ProfileUnit.reset with cache := [⟨1023, none⟩] }).cached 1023 = some ⟨1023, none⟩ ∧
    (withLa upLink).cached 1023 = none :=
  ⟨by decide +kernel, by decide +kernel, ⟨_, rfl, rfl⟩, by decide +kernel, by decide +kernel, by decide +kernel⟩

theorem test_hyp_ReceiptResultSettlesOutstanding :
    let s := (withLa { upLink.receiving .receiptResult 2 none with outstanding := some 0 }).setRcpt ⟨[offered], 0⟩
    readReceiptResult [0#8, 1#8] = some (0, true) ∧ readReceiptResult [15#8, 2#8] = some (15, false) ∧
    (s.link .la).outstanding = some 0 ∧ s.recordOf 0 = some offered ∧ offered.target = .la ∧
    (∀ x ∈ s.rcpt.queue, x.handle = offered.handle → x.id = 0) ∧ (s.link .la).outstanding ≠ some 15 ∧
    offered.state = .offered ∧ (s.rcpt.queue.map (·.id)).Nodup ∧ readReceiptResult [0#8, 2#8] = some (0, false) := by
  decide +kernel

/-- After SENT and after REFUSED the link is offered the oldest other record that targets it, past one that targets LB. -/
theorem test_nextOffered :
    let x : ReceiptRecord := { queued with id := 2, handle := ⟨1, 0#8⟩ }
    let s := (withLa { upLink.receiving .receiptResult 2 none with outstanding := some 0 }).setRcpt
      ⟨[offered, { x with id := 1, handle := ⟨2, 0#8⟩, target := .lb }, x], 2⟩
    (s.rcpt.queue.map (·.id)).Nodup ∧ s.nothingToOffer .lb ∧
    (∀ f ∈ [receiptSent offered, refuse offered], ((f s).link .la).outstanding = some 2 ∧
      (f s).rcpt.queue.map (fun y => (y.id, y.state)) = [(1, .queued), (2, .offered)]) := by
  refine ⟨by decide +kernel, fun h => absurd h (by decide +kernel), by decide +kernel⟩

/-- A use reorders the cache; a full one loses its first; a SUBSCRIBE takes its place in the queue (R38, R49, R51). -/
theorem test_orders :
    let c := fun n => (⟨n, none⟩ : CacheEntry)
    mostRecent [c 1, c 2, c 3] (c 1) = [c 2, c 3, c 1] ∧ makeRoom ([1, 2, 3, 4, 5, 6].map c) = [2, 3, 4, 5, 6].map c ∧
    makeRoom ([1, 2, 3, 4, 5].map c) = [1, 2, 3, 4, 5].map c ∧
    pushFrame [.subscribe [(0, 1023)], .credit 6] (subscriptionOf (some oneProfile)) =
      [.subscribe [(5, 5)], .credit 6] := by decide +kernel

theorem test_hyp_linkDeadlines :
    ((withLa faultedLink).link .la).state = .faulted ∧ ((withLa faultedLink).link .la).quarantine = some 0 ∧
    0 ≤ (withLa faultedLink).now ∧ (State.reset.link .la).quarantine = none ∧
    ((withLa { faultedLink with quarantine := some 1 }).link .la).quarantine = some 1 ∧ State.reset.now < 1 ∧
    ((withLa { upLink with outQ := [.credit 6, .helloRequest] }).link .la).outQ = .credit 6 :: [.helloRequest] ∧
    (withLa faultedLink).portIdle := by
  refine ⟨by decide +kernel, by decide +kernel, by decide +kernel, by decide +kernel, by decide +kernel, by decide +kernel,
    by decide +kernel, rfl, rfl⟩

theorem test_hyp_invariants :
    State.reset.linksSound ∧ State.reset.profileSound ∧ State.reset.entriesShaped ∧
    State.reset.host.countersBounded ∧ ∃ t, step State.reset = .next t :=
  ⟨sound_reset, profile_reset, shaped_reset,
    by simp [HostPort.countersBounded, LinkCounters.bounded, GlobalCounters.bounded, State.reset, HostPort.reset,
      LinkCounters.zero, GlobalCounters.zero],
    advanceClock State.reset, rfl⟩

/-- A load in flight that a whole record completes, with a page waiting for it and LA waiting for the subscription. -/
def loading : State :=
  (withLa { upLink with slots := Link.reset.slots.set 0 (.held issuePage), credits := 5, subWaiting := some 1 }).setProf
    { ProfileUnit.reset with
      loadQueue := [1], flight := some ⟨1, []⟩, waiting := [⟨.la, 0, 20000⟩], flashSelected := true }

theorem test_hyp_LoadCompletionInstallsRecord :
    loading.prof.flight = some ⟨1, []⟩ ∧ ([] ++ List.replicate 512 0#8).length = 512 ∧
    loading.waitsFor 1 ⟨.la, 0, 20000⟩ = true ∧ (loading.link .la).subWaiting = some 1 ∧
    judgeRecord 1 (List.replicate 512 0#8) = none ∧ (loading.prof.waiting.map (fun w => (w.link, w.slot))).Nodup ∧
    loading.heldPage .la 0 = some issuePage ∧ (loading.link .la).state = .up :=
  ⟨by decide +kernel, by rw [List.nil_append, List.length_replicate], by decide +kernel, by decide +kernel,
    by decide +kernel, by decide +kernel, by decide +kernel, by decide +kernel⟩

theorem test_hyp_WaitDeadlineUsesFallback :
    let s := { loading with now := 20000 }
    (⟨.la, 0, 20000⟩ : WaitingPage) ∈ s.prof.waiting ∧ 20000 ≤ s.now ∧ s.heldPage .la 0 = some issuePage ∧
    issuePage.channel ≤ 1023 := by decide +kernel

theorem test_hyp_storeCommands :
    State.reset.portIdle ∧ State.reset.prof.store = .owned ∧
    (State.reset.setProf { ProfileUnit.reset with store := .yielded, pspDriven := false }).portIdle ∧
    (State.reset.setProf { ProfileUnit.reset with store := .yielded, pspDriven := false }).prof.flight = none :=
  ⟨⟨rfl, rfl⟩, rfl, ⟨rfl, rfl⟩, rfl⟩

/-- The first 19 bytes of a sound record of region 1: one range, and numbers outside their ranges. -/
def recordHead : List Byte :=
  [0x5A#8, 0x3C#8, 0x00#8, 0x01#8, 0x00#8, 0x09#8, 0x00#8, 0x00#8, 0x02#8, 0x59#8, 0x79#8, 0x10#8, 0x01#8, 0x00#8, 0x05#8, 0x00#8, 0x09#8, 0x02#8, 0x01#8]

/-- A run of 49 zero bytes of the unused ranges. -/
def zeros49 : List Byte := List.replicate 49 0#8

/-- The record's bytes between its head and its check value, all zero. -/
def recordRest : List Byte :=
  zeros49 ++ (zeros49 ++ (zeros49 ++ (zeros49 ++ (zeros49 ++ (zeros49 ++ (zeros49 ++ (zeros49 ++ (zeros49 ++ (0#8 :: zeros49)))))))))

/-- The whole record, its check value at its end. -/
def record : List Byte := recordHead ++ recordRest ++ [115#8, 43#8]

/-- The check value's register after more bytes (R194). -/
def checkFrom (r : BitVec 16) (b : List Byte) : BitVec 16 := b.foldl (fun r x => (bitsOf x).foldl checkBit r) r

theorem checkFrom_append (r : BitVec 16) (a b : List Byte) : checkFrom r (a ++ b) = checkFrom (checkFrom r a) b :=
  List.foldl_append

theorem test_checkHead : checkFrom 0xFFFF#16 recordHead = 0x04C9#16 := by decide +kernel
theorem test_checkRun0 : checkFrom 0x04C9#16 zeros49 = 0x6937#16 := by decide +kernel
theorem test_checkRun1 : checkFrom 0x6937#16 zeros49 = 0x20BD#16 := by decide +kernel
theorem test_checkRun2 : checkFrom 0x20BD#16 zeros49 = 0x166F#16 := by decide +kernel
theorem test_checkRun3 : checkFrom 0x166F#16 zeros49 = 0xFBFF#16 := by decide +kernel
theorem test_checkRun4 : checkFrom 0xFBFF#16 zeros49 = 0x7240#16 := by decide +kernel
theorem test_checkRun5 : checkFrom 0x7240#16 zeros49 = 0x6040#16 := by decide +kernel
theorem test_checkRun6 : checkFrom 0x6040#16 zeros49 = 0x6D82#16 := by decide +kernel
theorem test_checkRun7 : checkFrom 0x6D82#16 zeros49 = 0x0AB9#16 := by decide +kernel
theorem test_checkRun8 : checkFrom 0x0AB9#16 zeros49 = 0x92B2#16 := by decide +kernel
theorem test_checkRun9 : checkFrom 0x92B2#16 (0#8 :: zeros49) = 0x732B#16 := by decide +kernel

theorem test_recordCheck : checkValue (record.take 510) = 0x732B#16 := by
  have h : record.take 510 = recordHead ++ recordRest := List.take_left' (by decide +kernel)
  rw [h]
  change checkFrom 0xFFFF#16 _ = _
  simp only [recordRest, checkFrom_append, test_checkHead, test_checkRun0, test_checkRun1, test_checkRun2,
    test_checkRun3, test_checkRun4, test_checkRun5, test_checkRun6, test_checkRun7, test_checkRun8, test_checkRun9]

/-- R44, R45: the record is judged sound and its numbers clamped; for another region it is invalid. -/
theorem test_judgeRecord :
    judgeRecord 1 record = some ⟨9, 1, 600, 120, 15, [⟨5, 9, .extreme, true⟩]⟩ ∧ judgeRecord 2 record = none := by
  have f : fieldAt record 2 2 = 1 := by decide +kernel
  constructor
  · unfold judgeRecord
    rw [if_pos ⟨by decide +kernel, f, by decide +kernel, by decide +kernel, by rw [test_recordCheck]; decide +kernel⟩]
    decide +kernel
  · unfold judgeRecord
    rw [if_neg (fun h => by rw [f] at h; omega)]

theorem test_hyp_GoverningRangeIsFirstContaining :
    governingRange [⟨0, 4, .severe, true⟩, ⟨3, 5, .extreme, false⟩, ⟨0, 9, .national, true⟩] 5 =
      some (2, ⟨3, 5, .extreme, false⟩) := by decide +kernel

theorem test_hyp_ExpiryRemovesEntry :
    let s := { withPlay (some { entryIn .active with request := some (alertOf .severe 1 1 false) }) none 0 with now := 60000 }
    let u := { (withEntries (some (entryIn .held)) none).setRcpt ⟨[offered], 0⟩ with now := 60000 }
    s.playsAt 0 = true ∧ 60000 ≤ s.now ∧ u.playsAt 0 = false ∧ (entryIn .held).retiredRevision = some 1#6 ∧
    (withEntries (some (entryIn .held)) none).now < 60000 ∧
    (∀ y ∈ u.rcpt.queue, y.handle = u.handleOf 0 ↔ y = offered) ∧ (∀ r ∈ s.rcpt.queue, r.handle ≠ s.handleOf 0) := by
  decide +kernel

/-- R165: the entry of an OFFERED record leaves, and its link is offered its next QUEUED record, or is not UP. -/
theorem test_recordGone :
    let x : ReceiptRecord := { queued with id := 2, handle := ⟨1, 0#8⟩ }
    let s := ((withEntries (some (entryIn .held)) none).setLink .la { upLink with outstanding := some 0 }).setRcpt
      ⟨[offered, x], 2⟩
    let t := departEntry 0 s
    (∀ y ∈ s.rcpt.queue, y.handle = s.handleOf 0 ↔ y = offered) ∧ offered.state = .offered ∧ (s.link .la).state = .up ∧
    t.rcpt.queue.map (fun y => (y.id, y.state)) = [(2, .offered)] ∧ (t.link .la).outstanding = some 2 ∧
    t.host.cntG.receiptsFailed = 1 ∧ ((departEntry 0 (s.setLink .la Link.reset)).rcpt.queue.map (·.state)) = [.queued] ∧
    ((departEntry 0 (s.setRcpt ⟨[queued, x], 2⟩)).rcpt.queue.map (·.id)) = [2] := by decide +kernel

/-- An incoming revision whose deadline is reached at 0. -/
def incomingPart : Incoming := ⟨2#6, 2, [1], 0, some (pageDescriptive issuePage)⟩

theorem test_hyp_AssemblyDeadlineDiscardsOrDrops :
    let a : Entry := { newEntry issuePage values 0 with incoming := some incomingPart }
    let b : Entry := { entryIn .active with incoming := some incomingPart }
    (withEntries (some a) (some b)).entryAt 0 = some a ∧ (withEntries (some a) (some b)).entryAt 1 = some b ∧
    incomingPart.deadline ≤ (withEntries (some a) (some b)).now ∧ a.state = .assembling ∧ b.state ≠ .assembling := by
  decide +kernel

/-- Candidates of each step of Table 23, the earlier step first whatever the ages; equal ages fall to the lower slot. -/
theorem test_hyp_VictimIsEvictable :
    let at_ := fun (st : EntryState) (n : Nat) => some { entryIn st with restingAt := some n }
    (withEntries (at_ .cancelled 5) (at_ .cancelled 5)).victim (fun _ => true) .severe = some 0 ∧
    (withEntries (at_ .acknowledged 1) (at_ .cancelled 5)).victim (fun _ => true) .severe = some 1 ∧
    (withEntries (at_ .held 1) (at_ .acknowledged 5)).victim (fun _ => true) .severe = some 1 ∧
    (withEntries (some (newEntry issuePage values 0)) (at_ .held 5)).victim (fun _ => true) .extreme = some 1 ∧
    (withEntries (some (newEntry issuePage values 0)) none).victim (fun _ => true) .extreme = some 0 ∧
    (withEntries (some (newEntry issuePage values 0)) none).victim (fun _ => true) .severe = none ∧
    (withEntries (some (entryIn .active)) none).victim (fun _ => true) .severe = none := by
  decide +kernel

/-- A full directory of ACTIVE entries of another key, and with one CANCELLED among them. -/
def fullOf (e : Entry) : State :=
  State.reset.setDir { State.reset.dir with
    entries := (Vector.replicate 48 (some { entryIn .active with key := { pageKey issuePage with alertNo := 8 } })).set 5
      (some { e with key := { pageKey issuePage with alertNo := 9 } }) }

theorem test_hyp_VictimIsEvictable_full :
    (∀ st ∈ [EntryState.active, .cancelled], (fullOf (entryIn st)).entryOfKey (pageKey issuePage) = none ∧
      (fullOf (entryIn st)).retiredRecord (pageKey issuePage) = none ∧
      (∀ j, ((fullOf (entryIn st)).entryAt j).isSome = true)) ∧
    (fullOf (entryIn .active)).victim (fun _ => true) .severe = none ∧
    (fullOf (entryIn .cancelled)).victim (fun _ => true) .severe = some 5 ∧
    (fullOf (entryIn .cancelled)).dir.segs.length < 160 := by decide +kernel

/-- A full text store whose segments the entry of slot 1 owns, beside an entry of another key in slot 0. -/
def fullStore (a b : Option Entry) : State := (withEntries a b).setSegs (List.replicate 160 ⟨1, .current, 1, []⟩)

/-- R76, R78: a start, a part and a page of no known identity at a full text store, with a victim and without. -/
theorem test_fullStore :
    let other : Entry := { entryIn .held with key := { pageKey issuePage with alertNo := 8 } }
    let busy : Entry := { other with state := .active, hold := none }
    let p := { issuePage with revision := 2#6 }
    let f : Entry := { entryIn .active with incoming := some ⟨2#6, 3, [1], 0, some (pageDescriptive issuePage)⟩ }
    let part := { issuePage with revision := 2#6, partCount := 3, partIndex := 2 }
    let w := fun o => ((fullStore none (some o)).allocated 0).putEntry 0 (some (begunEntry issuePage values 0))
    (fullStore none none).dir.segs.length = 160 ∧
    newerThan 2#6 ((entryIn .active).current.map (·.revision)) = true ∧ (entryIn .active).incoming = none ∧
    (fullStore (some (entryIn .active)) (some other)).victim (fun v => !decide (v = 0) &&
      (fullStore (some (entryIn .active)) (some other)).ownsSegment v) .severe = some 1 ∧
    (workPage p values (fullStore (some (entryIn .active)) (some other))).2 = .storedDone ∧
    (workPage p values (fullStore (some (entryIn .active)) (some busy))).2 = .full ∧
    (workPage part values (fullStore (some f) (some other))).2 = .storedMore ∧
    (workPage part values (fullStore (some f) (some busy))).2 = .full ∧
    (workPage issuePage values (w other)).2 = .storedDone ∧ (workPage issuePage values (w busy)).2 = .full ∧
    (workPage issuePage values (fullStore none (some other))).2 = .storedDone ∧
    workPage issuePage values (fullStore none (some busy)) = ((fullStore none (some busy)).allocated 0, .full) := by
  decide +kernel

/-- A page of one part at a directory whose 48 slots are taken: the CANCELLED entry makes room and the page completes. -/
theorem test_slotEviction :
    (workPage issuePage values (fullOf (entryIn .cancelled))).2 = .storedDone ∧
    ((workPage issuePage values (fullOf (entryIn .cancelled))).1.entryAt 5).map (fun e => (e.state, e.key)) =
      some (.active, pageKey issuePage) := by decide +kernel

theorem test_hyp_SinglePartIssueCompletes :
    let s := State.reset
    let far := { issuePage with area := some (.polygon rectangle false) }
    let u := s.setArea { AreaUnit.reset with position := some ⟨0, 0, 0, 0, 0⟩ }
    s.entryOfKey (pageKey issuePage) = none ∧ s.retiredRecord (pageKey issuePage) = none ∧ s.lowestFreeEntry = some 0 ∧
    (∀ x ∈ s.dir.segs, x.slot ≠ 0) ∧ s.dir.segs.length < 160 ∧ issuePage.partIndex = 1 ∧ issuePage.partCount = 1 ∧
    (s.decideArea 1 .severe issuePage.area).hold = none ∧
    (u.decideArea 1 .severe far.area).hold = some .area := by decide +kernel

/-- The first page of an alert of three parts, its second part, and the key of a page by its reach (Table 9). -/
theorem test_hyp_SinglePartIssueCompletes_several :
    let p := { issuePage with partCount := 3, partIndex := 2 }
    (workPage p values State.reset).2 = .storedMore ∧ p.action = .issue ∧ p.partCount ≠ 1 ∧
    ((workPage p values State.reset).1.entryAt 0).map (fun e => (e.state, e.incoming, e.request)) =
      some (.assembling, some ⟨1#6, 3, [2], 120000, none⟩, none) ∧
    (pageKey { issuePage with reach := .cell }).scope = some 9 ∧
    (pageKey { issuePage with reach := .district }).scope = some 4 ∧ (pageKey issuePage).scope = none := by
  decide +kernel

theorem test_hyp_RepeatedPageOnlyJoinsLink :
    let s := withEntries (some (entryIn .active)) none
    s.entryOfKey (pageKey issuePage) = some (0, entryIn .active) ∧ (workPage issuePage values s).2 = .haveAll ∧
    (workPage { issuePage with action := .cancel } values s).2 = .conflict ∧
    (workPage { issuePage with revision := 40#6 } values s).2 = .stale ∧
    (workPage issuePage values
      (withEntries (some { newEntry issuePage values 0 with incoming := some { incomingPart with revision := 1#6, partCount := 1 } })
        none)).2 = .havePart ∧
    (workPage { issuePage with revision := 2#6 } values
      (s.setSegs (List.replicate 160 ⟨0, .current, 1, []⟩))).2 = .full := by decide +kernel

/-- The tests of Table 24, R103, R105, R106 and R71 that the test above does not meet. -/
theorem test_hyp_RepeatedPageOnlyJoinsLink_tests :
    let e : Entry := { entryIn .active with incoming := some ⟨5#6, 2, [1], 0, some (pageDescriptive issuePage)⟩ }
    let s := withEntries (some e) none
    let two := { issuePage with revision := 5#6, partCount := 2, partIndex := 2 }
    let c := withEntries (some { entryIn .cancelled with current := none, area := none, cancel := some ⟨5#6, 2⟩ }) none
    let r := State.reset.setDir { State.reset.dir with retired := [⟨pageKey issuePage, 1#6, some ⟨2#6, 2, [1], 0⟩⟩] }
    (workPage two values s).2 = .storedDone ∧ (workPage { two with partCount := 3 } values s).2 = .conflict ∧
    (workPage { two with partIndex := 1 } values s).2 = .havePart ∧
    (workPage { issuePage with revision := 6#6, partCount := 3 } values s).2 = .storedMore ∧
    (workPage { issuePage with revision := 4#6 } values s).2 = .stale ∧
    (workPage { issuePage with action := .cancel, revision := 5#6 } values s).2 = .conflict ∧
    (workPage { issuePage with action := .cancel, revision := 6#6 } values s).2 = .storedDone ∧
    (workPage { issuePage with revision := 5#6 } values c).2 = .conflict ∧
    (workPage { issuePage with action := .cancel, revision := 5#6 } values c).2 = .haveAll ∧
    (workPage { issuePage with action := .cancel, revision := 6#6 } values c).2 = .storedDone ∧
    (workPage { issuePage with revision := 4#6 } values c).2 = .stale ∧
    r.retiredRecord (pageKey issuePage) = some ⟨pageKey issuePage, 1#6, some ⟨2#6, 2, [1], 0⟩⟩ ∧
    newer issuePage.revision 1#6 = false ∧ newer 2#6 1#6 = true := by decide +kernel

/-- R84: a page that reaches an entry together with its expiry earns HAVE-PART or HAVE-ALL before it and HAVE-ALL after it;
another part of the discarded revision, and the held part a moment later, start a new entry (R71; log 24). -/
theorem test_hyp_ExpiryRemovesEntry_page :
    let e : Entry := { entryIn .active with incoming := some incomingPart }
    let s := { withEntries (some e) none with now := 60000 }
    let part := { issuePage with revision := 2#6, partCount := 2 }
    let t := expireEntry 0 s
    (workPage part values s).2 = .havePart ∧ (workPage issuePage values s).2 = .haveAll ∧
    workPage part values t = (t, .haveAll) ∧ workPage issuePage values t = (t, .haveAll) ∧
    (workPage { part with partIndex := 2 } values t).2 = .storedMore ∧
    (workPage part values { t with now := 60001 }).2 = .storedMore ∧
    s.entryOfKey (pageKey part) = some (0, e) ∧ (∀ j y, s.entryAt j = some y → j = 0) ∧ s.dir.retired = [] ∧
    (evict 0 s).dir.retired = [⟨pageKey issuePage, 1#6, none⟩] := by
  refine ⟨?_, ?_, ?_, ?_, ?_, ?_, ?_, ?_, ?_, ?_⟩ <;> decide +kernel

/-- Two parts that join, complete, restart and revive; the segment store full with and without a victim. -/
theorem test_hyp_PartsAssembleIntoContent :
    let e : Entry := { newEntry issuePage values 0 with incoming := some ⟨1#6, 3, [1], 0, some (pageDescriptive issuePage)⟩ }
    let f : Entry := { entryIn .active with incoming := some ⟨2#6, 2, [1], 0, some (pageDescriptive issuePage)⟩ }
    let two := { issuePage with partCount := 3, partIndex := 2 }
    let c : Entry := { entryIn .cancelled with current := none, area := none, cancel := some ⟨5#6, 2⟩ }
    (withEntries (some e) none).entryOfKey (pageKey two) = some (0, e) ∧ (withEntries (some e) none).dir.segs.length < 160 ∧
    e.cancel = none ∧ two.partIndex ∉ [1] ∧ (1 ≤ 3 ∧ 3 ≤ 3 ∧ 3 ≠ two.partIndex ∧ 3 ∉ [1]) ∧
    (∀ k, 1 ≤ k → k ≤ 2 → k = 2 ∨ k ∈ [1]) ∧ f.state ≠ .cancelled ∧
    newerThan 3#6 (f.current.map (·.revision)) = true ∧ newerThan 3#6 (f.incoming.map (·.revision)) = true ∧
    c.cancel = some ⟨5#6, 2⟩ ∧ newer 6#6 5#6 = true ∧
    ((withEntries (some e) (some (entryIn .held))).setSegs (List.replicate 160 ⟨1, .current, 1, []⟩)).victim
      (fun v => !decide (v = 0) &&
        ((withEntries (some e) (some (entryIn .held))).setSegs (List.replicate 160 ⟨1, .current, 1, []⟩)).ownsSegment v)
      .severe = some 1 ∧
    (withEntries (some e) none).victim (fun v => !decide (v = 0) && (withEntries (some e) none).ownsSegment v) .severe =
      none := by decide +kernel

/-- A restart and a revival at a full text store, whose segments another entry holds: FULL leaves them as they were. -/
theorem test_hyp_PartsAssembleIntoContent_full :
    let busy : Entry := { entryIn .active with key := { pageKey issuePage with alertNo := 8 } }
    let f : Entry := { entryIn .active with incoming := some ⟨2#6, 2, [1], 0, some (pageDescriptive issuePage)⟩ }
    let c : Entry := { entryIn .cancelled with current := none, area := none, cancel := some ⟨5#6, 2⟩ }
    let p := fun r => { issuePage with revision := r }
    f.incoming ≠ none ∧ newerThan 3#6 (f.current.map (·.revision)) = true ∧
    newerThan 3#6 (f.incoming.map (·.revision)) = true ∧ c.current = none ∧ c.incoming = none ∧ newer 6#6 5#6 = true ∧
    workPage (p 3#6) values (fullStore (some f) (some busy)) = (fullStore (some f) (some busy), .full) ∧
    workPage (p 6#6) values (fullStore (some c) (some busy)) = (fullStore (some c) (some busy), .full) ∧
    (workPage (p 3#6) values (withEntries (some f) (some busy))).2 = .storedDone ∧
    (workPage (p 6#6) values (withEntries (some c) (some busy))).2 = .storedDone := by decide +kernel

theorem test_hyp_CancelMakesTombstone :
    let s := withPlay (some { entryIn .active with request := some (alertOf .severe 1 1 false) }) none 0
    (s.entryOfKey (pageKey issuePage)).map (·.1) = some 0 ∧ (entryIn .active).cancel = none ∧ s.playsAt 0 = true ∧
    newerThan 2#6 ((entryIn .active).current.map (·.revision)) = true ∧ newerThan 2#6 none = true ∧
    (withEntries (some (entryIn .held)) none).playsAt 0 = false ∧ newer 6#6 5#6 = true ∧
    State.reset.entryOfKey (pageKey issuePage) = none ∧ State.reset.retiredRecord (pageKey issuePage) = none ∧
    State.reset.lowestFreeEntry = some 0 := by decide +kernel

/-- Bodies at the ends of the coordinate ranges and one beyond. -/
theorem test_hyp_SetPositionReplacesRecord :
    let b : List Byte := [0#8, 0x89#8, 0x54#8, 0x40#8, 0xFE#8, 0xED#8, 0x57#8, 0x80#8, 0#8, 1#8, 0#8, 2#8]
    let c : List Byte := [0#8, 0x89#8, 0x54#8, 0x41#8, 0#8, 0#8, 0#8, 0#8, 0#8, 1#8, 0#8, 2#8]
    b.length = 12 ∧ signedAt b 0 = 9000000 ∧ signedAt b 4 = -18000000 ∧ c.length = 12 ∧ signedAt c 0 = 9000001 := by
  decide +kernel

/-- R124: a listed handle keeps its place, a stale one of the same slot goes, a selected one joins at the end. -/
theorem test_triggerList :
    let held : Entry := { entryIn .held with hold := some .area }
    let s := (withEntries (some held) (some held)).setArea ⟨none, [⟨1, 0#8⟩, ⟨0, 7#8⟩, ⟨5, 0#8⟩]⟩
    (trigger (fun e => decide (e.hold = some .area)) s).area.redecide = [⟨1, 0#8⟩, ⟨5, 0#8⟩, ⟨0, 0#8⟩] := by
  decide +kernel

theorem test_hyp_RedecisionWorksHead :
    let held : Entry := { entryIn .held with hold := some .area }
    let far : Entry := { held with current := some { content with desc := { content.desc with area := some (.polygon rectangle false) } } }
    let s := (withEntries (some held) (some far)).setArea ⟨some ⟨0, 0, 0, 0, 0⟩, [⟨0, 0#8⟩, ⟨1, 1#8⟩]⟩
    s.named ⟨0, 0#8⟩ = some held ∧ (s.decideArea held.key.region held.cls held.areaBlock).hold = none ∧
    s.named ⟨1, 1#8⟩ = none ∧ s.named ⟨1, 0#8⟩ = some far ∧
    (s.decideArea far.key.region far.cls far.areaBlock).hold = some .area ∧ s.arb.play = none := by decide +kernel

theorem test_hyp_AreaDecisionByTests :
    let s := withLa { upLink with serving := .service 0#32 1 0x12345678#32 0 }
    s.host.settings.enabled .exercise = false ∧ s.host.settings.enabled .severe = true ∧
    (s.link .la).witness 1 = some 0x12345678#32 ∧ (s.link .la).witness 2 = none ∧
    (∀ k < 12, (0x12345678#32).getMsbD k = (0x12300000#32).getMsbD k) ∧
    (∃ k < 12, (0x12345678#32).getMsbD k ≠ (0x12200000#32).getMsbD k) ∧
    s.areaDecision 1 (some (.cells [⟨0x12300000#32, 12⟩])) = .inside ∧
    s.areaDecision 1 (some (.cells [⟨0x12200000#32, 12⟩])) = .outside ∧
    s.areaDecision 2 (some (.cells [⟨0#32, 0⟩])) = .undecided := by decide +kernel

/-- The point P of section 6.6: of the rectangle's edges exactly one counts; its margins are 1 797 and 2 797. -/
theorem test_hyp_AreaDecisionByTests_polygon :
    min (1500 + 500) 65535 * 1000 + 1112 = 2001112 ∧ 2001112 / 1113 = 1797 ∧
    [1008, 962, 886, 784, 658, 512, 350, 177][(4512345 : Int).natAbs / 1000000]? = some 658 ∧
    min ((1797 * 1024 + 657) / 658) 36000000 = 2797 ∧
    [1008, 962, 886, 784, 658, 512, 350, 177][(-8000000 : Int).natAbs / 1000000]? = none := by decide +kernel

/-- Two requests of one level, and a higher one. -/
theorem test_hyp_SelectionTakesHighestThenRoundRobin :
    let s := withEntries (some { entryIn .active with request := some (alertOf .severe 9 0 false) })
      (some { entryIn .active with request := some (alertOf .extreme 9 0 false) })
    s.arb.play = none ∧ s.waitsAt (.cls .extreme) 1 = true ∧ s.waitsAt (.cls .severe) 0 = true ∧
    (select s).arb.play.map (·.handle.slot) = some 1 ∧ searchDistance 47 0 = 0 ∧ searchDistance 0 0 = 47 := by
  decide +kernel

/-- R134: of two requests of one level the first slot after the pointer plays, and becomes the pointer. -/
theorem test_roundRobin :
    let s := withEntries (some { entryIn .active with request := some (alertOf .severe 9 0 false) })
      (some { entryIn .active with request := some (alertOf .severe 9 0 false) })
    let from0 := s.setArb { s.arb with pointers := s.arb.pointers.set (Level.cls .severe).index 0 }
    (select s).arb.play.map (·.handle.slot) = some 0 ∧ (select s).pointer (.cls .severe) = 0 ∧
    (select from0).arb.play.map (·.handle.slot) = some 1 ∧ (select from0).pointer (.cls .severe) = 1 := by decide +kernel

theorem test_hyp_PlayEndsAsHeard :
    let s := withPlay (some { entryIn .active with request := some (alertOf .severe 0 12000 false) }) none 9
    let u := withPlay (some { entryIn .active with cls := .national, request := some (alertOf .national 5 3000 true) }) none 9
    let v := withPlay (some { entryIn .active with request := some ⟨.reminder, .trickle, 0, 1500, false⟩ }) none 9
    (s.playingRequest.map (·.2.2.remaining)) = some 0 ∧
    (u.playingRequest.map (fun x => (x.2.2.silenced, decide (u.host.settings.minimumPlay * 1000 ≤ x.2.2.played)))) =
      some (true, true) ∧ (v.playingRequest.map (·.2.2.kind)) = some .reminder := by decide +kernel

theorem test_hyp_PlayIsPreemptedOrYields :
    let s := withPlay (some { entryIn .active with request := some (alertOf .severe 5 3000 false) })
      (some { entryIn .active with request := some (alertOf .extreme 9 0 false) }) 3000
    let u := withPlay (some { entryIn .active with request := some (alertOf .severe 5 8000 false) })
      (some { entryIn .active with request := some (alertOf .severe 9 0 false) }) 8000
    s.playingRequest.isSome = true ∧ s.host.settings.minimumPlay * 1000 ≤ 3000 ∧
    s.waitingRequest 1 = some (alertOf .extreme 9 0 false) ∧
    u.host.settings.minimumPlay * 1000 + u.host.settings.maximumPlay * 1000 ≤ 8000 ∧
    u.waitingRequest 1 = some (alertOf .severe 9 0 false) ∧
    ((withPlay (some { entryIn .active with request := some (alertOf .severe 5 3000 true) }) none 3000).playingRequest.map
      (·.2.2.silenced)) = some true := by decide +kernel

/-- R139: with a minimum play of 1 s an escalated reminder may yield to its level from 1 000 ms of its turn on, not before;
a reminder at TRICKLE and an ALERT may not. -/
theorem test_hyp_PlayIsPreemptedOrYields_early :
    let s (r : Request) (w : Level) (turn : Nat) :=
      let t := withPlay (some { entryIn .active with request := some r })
        (some { entryIn .active with request := some { reminderRequest with level := w } }) turn
      t.setHost { t.host with settings := { t.host.settings with minimumPlay := 1 } }
    let r : Request := { reminderRequest with level := .cls .severe, remaining := 500, played := 1000 }
    let a : Request := { r with kind := .alert }
    let yields (u : State) := match exec .yield u with
      | .next t => t.arb.play.map (·.handle.slot)
      | _ => none
    (s r (.cls .severe) 1000).playingRequest.map (·.2.2) = some r ∧
    (s r (.cls .severe) 1000).waitingRequest 1 = some { reminderRequest with level := .cls .severe } ∧
    yields (s r (.cls .severe) 1000) = some 1 ∧ yields (s r (.cls .severe) 999) = some 0 ∧
    yields (s { r with level := .trickle } .trickle 1000) = some 0 ∧ yields (s a (.cls .severe) 1000) = some 0 := by
  decide +kernel

theorem test_hyp_CadenceMovesToNextSegment :
    let p : Play := ⟨⟨0, 0#8⟩, .p1, 3, 500, 3500⟩
    let q : Play := ⟨⟨0, 0#8⟩, .p1, 0, 2000, 2000⟩
    p.segment < p.pattern.segments.length ∧ p.segmentNow.2 ≤ p.into ∧ q.segmentNow.2 ≤ q.into ∧
    (withPlay (some (entryIn .active)) none 0).named ⟨0, 0#8⟩ = some (entryIn .active) ∧ State.reset.arb.play = none := by
  decide +kernel

/-- R146, R147: an ON segment in its middle, an OFF segment, and no play. -/
theorem test_outputs :
    let s := withPlay (some { entryIn .active with request := some (alertOf .severe 9000 500 false) }) none 500
    let q := s.setArb { s.arb with play := some ⟨⟨0, 0#8⟩, .p2, 1, 10, 1010⟩ }
    (s.tone, s.vib, s.dwake) = (true, true, true) ∧ (q.tone, q.vib, q.dwake) = (false, false, true) ∧
    (State.reset.tone, State.reset.vib, State.reset.dwake) = (false, false, false) := by decide +kernel

theorem test_hyp_SilenceSparesOnlyUnheardNational :
    let a : Entry := { entryIn .active with cls := .national, request := some (alertOf .national 5 2999 false) }
    let b : Entry := { entryIn .active with request := some (alertOf .severe 5 0 false) }
    (withPlay (some a) (some b) 0).portIdle ∧ (withPlay (some a) (some b) 0).playingRequest.isSome = true ∧
    a.cls = .national ∧ 2999 < (withPlay (some a) (some b) 0).host.settings.minimumPlay * 1000 :=
  ⟨⟨rfl, rfl⟩, by decide +kernel, by decide +kernel, by decide +kernel⟩

theorem test_hyp_AcknowledgeByState :
    let s := withEntries (some (entryIn .active)) (some (entryIn .acknowledged))
    s.portIdle ∧ 48 ≤ (48#8).toNat ∧ s.named ⟨0, 0#8⟩ = some (entryIn .active) ∧
    s.named ⟨1, 0#8⟩ = some (entryIn .acknowledged) ∧ s.named ⟨0, 1#8⟩ = none ∧ s.named ⟨47, 0#8⟩ = none ∧
    (entryIn .active).current = some content ∧ content.desc.receiptRequested = true ∧
    content.rules.receiptsAllowed = true ∧ (entryIn .active).receipt = .idle ∧ s.rcpt.queue.length < 16 ∧
    16 ≤ (List.replicate 16 offered).length ∧
    (withPlay (some { entryIn .active with request := some (alertOf .severe 9 0 false) }) none 0).playsAt 0 = true ∧
    (s.setLink .la upLink).link (entryIn .active).links.first = upLink ∧ upLink.outstanding = none ∧
    (∀ y ∈ s.rcpt.queue, y.handle ≠ ⟨0, 0#8⟩) :=
  ⟨⟨rfl, rfl⟩, by decide, by decide +kernel, by decide +kernel, by decide +kernel, by decide +kernel, by decide +kernel,
    by decide +kernel, by decide +kernel, by decide +kernel, by decide +kernel, by simp, by decide +kernel,
    by decide +kernel, by decide +kernel, by decide +kernel⟩

/-- R155, R157: the id is the first free place after the last given, 15 and 0 being taken; a link in UP is offered its oldest
QUEUED record, one not in UP none; and a full queue takes none (R154). -/
theorem test_receiptStep :
    let y : ReceiptRecord := { queued with id := 15, handle := ⟨2, 0#8⟩ }
    let s := ((withEntries (some (entryIn .active)) none).setRcpt ⟨[y, { y with id := 0, handle := ⟨3, 0#8⟩ }], 14⟩)
    let u := s.setLink .la upLink
    let full := s.setRcpt ⟨(List.range 16).map (fun k => { y with id := Fin.ofNat 16 k }), 15⟩
    let shown := fun t : State => (t.rcpt.queue.map (fun z => (z.id, z.state)), t.rcpt.lastId)
    shown (receiptStep 0 s) = ([(15, .queued), (0, .queued), (1, .queued)], 1) ∧
    shown (receiptStep 0 u) = ([(15, .offered), (0, .queued), (1, .queued)], 1) ∧
    ((receiptStep 0 u).link .la).outstanding = some 15 ∧ (u.link (entryIn .active).links.first).outstanding = none ∧
    16 ≤ full.rcpt.queue.length ∧ (receiptStep 0 full).rcpt = full.rcpt ∧
    (receiptStep 0 full).host.cntG.receiptsFailed = 1 := by decide +kernel

theorem test_hyp_ReminderFallsDue :
    let e : Entry := { entryIn .active with nextReminder := some 0 }
    (withEntries (some e) none).entryAt 0 = some e ∧ e.state = .active ∧ 0 ≤ (withEntries (some e) none).now ∧
    e.request = none ∧ (withEntries (some e) none).arb.play = none := by decide +kernel

/-- A due reminder on an IDLE generator, alone and beside a waiting request of its own level. -/
theorem test_reminderPlays :
    let e : Entry := { entryIn .active with nextReminder := some 0 }
    let r : Entry := { entryIn .active with request := some reminderRequest }
    let s := withEntries (some e) (some r)
    e.request = none ∧ e.backlog = 0 ∧ s.arb.play = none ∧
    (remind 0 (withEntries (some e) none)).arb.play = some ⟨⟨0, 0#8⟩, .pr, 0, 0, 0⟩ ∧
    (remind 0 s).arb.play.map (·.handle.slot) = some 0 ∧ (remind 0 s).pointer .trickle = 0 := by decide +kernel

theorem test_hyp_OfferDeadlineRefuses :
    let s := (withEntries (some (entryIn .active)) none).setRcpt ⟨[offered], 0⟩
    s.recordOf 0 = some offered ∧ offered.state = .offered ∧ offered.deadline = some 0 ∧ 0 ≤ s.now ∧
    (s.rcpt.queue.map (·.id)).Nodup ∧ (∀ x ∈ s.rcpt.queue, x.handle = offered.handle → x.id = 0) ∧
    (s.link .lb).state ≠ .up ∧ ((s.setLink .lb upLink).link .lb).state = .up ∧
    s.named offered.handle = some (entryIn .active) := by decide +kernel

theorem test_hyp_portCommands :
    State.reset.portIdle ∧ 4 ≤ (4#8).toNat ∧ (settingsBody 10#8 40#8 12#8 0#8).length = 15 ∧
    (∀ k ∈ [1, 2, 3, 4, 5, 13, 14], fieldAt (settingsBody 10#8 40#8 12#8 0#8) k 1 ≤ 1) ∧
    1 < fieldAt ((settingsBody 10#8 40#8 12#8 0#8).set 14 2#8) 14 1 ∧
    (withEntries (some (entryIn .active)) none).textOf 0 1 = none ∧
    ((withEntries (some (entryIn .active)) none).setSegs [⟨0, .current, 1, [65#8]⟩]).textOf 0 1 = some [65#8] :=
  ⟨⟨rfl, rfl⟩, by decide, by decide, by decide +kernel, by decide +kernel, by decide +kernel, by decide +kernel⟩

theorem test_hyp_ResponseReadClocksOut :
    State.reset.host.txn = none ∧ State.reset.host.response = none ∧
    (State.reset.answered ⟨.ok, [1#8]⟩).host.response = some ⟨.ok, [1#8]⟩ ∧ (3 : Nat) < 3 + [1#8].length ∧
    3 + [1#8].length ≤ (4 : Nat) := by decide +kernel

theorem test_hyp_RefusedCommandsHaveNoEffect :
    hostFrame (.readSettings []) = some (0x0C#8, 0, []) ∧ (State.reset.answered ⟨.ok, []⟩).host.response ≠ none ∧
    (∀ body : List Byte, body.length = 0 → ([] : List Byte) ≠ framed body) ∧ (18 < (19#8).toNat ∧ 19#8 ≠ 0xFF#8) := by
  refine ⟨rfl, by decide, fun body _ => by simp [framed, bytesOf], by decide⟩

/-- A receipt outstanding on a link in UP, as a resync, a GOODBYE and a fault find it (OutstandingRefused), retargeted with
the other link in UP and failed without it. -/
theorem test_hyp_OutstandingRefused :
    let s := (withLa { upLink.started with outstanding := some 0 }).setRcpt ⟨[offered], 0⟩
    (s.link .la).outstanding = some offered.id ∧ s.recordOf offered.id = some offered ∧ offered.target = .la ∧
    offered.state = .offered ∧ (s.rcpt.queue.map (·.id)).Nodup ∧
    (∀ x ∈ s.rcpt.queue, x.handle = offered.handle → x.id = offered.id) ∧ (s.link .la).state = .up ∧
    (s.link .lb).state ≠ .up ∧ offered.attempts = 0 ∧ ((s.setLink .lb upLink).link .lb).state = .up := by decide +kernel

/-- The page judged under a profile that ranges its channel as IGNORED, under one that ranges it, and repeated: slot and
credit return, and the code is counted or not (Table 45). -/
theorem test_judgedPage :
    let s := withLa (pageLink 26)
    let t := s.judgedPage (some oneProfile) .la 0 { issuePage with channel := 6 }
    let u := s.judgedPage (some oneProfile) .la 0 issuePage
    let v := u.judgedPage (some oneProfile) .la 0 issuePage
    let w := (fullOf (entryIn .active)).judgedPage none .la 0 issuePage
    ((t.link .la).credits, t.host.cntLa.ignored, (t.entryAt 0).isSome) = (6, 1, false) ∧
    ((u.link .la).credits, u.host.cntLa.duplicates, (u.entryAt 0).isSome) = (6, 0, true) ∧
    v.host.cntLa.duplicates = 1 ∧ (w.host.cntLa.full, EventSet.holds w.host.events .directoryFull) = (1, true) ∧
    (w.link .la).outQ = [] := by decide +kernel

/-- R178, R181: a post joins the set; WAKE rises for a wake-enabled kind alone. -/
theorem test_post :
    EventSet.holds (post .storeState State.reset).host.events .storeState = true ∧
    (post .storeState State.reset).host.wake = false ∧ (post .newAlert State.reset).host.wake = true := by decide +kernel

/-- The kind recorded by a timeout: of the header, of the kind byte read, unknown (log 4). -/
theorem test_timeoutKind :
    timeoutKind ⟨0, 4, some ⟨.page, 26⟩, none⟩ (some 1#8) = .page ∧
    timeoutKind ⟨0, 4, none, none⟩ (some 4#8) = .serving ∧ timeoutKind ⟨0, 4, none, none⟩ none = .unknown := by decide

/-- A minimum play lowered from 3 s to 1 s: a silenced request that has reached it waits, another plays; an unsilenced play
stands beyond the lowered minimum with a higher request waiting. -/
theorem test_hyp_WriteSettings_arbiter :
    let hushed := { entryIn .active with cls := .national, request := some (alertOf .national 5 1000 true) }
    let s := withPlay (some hushed) (some hushed) 1000
    let u := withPlay (some { entryIn .active with request := some (alertOf .severe 5 1000 false) })
      (some { entryIn .active with request := some (alertOf .extreme 9 0 false) }) 1000
    let b := settingsBody 100#8 12#8 1#8 5#8
    1 < s.host.settings.minimumPlay ∧ s.waitingRequest 1 = some (alertOf .national 5 1000 true) ∧
    s.playingRequest.map (·.2.2) = some (alertOf .national 5 1000 true) ∧
    (readSettingsRecord b).map (fun r => (r.1.minimumPlay, r.1.maximumPlay)) = some (1, 5) ∧
    u.playingRequest.map (fun x => (x.1.turn, x.2.2)) = some (1000, alertOf .severe 5 1000 false) ∧
    u.waitingRequest 1 = some (alertOf .extreme 9 0 false) ∧
    (arbiterMeets u.host.settings (u.setHost { u.host with
      settings := { u.host.settings with minimumPlay := 1 } })).arb.play.map (·.handle.slot) = some 1 := by decide +kernel

/-- R192: the first byte of a transaction chooses its row. -/
theorem test_decodeTransaction :
    decodeTransaction [0x01#8, 0#8, 0#8] = some (.getEvents [0#8, 0#8]) ∧
    decodeTransaction [0x12#8, 0#8, 1#8, 1#8] = some (.readCounters [0#8, 1#8, 1#8]) ∧
    decodeTransaction [0xFF#8, 0#8, 0#8] = some (.responseRead 2) ∧
    decodeTransaction [0x13#8] = some (.badCommand 0x13#8 []) ∧ decodeTransaction [0x00#8] = some (.badCommand 0x00#8 []) ∧
    decodeTransaction [] = none ∧
    (State.reset.withTransaction [0x08#8, 0#8, 0#8]).pending = [.silence [0#8, 0#8]] := by decide +kernel

/-! ### One step each of the machine as a whole -/

/-- A HELLO after its start marker opens LA, whether its header's last byte comes as FRAME_HEADER or as the frame's end
(log 4): 6 credits, CREDIT 6 and SUBSCRIBE of all channels (R19). -/
theorem test_helloOpens : ∀ c ∈ [Instr.hello .la [], .frameHeader .la 0x01#8 0#16],
    (match step ({ withLa Link.reset.started with pending := [c] }) with
     | .next t => ((t.link .la).state, (t.link .la).credits, (t.link .la).outQ, t.pending)
     | .fault _ => (.down, 0, [], [])
     | .refused _ => (.down, 0, [], [])) = (LinkState.up, 6, [.credit 6, .subscribe [(0, 1023)]], []) := by decide +kernel

/-- Table 49: the bytes of a CREDIT, of a SUBSCRIBE and of a DISPOSITION frame. -/
theorem test_frameBytes :
    (OutFrame.credit 6).encode = [0xA5#8, 0x82#8, 0#8, 1#8, 6#8] ∧
    (OutFrame.subscribe [(0, 1023)]).encode = [0xA5#8, 0x83#8, 0#8, 5#8, 1#8, 0#8, 0#8, 3#8, 0xFF#8] ∧
    (OutFrame.disposition (pageKey issuePage) 1#6 1 .full).encode =
      [0xA5#8, 0x84#8, 0#8, 14#8, 0#8, 1#8, 0#8, 5#8, 0#8, 7#8, 3#8, 0#8, 0#8, 0#8, 0#8, 1#8, 1#8, 8#8] := by decide +kernel

/-- The read request of region 1023 (R194). -/
theorem test_readRequest : readRequest 1023 = [0x03#8, 0x07#8, 0xFE#8, 0x00#8] := by decide +kernel

/-- No word of the table spells a command (log 17). -/
theorem test_decodeTableWord : decodeTableWord 8 0 = none := rfl

end Sys2Proof.Machine
end

section
/-! CLEAR-LINK-FAULT (R34): which link a number names, what the end of a quarantine makes of the link (R23), and what the
command does on an idle port. -/

namespace Sys2Proof.Machine

/-- The one byte of a one-byte body, as a field. -/
theorem fieldAt_singleton (b : Byte) : fieldAt [b] 0 1 = b.toNat := by
  simp [fieldAt, bytesAt, valueOf]

/-- Table 52: link number 1 is LA, 2 is LB, and no other byte names a link. -/
theorem readLinkNumber_singleton (b : Byte) (l : LinkId) :
    readLinkNumber [b] = some l ↔ b = if l = .la then 1#8 else 2#8 := by
  rw [readLinkNumber, fieldAt_singleton, BitVec.toNat_eq]
  split
  case h_1 h => cases l <;> simp [h]
  case h_2 h => cases l <;> simp [h]
  case h_3 h1 h2 =>
    cases l
    · simpa using h1
    · simpa using h2

/-- A link number that is neither LA's nor LB's names no link. -/
theorem readLinkNumber_none {c : Byte} (h1 : c ≠ 1#8) (h2 : c ≠ 2#8) : readLinkNumber [c] = none := by
  refine Option.eq_none_iff_forall_ne_some.mpr fun l hl => ?_
  have hc := (readLinkNumber_singleton c l).mp hl
  cases l
  · exact h1 hc
  · exact h2 hc

/-- The end of a quarantine: the link is in SYNC, hunting, its HELLO-REQUEST at the tail of the queue, and LINK-STATE is
posted (R23). -/
theorem endQuarantine_eq (l : LinkId) (s : State) :
    endQuarantine l s = post .linkState (s.setLink l { s.link l with
      state := .sync, quarantine := none, frame := none, outQ := (s.link l).outQ ++ [.helloRequest] }) := rfl

/-- Taking a command touches no link. -/
@[simp] theorem State.link_taken (n : Nat) (s : State) (l : LinkId) : (s.taken n).link l = s.link l := rfl

/-! ### The work of the command -/

theorem clearLinkFaultWork_faulted {body : List Byte} {l : LinkId} {s : State} (hn : readLinkNumber body = some l)
    (hs : (s.link l).state = .faulted) : clearLinkFaultWork body s = (endQuarantine l s, okWith []) := by
  simp [clearLinkFaultWork, hn, hs]

theorem clearLinkFaultWork_not_faulted {body : List Byte} {l : LinkId} {s : State} (hn : readLinkNumber body = some l)
    (hs : (s.link l).state ≠ .faulted) : clearLinkFaultWork body s = (s, refusal .wrongState) := by
  simp [clearLinkFaultWork, hn, hs]

theorem clearLinkFaultWork_no_link {body : List Byte} {s : State} (hn : readLinkNumber body = none) :
    clearLinkFaultWork body s = (s, refusal .badValue) := by
  simp [clearLinkFaultWork, hn]

/-- CLEAR_LINK_FAULT on an idle port is taken, worked and answered (R171, R173). -/
theorem exec_clearLinkFault_framed (b : Byte) (s : State) (h : s.portIdle) :
    exec (.clearLinkFault (framed [b])) s =
      .next ((clearLinkFaultWork [b] (s.taken 1)).1.answered (clearLinkFaultWork [b] (s.taken 1)).2) := by
  show Host.Outcome.next _ = _
  rw [transact_framed 0x0E 1 clearLinkFaultWork [b] s h rfl (by decide)]

/-- Settles O21, by the three cases of the command's work on the taken state. -/
theorem clearLinkFaultEndsQuarantine : Obligations.ClearLinkFaultEndsQuarantine := by
  intro b l s hidle hb
  have hn : readLinkNumber [b] = some l := (readLinkNumber_singleton b l).mpr hb
  refine ⟨fun hs => ?faulted, fun hs => ?notFaulted, fun c h1 h2 => ?noLink⟩
  case faulted =>
    rw [exec_clearLinkFault_framed b s hidle, clearLinkFaultWork_faulted hn (by simpa using hs), endQuarantine_eq]
    rfl
  case notFaulted =>
    rw [exec_clearLinkFault_framed b s hidle, clearLinkFaultWork_not_faulted hn (by simpa using hs)]
    rfl
  case noLink =>
    rw [exec_clearLinkFault_framed c s hidle, clearLinkFaultWork_no_link (readLinkNumber_none h1 h2)]
    rfl

end Sys2Proof.Machine
end

section
/-! YIELD-STORE (R58): what giving the flash to the host makes of the profile unit, and what the command does on an idle
port. -/

namespace Sys2Proof.Machine

/-- Taking a command touches nothing of the profile unit. -/
@[simp] theorem State.prof_taken (n : Nat) (s : State) : (s.taken n).prof = s.prof := rfl

/-- The yield takes the mark off a load in flight and keeps the rest of the profile unit but the store's state, the pins
and the flash (R58). With no load in flight the mark is off already. -/
theorem yieldStore_eq (s : State) :
    yieldStore s = post .storeState (s.setProf { s.prof with
      flight := none, store := .yielded, pspDriven := false, flashSelected := false }) := by
  rw [yieldStore, abandonIfLoading]
  split
  case h_1 hnone => rw [← hnone]
  case h_2 => rfl

/-! ### The work of the command -/

theorem yieldStoreWork_owned {body : List Byte} {s : State} (h : s.prof.store = .owned) :
    yieldStoreWork body s = (yieldStore s, storeBody (yieldStore s)) := by
  simp [yieldStoreWork, h]

theorem yieldStoreWork_yielded {body : List Byte} {s : State} (h : s.prof.store = .yielded) :
    yieldStoreWork body s = (s, refusal .wrongState) := by
  simp [yieldStoreWork, h]

/-- The response to a yield carries the code of YIELDED (R177, R193). -/
theorem storeBody_yieldStore (s : State) : storeBody (yieldStore s) = ⟨.ok, [2#8]⟩ := by
  rw [yieldStore_eq]
  rfl

/-- YIELD_STORE on an idle port is taken, worked and answered (R171, R173). -/
theorem exec_yieldStore_framed (s : State) (h : s.portIdle) :
    exec (.yieldStore (framed [])) s =
      .next ((yieldStoreWork [] (s.taken 0)).1.answered (yieldStoreWork [] (s.taken 0)).2) := by
  show Host.Outcome.next _ = _
  rw [transact_framed 0x10 0 yieldStoreWork [] s h rfl (by decide)]

/-- Settles O25, by the two states of the store. -/
theorem yieldStoreReleasesPins : Obligations.YieldStoreReleasesPins := by
  intro s hidle
  refine ⟨fun howned => ?owned, fun hyielded => ?yielded⟩
  case owned =>
    rw [exec_yieldStore_framed s hidle, yieldStoreWork_owned (by simpa using howned), storeBody_yieldStore,
      yieldStore_eq, State.prof_taken]
  case yielded =>
    rw [exec_yieldStore_framed s hidle, yieldStoreWork_yielded (by simpa using hyielded)]
    rfl

end Sys2Proof.Machine
end

section
/-! REDECISION (R126, R127): what the removal of the head handle leaves to the decision, what a re-decision that holds
makes of the entry, and what one that presents it does. -/

namespace Sys2Proof.Machine

/-! ### The head of the list -/

/-- No decision looks at the re-decision list (R115). -/
@[simp] theorem State.decideArea_setRedecide (s : State) (q : List Handle) :
    (s.setArea { s.area with redecide := q }).decideArea = s.decideArea := rfl

/-- REDECISION drops a head handle that names no HELD entry (R126). -/
theorem exec_redecision_dropped {h : Handle} {rest : List Handle} {s : State} (hq : s.area.redecide = h :: rest)
    (hdrop : ∀ e, s.named h = some e → e.state ≠ .held) :
    exec .redecision s = .next (s.setArea { s.area with redecide := rest }) := by
  show execRedecision s = _
  simp only [execRedecision, hq, named_congr (State.dir_setArea s _)]
  cases hn : s.named h with
  | none => rfl
  | some e => simp [hdrop e hn]

/-- REDECISION decides the HELD entry of the head handle again (R126). -/
theorem exec_redecision_held {h : Handle} {rest : List Handle} {s : State} {e : Entry}
    (hq : s.area.redecide = h :: rest) (hn : s.named h = some e) (hheld : e.state = .held) :
    exec .redecision s = .next (redecideEntry h.slot e (s.setArea { s.area with redecide := rest })) := by
  show execRedecision s = _
  simp [execRedecision, hq, named_congr (State.dir_setArea s _), hn, hheld]

/-! ### The re-decision -/

/-- A re-decision that holds the entry replaces its decision and reason, and marks a difference (R127, Table 31). -/
theorem redecideEntry_holds {i : EntrySlot} {e : Entry} {x : HoldReason} {s : State} (he : s.entryAt i = some e)
    (hx : (s.decideArea e.key.region e.cls e.areaBlock).hold = some x) :
    redecideEntry i e s = s.putEntry i (some (rehold x
      (recordArea (s.decideArea e.key.region e.cls e.areaBlock).result e))) := by
  simp only [redecideEntry, hx]
  exact modEntry_some he _

/-- The state in which a re-decided entry has come forward and its request is still to be raised (R127). -/
def broughtForward (i : EntrySlot) (e : Entry) (s : State) : State :=
  s.putEntry i (some (presentEntry (recordArea (s.decideArea e.key.region e.cls e.areaBlock).result e)))

/-- A re-decision that presents the entry brings it forward, raises an ALERT request and posts NEW-ALERT (R127). -/
theorem redecideEntry_presents {i : EntrySlot} {e : Entry} {s : State} (he : s.entryAt i = some e)
    (hx : (s.decideArea e.key.region e.cls e.areaBlock).hold = none) :
    redecideEntry i e s = post .newAlert (raiseAlert i (broughtForward i e s)) := by
  simp only [redecideEntry, hx, modEntry_some he]
  rfl

/-- The slot's entry once it is presented: ACTIVE, with a fresh request (R127, R132). -/
theorem entryAt_redecideEntry_same {i : EntrySlot} {e : Entry} {s : State} (he : s.entryAt i = some e)
    (hx : (s.decideArea e.key.region e.cls e.areaBlock).hold = none) :
    (redecideEntry i e s).entryAt i = some (setRequest (some (alertRequest s e.cls))
      (presentEntry (recordArea (s.decideArea e.key.region e.cls e.areaBlock).result e))) := by
  rw [redecideEntry_presents he hx, entryAt_post]
  exact entryAt_raiseAlert_same i _ _ (State.entryAt_putEntry_same s i _)

/-- A re-decision touches no other slot. -/
theorem entryAt_redecideEntry_other {i j : EntrySlot} (e : Entry) (s : State) (hj : j ≠ i) :
    (redecideEntry i e s).entryAt j = s.entryAt j := by
  have hmod : ∀ f, (modEntry i f s).entryAt j = s.entryAt j := fun f => by
    rw [State.entryAt_modEntry, if_neg hj.symm]
  unfold redecideEntry
  dsimp only
  split
  · rw [entryAt_post, entryAt_raiseAlert_other i j _ hj, hmod]
  · exact hmod _

/-- Presenting an entry changes, before its event is posted, entries and arbiter only. -/
theorem requestWork_raiseAlert_broughtForward (i : EntrySlot) (e : Entry) (s : State) :
    RequestWork s (raiseAlert i (broughtForward i e s)) := by
  have hput : RequestWork s (broughtForward i e s) := rfl
  exact hput.trans (requestWork_raiseAlert i _)

/-- An IDLE generator selects, the presented entry's request among the others (R132, R134). -/
theorem selects_raiseAlert_broughtForward (i : EntrySlot) (e : Entry) (s : State) (hp : s.arb.play = none) :
    s.selects (raiseAlert i (broughtForward i e s)) :=
  State.selects_congr (selects_raiseAlert i _ (broughtForward i e s) (State.entryAt_putEntry_same s i _) hp) rfl

/-- Settles O41: a head that names no HELD entry is dropped, a HELD entry is decided again and held or presented. -/
theorem redecisionWorksHead : Obligations.RedecisionWorksHead := by
  intro h rest s hq
  refine ⟨fun hdrop => exec_redecision_dropped hq hdrop, fun e hn hheld => ?_⟩
  have hexec := exec_redecision_held hq hn hheld
  have he : (s.setArea { s.area with redecide := rest }).entryAt h.slot = some e := named_entryAt hn
  refine ⟨fun x hx => ?held, fun hx => ?presented⟩
  case held =>
    rw [hexec, redecideEntry_holds he hx]
    rfl
  case presented =>
    obtain ⟨hsegs, -, hretired, hrcpt, harea, hhost⟩ :=
      requestWork_kept (requestWork_raiseAlert_broughtForward h.slot e (s.setArea { s.area with redecide := rest }))
    refine ⟨_, hexec, entryAt_redecideEntry_same he hx, fun j hj => entryAt_redecideEntry_other e _ hj, ?_⟩
    have hwork : Work s (redecideEntry h.slot e (s.setArea { s.area with redecide := rest })) :=
      (work_setArea s rest).trans (work_redecideEntry _ _ _)
    rw [redecideEntry_presents he hx] at hwork ⊢
    refine ⟨harea, hrcpt, hsegs, hretired, ?events, fun hp => ?playing, fun hp => ?idle, hwork⟩
    case events => simp only [post, State.host_setHost, hhost, State.host_setArea]
    case playing => exact arb_raiseAlert h.slot (broughtForward h.slot e _) hp
    case idle => exact selects_raiseAlert_broughtForward h.slot e _ hp

end Sys2Proof.Machine
end

section
/-! SET-POSITION (R112): which bodies it takes, which entries its trigger selects (Table 30), and the re-decision list
after any trigger (R124, R125). -/

namespace Sys2Proof.Machine

/-! ### The work of the command -/

/-- A vertex in the coordinate ranges, as inequalities (R8, R112). -/
theorem vertexInRange_iff (v : Vertex) :
    vertexInRange v = true ↔ -9000000 ≤ v.lat ∧ v.lat ≤ 9000000 ∧ -18000000 ≤ v.lon ∧ v.lon ≤ 17999999 := by
  simp [vertexInRange, and_assoc]

theorem setPositionWork_inRange {body : List Byte} {s : State}
    (h : vertexInRange ⟨signedAt body 0, signedAt body 4⟩ = true) :
    setPositionWork body s = (trigger selectedByPosition (s.setArea { s.area with
      position := some ⟨signedAt body 0, signedAt body 4, fieldAt body 8 2, fieldAt body 10 2, s.now⟩ }), okWith []) := by
  simp [setPositionWork, readPosition, h]

theorem setPositionWork_outOfRange {body : List Byte} {s : State}
    (h : vertexInRange ⟨signedAt body 0, signedAt body 4⟩ ≠ true) :
    setPositionWork body s = (s, refusal .badValue) := by
  simp [setPositionWork, readPosition, h]

/-- SET_POSITION on an idle port is taken, worked and answered (R171, R173). -/
theorem exec_setPosition_framed (body : List Byte) (s : State) (h : s.portIdle) (hl : body.length = 12) :
    exec (.setPosition (framed body)) s =
      .next ((setPositionWork body (s.taken 12)).1.answered (setPositionWork body (s.taken 12)).2) := by
  show Host.Outcome.next _ = _
  rw [transact_framed 0x09 12 setPositionWork body s h hl (by decide)]

/-! ### The trigger -/

/-- The area block of an entry is that of its current content. -/
theorem areaBlock_eq_some {e : Entry} {a : AreaBlock} :
    e.areaBlock = some a ↔ ∃ c, e.current = some c ∧ c.desc.area = some a := by
  unfold Entry.areaBlock
  cases e.current <;> simp

/-- The position trigger selects what is held for AREA or NEAR and has a polygon (Table 30). -/
theorem selectedByPosition_iff (e : Entry) :
    selectedByPosition e = true ↔
      (e.hold = some .area ∨ e.hold = some .near) ∧ ∃ vs m, e.areaBlock = some (.polygon vs m) := by
  rw [selectedByPosition, Bool.and_eq_true, Bool.or_eq_true, decide_eq_true_eq, decide_eq_true_eq]
  refine and_congr_right fun _ => ?_
  split
  case h_1 vs m harea => simp [harea]
  case h_2 es harea => simp [harea]
  case h_3 harea => simp [harea]

/-- The handles a trigger chooses are of different slots. -/
theorem nodup_slots_slotsWhere (p : Entry → Bool) (s : State) :
    (((s.slotsWhere p).map s.handleOf).map (·.slot)).Nodup := by
  have hslot : (fun h : Handle => h.slot) ∘ s.handleOf = id := rfl
  rw [List.map_map, hslot, List.map_id]
  exact (List.nodup_finRange 48).filter _

/-- Any trigger: the chosen handles not yet listed join at the end, stale handles of their slots leave (R124, R125). -/
theorem trigger_eq (p : Entry → Bool) (s : State) {chosen : List Handle}
    (hc : chosen = (s.slotsWhere (fun e => decide (e.state = .held) && p e)).map s.handleOf) :
    trigger p s = s.setArea { s.area with
      redecide :=
        s.area.redecide.filter (fun g => chosen.all (fun h => decide (h.slot ≠ g.slot) || decide (h ∈ s.area.redecide))) ++
        chosen.filter (fun h => decide (h ∉ s.area.redecide)) } := by
  have hnodup : (chosen.map (·.slot)).Nodup := hc ▸ nodup_slots_slotsWhere _ s
  rw [← foldl_listHandle chosen hnodup, hc]
  rfl

/-- Settles O39, by the range of the coordinates, the trigger's criteria and the list after a trigger. -/
theorem setPositionReplacesRecord : Obligations.SetPositionReplacesRecord := by
  refine ⟨fun body s hidle hl => ⟨fun hin => ?inRange, fun hout => ?outOfRange⟩, fun e => ?selected,
    fun p s chosen hc => trigger_eq p s hc⟩
  case inRange =>
    rw [exec_setPosition_framed body s hidle hl, setPositionWork_inRange ((vertexInRange_iff _).mpr hin)]
    rfl
  case outOfRange =>
    rw [exec_setPosition_framed body s hidle hl, setPositionWork_outOfRange (mt (vertexInRange_iff _).mp hout)]
    rfl
  case selected =>
    rw [selectedByPosition_iff]
    simp only [areaBlock_eq_some]
    exact and_congr_right fun _ => ⟨fun ⟨vs, m, c, hc⟩ => ⟨c, vs, m, hc⟩, fun ⟨c, vs, m, hc⟩ => ⟨vs, m, c, hc⟩⟩

end Sys2Proof.Machine
end

section
/-! CLEAR-POSITION (R113), and the decision of a polygon without a position (R114, R115). -/

namespace Sys2Proof.Machine

/-- CLEAR_POSITION on an idle port is taken, worked and answered (R171, R173). -/
theorem exec_clearPosition_framed (s : State) (h : s.portIdle) :
    exec (.clearPosition (framed [])) s =
      .next ((clearPositionWork [] (s.taken 0)).1.answered (clearPositionWork [] (s.taken 0)).2) := by
  show Host.Outcome.next _ = _
  rw [transact_framed 0x0A 0 clearPositionWork [] s h rfl (by decide)]

/-- An absent position record is not usable (R114). -/
theorem usablePosition_none {s : State} (h : s.area.position = none) : s.usablePosition = none := by
  simp [State.usablePosition, h]

/-- A polygon is decided UNDECIDED while no position is usable, malformed or not (R115). -/
theorem areaDecision_polygon_unusable {s : State} (h : s.usablePosition = none) (region : Nat) (vs : List Vertex)
    (malformed : Bool) : s.areaDecision region (some (.polygon vs malformed)) = .undecided := by
  cases malformed with
  | true => rfl
  | false => simp [State.areaDecision, h]

/-- Settles O40: the command's work on the taken state, and the decision of a polygon without a usable position. -/
theorem clearPositionLeavesPolygonsUndecided : Obligations.ClearPositionLeavesPolygonsUndecided := by
  intro s hidle
  refine ⟨?cleared, fun habsent region vs malformed policy => ?undecided⟩
  case cleared =>
    rw [exec_clearPosition_framed s hidle]
    rfl
  case undecided =>
    rw [areaDecision_polygon_unusable (usablePosition_none habsent)]
    exact ⟨rfl, rfl⟩

end Sys2Proof.Machine
end

section
/-! ACKNOWLEDGE (R152): how a command names an entry by its handle, what an acknowledgement leaves before its receipt step
(R153), which id a new receipt record takes (R155), and what the receipt step makes of entry, queue and link (R154, R157). -/

namespace Sys2Proof.Machine

/-! ### A command on one entry (R173) -/

/-- The second byte of a two-byte body, as a field. -/
theorem fieldAt_pair_snd (b u : Byte) : fieldAt [b, u] 1 1 = u.toNat := by
  simp [fieldAt, bytesAt, valueOf]

theorem fieldAt_pair_fst (b u : Byte) : fieldAt [b, u] 0 1 = b.toNat := by
  simp [fieldAt, bytesAt, valueOf]

theorem readHandle_outOfRange {b : Byte} (u : Byte) (h : 48 ≤ b.toNat) : readHandle [b, u] = none := by
  rw [readHandle, dif_neg (by rw [fieldAt_pair_fst]; exact Nat.not_lt.mpr h)]

/-- A slot byte and a use-count byte read as the handle of that slot with that use count (R192). -/
theorem readHandle_slot (i : EntrySlot) (u : Byte) : readHandle [BitVec.ofNat 8 i.val, u] = some ⟨i, u⟩ := by
  have hi : fieldAt [BitVec.ofNat 8 i.val, u] 0 1 = i.val := by
    have hlt : i.val < 48 := i.isLt
    rw [fieldAt_pair_fst, BitVec.toNat_ofNat]
    omega
  simp only [readHandle, hi, fieldAt_pair_snd, i.isLt, dite_true, BitVec.ofNat_toNat, BitVec.setWidth_eq, Fin.eta]

theorem onHandle_outOfRange {body : List Byte} (s : State) (work : Handle → Entry → Answer) (h : readHandle body = none) :
    onHandle body s work = (s, refusal .badValue) := by
  simp only [onHandle, h]

theorem onHandle_stale {body : List Byte} {h : Handle} {s : State} (work : Handle → Entry → Answer)
    (hr : readHandle body = some h) (hn : s.named h = none) : onHandle body s work = (s, refusal .staleHandle) := by
  simp only [onHandle, hr, hn]

theorem onHandle_named {body : List Byte} {h : Handle} {s : State} {e : Entry} (work : Handle → Entry → Answer)
    (hr : readHandle body = some h) (hn : s.named h = some e) : onHandle body s work = work h e := by
  simp only [onHandle, hr, hn]

/-- A handle that names an entry is the present handle of its slot (R66). -/
theorem handleOf_named {h : Handle} {s : State} {e : Entry} (hn : s.named h = some e) : s.handleOf h.slot = h := by
  unfold State.named at hn
  split at hn
  case isTrue huse => rw [State.handleOf, huse]
  case isFalse => cases hn

/-- The present handle of an occupied slot names its entry (R66). -/
theorem named_handleOf {i : EntrySlot} {s : State} {e : Entry} (he : s.entryAt i = some e) :
    s.named (s.handleOf i) = some e := by
  simp [State.named, State.handleOf, he]

/-! ### The acknowledged entry, before its receipt step (R142, R153) -/

/-- The state in which the receipt step of an acknowledgement is made (R153 step 4). -/
def beforeReceipt (i : EntrySlot) (s : State) : State := dropRequest i (modEntry i (acknowledgeEntry s.now) s)

theorem takeAcknowledgement_eq (i : EntrySlot) (s : State) : takeAcknowledgement i s = receiptStep i (beforeReceipt i s) := rfl

theorem requestWork_beforeReceipt (i : EntrySlot) (s : State) : RequestWork s (beforeReceipt i s) :=
  (requestWork_modEntry _ _ _).trans (requestWork_dropRequest _ _)

theorem entryAt_beforeReceipt_same {i : EntrySlot} {s : State} {e : Entry} (he : s.entryAt i = some e) :
    (beforeReceipt i s).entryAt i = some (setRequest none (acknowledgeEntry s.now e)) := by
  rw [beforeReceipt, entryAt_dropRequest_same, State.entryAt_modEntry_same, he]
  rfl

theorem entryAt_beforeReceipt_other {i j : EntrySlot} (s : State) (hj : j ≠ i) :
    (beforeReceipt i s).entryAt j = s.entryAt j := by
  rw [beforeReceipt, entryAt_dropRequest_other i j _ hj, State.entryAt_modEntry, if_neg hj.symm]

/-- Whether an entry plays is seen from the arbiter and the handles, not from the entries. -/
theorem playsAt_modEntry (i j : EntrySlot) (f : Entry → Entry) (s : State) : (modEntry i f s).playsAt j = s.playsAt j := by
  simp only [State.playsAt, State.arb_modEntry, State.handleOf_modEntry]

theorem arb_beforeReceipt {i : EntrySlot} {s : State} (h : s.playsAt i = false) : (beforeReceipt i s).arb = s.arb := by
  rw [beforeReceipt, arb_dropRequest i _ (by rw [playsAt_modEntry, h]), State.arb_modEntry]

theorem selects_beforeReceipt {i : EntrySlot} {s : State} {e : Entry} (he : s.entryAt i = some e) (h : s.playsAt i = true) :
    s.selects (beforeReceipt i s) := by
  have hacked : (modEntry i (acknowledgeEntry s.now) s).entryAt i = some (acknowledgeEntry s.now e) := by
    rw [State.entryAt_modEntry_same, he, Option.map_some]
  exact State.selects_congr (selects_dropRequest i _ _ hacked (by rw [playsAt_modEntry, h])) (by rw [State.arb_modEntry])

/-- The receipt step leaves arbiter and directory, receipt states and changed flags apart. -/
theorem receiptWork_receiptStep (i : EntrySlot) (s : State) : ReceiptWork s (receiptStep i s) := by
  have hmark : ∀ (x : ReceiptState) (t : State),
      ReceiptWork t (modEntry i (fun e => { e with receipt := x, changed := true }) t) :=
    fun x t => receiptWork_modEntry i _ t fun _ => rfl
  unfold receiptStep
  split
  · exact ReceiptWork.refl s
  split
  · exact ReceiptWork.refl s
  split
  · split
    · exact (hmark _ s).trans (receiptWork_receiptFailed _)
    · exact ((receiptWork_setRcpt s _).trans (hmark _ _)).trans (receiptWork_offer _ _)
  · exact ReceiptWork.refl s

/-- What selection left is not touched by receipt work. -/
theorem State.selects_receiptWork {s u t : State} (h : s.selects u) (w : ReceiptWork u t) : s.selects t := by
  obtain ⟨hentries, huse, -, -⟩ := w.directory
  refine selects_of_same h w.arb huse fun j => .inl ?_
  have hj := congrArg (Option.map fun e => (e.request, e.cls)) (hentries j)
  rw [Option.map_map, Option.map_map] at hj
  exact hj

/-! ### The id of a new record (R155) -/

/-- Every id is among the 16 places after any last one. -/
theorem mem_idsAfter (last id : ReceiptId) : id ∈ idsAfter last := by
  refine List.mem_map.mpr ⟨(id.val + 15 - last.val) % 16, List.mem_range.mpr (Nat.mod_lt _ (by decide)), Fin.ext ?_⟩
  have hid : id.val < 16 := id.isLt
  have hlast : last.val < 16 := last.isLt
  show (last.val + 1 + (id.val + 15 - last.val) % 16) % 16 = id.val
  omega

/-- With fewer than 16 records an id is free. -/
theorem exists_nextId {s : State} (h : s.rcpt.queue.length < 16) : ∃ id, s.nextId = some id := by
  rw [← Option.ne_none_iff_exists']
  intro hnone
  have htaken : ∀ id : ReceiptId, id ∈ (s.rcpt.queue.map (·.id)).toFinset := fun id => by
    have hid := List.find?_eq_none.mp hnone id (mem_idsAfter _ id)
    simpa using hid
  have hcard : (16 : Nat) = ((s.rcpt.queue.map (·.id)).toFinset).card := by
    rw [Finset.eq_univ_iff_forall.mpr htaken, Finset.card_univ, Fintype.card_fin]
  have hle := List.toFinset_card_le (s.rcpt.queue.map (·.id))
  rw [List.length_map] at hle
  omega

/-- The next id belongs to no record. -/
theorem nextId_fresh {s : State} {id : ReceiptId} (h : s.nextId = some id) : ∀ y ∈ s.rcpt.queue, y.id ≠ id := by
  have hfree := List.find?_some h
  simpa using hfree

/-- The next id is the first place after the last given that no record has. -/
theorem nextId_first {s : State} {id : ReceiptId} (h : s.nextId = some id) :
    ∃ k < 16, id.val = (s.rcpt.lastId.val + 1 + k) % 16 ∧
      ∀ m < k, ∃ y ∈ s.rcpt.queue, y.id.val = (s.rcpt.lastId.val + 1 + m) % 16 := by
  rw [State.nextId, idsAfter, List.find?_map] at h
  obtain ⟨k, hk, rfl⟩ := Option.map_eq_some_iff.mp h
  obtain ⟨-, hmem, hbefore⟩ := List.find?_range_eq_some.mp hk
  refine ⟨k, List.mem_range.mp hmem, rfl, fun m hm => ?_⟩
  have htaken := hbefore m hm
  simp only [Function.comp, Bool.not_eq_true', List.all_eq_false, Bool.not_eq_false,
    decide_eq_true_eq] at htaken
  obtain ⟨y, hy, hid⟩ := htaken
  exact ⟨y, hy, congrArg Fin.val hid⟩

/-! ### The cases of the receipt step (R154) -/

/-- A receipt is asked for, allowed, and none is under way or failed. -/
def ReceiptDue (e : Entry) (c : Content) : Prop :=
  c.desc.receiptRequested = true ∧ c.rules.receiptsAllowed = true ∧ (e.receipt = .idle ∨ e.receipt = .sent)

theorem not_receiptDue {e : Entry} {c : Content} (h : c.desc.receiptRequested = false ∨ c.rules.receiptsAllowed = false ∨
    (e.receipt ≠ .idle ∧ e.receipt ≠ .sent)) : ¬ ReceiptDue e c := by
  rintro ⟨hreq, hall, hrec⟩
  rcases h with h | h | ⟨hidle, hsent⟩
  · rw [h] at hreq; cases hreq
  · rw [h] at hall; cases hall
  · exact hrec.elim hidle hsent

/-- A receipt state as a change of an entry (R164). -/
def markReceipt (x : ReceiptState) (e : Entry) : Entry := { e with receipt := x, changed := true }

/-- The state in which a new record has joined the queue and is still to be offered (R154). -/
def queueReceipt (i : EntrySlot) (e : Entry) (c : Content) (id : ReceiptId) (s : State) : State :=
  modEntry i (markReceipt .queued)
    (s.setRcpt { queue := s.rcpt.queue ++ [newRecord (s.handleOf i) e c id s.now], lastId := id })

theorem receiptStep_notDue {i : EntrySlot} {s : State} {e : Entry} (he : s.entryAt i = some e)
    (h : ∀ c, e.current = some c → ¬ ReceiptDue e c) : receiptStep i s = s := by
  simp only [receiptStep, he]
  split
  · rfl
  case h_2 c hc => exact if_neg (h c hc)

theorem receiptStep_full {i : EntrySlot} {s : State} {e : Entry} {c : Content} (he : s.entryAt i = some e)
    (hc : e.current = some c) (hd : ReceiptDue e c) (hq : 16 ≤ s.rcpt.queue.length) :
    receiptStep i s = receiptFailed (modEntry i (markReceipt (.failed .queueFull)) s) := by
  unfold ReceiptDue at hd
  simp only [receiptStep, he, hc, if_pos hd, if_neg (Nat.not_lt.mpr hq)]
  rfl

theorem receiptStep_room {i : EntrySlot} {s : State} {e : Entry} {c : Content} {id : ReceiptId} (he : s.entryAt i = some e)
    (hc : e.current = some c) (hd : ReceiptDue e c) (hq : s.rcpt.queue.length < 16) (hid : s.nextId = some id) :
    receiptStep i s = offer e.links.first (queueReceipt i e c id s) := by
  unfold ReceiptDue at hd
  simp only [receiptStep, he, hc, if_pos hd, if_pos hq, hid]
  rfl

/-! ### A new record in the queue, and the offer that follows (R154, R157) -/

section
variable (i : EntrySlot) (e : Entry) (c : Content) (id : ReceiptId) (s : State)

@[simp] theorem queue_queueReceipt :
    (queueReceipt i e c id s).rcpt.queue = s.rcpt.queue ++ [newRecord (s.handleOf i) e c id s.now] := by
  simp [queueReceipt]
@[simp] theorem lastId_queueReceipt : (queueReceipt i e c id s).rcpt.lastId = id := by simp [queueReceipt]
@[simp] theorem link_queueReceipt (l : LinkId) : (queueReceipt i e c id s).link l = s.link l := by simp [queueReceipt]
@[simp] theorem now_queueReceipt : (queueReceipt i e c id s).now = s.now := by simp [queueReceipt]
@[simp] theorem host_queueReceipt : (queueReceipt i e c id s).host = s.host := by simp [queueReceipt]

/-- The slot's handle names its entry with the receipt QUEUED. -/
theorem named_queueReceipt (he : s.entryAt i = some e) :
    (queueReceipt i e c id s).named (s.handleOf i) = some (markReceipt .queued e) := by
  have hh : s.handleOf i = (queueReceipt i e c id s).handleOf i := by
    rw [queueReceipt, State.handleOf_modEntry]
    rfl
  have hentry : (queueReceipt i e c id s).entryAt i = some (markReceipt .queued e) := by
    rw [queueReceipt, State.entryAt_modEntry_same]
    exact congrArg (Option.map (markReceipt .queued)) he
  rw [hh]
  exact named_handleOf hentry

/-- The new record is the oldest QUEUED one of its link exactly when there was none before. -/
theorem nextReceipt_queueReceipt :
    (queueReceipt i e c id s).nextReceipt e.links.first =
      (s.nextReceipt e.links.first).or (some (newRecord (s.handleOf i) e c id s.now)) := by
  simp [State.nextReceipt, newRecord]
end

/-- A link has no next record exactly when no QUEUED one targets it. -/
theorem nextReceipt_eq_none_iff {s : State} {l : LinkId} :
    s.nextReceipt l = none ↔ ∀ y ∈ s.rcpt.queue, y.target = l → y.state ≠ .queued := by
  simp [State.nextReceipt, List.find?_eq_none]

/-- The oldest QUEUED record of a link, by its place in the queue. -/
theorem nextReceipt_of_split {s : State} {l : LinkId} {a z : List ReceiptRecord} {y : ReceiptRecord}
    (hq : s.rcpt.queue = a ++ y :: z) (ht : y.target = l) (hy : y.state = .queued)
    (ha : ∀ w ∈ a, w.target = l → w.state ≠ .queued) : s.nextReceipt l = some y := by
  have hnone : a.find? (fun r => decide (r.target = l) && decide (r.state = .queued)) = none := by
    simpa [List.find?_eq_none] using ha
  rw [State.nextReceipt, hq, List.find?_append, hnone]
  simp [ht, hy]

theorem offer_blocked {l : LinkId} {s : State} (h : (s.link l).state ≠ .up ∨ (s.link l).outstanding ≠ none) :
    offer l s = s :=
  if_neg fun ⟨hup, hfree⟩ => h.elim (absurd hup) (absurd hfree)

theorem offer_next {l : LinkId} {s : State} {y : ReceiptRecord} (hup : (s.link l).state = .up)
    (hfree : (s.link l).outstanding = none) (hn : s.nextReceipt l = some y) : offer l s = makeOffer y s := by
  rw [offer, if_pos ⟨hup, hfree⟩, hn]

/-- An offer leaves the host port. -/
theorem host_offer (l : LinkId) (s : State) : (offer l s).host = s.host := by
  rcases offer_cases l s with ⟨h, -⟩ | ⟨y, -, -, -, h⟩
  · rw [h]
  · rw [h, host_makeOffer]

theorem lastId_offer (l : LinkId) (s : State) : (offer l s).rcpt.lastId = s.rcpt.lastId := by
  rcases offer_cases l s with ⟨h, -⟩ | ⟨y, -, -, -, h⟩
  · rw [h]
  · rw [h, lastId_makeOffer]

/-- Where ids differ, the change of the record with an id changes one place of the queue. -/
theorem map_atId {a z : List ReceiptRecord} {y : ReceiptRecord} (f : ReceiptRecord → ReceiptRecord)
    (hn : ((a ++ y :: z).map (·.id)).Nodup) :
    (a ++ y :: z).map (fun x => if x.id = y.id then f x else x) = a ++ f y :: z := by
  have hkeep : ∀ q : List ReceiptRecord, (∀ x ∈ q, x.id ≠ y.id) →
      q.map (fun x => if x.id = y.id then f x else x) = q := fun q hq =>
    (List.map_congr_left fun x hx => if_neg (hq x hx)).trans (List.map_id' q)
  rw [List.map_append, List.map_cons, List.nodup_append, List.nodup_cons] at hn
  obtain ⟨-, ⟨hz, -⟩, ha⟩ := hn
  rw [List.map_append, List.map_cons, if_pos rfl, hkeep a fun x hx => ?before, hkeep z fun x hx => ?after]
  case before => exact ha x.id (List.mem_map_of_mem hx) y.id List.mem_cons_self
  case after => exact fun h => hz (List.mem_map.mpr ⟨x, hx, h⟩)

/-! ### What the receipt step leaves (R154, R155, R157) -/

/-- A new record of a link is offered at once: the link is in UP, waits for no result, and no older record waits for it. -/
def State.offersAtOnce (s : State) (l : LinkId) : Prop :=
  (s.link l).state = .up ∧ (s.link l).outstanding = none ∧ ∀ y ∈ s.rcpt.queue, y.target = l → y.state ≠ .queued

/-- What an OFFERED record is (Table 38). -/
def asOffered (now : Nat) (r : ReceiptRecord) : ReceiptRecord := { r with state := .offered, deadline := some (now + 30000) }

/-- The queue and the links after the new record `n` has joined and an offer followed: only the oldest QUEUED record of its
link may be offered. -/
structure QueueJoined (n : ReceiptRecord) (s t : State) : Prop where
  ids : t.rcpt.queue.map (·.id) = s.rcpt.queue.map (·.id) ++ [n.id]
  blocked : (s.link n.target).state ≠ .up ∨ (s.link n.target).outstanding ≠ none →
    t.rcpt.queue = s.rcpt.queue ++ [n] ∧ ∀ l, t.link l = s.link l
  next : (s.link n.target).state = .up → (s.link n.target).outstanding = none → (s.rcpt.queue.map (·.id)).Nodup →
    ∀ a y z, s.rcpt.queue ++ [n] = a ++ y :: z → y.target = n.target → y.state = .queued →
    (∀ w ∈ a, w.target = n.target → w.state ≠ .queued) →
    t.rcpt.queue = a ++ asOffered s.now y :: z ∧
    t.link n.target = { s.link n.target with
      outstanding := some y.id
      outQ := pushFrame (s.link n.target).outQ (.receipt y.id y.key y.revision y.delay) } ∧
    t.link n.target.other = s.link n.target.other

/-- The new record `n` in the queue of `t`, there as `r`, and the receipt state `x` of its entry. -/
structure RecordJoined (n r : ReceiptRecord) (s t : State) (x : ReceiptState) : Prop where
  mem : r ∈ t.rcpt.queue
  asMade : { r with state := .queued, deadline := none } = n
  moved : x = .queued ∨ x = .offered
  queued : x = .queued → r.state = .queued ∧ r.deadline = none
  atOnce : (∀ y ∈ s.rcpt.queue, y.handle ≠ n.handle) → (x = .offered ↔ s.offersAtOnce n.target)
  offered : x = .offered → (∀ y ∈ s.rcpt.queue, y.handle ≠ n.handle) →
    r.state = .offered ∧ r.deadline = some (s.now + 30000) ∧ (t.link n.target).outstanding = some r.id ∧
    OutFrame.receipt r.id r.key r.revision r.delay ∈ (t.link n.target).outQ

/-- What a receipt step leaves of the slot's entry `e`, `x` its receipt state then. -/
structure ReceiptMade (i : EntrySlot) (e : Entry) (s t : State) (x : ReceiptState) : Prop where
  entry : t.entryAt i = some { e with receipt := x, changed := true }
  notDue : ∀ c, e.current = some c → ¬ ReceiptDue e c →
    x = e.receipt ∧ t.rcpt = s.rcpt ∧ t.host = s.host ∧ ∀ l, t.link l = s.link l
  full : ∀ c, e.current = some c → ReceiptDue e c → 16 ≤ s.rcpt.queue.length →
    x = .failed .queueFull ∧ t.rcpt = s.rcpt ∧ EventSet.holds t.host.events .receiptDone = true ∧
    t.host.cntG.receiptsFailed = min (s.host.cntG.receiptsFailed + 1) 65535 ∧ ∀ l, t.link l = s.link l
  room : ∀ c, e.current = some c → ReceiptDue e c → s.rcpt.queue.length < 16 →
    t.host = s.host ∧ ∃ id r, s.nextId = some id ∧ t.rcpt.lastId = id ∧
      QueueJoined (newRecord (s.handleOf i) e c id s.now) s t ∧
      RecordJoined (newRecord (s.handleOf i) e c id s.now) r s t x

/-- A RECEIPT frame that joins a queue is in it (R39). -/
theorem mem_pushReceipt (q : List OutFrame) {f : OutFrame} (hf : f.isReceipt = true) (hs : f.isSubscribe = false) :
    f ∈ pushFrame q f := by
  simp [pushFrame, hf, hs]

section
variable {i : EntrySlot} {e : Entry} {c : Content} {id : ReceiptId} {s : State}

/-- The offer after a new record has joined, in the queue and on the links. -/
theorem queueJoined_offer (hid : ∀ y ∈ s.rcpt.queue, y.id ≠ id) :
    QueueJoined (newRecord (s.handleOf i) e c id s.now) s (offer e.links.first (queueReceipt i e c id s)) where
  ids := by
    rw [ids_offer, queue_queueReceipt, List.map_append]
    rfl
  blocked h := by
    rw [offer_blocked (by rw [link_queueReceipt]; exact h)]
    exact ⟨queue_queueReceipt .., link_queueReceipt i e c id s⟩
  next hup hfree hn a y z hsplit ht hy ha := by
    have hq : (queueReceipt i e c id s).rcpt.queue = a ++ y :: z := (queue_queueReceipt ..).trans hsplit
    have hids : ((a ++ y :: z).map (·.id)).Nodup := by
      rw [← hsplit, List.map_append]
      exact List.Nodup.append hn (List.nodup_singleton _) (by simpa [newRecord] using hid)
    have hoffer : offer e.links.first (queueReceipt i e c id s) = makeOffer y (queueReceipt i e c id s) :=
      offer_next (by rw [link_queueReceipt]; exact hup) (by rw [link_queueReceipt]; exact hfree)
        (nextReceipt_of_split hq ht hy ha)
    rw [hoffer, queue_makeOffer, hq, now_queueReceipt, link_makeOffer, link_makeOffer, link_queueReceipt, link_queueReceipt,
      if_pos ht.symm, if_neg (fun h => LinkId.other_ne _ (h.trans ht))]
    exact ⟨map_atId (asOffered s.now) hids, rfl, rfl⟩

/-- No offer is made: the new record stays QUEUED. -/
theorem recordJoined_blocked
    (h : (s.link e.links.first).state ≠ .up ∨ (s.link e.links.first).outstanding ≠ none) :
    RecordJoined (newRecord (s.handleOf i) e c id s.now) (newRecord (s.handleOf i) e c id s.now) s
      (queueReceipt i e c id s) .queued where
  mem := by simp
  asMade := rfl
  moved := .inl rfl
  queued _ := ⟨rfl, rfl⟩
  atOnce _ := ⟨nofun, fun ⟨hup, hfree, _⟩ => h.elim (absurd hup) (absurd hfree)⟩
  offered := nofun

/-- The new record is the link's oldest QUEUED one: it is offered. -/
theorem recordJoined_first (hs : s.offersAtOnce e.links.first) :
    RecordJoined (newRecord (s.handleOf i) e c id s.now) (asOffered s.now (newRecord (s.handleOf i) e c id s.now)) s
      (makeOffer (newRecord (s.handleOf i) e c id s.now) (queueReceipt i e c id s)) .offered where
  mem := by
    rw [queue_makeOffer, queue_queueReceipt, now_queueReceipt]
    exact List.mem_map.mpr ⟨_, List.mem_append_right _ (List.mem_singleton_self _), if_pos rfl⟩
  asMade := rfl
  moved := .inr rfl
  queued := nofun
  atOnce _ := ⟨fun _ => hs, fun _ => rfl⟩
  offered _ _ := by
    rw [link_makeOffer, if_pos rfl]
    exact ⟨rfl, rfl, rfl, mem_pushReceipt _ rfl rfl⟩

/-- An older record is offered: the new one stays QUEUED, while the entry's receipt state is that of the record offered
where that is the entry's own. -/
theorem recordJoined_older {y : ReceiptRecord} (hy : s.nextReceipt e.links.first = some y) (hid : y.id ≠ id) :
    RecordJoined (newRecord (s.handleOf i) e c id s.now) (newRecord (s.handleOf i) e c id s.now) s
      (makeOffer y (queueReceipt i e c id s)) (if y.handle = s.handleOf i then .offered else .queued) where
  mem := (mem_makeOffer hid.symm).mpr (by simp)
  asMade := rfl
  moved := by split <;> simp
  queued _ := ⟨rfl, rfl⟩
  atOnce hno := by
    have hnot : ¬ s.offersAtOnce e.links.first := fun ⟨_, _, hnone⟩ => by
      rw [nextReceipt_eq_none_iff.mpr hnone] at hy
      cases hy
    have hother : y.handle ≠ s.handleOf i := hno y (nextReceipt_mem hy)
    rw [if_neg hother]
    exact ⟨nofun, fun h => absurd h hnot⟩
  offered hx hno := by
    have hother : y.handle ≠ s.handleOf i := hno y (nextReceipt_mem hy)
    rw [if_neg hother] at hx
    cases hx

/-- The entry after the offer of a record: OFFERED when the record is its own. -/
theorem entryAt_makeOffer_queueReceipt (y : ReceiptRecord) (he : s.entryAt i = some e) :
    (makeOffer y (queueReceipt i e c id s)).entryAt i =
      some (markReceipt (if y.handle = s.handleOf i then .offered else .queued) e) := by
  have hnamed := named_queueReceipt i e c id s he
  by_cases hy : y.handle = s.handleOf i
  case pos =>
    rw [if_pos hy]
    have h := offered_named (r := y) (hy ▸ hnamed)
    rw [hy] at h
    exact named_entryAt h
  case neg =>
    rw [if_neg hy]
    exact named_entryAt (receipt_makeOffer hnamed hy)

/-- The offer after a new record has joined, as the record and its entry show it. -/
theorem recordJoined_offer (he : s.entryAt i = some e) (hid : ∀ y ∈ s.rcpt.queue, y.id ≠ id) :
    ∃ r x, (offer e.links.first (queueReceipt i e c id s)).entryAt i = some (markReceipt x e) ∧
      RecordJoined (newRecord (s.handleOf i) e c id s.now) r s (offer e.links.first (queueReceipt i e c id s)) x := by
  by_cases hb : (s.link e.links.first).state ≠ .up ∨ (s.link e.links.first).outstanding ≠ none
  case pos =>
    rw [offer_blocked (by rw [link_queueReceipt]; exact hb)]
    exact ⟨_, _, named_entryAt (named_queueReceipt i e c id s he), recordJoined_blocked hb⟩
  case neg =>
    obtain ⟨hup, hfree⟩ := not_or.mp hb
    rw [not_not] at hup hfree
    have hnext := nextReceipt_queueReceipt i e c id s
    have hoffer := fun y => offer_next (y := y) (s := queueReceipt i e c id s) (by rw [link_queueReceipt]; exact hup)
      (by rw [link_queueReceipt]; exact hfree)
    cases hy : s.nextReceipt e.links.first with
    | none =>
      rw [hy, Option.none_or] at hnext
      rw [hoffer _ hnext]
      exact ⟨_, .offered, (entryAt_makeOffer_queueReceipt _ he).trans (by rw [if_pos (by rfl)]),
        recordJoined_first ⟨hup, hfree, nextReceipt_eq_none_iff.mp hy⟩⟩
    | some y =>
      rw [hy, Option.some_or] at hnext
      rw [hoffer _ hnext]
      exact ⟨_, _, entryAt_makeOffer_queueReceipt y he, recordJoined_older hy (hid y (nextReceipt_mem hy))⟩
end

/-- The receipt step on an entry that is marked changed. -/
theorem receiptMade_receiptStep {i : EntrySlot} {e : Entry} {s : State} (he : s.entryAt i = some e) (hch : e.changed = true) :
    ∃ x, ReceiptMade i e s (receiptStep i s) x := by
  by_cases hdue : ∃ c, e.current = some c ∧ ReceiptDue e c
  case neg =>
    have hnot : ∀ c, e.current = some c → ¬ ReceiptDue e c := fun c hc hd => hdue ⟨c, hc, hd⟩
    rw [receiptStep_notDue he hnot]
    exact ⟨e.receipt, {
      entry := by rw [he, ← hch]
      notDue := fun _ _ _ => ⟨rfl, rfl, rfl, fun _ => rfl⟩
      full := fun c hc hd => absurd hd (hnot c hc)
      room := fun c hc hd => absurd hd (hnot c hc) }⟩
  case pos =>
    obtain ⟨c, hc, hd⟩ := hdue
    have hsame : ∀ c', e.current = some c' → c' = c := fun c' hc' => Option.some.inj (hc'.symm.trans hc)
    by_cases hq : 16 ≤ s.rcpt.queue.length
    case pos =>
      rw [receiptStep_full he hc hd hq]
      exact ⟨.failed .queueFull, {
        entry := by
          show (modEntry i (markReceipt (.failed .queueFull)) s).entryAt i = _
          rw [State.entryAt_modEntry_same, he]
          rfl
        notDue := fun c' hc' hno => absurd (hsame c' hc' ▸ hd) hno
        full := fun _ _ _ _ => by
          refine ⟨rfl, State.rcpt_modEntry .., holds_post _ _, ?_, State.link_modEntry _ _ _⟩
          show bump (modEntry i _ s).host.cntG.receiptsFailed = _
          rw [State.host_modEntry]
          rfl
        room := fun _ _ _ hlt => absurd hq (Nat.not_le.mpr hlt) }⟩
    case neg =>
      obtain ⟨id, hid⟩ := exists_nextId (Nat.not_le.mp hq)
      obtain ⟨r, x, hentry, hjoined⟩ := recordJoined_offer (c := c) he (nextId_fresh hid)
      rw [receiptStep_room he hc hd (Nat.not_le.mp hq) hid]
      exact ⟨x, {
        entry := hentry
        notDue := fun c' hc' hno => absurd (hsame c' hc' ▸ hd) hno
        full := fun _ _ _ hle => absurd hle hq
        room := fun c' hc' _ _ => by
          obtain rfl := hsame c' hc'
          exact ⟨by rw [host_offer, host_queueReceipt], id, r, hid, by rw [lastId_offer, lastId_queueReceipt],
            queueJoined_offer (nextId_fresh hid), hjoined⟩ }⟩

/-- What a receipt step is measured by, queue, links, host port, clock and handles, stands from before the entry's and the
arbiter's work. -/
theorem ReceiptMade.of_requestWork {i : EntrySlot} {e : Entry} {s u t : State} {x : ReceiptState} (w : RequestWork s u)
    (h : ReceiptMade i e u t x) : ReceiptMade i e s t x := by
  rw [w] at h
  refine ⟨h.entry, h.notDue, h.full, fun c hc hd hq => ?_⟩
  obtain ⟨hhost, id, r, hid, hlast, hqueue, hrecord⟩ := h.room c hc hd hq
  exact ⟨hhost, id, r, hid, hlast, ⟨hqueue.ids, hqueue.blocked, hqueue.next⟩,
    ⟨hrecord.mem, hrecord.asMade, hrecord.moved, hrecord.queued, hrecord.atOnce, hrecord.offered⟩⟩

/-! ### The command -/

/-- ACKNOWLEDGE on an idle port is taken, worked and answered (R171, R173). -/
theorem exec_acknowledge_framed (b u : Byte) (s : State) (h : s.portIdle) :
    exec (.acknowledge (framed [b, u])) s =
      .next ((acknowledgeWork [b, u] (s.taken 2)).1.answered (acknowledgeWork [b, u] (s.taken 2)).2) := by
  show Host.Outcome.next _ = _
  rw [transact_framed 0x07 2 acknowledgeWork [b, u] s h rfl (by decide)]

/-- The answer to an acknowledgement that was taken (R152, R193). -/
theorem acknowledgeWork_taken {body : List Byte} {h : Handle} {s : State} {e : Entry} (hr : readHandle body = some h)
    (hn : s.named h = some e) (hst : e.state = .active ∨ e.state = .held) :
    acknowledgeWork body s = (takeAcknowledgement h.slot s,
      ⟨.ok, [0#8, ((takeAcknowledgement h.slot s).receiptOf h.slot).code]⟩) := by
  rw [acknowledgeWork, onHandle_named _ hr hn]
  rcases hst with hst | hst <;> simp only [hst] <;> rfl

theorem acknowledgeWork_already {body : List Byte} {h : Handle} {s : State} {e : Entry} (hr : readHandle body = some h)
    (hn : s.named h = some e) (hst : e.state = .acknowledged) :
    acknowledgeWork body s = (s, ⟨.ok, [1#8, e.receipt.code]⟩) := by
  rw [acknowledgeWork, onHandle_named _ hr hn]
  simp only [hst]
  rfl

theorem acknowledgeWork_wrongState {body : List Byte} {h : Handle} {s : State} {e : Entry} (hr : readHandle body = some h)
    (hn : s.named h = some e) (hst : e.state = .assembling ∨ e.state = .cancelled) :
    acknowledgeWork body s = (s, refusal .wrongState) := by
  rw [acknowledgeWork, onHandle_named _ hr hn]
  rcases hst with hst | hst <;> simp only [hst]

/-- The receipt step of an acknowledgement, from the state in which the command works. -/
theorem receiptMade_takeAcknowledgement {i : EntrySlot} {s : State} {e : Entry} (he : s.entryAt i = some e) :
    ∃ x, ReceiptMade i (setRequest none (acknowledgeEntry s.now e)) s (takeAcknowledgement i s) x := by
  obtain ⟨x, hx⟩ := receiptMade_receiptStep (entryAt_beforeReceipt_same he) rfl
  rw [takeAcknowledgement_eq]
  exact ⟨x, hx.of_requestWork (requestWork_beforeReceipt i s)⟩

/-- An acknowledgement touches of other entries at most receipt states and changed flags. -/
theorem othersKept_takeAcknowledgement (i : EntrySlot) (s : State) : othersKept i s (takeAcknowledgement i s) :=
  fun j hj => by
    rw [takeAcknowledgement_eq, ← entryAt_beforeReceipt_other s hj]
    exact (receiptWork_receiptStep i (beforeReceipt i s)).directory.1 j

/-- Settles O48: the checks on handle and state, then the acknowledged entry, the arbiter, and the receipt step by whether
a receipt is due and the queue has room. -/
theorem acknowledgeByState : Obligations.AcknowledgeByState := by
  intro b u s hidle
  rw [exec_acknowledge_framed b u s hidle]
  refine ⟨fun hb => ?badValue, fun i hb => ?handle⟩
  case badValue =>
    rw [acknowledgeWork, onHandle_outOfRange _ _ (readHandle_outOfRange u hb)]
    rfl
  subst hb
  have hr := readHandle_slot i u
  refine ⟨fun hn => ?stale, fun e hn => ?_⟩
  case stale =>
    rw [acknowledgeWork, onHandle_stale _ hr (s := s.taken 2) hn]
    rfl
  have hnt : (s.taken 2).named ⟨i, u⟩ = some e := hn
  refine ⟨fun hst => ?wrongState, fun hst => ?already, fun hst => ?taken⟩
  case wrongState =>
    rw [acknowledgeWork_wrongState hr hnt hst]
    rfl
  case already => rw [acknowledgeWork_already hr hnt hst]
  case taken =>
    have he : (s.taken 2).entryAt i = some e := named_entryAt hnt
    have hreceipt := receiptWork_receiptStep i (beforeReceipt i (s.taken 2))
    obtain ⟨x, made⟩ := receiptMade_takeAcknowledgement he
    refine ⟨takeAcknowledgement i (s.taken 2), x, ?answer, made.entry, othersKept_takeAcknowledgement i _,
      work_takeAcknowledgement i _, fun hp => ?waiting, fun hp => ?playing, fun c hc => ⟨fun hno => ?notDue,
      fun hreq hall hrec => ⟨fun hfull => ?full, fun hroom => ?room⟩⟩⟩
    case answer => rw [acknowledgeWork_taken hr hnt hst, State.receiptOf, made.entry]
    case waiting => exact hreceipt.arb.trans (arb_beforeReceipt (s := s.taken 2) hp)
    case playing => exact State.selects_congr (State.selects_receiptWork (selects_beforeReceipt he hp) hreceipt) rfl
    case notDue => exact made.notDue c hc (not_receiptDue hno)
    case full => exact made.full c hc ⟨hreq, hall, hrec⟩ hfull
    case room =>
      obtain ⟨hhost, id, r, hid, hlast, hqueue, hrecord⟩ := made.room c hc ⟨hreq, hall, hrec⟩ hroom
      rw [handleOf_named hnt] at hqueue hrecord
      have hrid : r.id = id := congrArg ReceiptRecord.id hrecord.asMade
      refine ⟨hrecord.moved, hhost, hrecord.atOnce, r, hrecord.mem, hrecord.offered, hlast.trans hrid.symm,
        congrArg ReceiptRecord.handle hrecord.asMade, congrArg ReceiptRecord.key hrecord.asMade,
        congrArg ReceiptRecord.revision hrecord.asMade, congrArg ReceiptRecord.delay hrecord.asMade,
        congrArg ReceiptRecord.target hrecord.asMade, congrArg ReceiptRecord.attempts hrecord.asMade, ?fresh, ?ids, ?first,
        hrecord.queued, ?queue⟩
      case fresh => exact hrid ▸ nextId_fresh hid
      case ids => exact hrid ▸ hqueue.ids
      case first => exact hrid ▸ nextId_first hid
      case queue =>
        rintro n rfl
        rw [hrecord.asMade]
        exact ⟨hqueue.blocked, hqueue.next⟩

end Sys2Proof.Machine
end

section
/-! LIST (R174): which selector a byte names, the body that lists slots by a condition, and what the command does on
an idle port. -/

namespace Sys2Proof.Machine

/-! ### The selector (Table 50) -/

theorem readSelector_all : readSelector [1#8] = some false := rfl

theorem readSelector_changed : readSelector [2#8] = some true := rfl

/-- A byte that is neither ALL nor CHANGED is no selector. -/
theorem readSelector_none {b : Byte} (h1 : b ≠ 1#8) (h2 : b ≠ 2#8) : readSelector [b] = none := by
  rw [Ne, BitVec.toNat_eq] at h1 h2
  rw [readSelector, fieldAt_singleton]
  split
  case h_1 h => exact absurd h h1
  case h_2 h => exact absurd h h2
  case h_3 => rfl

/-! ### The work of the command -/

theorem listWork_all {body : List Byte} {s : State} (h : readSelector body = some false) :
    listWork body s = (s, okWith (handleList s (s.slotsWhere (fun _ => true)))) := by
  simp only [listWork, h]

theorem listWork_changed {body : List Byte} {s : State} (h : readSelector body = some true) :
    listWork body s = (clearChanged s, okWith (handleList s (s.slotsWhere (·.changed)))) := by
  simp only [listWork, h]

theorem listWork_noSelector {body : List Byte} {s : State} (h : readSelector body = none) :
    listWork body s = (s, refusal .badValue) := by
  simp only [listWork, h]

/-- The body of LIST for the slots that meet a condition: how many they are, then slot and use count of each in slot
order (R174, R193). -/
theorem handleList_slotsWhere (p : Entry → Bool) (s : State) :
    handleList s (s.slotsWhere p) =
      BitVec.ofNat 8 ((List.finRange 48).countP (fun i => (s.entryAt i).any p)) ::
        ((List.finRange 48).filter (fun i => (s.entryAt i).any p)).flatMap
          (fun i => [BitVec.ofNat 8 i.val, s.dir.useCounts[i]]) := by
  rw [List.countP_eq_length_filter]
  rfl

/-- A slot holds an entry of any kind exactly when it is occupied. -/
theorem any_true_eq_isSome (o : Option Entry) : o.any (fun _ => true) = o.isSome := by cases o <;> rfl

/-- LIST on an idle port is taken, worked and answered (R171, R173). -/
theorem exec_list_framed (b : Byte) (s : State) (h : s.portIdle) :
    exec (.list (framed [b])) s =
      .next ((listWork [b] (s.taken 1)).1.answered (listWork [b] (s.taken 1)).2) :=
  congrArg Host.Outcome.next (transact_framed 0x04 1 listWork [b] s h rfl (by decide))

/-- Settles O52, by the three readings of the selector. -/
theorem listNamesLiveEntries : Obligations.ListNamesLiveEntries := by
  intro s hidle
  refine ⟨?all, ⟨clearChanged (s.taken 1), ?changed, entryAt_clearChanged (s.taken 1), rfl⟩, fun b h1 h2 => ?badValue⟩
  case all =>
    rw [exec_list_framed _ s hidle, listWork_all readSelector_all, handleList_slotsWhere]
    simp only [any_true_eq_isSome]
    rfl
  case changed =>
    rw [exec_list_framed _ s hidle, listWork_changed readSelector_changed, handleList_slotsWhere]
    rfl
  case badValue =>
    rw [exec_list_framed _ s hidle, listWork_noSelector (readSelector_none h1 h2)]
    rfl

end Sys2Proof.Machine
end

section
/-! READ-ENTRY and READ-TEXT (R175, R176): the width of an entry's record, and what the two commands answer by handle, part
and state. -/

namespace Sys2Proof.Machine

/-! ### The width of an entry's record (R193) -/

theorem length_handleBytes (h : Handle) : (handleBytes h).length = 2 := rfl

theorem length_linksBytes (x : LinksSeen) : (linksBytes x).length = 2 := rfl

theorem length_keyBytes (k : Key) : (keyBytes k).length = 11 := by
  simp [keyBytes, length_bytesOf]

theorem length_timeBytes (t : Nat) : (timeBytes t).length = 6 := length_bytesOf 6 t

theorem length_optTimeBytes (t : Option Nat) : (optTimeBytes t).length = 7 := by
  cases t <;> simp [optTimeBytes, length_timeBytes]

theorem length_contentBytes (c : Option Content) : (contentBytes c).length = 22 := by
  cases c <;> simp [contentBytes, length_bytesOf, length_timeBytes]

theorem length_incomingBytes (r : Option Incoming) : (incomingBytes r).length = 10 := by
  cases r <;> simp [incomingBytes, length_timeBytes]

theorem length_cancelBytes (c : Option CancelMark) : (cancelBytes c).length = 4 := by
  cases c <;> simp [cancelBytes, length_bytesOf]

theorem length_areaResultBytes (a : Option AreaResult) : (areaResultBytes a).length = 3 := by
  cases a <;> rfl

theorem length_requestBytes (r : Option Request) : (requestBytes r).length = 7 := by
  cases r <;> simp [requestBytes, length_bytesOf]

/-- Zeros fill a run of bytes that fits up to the width. -/
theorem length_padTo {width : Nat} {b : List Byte} (h : b.length ≤ width) : (padTo width b).length = width := by
  rw [padTo, List.length_append, List.length_replicate]
  omega

/-- Whatever the form of an area block, each of its places is 8 bytes wide. -/
theorem length_of_mem_areaPlaces {a : Option AreaBlock} {place : List Byte} (h : place ∈ areaPlaces a) :
    place.length = 8 := by
  match a with
  | none => cases h
  | some (.cells es) =>
    obtain ⟨x, -, rfl⟩ := List.mem_map.mp h
    exact length_padTo (by simp [length_bytesOf])
  | some (.polygon vs m) =>
    obtain ⟨v, -, rfl⟩ := List.mem_map.mp h
    simp [bytesOfSigned, length_bytesOf]

/-- Sixteen places, used or not, after the three bytes that lead the area block. -/
theorem length_areaBlockBytes {a : Option AreaBlock} (h : (areaPlaces a).length ≤ 16) :
    (areaBlockBytes a).length = 131 := by
  have hplaces : (areaPlaces a).flatten.length = (areaPlaces a).length * 8 := by
    rw [List.length_flatten, List.map_congr_left fun _ => length_of_mem_areaPlaces, List.map_const', List.sum_replicate]
    rfl
  refine length_padTo ?_
  simp only [List.length_cons, hplaces]
  omega

/-- The record of READ-ENTRY has 242 bytes (R175). -/
theorem length_entryBytes (h : Handle) (now : Nat) {e : Entry}
    (ha : (areaPlaces (e.current.bind (·.desc.area))).length ≤ 16) : (entryBytes h now e).length = 242 := by
  unfold entryBytes
  simp only [List.length_append, List.length_cons, List.length_nil, length_handleBytes, length_keyBytes,
    length_timeBytes, length_optTimeBytes, length_contentBytes, length_areaBlockBytes ha, length_incomingBytes,
    length_cancelBytes, length_areaResultBytes, length_linksBytes, length_requestBytes]

/-! ### Which bytes name a slot and a part (R173) -/

/-- The handle of READ-TEXT stands where that of READ-ENTRY does (R192). -/
theorem readHandle_partByte (b u k : Byte) : readHandle [b, u, k] = readHandle [b, u] := rfl

/-- The part byte of READ-TEXT, as a field. -/
theorem fieldAt_partByte (b u k : Byte) : fieldAt [b, u, k] 2 1 = k.toNat := by
  simp [fieldAt, bytesAt, valueOf]

/-- The parts that READ-TEXT can name (R176). -/
def PartInRange (k : Byte) : Prop := 1 ≤ k.toNat ∧ k.toNat ≤ 8

theorem PartInRange.not_refused {k : Byte} (hk : PartInRange k) : ¬ (k.toNat = 0 ∨ 8 < k.toNat) := by
  obtain ⟨h1, h8⟩ := hk
  omega

theorem not_partInRange {k : Byte} (h : k = 0#8 ∨ 8 < k.toNat) : ¬ PartInRange k := by
  rintro ⟨h1, h8⟩
  rcases h with rfl | h
  · exact absurd h1 (by decide)
  · omega

/-! ### The work of READ-TEXT (R176) -/

section
variable {b u k : Byte} {h : Handle} {s : State} {e : Entry} {c : Content}

/-- The range check on the part comes with that on the slot (R173 check 3). -/
theorem readTextWork_partOutOfRange (hk : ¬ PartInRange k) : readTextWork [b, u, k] s = (s, refusal .badValue) := by
  unfold PartInRange at hk
  simp only [readTextWork, fieldAt_partByte]
  rw [if_pos (by omega)]

theorem readTextWork_slotOutOfRange (hb : 48 ≤ b.toNat) : readTextWork [b, u, k] s = (s, refusal .badValue) := by
  simp only [readTextWork, onHandle_outOfRange _ _ ((readHandle_partByte b u k).trans (readHandle_outOfRange u hb)),
    ite_self]

theorem readTextWork_stale (hk : PartInRange k) (hr : readHandle [b, u] = some h) (hn : s.named h = none) :
    readTextWork [b, u, k] s = (s, refusal .staleHandle) := by
  simp only [readTextWork, fieldAt_partByte]
  rw [if_neg hk.not_refused, onHandle_stale _ ((readHandle_partByte b u k).trans hr) hn]

theorem readTextWork_noContent (hk : PartInRange k) (hr : readHandle [b, u] = some h) (hn : s.named h = some e)
    (hc : e.current = none) : readTextWork [b, u, k] s = (s, refusal .wrongState) := by
  simp only [readTextWork, fieldAt_partByte]
  rw [if_neg hk.not_refused, onHandle_named _ ((readHandle_partByte b u k).trans hr) hn]
  simp only [hc]

/-- The answer on an entry with content, by its part count. -/
theorem readTextWork_content (hk : PartInRange k) (hr : readHandle [b, u] = some h) (hn : s.named h = some e)
    (hc : e.current = some c) :
    readTextWork [b, u, k] s = if c.partCount < k.toNat then (s, refusal .badValue)
      else (s, okWith (textBytes c k.toNat ((s.textOf h.slot k.toNat).getD []))) := by
  simp only [readTextWork, fieldAt_partByte]
  rw [if_neg hk.not_refused, onHandle_named _ ((readHandle_partByte b u k).trans hr) hn]
  simp only [hc]

/-- The body of READ-TEXT: revision, part, text length, text (R193). -/
theorem textBytes_eq (x : List Byte) :
    textBytes c k.toNat x = [BitVec.ofNat 8 c.revision.toNat, k, BitVec.ofNat 8 x.length] ++ x := by
  rw [textBytes, byteOf, ofNat_toNat_byte]
  rfl

end

/-! ### The commands on an idle port (R171, R173) -/

theorem exec_readEntry_framed (b u : Byte) (s : State) (h : s.portIdle) :
    exec (.readEntry (framed [b, u])) s =
      .next ((readEntryWork [b, u] (s.taken 2)).1.answered (readEntryWork [b, u] (s.taken 2)).2) :=
  congrArg Host.Outcome.next (transact_framed 0x05 2 readEntryWork [b, u] s h rfl (by decide))

theorem exec_readText_framed (b u k : Byte) (s : State) (h : s.portIdle) :
    exec (.readText (framed [b, u, k])) s =
      .next ((readTextWork [b, u, k] (s.taken 3)).1.answered (readTextWork [b, u, k] (s.taken 3)).2) :=
  congrArg Host.Outcome.next (transact_framed 0x06 3 readTextWork [b, u, k] s h rfl (by decide))

/-- Settles O53: the checks on slot, part and handle, then the record and the text of a current handle, and the codes of
Table 52. -/
theorem entryReadsChangeNothing : Obligations.EntryReadsChangeNothing := by
  intro b u k s hidle
  rw [exec_readEntry_framed b u s hidle, exec_readText_framed b u k s hidle]
  refine ⟨fun hb => ?entrySlot, fun hbad => ?textRange, ?handle, partsByte_bit, rfl, rfl, rfl, rfl, rfl, rfl, rfl⟩
  case entrySlot =>
    rw [readEntryWork, onHandle_outOfRange _ _ (readHandle_outOfRange u hb)]
    rfl
  case textRange =>
    rcases hbad with hb | hk
    · rw [readTextWork_slotOutOfRange hb]
      rfl
    · rw [readTextWork_partOutOfRange (not_partInRange hk)]
      rfl
  case handle =>
    rintro i rfl
    have hr := readHandle_slot i u
    refine ⟨fun hn => ⟨?entryStale, fun h1 h8 => ?textStale⟩, fun e hn => ⟨?entry, fun ha => ?layout, fun h1 h8 =>
      ⟨fun hc => ?noContent, fun c hc hlt => ?noPart, fun c x hc hle hx => ?text⟩⟩⟩
    case entryStale =>
      rw [readEntryWork, onHandle_stale _ hr (s := s.taken 2) hn]
      rfl
    case textStale =>
      rw [readTextWork_stale ⟨h1, h8⟩ hr (s := s.taken 3) hn]
      rfl
    case entry =>
      rw [readEntryWork, onHandle_named _ hr (s := s.taken 2) hn]
      rfl
    case layout => exact ⟨length_entryBytes _ _ ha, entryBytes_laidOut _ _ e ha⟩
    case noContent =>
      rw [readTextWork_noContent ⟨h1, h8⟩ hr (s := s.taken 3) hn hc]
      rfl
    case noPart =>
      rw [readTextWork_content ⟨h1, h8⟩ hr (s := s.taken 3) hn hc, if_pos hlt]
      rfl
    case text =>
      have hxt : (s.taken 3).textOf i k.toNat = some x := hx
      rw [readTextWork_content ⟨h1, h8⟩ hr (s := s.taken 3) hn hc, if_neg (Nat.not_lt.mpr hle), hxt, Option.getD_some,
        textBytes_eq]
      rfl

end Sys2Proof.Machine
end

section
/-! Events (R178 to R181): the ten kinds by their codes, the event set after a post, when the set and the mask share a
kind, and what GET-EVENTS, SET-EVENT-MASK and SET-WAKE-ENABLE do on an idle port. -/

namespace Sys2Proof.Machine

/-! ### The ten kinds (Table 52) -/

/-- The event kinds in the order of their codes. -/
def eventKinds : List EventKind :=
  [.newAlert, .alertUpdated, .alertCancelled, .entryRemoved, .receiptDone, .linkFault, .linkState, .profileFallback,
    .directoryFull, .storeState]

theorem map_code_eventKinds : eventKinds.map EventKind.code = List.range 10 := rfl

theorem getElem?_eventKinds_code (k : EventKind) : eventKinds[k.code]? = some k := by cases k <;> rfl

/-- Different kinds have different codes. -/
theorem EventKind.code_inj {j k : EventKind} : j.code = k.code ↔ j = k :=
  ⟨fun h => Option.some.inj <| by rw [← getElem?_eventKinds_code j, h, getElem?_eventKinds_code k], congrArg _⟩

theorem EventKind.code_lt (k : EventKind) : k.code < 10 := by
  obtain ⟨h, -⟩ := List.getElem?_eq_some_iff.mp (getElem?_eventKinds_code k)
  exact h

/-- Every bit of an event set stands for a kind. -/
theorem exists_code_eq {n : Nat} (h : n < 10) : ∃ k : EventKind, k.code = n := by
  have hn : n ∈ eventKinds.map EventKind.code := by rw [map_code_eventKinds]; exact List.mem_range.mpr h
  obtain ⟨k, -, hk⟩ := List.mem_map.mp hn
  exact ⟨k, hk⟩

/-! ### Sets of kinds -/

/-- The set of one kind holds that kind alone. -/
theorem holds_bit (k j : EventKind) : EventSet.holds k.bit j = decide (j = k) := by
  rw [EventSet.holds, EventKind.bit, ← BitVec.twoPow_eq, BitVec.getLsbD_twoPow]
  simp only [k.code_lt, decide_true, Bool.true_and, EventKind.code_inj, eq_comm]

theorem holds_or (a b : EventSet) (j : EventKind) :
    EventSet.holds (a ||| b) j = (EventSet.holds a j || EventSet.holds b j) := BitVec.getLsbD_or

theorem holds_and (a b : EventSet) (j : EventKind) :
    EventSet.holds (a &&& b) j = (EventSet.holds a j && EventSet.holds b j) := BitVec.getLsbD_and

/-- A set is not empty exactly when it holds some kind. -/
theorem ne_zero_iff_exists_holds (e : EventSet) : e ≠ 0#10 ↔ ∃ k, EventSet.holds e k = true := by
  constructor
  · contrapose!
    intro hnone
    refine BitVec.eq_of_getLsbD_eq fun n hn => ?_
    obtain ⟨k, rfl⟩ := exists_code_eq hn
    simpa [EventSet.holds] using hnone k
  · rintro ⟨k, hk⟩ rfl
    simp [EventSet.holds] at hk

/-- ATN is high exactly while the event set and the mask share a kind (R180). -/
theorem atn_iff (s : State) :
    s.atn = true ↔ ∃ k, EventSet.holds s.host.events k = true ∧ EventSet.holds s.host.mask k = true := by
  rw [State.atn, decide_eq_true_iff, ne_zero_iff_exists_holds]
  simp only [holds_and, Bool.and_eq_true]

/-- ATN is low while the event set is empty (R180). -/
theorem atn_of_no_events {s : State} (h : s.host.events = 0#10) : s.atn = false := by
  simp [State.atn, h]

/-! ### A post (R178, R181) -/

theorem holds_events_post (k j : EventKind) (s : State) :
    EventSet.holds (post k s).host.events j = true ↔ j = k ∨ EventSet.holds s.host.events j = true := by
  show EventSet.holds (s.host.events ||| k.bit) j = true ↔ _
  rw [holds_or, holds_bit, Bool.or_eq_true, decide_eq_true_iff, or_comm]

theorem wake_post_iff (k : EventKind) (s : State) :
    (post k s).host.wake = true ↔ s.host.wake = true ∨ EventSet.holds s.host.wakeEn k = true := by
  rw [← Bool.or_eq_true]
  rfl

/-! ### Event sets in command bodies (R192) -/

/-- A two-byte body as one field, most significant byte first (R188). -/
theorem fieldAt_pair (b c : Byte) : fieldAt [b, c] 0 2 = b.toNat * 256 + c.toNat := by
  simp [fieldAt, bytesAt, valueOf]

/-- The two bytes of an event set read as that set. -/
theorem readEventSet_bytesOf (m : EventSet) : readEventSet (bytesOf 2 m.toNat) = some m := by
  have hm : m.toNat < 1024 := m.isLt
  have hf : fieldAt (bytesOf 2 m.toNat) 0 2 = m.toNat := by
    simp only [bytesOf, fieldAt_pair, BitVec.toNat_ofNat]
    omega
  rw [readEventSet, hf, if_pos hm, BitVec.ofNat_toNat, BitVec.setWidth_eq]

/-- A bit among 10 to 15 names no kind. -/
theorem readEventSet_none {b : Byte} (c : Byte) (h : 4 ≤ b.toNat) : readEventSet [b, c] = none := by
  rw [readEventSet, fieldAt_pair, if_neg (by omega)]

/-! ### The work of the commands -/

theorem setEventMaskWork_set {body : List Byte} {m : EventSet} {s : State} (h : readEventSet body = some m) :
    setEventMaskWork body s = (s.setHost { s.host with mask := m }, okWith []) := by
  simp only [setEventMaskWork, h]

theorem setEventMaskWork_noSet {body : List Byte} {s : State} (h : readEventSet body = none) :
    setEventMaskWork body s = (s, refusal .badValue) := by
  simp only [setEventMaskWork, h]

theorem setWakeEnableWork_set {body : List Byte} {m : EventSet} {s : State} (h : readEventSet body = some m) :
    setWakeEnableWork body s = (s.setHost { s.host with wakeEn := m }, okWith []) := by
  simp only [setWakeEnableWork, h]

theorem setWakeEnableWork_noSet {body : List Byte} {s : State} (h : readEventSet body = none) :
    setWakeEnableWork body s = (s, refusal .badValue) := by
  simp only [setWakeEnableWork, h]

/-! ### The commands on an idle port (R171, R173) -/

theorem exec_getEvents_framed (s : State) (h : s.portIdle) :
    exec (.getEvents (framed [])) s =
      .next (((s.taken 0).setHost { (s.taken 0).host with events := 0#10, wake := false }).answered
        ⟨.ok, bytesOf 2 s.host.events.toNat⟩) :=
  congrArg Host.Outcome.next (transact_framed 0x01 0 getEventsWork [] s h rfl (by decide))

theorem exec_setEventMask_framed (body : List Byte) (s : State) (h : s.portIdle) (hl : body.length = 2) :
    exec (.setEventMask (framed body)) s =
      .next ((setEventMaskWork body (s.taken 2)).1.answered (setEventMaskWork body (s.taken 2)).2) :=
  congrArg Host.Outcome.next (transact_framed 0x02 2 setEventMaskWork body s h hl (by decide))

theorem exec_setWakeEnable_framed (body : List Byte) (s : State) (h : s.portIdle) (hl : body.length = 2) :
    exec (.setWakeEnable (framed body)) s =
      .next ((setWakeEnableWork body (s.taken 2)).1.answered (setWakeEnableWork body (s.taken 2)).2) :=
  congrArg Host.Outcome.next (transact_framed 0x03 2 setWakeEnableWork body s h hl (by decide))

/-- Settles O51: what a post adds, the codes of the ten kinds, the three commands on an idle port, and when ATN is high. -/
theorem eventCommands : Obligations.EventCommands := by
  refine ⟨fun k s => ⟨fun j => holds_events_post k j s, wake_post_iff k s, rfl⟩, ⟨fun _ _ => rfl, map_code_eventKinds⟩,
    fun s hidle => ⟨exec_getEvents_framed s hidle, fun t ht => ?atnLow, fun m => ⟨?mask, ?wakeEnable⟩,
      fun b c hb => ⟨?badMask, ?badWakeEnable⟩, atn_iff s⟩⟩
  case atnLow =>
    rw [exec_getEvents_framed s hidle] at ht
    cases ht
    exact atn_of_no_events rfl
  case mask =>
    rw [exec_setEventMask_framed _ s hidle (length_bytesOf 2 _), setEventMaskWork_set (readEventSet_bytesOf m)]
    rfl
  case wakeEnable =>
    rw [exec_setWakeEnable_framed _ s hidle (length_bytesOf 2 _), setWakeEnableWork_set (readEventSet_bytesOf m)]
    rfl
  case badMask =>
    rw [exec_setEventMask_framed _ s hidle rfl, setEventMaskWork_noSet (readEventSet_none c hb)]
    rfl
  case badWakeEnable =>
    rw [exec_setWakeEnable_framed _ s hidle rfl, setWakeEnableWork_noSet (readEventSet_none c hb)]
    rfl

end Sys2Proof.Machine
end

section
/-! The 44 rows as one: the work of a host command (Table 50), the rows that are not the host's, and how a property that
every row keeps is kept by every step (95, log 2). -/

namespace Sys2Proof.Machine

/-! ### The host's rows -/

/-- What a host command does once it is taken (Table 50); a row that is none does nothing. -/
def hostWork (c : Instr) : List Byte → State → Answer :=
  match c with
  | .getEvents _ => getEventsWork
  | .setEventMask _ => setEventMaskWork
  | .setWakeEnable _ => setWakeEnableWork
  | .list _ => listWork
  | .readEntry _ => readEntryWork
  | .readText _ => readTextWork
  | .acknowledge _ => acknowledgeWork
  | .silence _ => silenceWork
  | .setPosition _ => setPositionWork
  | .clearPosition _ => clearPositionWork
  | .writeSettings _ => writeSettingsWork
  | .readSettings _ => readSettingsWork
  | .readLinks _ => readLinksWork
  | .clearLinkFault _ => clearLinkFaultWork
  | .flushProfiles _ => flushProfilesWork
  | .yieldStore _ => yieldStoreWork
  | .returnStore _ => returnStoreWork
  | .readCounters _ => readCountersWork
  | _ => fun _ s => (s, okWith [])

/-- Every host command is a command transaction of its code and body length with its work (R171, R173). -/
theorem exec_hostFrame {c : Instr} {code : Byte} {len : Nat} {bytes : List Byte} (h : hostFrame c = some (code, len, bytes))
    (s : State) : exec c s = .next (transact code len (hostWork c) bytes s) := by
  cases c
  all_goals cases h
  all_goals rfl

/-- Every command answers a next state. -/
theorem exec_next (c : Instr) (s : State) : ∃ t, exec c s = .next t := by
  cases c
  all_goals exact ⟨_, rfl⟩

/-- The end of a transaction touches no more of the state than three fields of the port. -/
def PortFree (P : State → Prop) : Prop :=
  ∀ s txn r out, P s → P (s.setHost { s.host with txn := txn, response := r, hcpOut := out })

/-- BAD_COMMAND answers at most a response (R173). -/
theorem keeps_execBadCommand {P : State → Prop} (hP : PortFree P) (code : Byte) (bytes : List Byte) (s t : State) (h : P s)
    (e : execBadCommand code bytes s = .next t) : P t := by
  unfold execBadCommand at e
  cases e
  split
  · split
    · exact hP s _ _ _ h
    · exact hP s _ _ _ h
  · exact h

/-- RESPONSE_READ clocks out bytes, free ones among them (R172). -/
theorem keeps_execResponseRead {P : State → Prop} (hP : PortFree P) (hF : ∀ s n, P s → P (s.setFreeCtr n)) (n : Nat)
    (s t : State) (h : P s) (e : execResponseRead n s = .next t) : P t := by
  unfold execResponseRead at e
  cases e
  split
  · exact h
  · exact hF _ _ (hP s _ _ _ h)

/-! ### What the work of a command can leave -/

section
variable {P : State → Prop} {b : List Byte} {s : State}

theorem keeps_setEventMaskWork (h : P s) (hm : ∀ m, P (s.setHost { s.host with mask := m })) :
    P (setEventMaskWork b s).1 := by
  unfold setEventMaskWork
  split
  · exact h
  · exact hm _

theorem keeps_setWakeEnableWork (h : P s) (hm : ∀ m, P (s.setHost { s.host with wakeEn := m })) :
    P (setWakeEnableWork b s).1 := by
  unfold setWakeEnableWork
  split
  · exact h
  · exact hm _

theorem keeps_setPositionWork (h : P s)
    (hp : ∀ p, P (trigger selectedByPosition (s.setArea { s.area with position := some p }))) :
    P (setPositionWork b s).1 := by
  unfold setPositionWork
  split
  · exact h
  · exact hp _

theorem keeps_writeSettingsWork (h : P s) (hg : ∀ g, P (takeSettings g s)) : P (writeSettingsWork b s).1 := by
  unfold writeSettingsWork
  split
  · exact h
  · exact hg _

theorem keeps_yieldStoreWork (h : P s) (hy : P (yieldStore s)) : P (yieldStoreWork b s).1 := by
  unfold yieldStoreWork
  split
  · exact hy
  · exact h

theorem keeps_returnStoreWork (h : P s) (hr : s.prof.store = .yielded → P (returnStore s)) :
    P (returnStoreWork b s).1 := by
  unfold returnStoreWork
  split
  · exact h
  · rename_i hy
    exact hr hy

theorem keeps_readCountersWork (h : P s) (hc : P (clearCounters s)) : P (readCountersWork b s).1 := by
  unfold readCountersWork
  split
  · exact h
  · dsimp only
    split
    · exact hc
    · exact h

end

/-! ### Every row, every step -/

/-- A property kept by the host's transactions and their work, by the reset and by every other row is kept by every
command. -/
theorem keeps_exec {P : State → Prop} (hP : PortFree P) (hF : ∀ s n, P s → P (s.setFreeCtr n))
    (hreset : ∀ q n, P { State.reset with pending := q, freeCtr := n })
    (hhost : ∀ c b s, P s → P (hostWork c b s).1)
    (hrow : ∀ c s t, ¬ fromHost c → P s → exec c s = .next t → P t)
    (c : Instr) (s t : State) (h : P s) (e : exec c s = .next t) : P t := by
  by_cases hc : fromHost c
  · rcases hc with hf | rfl | ⟨n, rfl⟩ | ⟨code, bytes, rfl⟩
    · obtain ⟨⟨code, len, bytes⟩, hf⟩ := Option.ne_none_iff_exists'.1 hf
      rw [exec_hostFrame hf] at e
      cases e
      exact transact_keeps P hP code len (hostWork c) (hhost c) bytes s h
    · cases e
      exact hreset _ _
    · exact keeps_execResponseRead hP hF n s t h e
    · exact keeps_execBadCommand hP code bytes s t h e
  · exact hrow c s t hc h e

/-- A tick runs a command that is due, or lets a millisecond pass (log 2, log 3). -/
theorem tick_cases (s : State) :
    (s.dueEvents = [] ∧ tick s = .next (advanceClock s)) ∨
    ∃ c ∈ s.dueEvents, tick s = exec c (s.setFreeCtr (s.freeCtr + 1)) := by
  unfold tick
  split
  case h_1 h => exact .inl ⟨h, rfl⟩
  case h_2 c h => exact .inr ⟨c, by simp [h], rfl⟩
  case h_3 c cs _ h =>
    refine .inr ⟨_, ?_, rfl⟩
    have hlt : Config.freeChoice s.freeCtr % (c :: cs).length < (c :: cs).length := Nat.mod_lt _ (by simp)
    rw [h, List.getD_eq_getElem?_getD, List.getElem?_eq_getElem hlt]
    exact List.getElem_mem hlt

/-- A property that every command keeps, whatever waits behind it, and a millisecond of the clock, is kept by every
step. -/
theorem keeps_step {P : State → Prop} (hF : ∀ s n, P s → P (s.setFreeCtr n)) (hQ : ∀ s q, P s → P (s.withPending q))
    (hclock : ∀ s, P s → P (advanceClock s)) (hexec : ∀ c s t, P s → exec c s = .next t → P t)
    (s t : State) (h : P s) (e : step s = .next t) : P t := by
  unfold step at e
  split at e
  · rcases tick_cases s with ⟨-, ht⟩ | ⟨c, -, ht⟩
    · rw [ht] at e
      cases e
      exact hclock s h
    · exact hexec c _ t (hF s _ h) (ht ▸ e)
  · exact hexec _ _ t (hQ s _ h) e

/-! ### The directory's, the arbiter's and the receipt unit's own rows -/

/-- The rows whose meaning is directory, area, attention or receipt work alone. -/
def ownRow : Instr → Bool
  | .expiry _ => true
  | .assemblyDeadline _ => true
  | .redecision => true
  | .playEnd => true
  | .preemption => true
  | .yield => true
  | .silencedPlayEnd => true
  | .cadenceSegmentEnd => true
  | .reminderDeadline _ => true
  | .offerDeadline _ => true
  | _ => false

/-- EXPIRY does directory work or nothing (R83). -/
theorem work_execExpiry {i : EntrySlot} {s t : State} (e : execExpiry i s = .next t) : Work s t := by
  unfold execExpiry at e
  cases e
  split
  · exact Work.refl s
  · split
    · exact work_expireEntry i s
    · exact Work.refl s

/-- ASSEMBLY_DEADLINE does directory work or nothing (R85, R86). -/
theorem work_execAssemblyDeadline {i : EntrySlot} {s t : State} (e : execAssemblyDeadline i s = .next t) : Work s t := by
  unfold execAssemblyDeadline at e
  cases e
  split
  · exact Work.refl s
  · split
    · split
      · exact work_departEntry i s
      · exact work_dropIncoming i s
    · exact Work.refl s

/-- REDECISION shortens the list and may decide one entry again (R126). -/
theorem work_execRedecision {s t : State} (e : execRedecision s = .next t) : Work s t := by
  unfold execRedecision at e
  cases e
  split
  · exact Work.refl s
  · rename_i h rest hq
    have hpop : Work s (s.setArea { s.area with redecide := rest }) := work_setArea s rest
    dsimp only
    split
    · exact hpop
    · split
      · exact hpop.trans (work_redecideEntry _ _ _)
      · exact hpop

/-- PLAY_END, PREEMPTION, YIELD and SILENCED_PLAY_END act on the playing request or do nothing (R136). -/
theorem work_onPlay (s : State) (f : Play → Request → State) (hf : ∀ p r, Work s (f p r)) :
    Work s (match s.playingRequest with | none => s | some (p, _, r) => f p r) := by
  split
  · exact Work.refl s
  · exact hf _ _

/-- A choice between work and nothing is work. -/
theorem Work.ite {c : Prop} [Decidable c] {s t : State} (h : Work s t) : Work s (if c then t else s) := by
  split
  · exact h
  · exact Work.refl s

/-- Each of the own rows is work. -/
theorem work_ownRow {c : Instr} {s t : State} (hc : ownRow c = true) (e : exec c s = .next t) : Work s t := by
  cases c with
  | expiry i => exact work_execExpiry e
  | assemblyDeadline i => exact work_execAssemblyDeadline e
  | redecision => exact work_execRedecision e
  | playEnd => cases e; exact work_onPlay s _ fun p r => (work_finishPlay p r s).ite
  | preemption => cases e; exact work_onPlay s _ fun _ _ => (work_preempt s).ite
  | yield => cases e; exact work_onPlay s _ fun p r => (work_yieldTurn p r s).ite
  | silencedPlayEnd => cases e; exact work_onPlay s _ fun p r => (work_finishPlay p r s).ite
  | cadenceSegmentEnd =>
    cases e
    split
    · exact Work.refl s
    · exact (work_setArb s _).ite
  | reminderDeadline i =>
    cases e
    split
    · exact Work.refl s
    · exact (work_remind i s).ite
  | offerDeadline id =>
    cases e
    split
    · exact Work.refl s
    · exact (work_refuse _ s).ite
  | _ => cases hc

end Sys2Proof.Machine
end

section
/-! What every command of a modem or of the device tells the host port (R178, R181), and the invariants of the links
(R27, R28, R32) and of the counters (R187) over every step. -/

namespace Sys2Proof.Machine

/-! ### Told, row by row -/

theorem told_execFrameStart {l : LinkId} {b : Byte} {s t : State} (e : execFrameStart l b s = .next t) : Told s t := by
  unfold execFrameStart at e
  cases e
  split
  · exact Told.refl s
  · split
    · exact Told.refl s
    · exact told_huntByte l b s

theorem told_execFrameHeader {l : LinkId} {kind : Byte} {len : BitVec 16} {s t : State}
    (e : execFrameHeader l kind len s = .next t) : Told s t := by
  unfold execFrameHeader at e
  cases e
  split
  · exact Told.refl s
  · split
    · exact Told.refl s
    · split
      · exact told_emptyFrame _ _ _
      · split
        · exact told_headerUp _ _ _ _
        · exact told_keepHeader _ _ _ _ _
        · exact told_keepHeader _ _ _ _ _
        · exact Told.refl s

theorem told_execFrameTimeout {l : LinkId} {b : Option Byte} {s t : State} (e : execFrameTimeout l b s = .next t) :
    Told s t := by
  unfold execFrameTimeout at e
  cases e
  split
  · exact Told.refl s
  · split
    · exact told_timeoutFrame _ _ _ _
    · exact Told.refl s

theorem told_execHello {l : LinkId} {body : List Byte} {s t : State} (e : execHello l body s = .next t) : Told s t := by
  cases e
  refine told_onComplete _ _ _ _ _ _ (fun _ u => ?_) (fun u => ?_)
  · split
    · exact told_openLink l u
    · exact told_faultLink _ _ _ _
  · split
    · exact told_openLink l u
    · exact Told.refl u

theorem told_execGoodbye {l : LinkId} {body : List Byte} {s t : State} (e : execGoodbye l body s = .next t) :
    Told s t := by
  cases e
  refine told_onComplete _ _ _ _ _ _ (fun _ u => ?_) Told.refl
  split
  · exact told_closeLink l u
  · exact told_faultLink _ _ _ _

theorem told_execPage {l : LinkId} {body : List Byte} {s t : State} (e : execPage l body s = .next t) : Told s t := by
  cases e
  refine told_onComplete _ _ _ _ _ _ (fun f u => ?_) Told.refl
  split
  · split
    · exact told_faultLink _ _ _ _
    · exact Told.refl u
  · split
    · exact told_pageInSlot _ _ _ _
    · exact Told.refl u

theorem told_execServing {l : LinkId} {body : List Byte} {s t : State} (e : execServing l body s = .next t) :
    Told s t := by
  cases e
  refine told_onComplete _ _ _ _ _ _ (fun _ u => ?_) Told.refl
  split
  · exact told_faultLink _ _ _ _
  · exact told_takeServing _ _ _

theorem told_execReceiptResult {l : LinkId} {body : List Byte} {s t : State}
    (e : execReceiptResult l body s = .next t) : Told s t := by
  cases e
  refine told_onComplete _ _ _ _ _ _ (fun _ u => ?_) Told.refl
  split
  · exact told_faultLink _ _ _ _
  · exact (work_settleResult _ _ _ _).told

theorem told_execUnknownKindFrameEnd {l : LinkId} {body : List Byte} {s t : State}
    (e : execUnknownKindFrameEnd l body s = .next t) : Told s t := by
  cases e
  exact told_onComplete _ _ _ _ _ _ (fun _ _ => told_faultLink _ _ _ _) Told.refl

theorem told_execQuarantineExpiry {l : LinkId} {s t : State} (e : execQuarantineExpiry l s = .next t) : Told s t := by
  unfold execQuarantineExpiry at e
  cases e
  split
  · exact told_endQuarantine l s
  · exact Told.refl s

theorem told_execFrameSend {l : LinkId} {s t : State} (e : execFrameSend l s = .next t) : Told s t := by
  unfold execFrameSend at e
  cases e
  split
  · exact Told.refl s
  · exact told_modLink _ _ _

theorem told_execLoadComplete {data : List Byte} {s t : State} (e : execLoadComplete data s = .next t) : Told s t := by
  unfold execLoadComplete at e
  cases e
  split
  · exact Told.refl s
  · split
    · exact told_completeLoad _ _ _
    · exact Told.refl s

theorem told_execWaitDeadlineExpiry {l : LinkId} {k : PageSlot} {s t : State}
    (e : execWaitDeadlineExpiry l k s = .next t) : Told s t := by
  unfold execWaitDeadlineExpiry at e
  cases e
  split
  · exact (told_setProf s _).trans (told_judge _ _ _ _)
  · exact Told.refl s

/-- A row that is not the host's or the reset pin's keeps queue, clock, position and the port but for events, WAKE and
counters (R178, R181). -/
theorem told_exec {c : Instr} {s t : State} (hc : ¬ fromHost c) (e : exec c s = .next t) : Told s t := by
  by_cases ho : ownRow c = true
  · exact (work_ownRow ho e).told
  · cases c with
    | frameStart l b => exact told_execFrameStart e
    | frameHeader l kind len => exact told_execFrameHeader e
    | frameTimeout l b => exact told_execFrameTimeout e
    | hello l body => exact told_execHello e
    | goodbye l body => exact told_execGoodbye e
    | page l body => exact told_execPage e
    | serving l body => exact told_execServing e
    | receiptResult l body => exact told_execReceiptResult e
    | unknownKindFrameEnd l body => exact told_execUnknownKindFrameEnd e
    | quarantineExpiry l => exact told_execQuarantineExpiry e
    | frameSend l => exact told_execFrameSend e
    | loadComplete data => exact told_execLoadComplete e
    | waitDeadlineExpiry l k => exact told_execWaitDeadlineExpiry e
    | _ => simp_all [fromHost, hostFrame, ownRow]

/-! ### A millisecond of the clock -/

/-- The clock's millisecond counts the play and leaves links, port, profile unit and the rest alone (R136). -/
theorem countPlay_eq (s : State) : countPlay s = { s with dir := (countPlay s).dir, arb := (countPlay s).arb } := by
  unfold countPlay
  split
  · rfl
  · rename_i p e r h
    unfold modEntry
    split
    · rfl
    · rfl

theorem link_advanceClock (s : State) (l : LinkId) : (advanceClock s).link l = s.link l := by
  rw [advanceClock, countPlay_eq]
  cases l
  · rfl
  · rfl

theorem prof_advanceClock (s : State) : (advanceClock s).prof = s.prof := by rw [advanceClock, countPlay_eq]

theorem host_advanceClock (s : State) : (advanceClock s).host = s.host := by rw [advanceClock, countPlay_eq]

/-! ### Links (R27, R28, R32) -/

/-- New settings, met by the arbiter and by the area decision unit, keep both link records sound (R184). -/
theorem sound_takeSettings (g : Settings) (s : State) (h : s.linksSound) : (takeSettings g s).linksSound :=
  sound_work ((work_arbiterMeets _ _).trans (work_trigger _ _)) (s := s.setHost { s.host with settings := g }) h

/-- The work of every host command keeps both link records sound. -/
theorem sound_hostWork (c : Instr) (b : List Byte) (s : State) (h : s.linksSound) : (hostWork c b s).1.linksSound := by
  cases c with
  | setEventMask _ => exact keeps_setEventMaskWork h fun _ => h
  | setWakeEnable _ => exact keeps_setWakeEnableWork h fun _ => h
  | list _ => exact sound_work (work_listWork b s) h
  | readEntry _ => exact sound_work (work_readEntryWork b s) h
  | readText _ => exact sound_work (work_readTextWork b s) h
  | acknowledge _ => exact sound_work (work_acknowledgeWork b s) h
  | silence _ => exact sound_work (work_silenceWork b s) h
  | setPosition _ => exact keeps_setPositionWork h fun p => sound_work (work_trigger _ _) (s := s.setArea _) h
  | writeSettings _ => exact keeps_writeSettingsWork h fun g => sound_takeSettings g s h
  | clearLinkFault _ => exact sound_clearLinkFaultWork b s h
  | flushProfiles _ => exact sound_flushProfiles s h
  | yieldStore _ => exact keeps_yieldStoreWork (b := b) h (sound_yieldStore s h)
  | returnStore _ => exact keeps_returnStoreWork (b := b) h fun _ => sound_returnStore s h
  | readCounters _ => exact keeps_readCountersWork h h
  | _ => exact h

/-- Every row that is not the host's keeps both link records sound. -/
theorem sound_row (c : Instr) (s t : State) (hc : ¬ fromHost c) (h : s.linksSound) (e : exec c s = .next t) :
    t.linksSound := by
  by_cases ho : ownRow c = true
  · exact sound_work (work_ownRow ho e) h
  · cases c with
    | frameStart l b => exact sound_execFrameStart l b s t h e
    | frameHeader l kind len => exact sound_execFrameHeader l kind len s t h e
    | frameTimeout l b => exact sound_execFrameTimeout l b s t h e
    | hello l body => exact sound_execHello l body s t h e
    | goodbye l body => exact sound_execGoodbye l body s t h e
    | page l body => exact sound_execPage l body s t h e
    | serving l body => exact sound_execServing l body s t h e
    | receiptResult l body => exact sound_execReceiptResult l body s t h e
    | unknownKindFrameEnd l body => exact sound_execUnknownKindFrameEnd l body s t h e
    | quarantineExpiry l => exact sound_execQuarantineExpiry l s t h e
    | frameSend l => exact sound_execFrameSend l s t h e
    | loadComplete data => exact sound_execLoadComplete data s t h e
    | waitDeadlineExpiry l k => exact sound_execWaitDeadlineExpiry l k s t h e
    | _ => simp_all [fromHost, hostFrame, ownRow]

/-- Every command keeps both link records sound. -/
theorem sound_exec (c : Instr) (s t : State) (h : s.linksSound) (e : exec c s = .next t) : t.linksSound :=
  keeps_exec linksSound_host (fun _ _ h => h) (fun _ _ => sound_reset) sound_hostWork sound_row c s t h e

/-- Settles O22: every command and the clock's millisecond keep both link records sound. -/
theorem stepKeepsLinksSound : Obligations.StepKeepsLinksSound := by
  intro s t h e
  refine keeps_step (P := State.linksSound) (fun _ _ h => h) (fun _ _ h => h) (fun s h l => ?_) sound_exec s t h e
  rw [link_advanceClock]
  exact h l

/-! ### Counters (R187) -/

theorem bounded_zero : LinkCounters.zero.bounded := by
  unfold LinkCounters.bounded
  decide

/-- A clearing read leaves every counter 0 but DIRECTORY-PEAK, which becomes the occupancy (R187). -/
theorem bounded_clearCounters (s : State) : (clearCounters s).host.countersBounded :=
  ⟨bounded_zero, bounded_zero, Nat.zero_le _, Nat.zero_le _, Nat.zero_le _, Nat.zero_le _, Nat.zero_le _, Nat.zero_le _,
    occupancy_le s⟩

/-- The work of every host command keeps every counter within its limit. -/
theorem bounded_hostWork (c : Instr) (b : List Byte) (s : State) (h : s.host.countersBounded) :
    (hostWork c b s).1.host.countersBounded := by
  cases c with
  | setEventMask _ => exact keeps_setEventMaskWork (P := fun t => t.host.countersBounded) h fun _ => h
  | setWakeEnable _ => exact keeps_setWakeEnableWork (P := fun t => t.host.countersBounded) h fun _ => h
  | list _ => exact (work_listWork b s).counters h
  | readEntry _ => exact (work_readEntryWork b s).counters h
  | readText _ => exact (work_readTextWork b s).counters h
  | acknowledge _ => exact (work_acknowledgeWork b s).counters h
  | silence _ => exact (work_silenceWork b s).counters h
  | setPosition _ =>
    exact keeps_setPositionWork (P := fun t => t.host.countersBounded) h fun p =>
      (work_trigger _ (s.setArea { s.area with position := some p })).counters h
  | writeSettings _ =>
    exact keeps_writeSettingsWork (P := fun t => t.host.countersBounded) h fun g =>
      ((work_arbiterMeets _ (s.setHost { s.host with settings := g })).trans (work_trigger _ _)).counters h
  | clearLinkFault _ => exact (told_clearLinkFaultWork b s).counters h
  | flushProfiles _ => exact (told_flushProfiles s).counters h
  | yieldStore _ => exact (told_yieldStoreWork b s).counters h
  | returnStore _ => exact (told_returnStoreWork b s).counters h
  | readCounters _ =>
    exact keeps_readCountersWork (P := fun t => t.host.countersBounded) h (bounded_clearCounters s)
  | _ => exact h

/-- The counters after a power-on reset lie within their limits. -/
theorem bounded_reset : State.reset.host.countersBounded := by
  refine ⟨bounded_zero, bounded_zero, ?_⟩
  unfold GlobalCounters.bounded
  decide

/-- Settles O58: the host's work apart, a command tells the port only what keeps the counters bounded. -/
theorem stepKeepsCountersBounded : Obligations.StepKeepsCountersBounded := by
  intro s t h e
  refine keeps_step (P := fun s => s.host.countersBounded) (fun _ _ h => h) (fun _ _ h => h) (fun s h => ?_)
    (keeps_exec (fun _ _ _ _ h => h) (fun _ _ h => h) (fun _ _ => bounded_reset) bounded_hostWork
      fun c s t hc h e => (told_exec hc e).counters h) s t h e
  rw [host_advanceClock]
  exact h

end Sys2Proof.Machine
end

section
/-! The profile unit's invariant over every step of a machine whose links are sound (R49, R53, R54, R56). -/

namespace Sys2Proof.Machine

/-! ### Frames that leave the profile unit and every held page alone -/

theorem held_keepHeader (l : LinkId) (h : FrameHeader) (i : Option PageSlot) (f : FrameProgress) (s : State) :
    Held s (keepHeader l h i f s) := held_modLink l _ s rfl

theorem held_execFrameStart {l : LinkId} {b : Byte} {s t : State} (e : execFrameStart l b s = .next t) : Held s t := by
  unfold execFrameStart at e
  cases e
  split
  · exact Held.refl s
  · split
    · exact Held.refl s
    · exact held_huntByte l b s

theorem held_execFrameHeader {l : LinkId} {kind : Byte} {len : BitVec 16} {s t : State}
    (e : execFrameHeader l kind len s = .next t) : Held s t := by
  unfold execFrameHeader at e
  cases e
  split
  · exact Held.refl s
  · split
    · exact Held.refl s
    · split
      · exact held_emptyFrame _ _ _
      · split
        · exact held_headerUp _ _ _ _
        · exact held_keepHeader _ _ _ _ _
        · exact held_keepHeader _ _ _ _ _
        · exact Held.refl s

theorem held_execHello {l : LinkId} {body : List Byte} {s t : State} (e : execHello l body s = .next t) : Held s t := by
  cases e
  refine held_onComplete _ _ _ _ _ _ (fun _ u => ?_) (fun u => ?_)
  · split
    · exact held_openLink l u
    · exact held_faultLink _ _ _ _
  · split
    · exact held_openLink l u
    · exact Held.refl u

theorem held_execGoodbye {l : LinkId} {body : List Byte} {s t : State} (e : execGoodbye l body s = .next t) :
    Held s t := by
  cases e
  refine held_onComplete _ _ _ _ _ _ (fun _ u => ?_) Held.refl
  split
  · exact held_closeLink l u
  · exact held_faultLink _ _ _ _

theorem held_execReceiptResult {l : LinkId} {body : List Byte} {s t : State}
    (e : execReceiptResult l body s = .next t) : Held s t := by
  cases e
  refine held_onComplete _ _ _ _ _ _ (fun _ u => ?_) Held.refl
  split
  · exact held_faultLink _ _ _ _
  · exact held_settleResult _ _ _ _

theorem held_execUnknownKindFrameEnd {l : LinkId} {body : List Byte} {s t : State}
    (e : execUnknownKindFrameEnd l body s = .next t) : Held s t := by
  cases e
  exact held_onComplete _ _ _ _ _ _ (fun _ _ => held_faultLink _ _ _ _) Held.refl

theorem held_execQuarantineExpiry {l : LinkId} {s t : State} (e : execQuarantineExpiry l s = .next t) : Held s t := by
  unfold execQuarantineExpiry at e
  cases e
  split
  · exact held_endQuarantine l s
  · exact Held.refl s

/-! ### Rows with work in the profile unit -/

theorem profile_execServing {l : LinkId} {body : List Byte} {s t : State} (h : s.profileSound)
    (e : execServing l body s = .next t) : t.profileSound := by
  cases e
  have he : (endFrame l s).profileSound := profile_held (held_endFrame l s) h
  unfold onComplete
  split
  · exact h
  · split
    · dsimp only
      split
      · exact profile_held (held_faultLink _ _ _ _) he
      · exact profile_takeServing _ _ _ he
    · exact he

theorem profile_execLoadComplete {data : List Byte} {s t : State} (h : s.profileSound)
    (e : execLoadComplete data s = .next t) : t.profileSound := by
  unfold execLoadComplete at e
  cases e
  split
  · exact h
  · split
    · exact profile_completeLoad _ _ _ h
    · exact h

/-- Every row that is not the host's keeps the profile unit sound on sound links. -/
theorem profile_row (c : Instr) (s t : State) (hc : ¬ fromHost c) (hl : s.linksSound) (h : s.profileSound)
    (e : exec c s = .next t) : t.profileSound := by
  by_cases ho : ownRow c = true
  · exact profile_work (work_ownRow ho e) h
  · cases c with
    | frameStart l b => exact profile_held (held_execFrameStart e) h
    | frameHeader l kind len => exact profile_held (held_execFrameHeader e) h
    | frameTimeout l b => exact profile_execFrameTimeout l b s t hl h e
    | hello l body => exact profile_held (held_execHello e) h
    | goodbye l body => exact profile_held (held_execGoodbye e) h
    | page l body => exact profile_execPage l body s t h e
    | serving l body => exact profile_execServing h e
    | receiptResult l body => exact profile_held (held_execReceiptResult e) h
    | unknownKindFrameEnd l body => exact profile_held (held_execUnknownKindFrameEnd e) h
    | quarantineExpiry l => exact profile_held (held_execQuarantineExpiry e) h
    | frameSend l => exact profile_execFrameSend l s t h e
    | loadComplete data => exact profile_execLoadComplete h e
    | waitDeadlineExpiry l k => exact profile_execWaitDeadlineExpiry l k s t h e
    | _ => simp_all [fromHost, hostFrame, ownRow]

/-! ### The host's commands, and every step -/

theorem profile_clearLinkFaultWork (b : List Byte) (s : State) (h : s.profileSound) :
    (clearLinkFaultWork b s).1.profileSound := by
  unfold clearLinkFaultWork
  split
  · exact h
  · split
    · exact profile_held (held_endQuarantine _ s) h
    · exact h

theorem profile_takeSettings (g : Settings) (s : State) (h : s.profileSound) : (takeSettings g s).profileSound :=
  profile_work ((work_arbiterMeets _ _).trans (work_trigger _ _)) (s := s.setHost { s.host with settings := g }) h

/-- The work of every host command keeps the profile unit sound. -/
theorem profile_hostWork (c : Instr) (b : List Byte) (s : State) (h : s.profileSound) :
    (hostWork c b s).1.profileSound := by
  cases c with
  | setEventMask _ => exact keeps_setEventMaskWork h fun _ => h
  | setWakeEnable _ => exact keeps_setWakeEnableWork h fun _ => h
  | list _ => exact profile_work (work_listWork b s) h
  | readEntry _ => exact profile_work (work_readEntryWork b s) h
  | readText _ => exact profile_work (work_readTextWork b s) h
  | acknowledge _ => exact profile_work (work_acknowledgeWork b s) h
  | silence _ => exact profile_work (work_silenceWork b s) h
  | setPosition _ => exact keeps_setPositionWork h fun p => profile_work (work_trigger _ _) (s := s.setArea _) h
  | writeSettings _ => exact keeps_writeSettingsWork h fun g => profile_takeSettings g s h
  | clearLinkFault _ => exact profile_clearLinkFaultWork b s h
  | flushProfiles _ => exact profile_flushProfiles s h
  | yieldStore _ => exact keeps_yieldStoreWork (b := b) h (profile_yieldStore s h)
  | returnStore _ => exact keeps_returnStoreWork (b := b) h fun hy => profile_returnStore s hy h
  | readCounters _ => exact keeps_readCountersWork h h
  | _ => exact h

/-- What the profile unit's invariant rests on: it is kept together with that of the links. -/
def State.linkedProfile (s : State) : Prop := s.linksSound ∧ s.profileSound

theorem linkedProfile_exec (c : Instr) (s t : State) (h : s.linkedProfile) (e : exec c s = .next t) : t.linkedProfile :=
  keeps_exec (P := State.linkedProfile) (fun _ _ _ _ h => h) (fun _ _ h => h) (fun _ _ => ⟨sound_reset, profile_reset⟩)
    (fun c b s h => ⟨sound_hostWork c b s h.1, profile_hostWork c b s h.2⟩)
    (fun c s t hc h e => ⟨sound_row c s t hc h.1 e, profile_row c s t hc h.1 h.2 e⟩) c s t h e

theorem heldPage_advanceClock (s : State) (l : LinkId) (k : PageSlot) :
    (advanceClock s).heldPage l k = s.heldPage l k := by
  unfold State.heldPage
  rw [link_advanceClock]

/-- The clock's millisecond touches neither links nor profile unit. -/
theorem linkedProfile_advanceClock (s : State) (h : s.linkedProfile) : (advanceClock s).linkedProfile :=
  ⟨fun l => link_advanceClock s l ▸ h.1 l, profile_of_same (prof_advanceClock s) (heldPage_advanceClock s) h.2⟩

/-- Settles O30: kept with the soundness of the links, which the slots of held pages need. -/
theorem stepKeepsProfileSound : Obligations.StepKeepsProfileSound := by
  intro s t hl h e
  have hs : s.linkedProfile := ⟨hl, h⟩
  exact (keeps_step (fun _ _ h => h) (fun _ _ h => h) linkedProfile_advanceClock linkedProfile_exec s t hs e).2

end Sys2Proof.Machine
end

section
/-! The shape of every directory entry (R65 Table 21, R131, R167) over every step. -/

namespace Sys2Proof.Machine

/-! ### Rows of the links -/

/-- The state after a frame's end has the entries before it. -/
theorem shaped_endFrame (l : LinkId) (s : State) (q : s.entriesShaped) : (endFrame l s).entriesShaped :=
  every_of_dir (dir_modLink _ _ _) q

theorem shaped_faultLink (l : LinkId) (k : FaultKind) (f : FrameKind) (s : State) (q : s.entriesShaped) :
    (faultLink l k f s).entriesShaped := every_faultLink receiptFree_shape l k f s q

theorem shaped_openLink (l : LinkId) (s : State) (q : s.entriesShaped) : (openLink l s).entriesShaped :=
  every_openLink receiptFree_shape l s q

theorem shaped_closeLink (l : LinkId) (s : State) (q : s.entriesShaped) : (closeLink l s).entriesShaped :=
  every_of_dir (State.dir_post _ _) (every_leaveUp receiptFree_shape l .down s q)

/-- A complete frame keeps the entries' shape when what it does on a link in UP and elsewhere does. -/
theorem shaped_onComplete (l : LinkId) (k : FrameKind) (b : List Byte) (up : FrameProgress → State → State)
    (other : State → State) (s : State) (hu : ∀ f t, t.entriesShaped → (up f t).entriesShaped)
    (ho : ∀ t, t.entriesShaped → (other t).entriesShaped) (q : s.entriesShaped) :
    (onComplete l k b up other s).entriesShaped := by
  unfold onComplete
  split
  · exact q
  · split
    · exact hu _ _ (shaped_endFrame l s q)
    · exact ho _ (shaped_endFrame l s q)

theorem shaped_execFrameStart {l : LinkId} {b : Byte} {s t : State} (q : s.entriesShaped)
    (e : execFrameStart l b s = .next t) : t.entriesShaped := by
  unfold execFrameStart at e
  cases e
  split
  · exact q
  · split
    · exact q
    · unfold huntByte
      split
      · exact every_of_dir (dir_modLink _ _ _) q
      · split
        · exact shaped_faultLink _ _ _ _ q
        · exact q
        · exact q
        · exact q

theorem shaped_emptyFrame (l : LinkId) (k : FrameKind) (s : State) (q : s.entriesShaped) :
    (emptyFrame l k s).entriesShaped := by
  have he := shaped_endFrame l s q
  unfold emptyFrame
  split
  · cases k with
    | hello => exact shaped_openLink _ _ he
    | goodbye => exact shaped_closeLink _ _ he
    | _ => exact shaped_faultLink _ _ _ _ he
  · split
    · exact shaped_openLink _ _ he
    · exact he
  · split
    · exact shaped_openLink _ _ he
    · exact he
  · exact q

theorem shaped_keepHeader (l : LinkId) (h : FrameHeader) (i : Option PageSlot) (f : FrameProgress) (s : State)
    (q : s.entriesShaped) : (keepHeader l h i f s).entriesShaped := every_of_dir (dir_modLink _ _ _) q

theorem shaped_headerUp (l : LinkId) (h : FrameHeader) (f : FrameProgress) (s : State) (q : s.entriesShaped) :
    (headerUp l h f s).entriesShaped := by
  unfold headerUp
  split
  · split
    · split
      · exact shaped_faultLink _ _ _ _ (every_of_dir (State.dir_countLink _ _ _) q)
      · exact shaped_keepHeader _ _ _ _ _ (every_of_dir (dir_modLink _ _ _) q)
    · exact shaped_keepHeader _ _ _ _ _ q
  · exact shaped_faultLink _ _ _ _ q

theorem shaped_execFrameHeader {l : LinkId} {kind : Byte} {len : BitVec 16} {s t : State} (q : s.entriesShaped)
    (e : execFrameHeader l kind len s = .next t) : t.entriesShaped := by
  unfold execFrameHeader at e
  cases e
  split
  · exact q
  · split
    · exact q
    · split
      · exact shaped_emptyFrame _ _ _ q
      · split
        · exact shaped_headerUp _ _ _ _ q
        · exact shaped_keepHeader _ _ _ _ _ q
        · exact shaped_keepHeader _ _ _ _ _ q
        · exact q

/-- The slot a frame had reserved is no directory slot. -/
theorem dir_releaseReserved (l : LinkId) (f : FrameProgress) (s : State) : (releaseReserved l f s).dir = s.dir := by
  unfold releaseReserved
  split
  · rfl
  · exact dir_modLink _ _ _

theorem shaped_execFrameTimeout {l : LinkId} {b : Option Byte} {s t : State} (q : s.entriesShaped)
    (e : execFrameTimeout l b s = .next t) : t.entriesShaped := by
  unfold execFrameTimeout at e
  cases e
  split
  · exact q
  · split
    · unfold timeoutFrame
      split
      · exact shaped_faultLink _ _ _ _ (every_of_dir (dir_releaseReserved _ _ _) q)
      · exact shaped_endFrame _ _ q
      · exact shaped_endFrame _ _ q
      · exact q
    · exact q

theorem shaped_execHello {l : LinkId} {body : List Byte} {s t : State} (q : s.entriesShaped)
    (e : execHello l body s = .next t) : t.entriesShaped := by
  cases e
  refine shaped_onComplete _ _ _ _ _ _ (fun _ u hu => ?_) (fun u hu => ?_) q
  · split
    · exact shaped_openLink _ _ hu
    · exact shaped_faultLink _ _ _ _ hu
  · split
    · exact shaped_openLink _ _ hu
    · exact hu

theorem shaped_execGoodbye {l : LinkId} {body : List Byte} {s t : State} (q : s.entriesShaped)
    (e : execGoodbye l body s = .next t) : t.entriesShaped := by
  cases e
  refine shaped_onComplete _ _ _ _ _ _ (fun _ u hu => ?_) (fun u hu => hu) q
  split
  · exact shaped_closeLink _ _ hu
  · exact shaped_faultLink _ _ _ _ hu

/-- A page accepted in its slot reaches the directory only as a judged page does. -/
theorem shaped_pageInSlot (l : LinkId) (i : PageSlot) (body : List Byte) (s : State) (q : s.entriesShaped) :
    (pageInSlot l i body s).entriesShaped := by
  unfold pageInSlot
  split
  · exact shaped_faultLink _ _ _ _ (every_of_dir (dir_modLink _ _ _) q)
  · exact shaped_handOn _ _ _ _ (every_of_dir ((State.dir_countLink _ _ _).trans (dir_modLink _ _ _)) q)

theorem shaped_execPage {l : LinkId} {body : List Byte} {s t : State} (q : s.entriesShaped)
    (e : execPage l body s = .next t) : t.entriesShaped := by
  cases e
  refine shaped_onComplete _ _ _ _ _ _ (fun f u hu => ?_) (fun u hu => hu) q
  split
  · split
    · exact shaped_faultLink _ _ _ _ hu
    · exact hu
  · split
    · exact shaped_pageInSlot _ _ _ _ hu
    · exact hu

theorem shaped_execServing {l : LinkId} {body : List Byte} {s t : State} (q : s.entriesShaped)
    (e : execServing l body s = .next t) : t.entriesShaped := by
  cases e
  refine shaped_onComplete _ _ _ _ _ _ (fun f u hu => ?_) (fun u hu => hu) q
  split
  · exact shaped_faultLink _ _ _ _ hu
  · exact every_of_dir (dir_takeServing _ _ _) hu

theorem shaped_execReceiptResult {l : LinkId} {body : List Byte} {s t : State} (q : s.entriesShaped)
    (e : execReceiptResult l body s = .next t) : t.entriesShaped := by
  cases e
  refine shaped_onComplete _ _ _ _ _ _ (fun f u hu => ?_) (fun u hu => hu) q
  split
  · exact shaped_faultLink _ _ _ _ hu
  · exact every_settleResult receiptFree_shape _ _ _ _ hu

theorem shaped_execUnknownKindFrameEnd {l : LinkId} {body : List Byte} {s t : State} (q : s.entriesShaped)
    (e : execUnknownKindFrameEnd l body s = .next t) : t.entriesShaped := by
  cases e
  exact shaped_onComplete _ _ _ _ _ _ (fun f u hu => shaped_faultLink _ _ _ _ hu) (fun u hu => hu) q

theorem dir_endQuarantine (l : LinkId) (s : State) : (endQuarantine l s).dir = s.dir :=
  (State.dir_post _ _).trans (dir_modLink _ _ _)

theorem shaped_execQuarantineExpiry {l : LinkId} {s t : State} (q : s.entriesShaped)
    (e : execQuarantineExpiry l s = .next t) : t.entriesShaped := by
  unfold execQuarantineExpiry at e
  cases e
  split
  · exact every_of_dir (dir_endQuarantine l s) q
  · exact q

theorem shaped_execFrameSend {l : LinkId} {s t : State} (q : s.entriesShaped)
    (e : execFrameSend l s = .next t) : t.entriesShaped := by
  unfold execFrameSend at e
  cases e
  split
  · exact q
  · exact every_of_dir (dir_modLink _ _ _) q

/-! ### Rows of the profile unit, the directory, the arbiter and the receipt unit -/

theorem shaped_execLoadComplete {data : List Byte} {s t : State} (q : s.entriesShaped)
    (e : execLoadComplete data s = .next t) : t.entriesShaped := by
  unfold execLoadComplete at e
  cases e
  split
  · exact q
  · split
    · exact shaped_completeLoad _ _ _ q
    · exact q

theorem shaped_execWaitDeadlineExpiry {l : LinkId} {k : PageSlot} {s t : State} (q : s.entriesShaped)
    (e : execWaitDeadlineExpiry l k s = .next t) : t.entriesShaped := by
  unfold execWaitDeadlineExpiry at e
  cases e
  split
  · exact shaped_judge _ _ _ _ (every_of_dir (State.dir_setProf _ _) q)
  · exact q

theorem shaped_execExpiry {i : EntrySlot} {s t : State} (q : s.entriesShaped) (e : execExpiry i s = .next t) :
    t.entriesShaped := by
  unfold execExpiry at e
  cases e
  split
  · exact q
  · split
    · exact shaped_expireEntry i s q
    · exact q

/-- An incoming revision is dropped only of an entry that is not ASSEMBLING, which needs none (R86). -/
theorem shaped_dropIncoming (i : EntrySlot) (s : State) (ha : ∀ e, s.entryAt i = some e → e.state ≠ .assembling)
    (q : s.entriesShaped) : (dropIncoming i s).entriesShaped := by
  refine shaped_modEntry i _ _ (fun e he h => shape_dropIncoming h (ha e ?_)) (every_of_entries (fun j => ?_) q)
  · rwa [releaseGroup, entryAt_setSegs] at he
  · rw [releaseGroup, entryAt_setSegs]

theorem shaped_execAssemblyDeadline {i : EntrySlot} {s t : State} (q : s.entriesShaped)
    (e : execAssemblyDeadline i s = .next t) : t.entriesShaped := by
  unfold execAssemblyDeadline at e
  cases e
  split
  · exact q
  · rename_i x hx
    split
    · split
      · exact shaped_departEntry i s q
      · rename_i hs
        refine shaped_dropIncoming i s (fun y hy => ?_) q
        rw [hx] at hy
        cases hy
        exact hs
    · exact q

theorem shaped_execRedecision {s t : State} (q : s.entriesShaped) (e : execRedecision s = .next t) :
    t.entriesShaped := by
  unfold execRedecision at e
  cases e
  split
  · exact q
  · dsimp only
    split
    · exact every_of_dir (State.dir_setArea _ _) q
    · rename_i x hx
      split
      · rename_i hs
        exact shaped_redecideEntry _ x _ (named_entryAt hx) hs (every_of_dir (State.dir_setArea _ _) q)
      · exact every_of_dir (State.dir_setArea _ _) q

/-- The rows on the playing request keep the shapes when what they do with that request does. -/
theorem shaped_onPlay (s : State) (f : Play → Request → State) (q : s.entriesShaped)
    (hf : ∀ p e r, s.playingRequest = some (p, e, r) → (f p r).entriesShaped) :
    (match s.playingRequest with | none => s | some (p, _, r) => f p r).entriesShaped := by
  split
  · exact q
  · exact hf _ _ _ (by assumption)

theorem shaped_ite {c : Prop} [Decidable c] {s t : State} (hs : s.entriesShaped) (ht : t.entriesShaped) :
    (if c then t else s).entriesShaped := by
  split
  · exact ht
  · exact hs

theorem shaped_execReminderDeadline {i : EntrySlot} {s t : State} (q : s.entriesShaped)
    (e : execReminderDeadline i s = .next t) : t.entriesShaped := by
  unfold execReminderDeadline at e
  cases e
  split
  · exact q
  · rename_i x hx
    split
    · rename_i ha
      refine shaped_remind i s (fun y hy => ?_) q
      rw [hx] at hy
      cases hy
      exact ha.1
    · exact q

theorem shaped_execOfferDeadline {id : ReceiptId} {s t : State} (q : s.entriesShaped)
    (e : execOfferDeadline id s = .next t) : t.entriesShaped := by
  unfold execOfferDeadline at e
  cases e
  split
  · exact q
  · exact shaped_ite q (every_refuse receiptFree_shape _ _ q)

/-- Every row that is not the host's keeps every entry's shape. -/
theorem shaped_row (c : Instr) (s t : State) (hc : ¬ fromHost c) (q : s.entriesShaped) (e : exec c s = .next t) :
    t.entriesShaped := by
  cases c with
  | frameStart l b => exact shaped_execFrameStart q e
  | frameHeader l kind len => exact shaped_execFrameHeader q e
  | frameTimeout l b => exact shaped_execFrameTimeout q e
  | hello l body => exact shaped_execHello q e
  | goodbye l body => exact shaped_execGoodbye q e
  | page l body => exact shaped_execPage q e
  | serving l body => exact shaped_execServing q e
  | receiptResult l body => exact shaped_execReceiptResult q e
  | unknownKindFrameEnd l body => exact shaped_execUnknownKindFrameEnd q e
  | quarantineExpiry l => exact shaped_execQuarantineExpiry q e
  | frameSend l => exact shaped_execFrameSend q e
  | loadComplete data => exact shaped_execLoadComplete q e
  | waitDeadlineExpiry l k => exact shaped_execWaitDeadlineExpiry q e
  | expiry i => exact shaped_execExpiry q e
  | assemblyDeadline i => exact shaped_execAssemblyDeadline q e
  | redecision => exact shaped_execRedecision q e
  | playEnd =>
    cases e
    exact shaped_onPlay s _ q fun p x r h => shaped_ite q (shaped_finishPlay p r s (playing_active q h) q)
  | preemption =>
    cases e
    exact shaped_onPlay s _ q fun p x r h => shaped_ite q (every_of_entries (entryAt_preempt s) q)
  | yield =>
    cases e
    exact shaped_onPlay s _ q fun p x r h => shaped_ite q (every_of_entries (entryAt_yieldTurn p r s) q)
  | silencedPlayEnd =>
    cases e
    exact shaped_onPlay s _ q fun p x r h => shaped_ite q (shaped_finishPlay p r s (playing_active q h) q)
  | cadenceSegmentEnd =>
    cases e
    split
    · exact q
    · exact shaped_ite q (every_of_dir (State.dir_setArb _ _) q)
  | reminderDeadline i => exact shaped_execReminderDeadline q e
  | offerDeadline id => exact shaped_execOfferDeadline q e
  | _ => simp_all [fromHost, hostFrame]

/-! ### The host's commands, and every step -/

theorem dir_clearLinkFaultWork (b : List Byte) (s : State) : (clearLinkFaultWork b s).1.dir = s.dir := by
  unfold clearLinkFaultWork
  split
  · rfl
  · split
    · exact dir_endQuarantine _ s
    · rfl

/-- A reading command answers and leaves the state (R175, R176). -/
theorem state_onHandle_read (b : List Byte) (s : State) (f : Handle → Entry → Answer) (hf : ∀ h e, (f h e).1 = s) :
    (onHandle b s f).1 = s := by
  unfold onHandle
  split
  · rfl
  · split
    · rfl
    · exact hf _ _

theorem state_readEntryWork (b : List Byte) (s : State) : (readEntryWork b s).1 = s :=
  state_onHandle_read b s _ fun _ _ => rfl

theorem state_readTextWork (b : List Byte) (s : State) : (readTextWork b s).1 = s := by
  unfold readTextWork
  dsimp only
  split
  · rfl
  · refine state_onHandle_read b s _ fun h e => ?_
    split
    · rfl
    · split <;> rfl

theorem shaped_listWork (b : List Byte) (s : State) (q : s.entriesShaped) : (listWork b s).1.entriesShaped := by
  unfold listWork
  split
  · exact q
  · exact q
  · exact shaped_clearChanged s q

theorem shaped_silenceWork (b : List Byte) (s : State) (q : s.entriesShaped) : (silenceWork b s).1.entriesShaped := by
  simp only [silenceWork]
  exact shaped_silenceAll s q

theorem shaped_takeSettings (g : Settings) (s : State) (q : s.entriesShaped) : (takeSettings g s).entriesShaped :=
  every_of_dir (State.dir_setArea _ _) (shaped_arbiterMeets _ _ (every_of_dir (State.dir_setHost _ _) q))

/-- The work of every host command keeps every entry's shape. -/
theorem shaped_hostWork (c : Instr) (b : List Byte) (s : State) (q : s.entriesShaped) :
    (hostWork c b s).1.entriesShaped := by
  cases c with
  | setEventMask _ => exact keeps_setEventMaskWork q fun _ => q
  | setWakeEnable _ => exact keeps_setWakeEnableWork q fun _ => q
  | list _ => exact shaped_listWork b s q
  | readEntry _ => exact (state_readEntryWork b s).symm ▸ q
  | readText _ => exact (state_readTextWork b s).symm ▸ q
  | acknowledge _ => exact shaped_acknowledgeWork b s q
  | silence _ => exact shaped_silenceWork b s q
  | setPosition _ => exact keeps_setPositionWork q fun p => every_of_dir rfl q
  | writeSettings _ => exact keeps_writeSettingsWork q fun g => shaped_takeSettings g s q
  | clearLinkFault _ => exact every_of_dir (dir_clearLinkFaultWork b s) q
  | flushProfiles _ => exact every_of_dir (dir_flushProfiles s) q
  | yieldStore _ => exact keeps_yieldStoreWork (b := b) q (every_of_dir (dir_yieldStore s) q)
  | returnStore _ => exact keeps_returnStoreWork (b := b) q fun _ => every_of_dir (dir_returnStore s) q
  | readCounters _ => exact keeps_readCountersWork q q
  | _ => exact q

/-- Settles O34: every command and the clock's millisecond keep every entry's shape. -/
theorem stepKeepsEntriesShaped : Obligations.StepKeepsEntriesShaped := by
  intro s t q e
  exact keeps_step (P := State.entriesShaped) (fun _ _ q => q) (fun _ _ q => q) shaped_countPlay
    (keeps_exec (fun _ _ _ _ q => q) (fun _ _ q => q) (fun _ _ => shaped_reset) shaped_hostWork shaped_row) s t q e

end Sys2Proof.Machine
end

section
/-! What holds of every row and of the reset (R170, R178, R181): how a step takes a command, the event set and WAKE under
each command, and the values after a power-on reset. -/

namespace Sys2Proof.Machine

/-! ### A step and the reset -/

/-- Settles O1: a step on a queue with a front command is that command on the rest. -/
theorem stepRunsFrontCommand : Obligations.StepRunsFrontCommand :=
  fun _ _ _ => rfl

/-- Settles O4: the reset row builds the reset state around the model's queue and free-value counter. -/
theorem powerOnResetRestoresReset : Obligations.PowerOnResetRestoresReset :=
  fun _ => rfl

/-- Settles O59, by the three soundness facts of the reset state and the zero counters. -/
theorem resetMeetsInvariants : Obligations.ResetMeetsInvariants :=
  ⟨sound_reset, profile_reset, shaped_reset, bounded_reset⟩

/-- No slot of the directory is occupied after a reset. -/
theorem entryAt_reset (i : EntrySlot) : State.reset.entryAt i = none :=
  Vector.getElem_replicate _

theorem occupancy_reset : State.reset.occupancy = 0 := by
  simp [State.occupancy, entryAt_reset]

/-- The wake-enable set after a reset, kind by kind (Table 40). -/
theorem holds_wakeEn_reset (k : EventKind) :
    EventSet.holds State.reset.host.wakeEn k = true ↔
      k = .newAlert ∨ k = .alertUpdated ∨ k = .alertCancelled ∨ k = .linkFault := by
  cases k
  all_goals decide

/-- Settles O5: every field of the reset state is the one of its table. -/
theorem resetValues : Obligations.ResetValues := by
  refine ⟨rfl, fun l => ?_, ⟨rfl, rfl, rfl, rfl, rfl, rfl, rfl⟩,
    ⟨entryAt_reset, fun i => ?_, rfl, rfl, occupancy_reset⟩, ⟨rfl, rfl⟩, ⟨rfl, fun lv => ?_⟩, ⟨rfl, rfl⟩,
    ⟨rfl, rfl, rfl, fun k => ?_, holds_wakeEn_reset, rfl, rfl, rfl⟩, rfl, rfl, ?_, rfl, rfl, rfl, rfl⟩
  case _ => cases l <;> exact ⟨rfl, fun i => Vector.getElem_replicate _, rfl, rfl, rfl, rfl, rfl, rfl, rfl, rfl⟩
  case _ => exact Vector.getElem_replicate _
  case _ => exact Vector.getElem_replicate _
  case _ => cases k <;> rfl
  case _ => decide

/-! ### The event set and WAKE (R178, R181) -/

/-- Events stay, WAKE stays high, and WAKE is high once a wake-enabled kind has joined (R178, R181). -/
structure EventsKept (s t : State) : Prop where
  events : ∀ k, s.host.events.getLsbD k = true → t.host.events.getLsbD k = true
  wake : s.host.wake = true → t.host.wake = true
  latched : ∀ k, t.host.events.getLsbD k = true → s.host.events.getLsbD k = true ∨
    (s.host.wakeEn.getLsbD k = true → t.host.wake = true)

theorem EventsKept.same {s t : State} (he : t.host.events = s.host.events) (hw : t.host.wake = s.host.wake) :
    EventsKept s t where
  events k h := by rw [he]; exact h
  wake h := by rw [hw]; exact h
  latched k h := .inl (by rw [← he]; exact h)

/-- A change made before, that leaves events, WAKE and the wake-enable set, makes no difference. -/
theorem EventsKept.before {s u t : State} (h : EventsKept u t) (he : u.host.events = s.host.events)
    (hw : u.host.wake = s.host.wake) (hn : u.host.wakeEn = s.host.wakeEn) : EventsKept s t where
  events k hk := h.events k (by rw [he]; exact hk)
  wake hk := h.wake (by rw [hw]; exact hk)
  latched k hk := by
    rw [← he, ← hn]
    exact h.latched k hk

theorem Told.eventsKept {s t : State} (h : Told s t) : EventsKept s t := ⟨h.events, h.wake, h.latched⟩

theorem Work.eventsKept {s t : State} (h : Work s t) : EventsKept s t := h.told.eventsKept

/-- New settings reach the event set only by the arbiter's and the trigger's work. -/
theorem eventsKept_takeSettings (g : Settings) (s : State) : EventsKept s (takeSettings g s) :=
  ((work_arbiterMeets _ (s.setHost { s.host with settings := g })).trans (work_trigger _ _)).eventsKept.before rfl rfl rfl

/-- The work of every host command but GET-EVENTS keeps the events. -/
theorem eventsKept_hostWork {c : Instr} (hc : ∀ b, c ≠ .getEvents b) (b : List Byte) (s : State) :
    EventsKept s (hostWork c b s).1 := by
  have same : EventsKept s s := .same rfl rfl
  cases c with
  | getEvents b => exact absurd rfl (hc b)
  | setEventMask _ => exact keeps_setEventMaskWork same fun _ => .same rfl rfl
  | setWakeEnable _ => exact keeps_setWakeEnableWork same fun _ => .same rfl rfl
  | list _ => exact (work_listWork b s).eventsKept
  | readEntry _ => exact (work_readEntryWork b s).eventsKept
  | readText _ => exact (work_readTextWork b s).eventsKept
  | acknowledge _ => exact (work_acknowledgeWork b s).eventsKept
  | silence _ => exact (work_silenceWork b s).eventsKept
  | setPosition _ =>
    exact keeps_setPositionWork (P := EventsKept s) same fun p =>
      (work_trigger _ (s.setArea { s.area with position := some p })).eventsKept.before rfl rfl rfl
  | writeSettings _ => exact keeps_writeSettingsWork (P := EventsKept s) same fun g => eventsKept_takeSettings g s
  | clearLinkFault _ => exact (told_clearLinkFaultWork b s).eventsKept
  | flushProfiles _ => exact (told_flushProfiles s).eventsKept
  | yieldStore _ => exact (told_yieldStoreWork b s).eventsKept
  | returnStore _ => exact (told_returnStoreWork b s).eventsKept
  | readCounters _ => exact keeps_readCountersWork (P := EventsKept s) same (.same rfl rfl)
  | _ => exact .same rfl rfl

/-- A transaction reaches the event set only by its work. -/
theorem eventsKept_transact (code : Byte) (len : Nat) (work : List Byte → State → Answer)
    (hw : ∀ b s, EventsKept s (work b s).1) (bytes : List Byte) (s : State) :
    EventsKept s (transact code len work bytes s) := by
  rcases transact_cases code len work bytes s with h | ⟨frame, h | h | h⟩
  · rw [h]; exact .same rfl rfl
  · rw [h]; exact .same rfl rfl
  · rw [h]; exact .same rfl rfl
  · rw [h]
    obtain ⟨he, hk, hl⟩ := hw (frame.drop 3) (endTransaction frame s)
    exact ⟨he, hk, hl⟩

/-- Every command but GET_EVENTS and the reset keeps the events. -/
theorem eventsKept_exec {c : Instr} {s t : State} (hg : ∀ b, c ≠ .getEvents b) (hr : c ≠ .powerOnReset)
    (e : exec c s = .next t) : EventsKept s t := by
  have same : EventsKept s s := .same rfl rfl
  by_cases hc : fromHost c
  · rcases hc with hf | rfl | ⟨n, rfl⟩ | ⟨code, bytes, rfl⟩
    · obtain ⟨⟨code, len, bytes⟩, hf⟩ := Option.ne_none_iff_exists'.1 hf
      rw [exec_hostFrame hf] at e
      cases e
      exact eventsKept_transact code len _ (eventsKept_hostWork hg) bytes s
    · exact absurd rfl hr
    · exact keeps_execResponseRead (P := EventsKept s) (fun _ _ _ _ h => ⟨h.1, h.2, h.3⟩)
        (fun _ _ h => ⟨h.1, h.2, h.3⟩) n s t same e
    · exact keeps_execBadCommand (P := EventsKept s) (fun _ _ _ _ h => ⟨h.1, h.2, h.3⟩) code bytes s t same e
  · exact (told_exec hc e).eventsKept

/-- Settles O3: the event set by `eventsKept_exec`, the rows of modems and device by `told_exec`. -/
theorem eventsStayUntilRead : Obligations.EventsStayUntilRead := by
  intro c s
  obtain ⟨t, e⟩ := exec_next c s
  refine ⟨t, e, fun hg hr => ?_, fun hc => told_exec hc e⟩
  obtain ⟨he, hw, hl⟩ := eventsKept_exec hg hr e
  exact ⟨he, hw, hl⟩

end Sys2Proof.Machine
end

section
/-! Rows of one step: a quarantine's end (R35), the frame sent (R41), the channel lookup (R46), the revision order (R13),
the cadence (R145 to R148), and what the host port reports, clocks out and refuses (R171 to R173, R192, R193). -/

namespace Sys2Proof.Machine

/-! ### Links: the end of a quarantine, the frame sent -/

/-- Settles O19, by whether the link is FAULTED with its deadline reached. -/
theorem quarantineExpiryEntersSync : Obligations.QuarantineExpiryEntersSync := by
  intro l s
  have he : exec (.quarantineExpiry l) s = .next
      (if (s.link l).state = .faulted ∧ (s.link l).quarantine.any (fun t => decide (t ≤ s.now)) = true then
        endQuarantine l s else s) := rfl
  refine ⟨fun d hs hd hn => ?_, fun h => ?_, fun d hd hn => ?_⟩
  · rw [he, if_pos ⟨hs, by simp [hd, hn]⟩, endQuarantine_eq]
  · rw [he, if_neg]
    rintro ⟨hs, hq⟩
    rcases h with h | h
    · exact h hs
    · simp [h] at hq
  · rw [he, if_neg]
    rintro ⟨-, hq⟩
    simp [hd] at hq
    omega

/-- The identity key of a frame is laid out in its five fields (R191). -/
theorem keyBytes_laidOut (k : Key) : keyBytes k = laidOut (keyLayout k) := by
  simp [keyBytes, keyLayout, laidOut, bytesOf_one, byteOf]

/-- Settles O20: the head of the queue leaves it in its encoding, and each body is its layout. -/
theorem frameSendTakesHead : Obligations.FrameSendTakesHead := by
  refine ⟨fun l f rest s hq => ?_, ⟨rfl, rfl⟩, fun n => ⟨rfl, ?_⟩, fun rs => ⟨rfl, ?_⟩, fun k r part d => ⟨rfl, ?_⟩,
    fun id k r delay => ⟨rfl, ?_⟩, rfl⟩
  · show Host.Outcome.next _ = _
    rw [hq]
    simp [modLink, OutFrame.encode]
  · simp [OutFrame.body, laidOut, bytesOf_one]
  · simp [OutFrame.body, laidOut, bytesOf_one, List.flatMap_assoc]
  · simp [OutFrame.body, keyBytes_laidOut, laidOut, bytesOf_one, revisionByte, byteOf]
  · simp [OutFrame.body, keyBytes_laidOut, laidOut, bytesOf_one, revisionByte, byteOf]

/-! ### The channel lookup and the revision order -/

/-- The search of the table, place by place. -/
theorem governingRange_eq_some {rs : List ChannelRange} {c n : Nat} {r : ChannelRange} :
    governingRange rs c = some (n, r) ↔ ∃ k, n = k + 1 ∧ rs[k]? = some r ∧ (r.first ≤ c ∧ c ≤ r.last) ∧
      ∀ j x, j < k → rs[j]? = some x → ¬ (x.first ≤ c ∧ c ≤ x.last) := by
  unfold governingRange
  simp only [Option.map_eq_some_iff, List.find?_eq_some_iff_getElem]
  constructor
  · rintro ⟨⟨r', n'⟩, ⟨hin, k, hk, hget, hbefore⟩, hx⟩
    simp only [List.length_zipIdx] at hk
    simp only [List.getElem_zipIdx, Prod.mk.injEq] at hget hx
    obtain ⟨rfl, rfl⟩ := hget
    obtain ⟨rfl, rfl⟩ := hx
    refine ⟨k, Nat.add_comm 1 k, List.getElem?_eq_getElem hk, by simpa using hin, fun j x hj hx => ?_⟩
    obtain ⟨hj', rfl⟩ := List.getElem?_eq_some_iff.1 hx
    have hout := hbefore j hj
    simp at hout
    omega
  · rintro ⟨k, rfl, hget, hin, hbefore⟩
    obtain ⟨hk, rfl⟩ := List.getElem?_eq_some_iff.1 hget
    refine ⟨(rs[k], k + 1), ⟨by simpa using hin, k, by simpa using hk, by simp [Nat.add_comm], fun j hj => ?_⟩, rfl⟩
    have hout := hbefore j _ hj (List.getElem?_eq_getElem (by omega))
    simp
    omega

theorem governingRange_eq_none {rs : List ChannelRange} {c : Nat} :
    governingRange rs c = none ↔ ∀ r ∈ rs, ¬ (r.first ≤ c ∧ c ≤ r.last) := by
  unfold governingRange
  simp only [Option.map_eq_none_iff, List.find?_eq_none, Bool.and_eq_true, decide_eq_true_eq]
  constructor
  · intro h r hr
    obtain ⟨k, hk, rfl⟩ := List.getElem_of_mem hr
    exact h (rs[k], 1 + k) (List.mem_iff_getElem.2 ⟨k, by simpa using hk, by simp⟩)
  · rintro h ⟨r, n⟩ hr
    exact h r (List.fst_mem_of_mem_zipIdx hr)

/-- Settles O29, by the two equivalences of the lookup. -/
theorem governingRangeIsFirstContaining : Obligations.GoverningRangeIsFirstContaining := by
  refine fun rs c => ⟨fun k r => ?_, governingRange_eq_none, fun k r h => ?_⟩
  · rw [governingRange_eq_some]
    simp [and_assoc]
  · obtain ⟨k, rfl, -⟩ := governingRange_eq_some.1 h
    exact Nat.le_add_left 1 k

/-- The distance of two revisions, in numbers (R13). -/
theorem revDistance_eq (c h : Revision) : revDistance c h = (c.toNat + 64 - h.toNat) % 64 := by
  have hc : c.toNat < 64 := c.isLt
  have hh : h.toNat < 64 := h.isLt
  rw [revDistance, BitVec.toNat_sub]
  omega

/-- Settles O35, by the distance modulo 64 and that of the two revisions exchanged. -/
theorem revisionOrder : Obligations.RevisionOrder := by
  intro c h
  have hc : c.toNat < 64 := c.isLt
  have hh : h.toNat < 64 := h.isLt
  have hn (a b : Revision) : newer a b = true ↔ 1 ≤ (a.toNat + 64 - b.toNat) % 64 ∧ (a.toNat + 64 - b.toNat) % 64 ≤ 31 := by
    rw [newer, decide_eq_true_eq, revDistance_eq]
  have hf (a b : Revision) : newer a b = false ↔ ¬ newer a b = true := by simp
  refine ⟨hn c h, ?_, fun h1 => ?_, fun h32 => ⟨?_, ?_⟩, rfl, rfl, rfl⟩
  · rw [sameAs, decide_eq_true_eq, ← BitVec.toNat_inj]
    omega
  · rw [hf, hn]
    rw [hn] at h1
    omega
  · rw [hf, hn]
    omega
  · rw [hf, hn]
    omega

/-! ### The cadence -/

theorem playing_of {s : State} {p : Play} {e : Entry} (hp : s.arb.play = some p) (he : s.named p.handle = some e) :
    s.playing = some (p, e) := by
  simp [State.playing, hp, he]

theorem playing_idle {s : State} (hp : s.arb.play = none) : s.playing = none := by
  simp [State.playing, hp]

theorem toneGate_eq (g : Settings) (c : AlertClass) : toneGate g c = (decide (c.num ≤ 2) || g.toneEnable) := by
  cases c <;> rfl

theorem vibGate_eq (g : Settings) (c : AlertClass) : vibGate g c = (decide (c.num ≤ 1) || g.vibrationEnable) := by
  cases c <;> rfl

/-- The segment after one of the pattern: the next, or the first after the last (R145). -/
theorem nextSegment_eq {p : Play} (h : p.segment < p.pattern.segments.length) :
    nextSegment p = { p with
      segment := if p.segment + 1 = p.pattern.segments.length then 0 else p.segment + 1, into := 0 } := by
  have hm : (p.segment + 1) % p.pattern.segments.length =
      if p.segment + 1 = p.pattern.segments.length then 0 else p.segment + 1 := by
    split
    · next hl => rw [hl, Nat.mod_self]
    · exact Nat.mod_eq_of_lt (by omega)
  rw [nextSegment, hm]

/-- Settles O46: the next segment, the outputs of the playing entry by their gates, and Table 34. -/
theorem cadenceMovesToNextSegment : Obligations.CadenceMovesToNextSegment := by
  refine ⟨fun p s hp hl hi => ?_, fun p e s hp he => ⟨?_, ?_, fun r hr => ?_⟩, fun s hp => ?_, fun p h => ?_,
    ⟨rfl, rfl, rfl, rfl⟩, fun c => ⟨by cases c <;> rfl, by cases c <;> rfl⟩⟩
  · show Host.Outcome.next _ = _
    rw [hp]
    simp [hi, nextSegment_eq hl]
  · rw [State.tone, playing_of hp he, ← toneGate_eq]
  · rw [State.vib, playing_of hp he, ← vibGate_eq]
  · simp [State.dwake, playing_of hp he, hr]
  · simp [State.tone, State.vib, State.dwake, playing_idle hp]
  · rw [Play.segmentNow, Nat.mod_eq_of_lt h, List.getD_eq_getElem]

/-! ### What the port reports -/

theorem length_servingBytes (v : Serving) : (servingBytes v).length = 13 := by
  cases v <;> simp [servingBytes, length_bytesOf]

@[simp] theorem length_freeBytes (a n : Nat) : (freeBytes a n).length = n := by
  simp [freeBytes]

theorem length_faultBytes (free : Nat) (f : Option FaultRecord) : (faultBytes free f).length = 8 := by
  cases f <;> simp [faultBytes, length_timeBytes]

/-- A group of READ-LINKS begins with the link's state and serving record, 14 bytes. -/
theorem take_linkBytes (free : Nat) (k : Link) : (linkBytes free k).take 14 = k.state.code :: servingBytes k.serving := by
  simp [linkBytes, length_servingBytes]

/-- The rest of a group: the fault record, the occupied count and the credits. -/
theorem drop_linkBytes (free : Nat) (k : Link) :
    (linkBytes free k).drop 14 = faultBytes free k.fault ++ [byteOf k.occupied, byteOf k.credits] := by
  rw [linkBytes, List.drop_succ_cons, List.append_assoc, List.drop_append_of_le_length (by rw [length_servingBytes]),
    List.drop_of_length_le (by rw [length_servingBytes]), List.nil_append]

theorem length_linkBytes (free : Nat) (k : Link) : (linkBytes free k).length = 24 := by
  simp [linkBytes, length_servingBytes, length_faultBytes]

/-- The 24-byte group of a link, field by field (R42, R193). -/
theorem linkBytes_fields (free : Nat) (k : Link) :
    (linkBytes free k).length = 24 ∧ (linkBytes free k).take 14 = k.state.code :: servingBytes k.serving ∧
    (k.fault = none → (linkBytes free k)[14]? = some 0#8) ∧
    (∀ f, k.fault = some f →
      ((linkBytes free k).drop 14).take 8 = f.kind.code :: (timeBytes f.time ++ [f.frame.code])) ∧
    (linkBytes free k).drop 22 = [BitVec.ofNat 8 k.occupied, BitVec.ofNat 8 k.credits] := by
  refine ⟨length_linkBytes free k, take_linkBytes free k, fun hf => ?_, fun f hf => ?_, ?_⟩
  · rw [← List.head?_drop, drop_linkBytes, hf]
    rfl
  · rw [drop_linkBytes, List.take_left' (length_faultBytes free k.fault), hf]
    rfl
  · have h22 : (linkBytes free k).drop 22 = ((linkBytes free k).drop 14).drop 8 := by rw [List.drop_drop]
    rw [h22, drop_linkBytes, List.drop_left' (length_faultBytes free k.fault)]
    rfl

theorem length_counterBytes (h : HostPort) : (counterBytes h).length = 46 := by
  simp [counterBytes, LinkCounters.bytes, GlobalCounters.bytes, length_bytesOf]

/-- READ_COUNTERS on an idle port is its work, answered. -/
theorem exec_readCounters_framed (b : Byte) (s : State) (h : s.portIdle) :
    exec (.readCounters (framed [b])) s =
      .next ((readCountersWork [b] (s.taken 1)).1.answered (readCountersWork [b] (s.taken 1)).2) := by
  show Host.Outcome.next _ = _
  rw [transact_framed 0x12 1 readCountersWork [b] s h rfl (by decide)]

theorem readCountersWork_flag {b : Byte} {clear : Bool} (s : State) (h : readFlag b.toNat = some clear) :
    readCountersWork [b] s = (if clear then clearCounters s else s, okWith (counterBytes s.host)) := by
  rw [readCountersWork, fieldAt_singleton, h]

theorem readCountersWork_noFlag {b : Byte} (s : State) (h : readFlag b.toNat = none) :
    readCountersWork [b] s = (s, refusal .badValue) := by
  rw [readCountersWork, fieldAt_singleton, h]

theorem readFlag_eq_none {v : Nat} (h : 1 < v) : readFlag v = none := by
  rw [Option.eq_none_iff_forall_ne_some]
  intro a ha
  rw [readFlag_iff] at ha
  omega

/-- Settles O55: the three reads on an idle port, and the layouts of what they return. -/
theorem portReadsReport : Obligations.PortReadsReport := by
  intro s h
  refine ⟨?_, ⟨linkBytes s.freeCtr s.la, linkBytes (s.freeCtr + 7) s.lb, s.freeCtr + 14, ?_, fun l g hg => ?_⟩,
    length_counterBytes _, settingsBytes_laidOut _, fun l => servingBytes_laidOut _, counterBytes_laidOut _,
    bytesOf_place, ⟨rfl, rfl, rfl⟩, ?_, ?_, fun b hb => ?_⟩
  · show Host.Outcome.next _ = _
    rw [transact_framed 0x0C 0 readSettingsWork [] s h rfl (by decide)]
    rfl
  · show Host.Outcome.next _ = _
    rw [transact_framed 0x0D 0 readLinksWork [] s h rfl (by decide)]
    rfl
  · simp only [Prod.mk.injEq] at hg
    rcases hg with ⟨rfl, rfl⟩ | ⟨rfl, rfl⟩
    · exact linkBytes_fields _ _
    · exact linkBytes_fields _ _
  · rw [exec_readCounters_framed 0#8 s h, readCountersWork_flag (clear := false) _ rfl]
    rfl
  · rw [exec_readCounters_framed 1#8 s h, readCountersWork_flag (clear := true) _ rfl]
    rfl
  · rw [exec_readCounters_framed b s h, readCountersWork_noFlag _ (readFlag_eq_none hb)]
    rfl

/-! ### The response read -/

theorem length_encode (r : Response) : r.encode.length = 3 + r.body.length := by
  simp [Response.encode, length_bytesOf]
  omega

/-- Settles O56, by whether a response is pending and whether its last byte is reached. -/
theorem responseReadClocksOut : Obligations.ResponseReadClocksOut := by
  intro n s ht
  have he : exec (.responseRead n) s = .next ((s.setHost { s.host with
        hcpOut := s.status :: readOut s.freeCtr n s.host.response
        response := if readWhole n s.host.response then none else s.host.response }).setFreeCtr
        (s.freeCtr + readBeyond n s.host.response)) := by
    show Host.Outcome.next _ = _
    rw [ht]
  refine ⟨fun hr => ?_, fun r hr hn => ?_, fun r hr hn => ⟨freeBytes s.freeCtr (n - r.encode.length), _, ?_, he, ?_, ?_⟩⟩
  · rw [he, hr]
    simp [readOut, readWhole, readBeyond, State.status, State.shifted, State.setFreeCtr, State.setHost, hr, accepting]
  · have hl := length_encode r
    rw [he, hr]
    have hw : readWhole n (some r) = false := by simp [readWhole, hl]; omega
    have hb : n - r.encode.length = 0 := by omega
    simp only [hw, readOut, readBeyond, hb, State.status, hr, freeBytes]
    simp [busy, State.setFreeCtr, State.setHost, Response.encode]
  · rw [length_freeBytes, length_encode]
  · simp [State.rdy, hr, readWhole, length_encode, hn]
  · have hl := length_encode r
    have hw : readWhole n (some r) = true := by simp [readWhole, hl, hn]
    have ht' : r.encode.take n = r.encode := List.take_of_length_le (by omega)
    have hs : s.status = 0xC3#8 := by simp [State.status, hr, busy]
    rw [hr, hw, hs, readOut, ht', length_freeBytes]
    rfl

/-! ### What the port refuses -/

/-- The bytes that follow a code and are framed for a length are that length field and a body of it. -/
theorem eq_framed_of_framedFor {code : Byte} {len : Nat} {bytes : List Byte} (h : framedFor len (code :: bytes) = true) :
    ∃ body, body.length = len ∧ bytes = framed body := by
  simp only [framedFor, Bool.and_eq_true, decide_eq_true_eq, List.length_cons] at h
  obtain ⟨hl, hf⟩ := h
  rcases bytes with _ | ⟨a, _ | ⟨b, body⟩⟩
  · simp only [List.length_nil] at hl
    omega
  · simp only [List.length_cons, List.length_nil] at hl
    omega
  · have hb : body.length = len := by
      simp only [List.length_cons] at hl
      omega
    have hv : a.toNat * 256 + b.toNat = len := (fieldAt_pair a b).symm.trans hf
    have ha : BitVec.ofNat 8 ((a.toNat * 256 + b.toNat) / 256) = a := by bv_omega
    have hlow : BitVec.ofNat 8 (a.toNat * 256 + b.toNat) = b := by bv_omega
    refine ⟨body, hb, ?_⟩
    rw [framed, hb, ← hv]
    simp [bytesOf, ha, hlow]

/-- A frame of the wrong length is answered BAD-LENGTH. -/
theorem transact_badLength (code : Byte) (len : Nat) (work : List Byte → State → Answer) (bytes : List Byte) (s : State)
    (ht : s.host.txn = none) (hr : s.host.response = none) (hb : ∀ body, body.length = len → bytes ≠ framed body) :
    transact code len work bytes s = respond (refusal .badLength) (endTransaction (code :: bytes) s) := by
  have hf : framedFor len (code :: bytes) = false := by
    rw [Bool.eq_false_iff]
    intro h
    obtain ⟨body, hl, he⟩ := eq_framed_of_framedFor h
    exact hb body hl he
  simp [transact, takeFrame, State.gathered, ht, hr, hf]

/-- The end of a transaction of a code and its bytes leaves the status byte and zeros on MISO. -/
theorem endTransaction_eq (code : Byte) (bytes : List Byte) {s : State} (ht : s.host.txn = none) :
    endTransaction (code :: bytes) s = s.shifted s.status bytes.length := by
  simp [endTransaction, State.shifted, State.setHost, ht]

theorem status_busy {s : State} (h : s.host.response ≠ none) : s.status = 0xC3#8 := by
  simp [State.status, Option.isSome_iff_ne_none.2 h, busy]

theorem status_accepting {s : State} (h : s.host.response = none) : s.status = 0x3C#8 := by
  simp [State.status, h, accepting]

/-- The codes that are no command of Table 50 and no response read (R192). -/
def UnknownCode (code : Byte) : Prop := (code = 0#8 ∨ 18 < code.toNat) ∧ code ≠ 0xFF#8

theorem UnknownCode.notKnown {code : Byte} (h : UnknownCode code) : ¬ knownCommandCode code := by
  obtain ⟨rfl | h, -⟩ := h
  · decide
  · rintro ⟨-, hle⟩
    omega

/-- The row of an unknown code. -/
theorem hostRow_unknown {code : Byte} (h : UnknownCode code) (bytes : List Byte) :
    hostRow code bytes = .badCommand code bytes := by
  have hk := h.notKnown
  unfold knownCommandCode at hk
  unfold hostRow
  rw [if_neg h.2]
  split
  case h_19 => rfl
  all_goals omega

/-- BAD_COMMAND with a whole transaction of an unknown code, as it finds the response. -/
theorem exec_badCommand {code : Byte} (h : UnknownCode code) (bytes : List Byte) {s : State} (ht : s.host.txn = none) :
    exec (.badCommand code bytes) s = .next
      (if s.host.response.isSome then endTransaction (code :: bytes) s
       else respond (refusal .badCommand) (endTransaction (code :: bytes) s)) := by
  show Host.Outcome.next _ = _
  rw [if_pos ⟨by simp [State.gathered, ht], h.notKnown, h.2⟩]
  simp [State.gathered, ht]

/-- Settles O57: a transaction on a busy port, one of the wrong length, one of an unknown code, and the row of each. -/
theorem refusedCommandsHaveNoEffect : Obligations.RefusedCommandsHaveNoEffect := by
  intro s ht
  refine ⟨fun c code len bytes hf => ⟨fun hr => ?_, fun hr hb => ?_⟩,
    fun code bytes hc hne => ⟨fun hr => ?_, fun hr => ?_⟩, fun c code len bytes hf => ?_,
    fun code bytes hc hne => congrArg some (hostRow_unknown ⟨hc, hne⟩ bytes), fun bytes => rfl, rfl⟩
  · obtain ⟨r, hr'⟩ := Option.ne_none_iff_exists'.1 hr
    rw [exec_hostFrame hf, transact_busy code len _ bytes s r ht hr', endTransaction_eq code bytes ht, status_busy hr]
  · rw [exec_hostFrame hf, transact_badLength code len _ bytes s ht hr hb, endTransaction_eq code bytes ht,
      status_accepting hr]
    rfl
  · rw [exec_badCommand ⟨hc, hne⟩ bytes ht, if_pos (Option.isSome_iff_ne_none.2 hr), endTransaction_eq code bytes ht,
      status_busy hr]
  · rw [exec_badCommand ⟨hc, hne⟩ bytes ht, if_neg (by simp [hr]), endTransaction_eq code bytes ht,
      status_accepting hr]
    rfl
  · cases c
    all_goals cases hf
    all_goals rfl

end Sys2Proof.Machine
end

section
/-! Frames on a link (R18 to R33): the byte that begins one, its header, its timeout, and what HELLO, GOODBYE and a frame
outside UP do. -/

namespace Sys2Proof.Machine

/-! ### A change made before a fault or an offer -/

/-- A refusal seen from the state before a change that left receipts, directory and the link's outstanding receipt. -/
theorem OutstandingRefused.before {l : LinkId} {s u t : State} (h : OutstandingRefused l u t) (hr : u.rcpt = s.rcpt)
    (hd : u.dir = s.dir) (hn : u.now = s.now) (hc : u.host.cntG = s.host.cntG)
    (hl : (u.link l).outstanding = (s.link l).outstanding) (ho : u.link l.other = s.link l.other) :
    OutstandingRefused l s t := by
  intro r hout hrec htarget hstate hids hhandle
  have hrec' : u.recordOf r.id = some r := by
    rw [State.recordOf, hr]
    exact hrec
  refine RefusedBy.before (h r (hl.trans hout) hrec' htarget hstate ?_ ?_) hr hd hn hc ?_
  · rw [hr]
    exact hids
  · rw [hr]
    exact hhandle
  · rw [htarget]
    exact ho

/-- A refusal stands when an event is posted after it. -/
theorem OutstandingRefused.post {l : LinkId} {s t : State} (h : OutstandingRefused l s t) (k : EventKind) :
    OutstandingRefused l s (post k t) := by
  intro r hout hrec htarget hstate hids hhandle
  have hr := h r hout hrec htarget hstate hids hhandle
  exact hr.later (by simp) (by simp) (by simp) (by simpa using hr.outstanding) (by simp)
    fun he => (work_post k t).events EventKind.receiptDone.code he

/-- A fault seen from the state before a change of the link's frame and slots. -/
theorem FaultedBy.before_modLink {l : LinkId} {k : FaultKind} {x : FrameKind} {f : Link → Link} {s t : State}
    (h : FaultedBy l k x (modLink l f s) t) (ho : (f (s.link l)).outstanding = (s.link l).outstanding)
    (hv : (f (s.link l)).serving = (s.link l).serving) : FaultedBy l k x s t where
  state := h.state
  fault := by rw [h.fault, State.now_modLink]
  quarantine := by rw [h.quarantine, State.now_modLink]
  credits := h.credits
  subWaiting := h.subWaiting
  outstanding := h.outstanding
  refused := h.refused.before (by simp) (by simp) (by simp) (by simp) (by simpa using ho) (by simp)
  outQ := h.outQ
  noFrame := h.noFrame
  serving := h.serving.trans (by simpa using hv)
  trigger := h.trigger.trans (servingTrigger_kept (receiptWork_modLink l f s))
  posted := h.posted
  counted := by rw [h.counted, State.host_modLink]
  other := by rw [h.other, State.link_modLink_other]
  profile := by rw [h.profile, State.prof_modLink]
  arbiter := by rw [h.arbiter, State.arb_modLink]
  directory := (receiptWork_modLink l f s).directory.trans h.directory
  told := (told_modLink l f s).trans h.told

/-- An overrun counted on a link (R29). -/
def countOverrun (l : LinkId) (s : State) : State := countLink l (fun c => { c with overruns := bump c.overruns }) s

theorem told_countOverrun (l : LinkId) (s : State) : Told s (countOverrun l s) := by
  refine (work_countLink l _ s fun c hc => ?_).told
  simp only [LinkCounters.bounded, bump] at hc ⊢
  omega

@[simp] theorem link_countOverrun (l m : LinkId) (s : State) : (countOverrun l s).link m = s.link m :=
  State.link_countLink l m _ s

theorem faults_countOverrun (l : LinkId) (s : State) :
    ((countOverrun l s).host.counters l).faults = (s.host.counters l).faults := by
  cases l <;> rfl

theorem overruns_countOverrun (l : LinkId) (s : State) :
    ((countOverrun l s).host.counters l).overruns = min ((s.host.counters l).overruns + 1) 65535 := by
  cases l <;> rfl

theorem overrunLink_eq (l : LinkId) (s : State) : overrunLink l s = faultLink l .overrun .page (countOverrun l s) := rfl

/-- An overrun, seen from the state before it was counted. -/
theorem faultedBy_overrunLink (l : LinkId) (s : State) : FaultedBy l .overrun .page s (overrunLink l s) := by
  have h := faultedBy_faultLink l .overrun .page (countOverrun l s)
  have ht := told_countOverrun l s
  rw [overrunLink_eq]
  exact {
    state := h.state
    fault := by rw [h.fault, ht.now]
    quarantine := by rw [h.quarantine, ht.now]
    credits := h.credits
    subWaiting := h.subWaiting
    outstanding := h.outstanding
    refused := h.refused.before (by simp [countOverrun]) (by simp [countOverrun]) ht.now (by simp [countOverrun])
      (by simp) (by simp)
    outQ := h.outQ
    noFrame := h.noFrame
    serving := by rw [h.serving, link_countOverrun]
    trigger := by
      rw [h.trigger]
      cases l <;> rfl
    posted := h.posted
    counted := by rw [h.counted, faults_countOverrun]
    other := by rw [h.other, link_countOverrun]
    profile := by rw [h.profile, countOverrun, State.prof_countLink]
    arbiter := by rw [h.arbiter, countOverrun, State.arb_countLink]
    directory := (directoryKept.of_dir (State.dir_countLink l _ s)).trans h.directory
    told := ht.trans h.told }

/-- A fault counts no overrun. -/
theorem overruns_faultLink (l : LinkId) (k : FaultKind) (f : FrameKind) (s : State) :
    ((faultLink l k f s).host.counters l).overruns = (s.host.counters l).overruns := by
  have h := congrArg LinkCounters.overruns (counters_leaveUp l l .faulted (recordFault l k f s))
  cases l
  all_goals exact h

/-! ### The frame in progress -/

/-- The end of a frame, seen from before it, makes no difference to a fault. -/
theorem FaultedBy.before_endFrame {l : LinkId} {k : FaultKind} {x : FrameKind} {s t : State}
    (h : FaultedBy l k x (endFrame l s) t) : FaultedBy l k x s t :=
  h.before_modLink rfl rfl

@[simp] theorem link_endFrame (l : LinkId) (s : State) :
    (endFrame l s).link l = { s.link l with frame := none } :=
  State.link_modLink_same l _ s

@[simp] theorem link_other_endFrame (l : LinkId) (s : State) : (endFrame l s).link l.other = s.link l.other :=
  State.link_modLink_other l _ s

@[simp] theorem prof_endFrame (l : LinkId) (s : State) : (endFrame l s).prof = s.prof := State.prof_modLink l _ s
@[simp] theorem dir_endFrame (l : LinkId) (s : State) : (endFrame l s).dir = s.dir := State.dir_modLink l _ s
@[simp] theorem area_endFrame (l : LinkId) (s : State) : (endFrame l s).area = s.area := State.area_modLink l _ s
@[simp] theorem arb_endFrame (l : LinkId) (s : State) : (endFrame l s).arb = s.arb := State.arb_modLink l _ s
@[simp] theorem rcpt_endFrame (l : LinkId) (s : State) : (endFrame l s).rcpt = s.rcpt := State.rcpt_modLink l _ s
@[simp] theorem now_endFrame (l : LinkId) (s : State) : (endFrame l s).now = s.now := State.now_modLink l _ s
@[simp] theorem host_endFrame (l : LinkId) (s : State) : (endFrame l s).host = s.host := State.host_modLink l _ s

@[simp] theorem nextReceipt_endFrame (l m : LinkId) (s : State) : (endFrame l s).nextReceipt m = s.nextReceipt m := by
  rw [State.nextReceipt, rcpt_endFrame]
  rfl

/-- The end of a frame touches no receipt, directory or area. -/
theorem receiptWork_endFrame (l : LinkId) (s : State) : ReceiptWork s (endFrame l s) := receiptWork_modLink l _ s

theorem endFrame_eq (l : LinkId) (s : State) : endFrame l s = s.setLink l { s.link l with frame := none } := rfl

theorem keepHeader_eq (l : LinkId) (h : FrameHeader) (f : FrameProgress) (s : State) :
    keepHeader l h none f s = s.setLink l { s.link l with frame := some { f with header := some h, slot := none } } := rfl

section
variable {l : LinkId} {k : FrameKind} {b : List Byte} {s : State}

/-- A frame in progress that its last byte completes, as `State.receives` says it. -/
theorem completing_of_receives (hs : (s.link l).state ≠ .faulted) (h : s.receives l k b.length) :
    ∃ f, s.completing l k b = some f := by
  obtain ⟨f, hf, hh⟩ := h
  exact ⟨f, completing_of hs hf hh⟩

theorem onComplete_up {f : FrameProgress} (up : FrameProgress → State → State) (other : State → State)
    (hc : s.completing l k b = some f) (hu : (s.link l).state = .up) :
    onComplete l k b up other s = up f (endFrame l s) := by
  rw [onComplete, hc]
  exact if_pos hu

theorem onComplete_notUp {f : FrameProgress} (up : FrameProgress → State → State) (other : State → State)
    (hc : s.completing l k b = some f) (hu : (s.link l).state ≠ .up) :
    onComplete l k b up other s = other (endFrame l s) := by
  rw [onComplete, hc]
  exact if_neg hu

theorem onComplete_faulted (up : FrameProgress → State → State) (other : State → State)
    (hu : (s.link l).state = .faulted) : onComplete l k b up other s = s := by
  rw [onComplete, State.completing, if_pos hu]

end

/-- The meaning of a frame's end on a link in UP, by the kind of the frame. -/
def frameUp (kind : FrameKind) (l : LinkId) (body : List Byte) (f : FrameProgress) (t : State) : State :=
  match kind with
  | .hello => if body = [] then openLink l t else faultLink l .malformed .hello t
  | .goodbye => if body = [] then closeLink l t else faultLink l .malformed .goodbye t
  | .page =>
    match f.slot with
    | none => if body = [] then faultLink l .malformed .page t else t
    | some i => if (t.link l).slots[i] = .receiving then pageInSlot l i body t else t
  | .serving =>
    match readServing body with
    | none => faultLink l .malformed .serving t
    | some v => takeServing l v t
  | .receiptResult =>
    match readReceiptResult body with
    | none => faultLink l .malformed .receiptResult t
    | some (id, sent) => settleResult l id sent t
  | .unknown => faultLink l .malformed .unknown t

/-- The meaning of a frame's end in DOWN and SYNC: only a well-formed HELLO is heard (R18, R23). -/
def frameElsewhere (kind : FrameKind) (l : LinkId) (body : List Byte) (t : State) : State :=
  if kind = .hello ∧ body = [] then openLink l t else t

/-- Every frame's end is one completion, by the kind of the frame. -/
theorem exec_frameEnd (kind : FrameKind) (l : LinkId) (body : List Byte) (s : State) :
    exec (frameEnd kind l body) s =
      .next (onComplete l kind body (frameUp kind l body) (frameElsewhere kind l body) s) := by
  cases kind
  case hello =>
    have h : frameElsewhere .hello l body = fun t => if body = [] then openLink l t else t := by
      funext t
      simp [frameElsewhere]
    rw [h]
    rfl
  all_goals rfl

theorem exec_frameEnd_up {kind : FrameKind} {l : LinkId} {body : List Byte} {s : State} {f : FrameProgress}
    (hu : (s.link l).state = .up) (hf : (s.link l).frame = some f)
    (hh : f.header = if body.length = 0 then none else some ⟨kind, body.length⟩) :
    exec (frameEnd kind l body) s = .next (frameUp kind l body f (endFrame l s)) := by
  rw [exec_frameEnd, onComplete_up _ _ (completing_of (by rw [hu]; decide) hf hh) hu]

/-! ### The byte that begins a frame, and its header -/

theorem huntByte_marker (l : LinkId) (s : State) :
    huntByte l 0xA5#8 s = s.setLink l { s.link l with frame := some ⟨s.now, s.now + 4, none, none⟩ } := rfl

theorem huntByte_other {l : LinkId} {b : Byte} {s : State} (hb : b ≠ 0xA5#8) :
    huntByte l b s = if (s.link l).state = .up then faultLink l .malformed .unknown s else s := by
  have hm : b ≠ startMarker := hb
  rw [huntByte, if_neg hm]
  cases hs : (s.link l).state
  all_goals simp

/-- Settles O6, by the link's state and the byte. -/
theorem huntingByteBeginsFrameOrFaults : Obligations.HuntingByteBeginsFrameOrFaults := by
  intro l b s hf
  have he (hs : (s.link l).state ≠ .faulted) : exec (.frameStart l b) s = .next (huntByte l b s) := by
    show Host.Outcome.next _ = _
    rw [if_neg hs, hf]
  refine ⟨fun hs hb => ?_, fun h => ?_, fun hu hb => ?_⟩
  · rw [he hs, hb, huntByte_marker]
  · by_cases hs : (s.link l).state = .faulted
    · show Host.Outcome.next _ = _
      rw [if_pos hs]
    · obtain ⟨hb, hu⟩ := h.resolve_left hs
      rw [he hs, huntByte_other hb, if_neg hu]
  · refine ⟨_, he (by rw [hu]; decide), ?_⟩
    rw [huntByte_other hb, if_pos hu]
    exact ⟨faultedBy_faultLink l .malformed .unknown s, slots_faultLink l .malformed .unknown s⟩

theorem occupied_eq_true {v : Slot} : v.occupied = true ↔ v ≠ .free := by
  cases v <;> simp [Slot.occupied]

/-- The FREE slot with the lowest number. -/
theorem Link.lowestFree_eq_some {k : Link} {i : PageSlot} (hi : k.slots[i] = .free)
    (hb : ∀ j : PageSlot, j < i → k.slots[j] ≠ .free) : k.lowestFree = some i := by
  unfold Link.lowestFree pageSlotList
  rw [List.find?_eq_some_iff_getElem]
  refine ⟨by simp [hi, Slot.occupied], i.val, by simp [i.isLt], by simp, fun j hj => ?_⟩
  have hlt : j < Config.pageSlots := by omega
  have hne := hb ⟨j, hlt⟩ hj
  simpa [occupied_eq_true] using hne

theorem Link.lowestFree_eq_none {k : Link} (h : ∀ i : PageSlot, k.slots[i] ≠ .free) : k.lowestFree = none := by
  unfold Link.lowestFree
  rw [List.find?_eq_none]
  intro i _
  simpa [occupied_eq_true] using h i

/-- FRAME_HEADER with a body to come, on a link in UP. -/
theorem exec_frameHeader_up {l : LinkId} {kind : Byte} {len : BitVec 16} {f : FrameProgress} {s : State}
    (hu : (s.link l).state = .up) (hf : (s.link l).frame = some f) (hh : f.header = none) (hl : len ≠ 0#16) :
    exec (.frameHeader l kind len) s = .next (headerUp l ⟨readFrameKind kind, len.toNat⟩ f s) := by
  show Host.Outcome.next _ = _
  simp [hf, hh, hl, hu]

/-- Settles O7, by whether a slot is FREE. -/
theorem pageHeaderReservesOrOverruns : Obligations.PageHeaderReservesOrOverruns := by
  intro l len f s hu hf hh hlow hhigh
  have hl : len ≠ 0#16 := by
    rintro rfl
    exact absurd hlow (by decide)
  have he : exec (.frameHeader l 0x03#8 len) s = .next (match (s.link l).lowestFree with
      | none => overrunLink l s
      | some i => keepHeader l ⟨.page, len.toNat⟩ (some i) f (reserveSlot l i s)) := by
    rw [exec_frameHeader_up hu hf hh hl, headerUp, if_pos (by simp [readFrameKind, lengthInBounds, hlow, hhigh])]
    exact congrArg Host.Outcome.next (if_pos rfl)
  refine ⟨fun i hi hb => ?_, fun hfull => ?_⟩
  · rw [he, Link.lowestFree_eq_some hi hb]
    simp [keepHeader, reserveSlot, modLink, Link.setSlot]
  · rw [Link.lowestFree_eq_none hfull] at he
    refine ⟨_, he, faultedBy_overrunLink l s, ?_, ?_⟩
    · rw [overrunLink_eq, slots_faultLink, link_countOverrun]
    · rw [overrunLink_eq, overruns_faultLink, overruns_countOverrun]

/-- The kinds by their bytes (Table 47). -/
theorem readFrameKind_cases (b : Byte) :
    (b.toNat = 1 ∧ readFrameKind b = .hello) ∨ (b.toNat = 2 ∧ readFrameKind b = .goodbye) ∨
    (b.toNat = 3 ∧ readFrameKind b = .page) ∨ (b.toNat = 4 ∧ readFrameKind b = .serving) ∨
    (b.toNat = 5 ∧ readFrameKind b = .receiptResult) ∨
    ((b.toNat = 0 ∨ 5 < b.toNat) ∧ readFrameKind b = .unknown) := by
  unfold readFrameKind
  split
  case h_6 =>
    simp only [reduceCtorEq, and_false, and_true, false_or, imp_false] at *
    omega
  all_goals
    next h => simp [h]

theorem readFrameKind_eq (b : Byte) :
    (readFrameKind b = .hello ↔ b = 0x01#8) ∧ (readFrameKind b = .goodbye ↔ b = 0x02#8) ∧
    (readFrameKind b = .page ↔ b = 0x03#8) ∧ (readFrameKind b = .serving ↔ b = 0x04#8) ∧
    (readFrameKind b = .receiptResult ↔ b = 0x05#8) ∧
    (readFrameKind b = .unknown ↔ b = 0x00#8 ∨ 5 < b.toNat) := by
  simp only [← BitVec.toNat_inj, BitVec.toNat_ofNat]
  rcases readFrameKind_cases b with ⟨h, hk⟩ | ⟨h, hk⟩ | ⟨h, hk⟩ | ⟨h, hk⟩ | ⟨h, hk⟩ | ⟨h, hk⟩
  all_goals
    simp only [hk, reduceCtorEq, false_iff, true_iff]
    omega

theorem lengthInBounds_eq (n : Nat) :
    (lengthInBounds .hello n = true ↔ n = 0) ∧ (lengthInBounds .goodbye n = true ↔ n = 0) ∧
    (lengthInBounds .page n = true ↔ 26 ≤ n ∧ n ≤ 275) ∧ (lengthInBounds .serving n = true ↔ 1 ≤ n ∧ n ≤ 13) ∧
    (lengthInBounds .receiptResult n = true ↔ n = 2) ∧ lengthInBounds .unknown n = false := by
  simp [lengthInBounds]

/-- A header with a body length of 0 is the end of its frame (R189). -/
theorem exec_frameHeader_empty {l : LinkId} {kind : Byte} {f : FrameProgress} {s : State}
    (hf : (s.link l).frame = some f) (hh : f.header = none) (hslot : f.slot = none) :
    exec (.frameHeader l kind 0#16) s = exec (frameEnd (readFrameKind kind) l []) s := by
  have he : exec (.frameHeader l kind 0#16) s = .next (emptyFrame l (readFrameKind kind) s) := by
    show Host.Outcome.next _ = _
    simp [hf, hh]
  rw [he, exec_frameEnd, emptyFrame.eq_def]
  have hc (hs : (s.link l).state ≠ .faulted) : s.completing l (readFrameKind kind) [] = some f :=
    completing_of hs hf (by simpa using hh)
  cases hst : (s.link l).state
  case up =>
    rw [onComplete_up _ _ (hc (by simp [hst])) hst]
    cases readFrameKind kind
    case page => simp [frameUp, hslot]
    all_goals rfl
  case faulted => rw [onComplete_faulted _ _ hst]
  all_goals
    rw [onComplete_notUp _ _ (hc (by simp [hst])) (by simp [hst])]
    simp [frameElsewhere]

/-- Settles O8: the header out of bounds, the header kept, the frame without a body, and Table 47. -/
theorem headerJudgedByKindAndLength : Obligations.HeaderJudgedByKindAndLength := by
  intro l kind len f s hf hh
  refine ⟨fun hu hb => ?_, fun hk hl => ?_, fun hl hslot => ?_, readFrameKind_eq kind, lengthInBounds_eq⟩
  · by_cases hl : len = 0#16
    · subst hl
      have he : exec (.frameHeader l kind 0#16) s =
          .next (faultLink l .malformed (readFrameKind kind) (endFrame l s)) := by
        show Host.Outcome.next _ = _
        cases hk : readFrameKind kind
        case hello => simp [hk, lengthInBounds] at hb
        case goodbye => simp [hk, lengthInBounds] at hb
        all_goals simp [hf, hh, emptyFrame, hu]
      refine ⟨_, he, (faultedBy_faultLink l .malformed _ _).before_endFrame, ?_⟩
      rw [slots_faultLink, link_endFrame]
    · refine ⟨_, exec_frameHeader_up hu hf hh hl, ?_⟩
      rw [headerUp, if_neg (by simp [hb])]
      exact ⟨faultedBy_faultLink l .malformed _ s, slots_faultLink l .malformed _ s⟩
  · rcases hk with ⟨hu, hb, hne⟩ | hd | hy
    · rw [exec_frameHeader_up hu hf hh hl, headerUp, if_pos hb, if_neg, keepHeader_eq]
      exact fun hp => hne ((readFrameKind_eq kind).2.2.1.1 hp)
    · show Host.Outcome.next _ = _
      simp [hf, hh, hl, hd, keepHeader_eq]
    · show Host.Outcome.next _ = _
      simp [hf, hh, hl, hy, keepHeader_eq]
  · subst hl
    exact exec_frameHeader_empty hf hh hslot

/-! ### The timeout -/

/-- The slot a frame had reserved, seen on its link. -/
theorem link_releaseReserved (l : LinkId) (f : FrameProgress) (s : State) :
    (releaseReserved l f s).link l =
      match f.slot with
      | none => s.link l
      | some i => (s.link l).setSlot i .free := by
  unfold releaseReserved
  cases f.slot
  · rfl
  · exact State.link_modLink_same _ _ _

theorem FaultedBy.before_releaseReserved {l : LinkId} {k : FaultKind} {x : FrameKind} {f : FrameProgress} {s t : State}
    (h : FaultedBy l k x (releaseReserved l f s) t) : FaultedBy l k x s t := by
  unfold releaseReserved at h
  split at h
  · exact h
  · exact h.before_modLink rfl rfl

/-- The slots after a release: the reserved one FREE, the others as they were. -/
theorem slots_releaseReserved (l : LinkId) (f : FrameProgress) (s : State) (i : PageSlot) :
    ((releaseReserved l f s).link l).slots[i] = if f.slot = some i then .free else (s.link l).slots[i] := by
  rw [link_releaseReserved]
  cases f.slot with
  | none => rfl
  | some j => simp [Link.setSlot, Vector.getElem_set, Fin.ext_iff]

/-- Settles O9, by the link's state. -/
theorem frameTimeoutFaultsOnlyInUp : Obligations.FrameTimeoutFaultsOnlyInUp := by
  intro l kindRead f s hf hd
  have he : exec (.frameTimeout l kindRead) s = .next (timeoutFrame l f kindRead s) := by
    show Host.Outcome.next _ = _
    simp [hf, hd]
  refine ⟨fun hu => ⟨_, he, ?_, fun i => ?_⟩, fun hn => ?_, ?_⟩
  · rw [timeoutFrame, hu]
    exact (faultedBy_faultLink l .timeout _ _).before_releaseReserved
  · simp only [timeoutFrame, hu, slots_faultLink]
    exact slots_releaseReserved l f s i
  · rw [he, timeoutFrame]
    rcases hn with hn | hn
    · rw [hn]
      rfl
    · rw [hn]
      rfl
  · unfold timeoutKind
    cases f.header
    · cases kindRead <;> rfl
    · rfl

/-! ### HELLO, GOODBYE, and frames outside UP -/

/-- An offer seen from the state before a change that left receipts, directory and clock. -/
theorem OfferedBy.before {r : ReceiptRecord} {s u t : State} (h : OfferedBy r u t) (hr : u.rcpt = s.rcpt)
    (hd : u.dir = s.dir) (hn : u.now = s.now) : OfferedBy r s t where
  queue := by rw [h.queue, hr, hn]
  entry e he := h.entry e (by rw [named_congr hd]; exact he)
  entries j hj := by
    rw [← entryAt_congr hd]
    exact h.entries j (by rw [named_congr hd]; exact hj)
  outstanding := h.outstanding

/-- Entry to UP offers the oldest QUEUED record of a link that has none outstanding, and touches no receipt else. -/
theorem receipts_enterUp (l : LinkId) (s : State) (ho : (s.link l).outstanding = none) :
    (s.nextReceipt l = none → (enterUp l s).rcpt = s.rcpt ∧ (enterUp l s).dir = s.dir) ∧
    ∀ r, s.nextReceipt l = some r → OfferedBy r s (enterUp l s) := by
  obtain ⟨u, hu⟩ : ∃ u, u = servingTrigger (post .linkState (modLink l openedLink s)) := ⟨_, rfl⟩
  have he : enterUp l s = offer l u := by rw [hu]; rfl
  have hlink : u.link l = openedLink (s.link l) := by rw [hu, link_servingTrigger]; simp
  have hrcpt : u.rcpt = s.rcpt := by simp [hu, servingTrigger, trigger]
  have hdir : u.dir = s.dir := by simp [hu, servingTrigger, trigger]
  have hnow : u.now = s.now := by simp [hu, servingTrigger, trigger]
  have hnext : u.nextReceipt l = s.nextReceipt l := by rw [State.nextReceipt, hrcpt]; rfl
  have hup : (u.link l).state = .up := by rw [hlink]; rfl
  have hfree : (u.link l).outstanding = none := by rw [hlink]; exact ho
  refine ⟨fun hn => ?_, fun r hr => ?_⟩
  · rw [he, offer, if_pos ⟨hup, hfree⟩, hnext, hn]
    exact ⟨hrcpt, hdir⟩
  · rw [he, offer_next hup hfree (hnext.trans hr)]
    exact (offeredBy_makeOffer r u).before hrcpt hdir hnow

/-- The record offered next is the first of the queue that targets the link and is QUEUED. -/
theorem nextReceipt_first {s : State} {l : LinkId} {r : ReceiptRecord} (h : s.nextReceipt l = some r) :
    ∃ a b, s.rcpt.queue = a ++ r :: b ∧ ∀ y ∈ a, y.target = l → y.state ≠ .queued := by
  obtain ⟨-, a, b, hq, ha⟩ := List.find?_eq_some_iff_append.1 h
  refine ⟨a, b, hq, fun y hy ht hs => ?_⟩
  simpa [ht, hs] using ha y hy

/-- Settles O10: the link record by `offer_enterUp`, the receipt by `receipts_enterUp`. -/
theorem helloOpensLink : Obligations.HelloOpensLink := by
  intro l s hsound hst hrec
  obtain ⟨f, hf, hh⟩ := hrec
  have hu : (s.link l).state ≠ .up := by rcases hst with h | h <;> simp [h]
  have hs : (s.link l).state ≠ .faulted := by rcases hst with h | h <;> simp [h]
  obtain ⟨hquiet, hdown, hsync, -, -⟩ := (hsound l).2.2
  have ho : (s.link l).outstanding = none := (hquiet hu).2
  have hq : (s.link l).outQ = [] ∨ (s.link l).outQ = [.helloRequest] := by
    rcases hst with h | h
    · exact .inl (hdown (.inl h))
    · exact hsync h
  have he : exec (.hello l []) s = .next (enterUp l (endFrame l s)) := by
    rw [show Instr.hello l [] = frameEnd .hello l [] from rfl, exec_frameEnd,
      onComplete_notUp _ _ (completing_of hs hf (by simpa using hh)) hu]
    simp [frameElsewhere, openLink, hu]
  have hopen := (openedBy_enterUp l (endFrame l s) (by simp)).after (receiptWork_endFrame l s) (told_endFrame l s)
    (by simp) (by simp) (by simp) (by simp)
  obtain ⟨hout, houtQ, hother⟩ := offer_enterUp l (endFrame l s) (by simpa using ho) (by simpa using hq)
  obtain ⟨hnone, hsome⟩ := receipts_enterUp l (endFrame l s) (by simpa using ho)
  simp only [nextReceipt_endFrame, rcpt_endFrame, dir_endFrame, link_endFrame] at hout houtQ hnone hsome
  refine ⟨_, he, hopen, by rw [hother, link_other_endFrame], hout, hnone, fun r hr => ?_, ?_, nextReceipt_eq_none_iff,
    fun r hr => nextReceipt_first hr⟩
  · obtain ⟨htarget, hqueued⟩ := nextReceipt_target hr
    exact ⟨nextReceipt_mem hr, htarget, hqueued, (hsome r hr).before (by simp) (by simp) (by simp)⟩
  · exact houtQ

/-- Settles O11: the resync refuses the outstanding receipt, then enters UP as an empty link. -/
theorem helloResyncsLink : Obligations.HelloResyncsLink := by
  intro l s hu hrec
  obtain ⟨f, hf, hh⟩ := hrec
  have he : exec (.hello l []) s = .next (enterUp l (suspendLink l (endFrame l s))) := by
    rw [show Instr.hello l [] = frameEnd .hello l [] from rfl, exec_frameEnd_up hu hf (by simpa using hh)]
    simp [frameUp, openLink, hu]
  have hlink : (suspendLink l (endFrame l s)).link l =
      { s.link l with state := .down, outQ := [], outstanding := none, frame := none } := by
    rw [suspendLink, link_refuseOutstanding l _ (by simp)]
    simp
  have hwork : ReceiptWork s (suspendLink l (endFrame l s)) :=
    (receiptWork_endFrame l s).trans ((receiptWork_modLink l _ _).trans (receiptWork_refuseOutstanding l _))
  have hcore : ((suspendLink l (endFrame l s)).link l.other).core = (s.link l.other).core := by
    rw [suspendLink, (work_refuseOutstanding l _).link]
    simp
  have hprof : (suspendLink l (endFrame l s)).prof = s.prof := by
    rw [suspendLink, (work_refuseOutstanding l _).prof]
    simp
  have hopen := (openedBy_enterUp l (suspendLink l (endFrame l s)) (by rw [hlink])).after hwork
    ((told_endFrame l s).trans (told_suspendLink l _)) hprof (by rw [hlink]) (by rw [hlink]) hcore
  obtain ⟨-, houtQ, -⟩ := offer_enterUp l (suspendLink l (endFrame l s)) (by rw [hlink]) (.inl (by rw [hlink]))
  refine ⟨_, he, hopen, (refused_resync l (endFrame l s)).before (by simp) (by simp) (by simp) (by simp) (by simp) (by simp),
    _, houtQ.trans (by rw [hlink]; rfl), ?_, ?_⟩
  · cases (suspendLink l (endFrame l s)).nextReceipt l <;> simp
  · cases (suspendLink l (endFrame l s)).nextReceipt l <;> simp [OutFrame.isReceipt]

/-- Settles O12: GOODBYE ends its frame, and the link leaves UP for DOWN. -/
theorem goodbyeClosesLink : Obligations.GoodbyeClosesLink := by
  intro l s hu hrec
  obtain ⟨f, hf, hh⟩ := hrec
  have he : exec (.goodbye l []) s = .next (closeLink l (endFrame l s)) := by
    rw [show Instr.goodbye l [] = frameEnd .goodbye l [] from rfl, exec_frameEnd_up hu hf (by simpa using hh)]
    simp [frameUp]
  have hlink : (closeLink l (endFrame l s)).link l =
      { closedLink .down { s.link l with frame := none } with outstanding := none } := by
    rw [closeLink, State.link_post, link_leaveUp l .down _ (by decide), link_endFrame]
  refine ⟨_, he, by rw [hlink]; rfl, ?_, by rw [hlink]; rfl, by rw [hlink]; rfl, by rw [hlink], by rw [hlink]; rfl,
    by rw [hlink]; rfl, by rw [hlink]; rfl, by rw [hlink]; rfl, by rw [hlink]; rfl, ?_, holds_post _ _, ?_, ?_, ?_, ?_,
    (told_endFrame l s).trans (told_closeLink l _)⟩
  · exact ((refused_leaveUp l .down (endFrame l s)).before (by simp) (by simp) (by simp) (by simp) (by simp)
      (by simp)).post .linkState
  · rw [closeLink, State.area_post, area_leaveUp]
    exact servingTrigger_kept (receiptWork_endFrame l s)
  · rw [closeLink, State.link_post, core_other_leaveUp, link_other_endFrame]
  · rw [closeLink, State.prof_post, prof_leaveUp, prof_endFrame]
  · rw [closeLink, State.arb_post, arb_leaveUp, arb_endFrame]
  · exact (receiptWork_endFrame l s).directory.trans
      ((directory_leaveUp l .down _).trans (receiptWork_post .linkState _).directory)

/-- Settles O13, by the state of the link that is not UP. -/
theorem framesOutsideUpAreDiscarded : Obligations.FramesOutsideUpAreDiscarded := by
  refine fun l kind body s => ⟨fun hst hrec hk => ?_, fun hs => ?_⟩
  · have hu : (s.link l).state ≠ .up := by rcases hst with h | h <;> simp [h]
    have hs : (s.link l).state ≠ .faulted := by rcases hst with h | h <;> simp [h]
    obtain ⟨f, hc⟩ := completing_of_receives hs hrec
    rw [exec_frameEnd, onComplete_notUp _ _ hc hu, frameElsewhere, if_neg fun h => hk h.1 h.2, endFrame_eq]
  · rw [exec_frameEnd, onComplete_faulted _ _ hs]

end Sys2Proof.Machine
end

section
/-! The bodies the device reads (R9, R26, R44, R45, R190, R194): what each reader accepts and what it delivers, and the fault
of a frame whose body fails (R26). -/

namespace Sys2Proof.Machine

/-! ### SERVING and RECEIPT-RESULT bodies (R190) -/

theorem readServing_iff (b : List Byte) (v : Serving) : readServing b = some v ↔
    (fieldAt b 0 1 = 0 ∧ b.length = 1 ∧ v = .noService) ∨
    (fieldAt b 0 1 = 1 ∧ b.length = 13 ∧ fieldAt b 5 2 ≤ 1023 ∧
      v = .service (BitVec.ofNat 32 (fieldAt b 1 4)) (fieldAt b 5 2) (BitVec.ofNat 32 (fieldAt b 7 4))
        (fieldAt b 11 2)) := by
  unfold readServing
  split
  · next h => simp [h.1, h.2, eq_comm]
  · next h =>
    split
    · next h1 => simp [h1.1, h1.2.1, h1.2.2, eq_comm]
    · next h1 =>
      simp only [reduceCtorEq, false_iff, not_or]
      exact ⟨fun ⟨h2, h3, _⟩ => h ⟨h2, h3⟩, fun ⟨h2, h3, h4, _⟩ => h1 ⟨h2, h3, h4⟩⟩

theorem readReceiptResult_iff (b : List Byte) (id : ReceiptId) (sent : Bool) :
    readReceiptResult b = some (id, sent) ↔
      b.length = 2 ∧ fieldAt b 0 1 = id.val ∧ fieldAt b 1 1 = if sent then 1 else 2 := by
  have hid := id.isLt
  unfold readReceiptResult
  dsimp only
  split
  · next h =>
    obtain ⟨hl, -, hr⟩ := h
    rw [Option.some_inj, Prod.mk.injEq, Fin.ext_iff]
    cases sent
    · simp [hl]
      omega
    · simp [hl]
  · next h =>
    simp only [reduceCtorEq, false_iff]
    rintro ⟨hl, h0, h1⟩
    refine h ⟨hl, by rw [h0]; exact hid, ?_⟩
    cases sent
    · exact .inr h1
    · exact .inl h1

/-! ### The PAGE body (R9, R190) -/

theorem areaBytes_eq (form count : Nat) :
    areaBytes form count = if form = 1 then 1 + 5 * count else if form = 2 then 1 + 8 * count else 0 := by
  rcases form with _ | _ | _ | form <;> simp [areaBytes]

theorem pageShapeOk_iff (a : PageAction) (index count : Nat) (area : Option AreaBlock) :
    pageShapeOk a index count area = true ↔
      index ≤ count ∧ (area ≠ none → a = .issue ∧ index = 1) ∧ (a = .cancel → count = 1 ∧ area = none) := by
  cases a <;> cases area <;> simp [pageShapeOk]

/-- The form of an area block that was read decides whether there is one. -/
theorem readArea_eq_none_iff {b : List Byte} {form count : Nat} {area : Option AreaBlock}
    (h : readArea b form count = some area) : area = none ↔ form = 0 := by
  rcases (readArea_iff b form count area).1 h with ⟨rfl, rfl⟩ | ⟨rfl, -, -, -, rfl⟩ | ⟨rfl, -, -, rfl⟩
  all_goals simp

/-- Which forms and counts are read (R9, R190). -/
theorem readArea_isSome (b : List Byte) (form count : Nat) : (∃ area, readArea b form count = some area) ↔
    form ≤ 2 ∧ (form = 1 → 1 ≤ count ∧ count ≤ 8 ∧ ∀ k < count, fieldAt b (30 + 5 * k) 1 ≤ 32) ∧
    (form = 2 → 3 ≤ count ∧ count ≤ 16) := by
  constructor
  · rintro ⟨area, h⟩
    rcases (readArea_iff b form count area).1 h with ⟨rfl, -⟩ | ⟨rfl, h1, h2, h3, -⟩ | ⟨rfl, h1, h2, -⟩
    · simp
    · simpa using ⟨h1, h2, h3⟩
    · simpa using ⟨h1, h2⟩
  · rintro ⟨hf, h1, h2⟩
    simp only [readArea_iff]
    interval_cases form
    · simp
    · simpa using h1 rfl
    · simpa using h2 rfl

/-- The criteria of Table 7 on the numeric fields of a body whose area block takes `area` bytes. -/
def NumbersFit (b : List Byte) (area : Nat) : Prop :=
  b.length = 26 + area + fieldAt b (25 + area) 1 ∧ fieldAt b (25 + area) 1 ≤ 120 ∧ fieldAt b 0 2 ≤ 1023 ∧
  fieldAt b 2 2 ≤ 1023 ∧ fieldAt b 10 2 ≤ 1023 ∧ fieldAt b 16 1 ≤ 63 ∧ 1 ≤ fieldAt b 17 1 ∧ fieldAt b 17 1 ≤ 8 ∧
  1 ≤ fieldAt b 18 1 ∧ fieldAt b 18 1 ≤ 8

/-- The page a body delivers, its coded fields read. -/
def pageOf (l : LinkId) (k : PageSlot) (now : Nat) (b : List Byte) (areaLen : Nat) (reach : Reach) (action : PageAction)
    (receipt : Bool) (area : Option AreaBlock) : Page where
  region := fieldAt b 0 2
  carrier := fieldAt b 2 2
  cellTag := BitVec.ofNat 32 (fieldAt b 4 4)
  district := fieldAt b 8 2
  channel := fieldAt b 10 2
  alertNo := fieldAt b 12 2
  reach := reach
  action := action
  revision := BitVec.ofNat 6 (fieldAt b 16 1)
  partIndex := fieldAt b 17 1
  partCount := fieldAt b 18 1
  language := fieldAt b 19 2
  validity := fieldAt b 21 2
  receiptRequested := receipt
  area := area
  text := bytesAt b (25 + areaLen + 1) (fieldAt b (25 + areaLen) 1)
  link := l
  slot := k
  arrival := now

section
variable {l : LinkId} {k : PageSlot} {now : Nat} {b : List Byte} {count areaLen : Nat} {p : Page}

/-- The readings a structural test makes, and the page they give. -/
theorem readPage_eq_some (hc : count = if fieldAt b 24 1 = 0 then 0 else fieldAt b 25 1)
    (ha : areaLen = areaBytes (fieldAt b 24 1) count) :
    readPage l k now b = some p ↔ ∃ reach action receipt area, readReach (fieldAt b 14 1) = some reach ∧
      readAction (fieldAt b 15 1) = some action ∧ readFlag (fieldAt b 23 1) = some receipt ∧
      readArea b (fieldAt b 24 1) count = some area ∧ NumbersFit b areaLen ∧
      pageShapeOk action (fieldAt b 17 1) (fieldAt b 18 1) area = true ∧
      p = pageOf l k now b areaLen reach action receipt area := by
  subst hc ha
  unfold readPage
  dsimp only
  split
  · next reach action receipt area h1 h2 h3 h4 =>
    rw [Option.ite_none_right_eq_some, Option.some_inj]
    constructor
    · rintro ⟨⟨hl, ht, hr, hca, hch, hrev, hi1, hi8, hp1, hp8, hs⟩, rfl⟩
      exact ⟨reach, action, receipt, area, h1, h2, h3, h4, ⟨hl, ht, hr, hca, hch, hrev, hi1, hi8, hp1, hp8⟩, hs, rfl⟩
    · rintro ⟨reach', action', receipt', area', e1, e2, e3, e4, ⟨hl, ht, hr, hca, hch, hrev, hi1, hi8, hp1, hp8⟩, hs, rfl⟩
      obtain rfl := Option.some.inj (h1.symm.trans e1)
      obtain rfl := Option.some.inj (h2.symm.trans e2)
      obtain rfl := Option.some.inj (h3.symm.trans e3)
      obtain rfl := Option.some.inj (h4.symm.trans e4)
      exact ⟨⟨hl, ht, hr, hca, hch, hrev, hi1, hi8, hp1, hp8, hs⟩, rfl⟩
  · next h =>
    simp only [reduceCtorEq, false_iff]
    rintro ⟨reach, action, receipt, area, h1, h2, h3, h4, -⟩
    exact h _ _ _ _ h1 h2 h3 h4

/-- Which bodies pass the structural test. -/
theorem readPage_isSome_iff (hc : count = if fieldAt b 24 1 = 0 then 0 else fieldAt b 25 1)
    (ha : areaLen = areaBytes (fieldAt b 24 1) count) :
    (readPage l k now b).isSome = true ↔ NumbersFit b areaLen ∧ (1 ≤ fieldAt b 14 1 ∧ fieldAt b 14 1 ≤ 3) ∧
      (fieldAt b 15 1 = 1 ∨ fieldAt b 15 1 = 2) ∧ fieldAt b 23 1 ≤ 1 ∧
      (∃ area, readArea b (fieldAt b 24 1) count = some area) ∧ fieldAt b 17 1 ≤ fieldAt b 18 1 ∧
      (fieldAt b 24 1 ≠ 0 → fieldAt b 15 1 = 1 ∧ fieldAt b 17 1 = 1) ∧
      (fieldAt b 15 1 = 2 → fieldAt b 18 1 = 1 ∧ fieldAt b 24 1 = 0) := by
  rw [Option.isSome_iff_exists]
  simp only [readPage_eq_some hc ha]
  constructor
  · rintro ⟨p, reach, action, receipt, area, h1, h2, h3, h4, hn, hs, -⟩
    obtain ⟨hi, hissue, hcancel⟩ := (pageShapeOk_iff _ _ _ _).1 hs
    have h0 : area = none ↔ fieldAt b 24 1 = 0 := readArea_eq_none_iff h4
    have hr := (readReach_isSome _).1 (Option.isSome_iff_exists.2 ⟨reach, h1⟩)
    refine ⟨hn, hr, ?_, ?_, ⟨area, h4⟩, hi, fun hne => ?_, fun h => ?_⟩
    · rcases (readAction_iff _ _).1 h2 with ⟨h, -⟩ | ⟨h, -⟩
      · exact .inl h
      · exact .inr h
    · rcases (readFlag_iff _ _).1 h3 with ⟨h, -⟩ | ⟨h, -⟩ <;> omega
    · obtain ⟨rfl, hx⟩ := hissue (fun h => hne (h0.1 h))
      exact ⟨by simpa [readAction_iff] using h2, hx⟩
    · obtain ⟨hx, hno⟩ := hcancel (by simpa [readAction_iff, h] using h2)
      exact ⟨hx, h0.1 hno⟩
  · rintro ⟨hn, hr, hact, hflag, ⟨area, h4⟩, hi, hissue, hcancel⟩
    obtain ⟨reach, h1⟩ := Option.isSome_iff_exists.1 ((readReach_isSome _).2 hr)
    have h0 : area = none ↔ fieldAt b 24 1 = 0 := readArea_eq_none_iff h4
    have h3 : readFlag (fieldAt b 23 1) = some (decide (fieldAt b 23 1 = 1)) := by
      rw [readFlag_iff]
      simp
      omega
    have h2 : readAction (fieldAt b 15 1) = some (if fieldAt b 15 1 = 1 then .issue else .cancel) := by
      rcases hact with h | h <;> simp [readAction_iff, h]
    refine ⟨_, reach, _, _, area, h1, h2, h3, h4, hn, ?_, rfl⟩
    rw [pageShapeOk_iff]
    refine ⟨hi, fun hne => ?_, fun h => ?_⟩
    · obtain ⟨h15, h17⟩ := hissue (fun h => hne (h0.2 h))
      exact ⟨if_pos h15, h17⟩
    · have h15 : fieldAt b 15 1 = 2 := by
        rcases hact with h' | h'
        · simp [h'] at h
        · exact h'
      obtain ⟨h18, h24⟩ := hcancel h15
      exact ⟨h18, h0.2 h24⟩

/-- The coded and bounded fields of a page that was read. -/
theorem readPage_fields (hc : count = if fieldAt b 24 1 = 0 then 0 else fieldAt b 25 1)
    (ha : areaLen = areaBytes (fieldAt b 24 1) count) (h : readPage l k now b = some p) :
    ∃ reach action receipt area, p = pageOf l k now b areaLen reach action receipt area ∧
      reach.code.toNat = fieldAt b 14 1 ∧ (action = .issue ↔ fieldAt b 15 1 = 1) ∧
      (receipt = true ↔ fieldAt b 23 1 = 1) ∧ fieldAt b 16 1 ≤ 63 ∧
      readArea b (fieldAt b 24 1) count = some area := by
  obtain ⟨reach, action, receipt, area, h1, h2, h3, h4, hn, -, rfl⟩ := (readPage_eq_some hc ha).1 h
  refine ⟨reach, action, receipt, area, rfl, ((readReach_code _ _).1 h1).symm, ?_, ?_, ?_, h4⟩
  · rcases (readAction_iff _ _).1 h2 with ⟨hv, rfl⟩ | ⟨hv, rfl⟩ <;> simp [hv]
  · rcases (readFlag_iff _ _).1 h3 with ⟨hv, rfl⟩ | ⟨hv, rfl⟩ <;> simp [hv]
  · obtain ⟨-, -, -, -, -, hrev, -⟩ := hn
    exact hrev

/-- The area block of a page that was read, by its form. -/
theorem readArea_value {form : Nat} {area : Option AreaBlock} (h : readArea b form count = some area) :
    area = if form = 1 then some (.cells ((List.range count).map fun k =>
          ⟨BitVec.ofNat 32 (fieldAt b (26 + 5 * k) 4), fieldAt b (30 + 5 * k) 1⟩))
      else if form = 2 then some (.polygon ((List.range count).map fun k =>
          ⟨signedAt b (26 + 8 * k), signedAt b (30 + 8 * k)⟩) false)
      else none := by
  rcases (readArea_iff b form count area).1 h with ⟨rfl, rfl⟩ | ⟨rfl, -, -, -, rfl⟩ | ⟨rfl, -, -, rfl⟩
  all_goals simp

end

/-! ### A body that fails on a link in UP (R26) -/

section
variable {l : LinkId} {body : List Byte} {s : State}

theorem serving_malformed (hu : (s.link l).state = .up) (hrec : s.receives l .serving body.length)
    (hb : readServing body = none) :
    exec (.serving l body) s = .next (faultLink l .malformed .serving (endFrame l s)) := by
  obtain ⟨f, hf, hh⟩ := hrec
  rw [show Instr.serving l body = frameEnd .serving l body from rfl, exec_frameEnd_up hu hf hh, frameUp, hb]

theorem receiptResult_malformed (hu : (s.link l).state = .up) (hrec : s.receives l .receiptResult body.length)
    (hb : readReceiptResult body = none) :
    exec (.receiptResult l body) s = .next (faultLink l .malformed .receiptResult (endFrame l s)) := by
  obtain ⟨f, hf, hh⟩ := hrec
  rw [show Instr.receiptResult l body = frameEnd .receiptResult l body from rfl, exec_frameEnd_up hu hf hh, frameUp, hb]

/-- The end of a PAGE frame in its slot. -/
theorem exec_page_inSlot {f : FrameProgress} {i : PageSlot} (hu : (s.link l).state = .up)
    (hf : (s.link l).frame = some f) (hh : f.header = some ⟨.page, body.length⟩) (hi : f.slot = some i)
    (hr : (s.link l).slots[i] = .receiving) (hb : body ≠ []) :
    exec (.page l body) s = .next (pageInSlot l i body (endFrame l s)) := by
  have hl : body.length ≠ 0 := by simpa using hb
  rw [show Instr.page l body = frameEnd .page l body from rfl, exec_frameEnd_up hu hf (by rw [if_neg hl, hh])]
  simp only [frameUp, hi]
  rw [if_pos (by simpa using hr)]

theorem pageInSlot_malformed {i : PageSlot} (hb : readPage l i s.now body = none) :
    pageInSlot l i body s = faultLink l .malformed .page (modLink l (fun k => k.setSlot i .free) s) := by
  rw [pageInSlot, hb]

theorem page_empty {f : FrameProgress} (hu : (s.link l).state = .up) (hf : (s.link l).frame = some f)
    (hh : f.header = none) (hi : f.slot = none) :
    exec (.page l []) s = .next (faultLink l .malformed .page (endFrame l s)) := by
  rw [show Instr.page l [] = frameEnd .page l [] from rfl, exec_frameEnd_up hu hf (by simpa using hh)]
  simp [frameUp, hi]

end

/-- Settles O14: each failing body is a fault after its frame's end, and the readers are the criteria of R190. -/
theorem malformedFrameFaultsLink : Obligations.MalformedFrameFaultsLink := by
  have hfault (l : LinkId) (x : FrameKind) (s : State) :
      FaultedBy l .malformed x s (faultLink l .malformed x (endFrame l s)) ∧
      ((faultLink l .malformed x (endFrame l s)).link l).slots = (s.link l).slots :=
    ⟨(faultedBy_faultLink l .malformed x _).before_endFrame, by rw [slots_faultLink, link_endFrame]⟩
  refine ⟨fun l body s hu => ⟨fun hrec hb => ⟨_, serving_malformed hu hrec hb, hfault l _ s⟩,
    fun hrec hb => ⟨_, receiptResult_malformed hu hrec hb, hfault l _ s⟩, fun f i hf hh hi hr hne hb => ?_,
    fun f hf hh hi => ⟨_, page_empty hu hf hh hi, hfault l _ s⟩⟩, readServing_iff, readReceiptResult_iff,
    fun l i now b count area text hc ha ht => ?_, fun p => ⟨rfl, rfl, rfl, rfl, fun h => ?_, fun h => ?_, fun h => ?_⟩⟩
  · refine ⟨_, exec_page_inSlot hu hf hh hi hr hne, ?_⟩
    rw [pageInSlot_malformed (by simpa using hb)]
    refine ⟨FaultedBy.before_endFrame ((faultedBy_faultLink l .malformed .page _).before_modLink rfl rfl), ?_⟩
    rw [slots_faultLink, State.link_modLink_same, link_endFrame]
    rfl
  · rw [← areaBytes_eq] at ha
    subst ht
    refine ⟨?_, fun p hp => ?_⟩
    · rw [readPage_isSome_iff hc ha, readArea_isSome]
      unfold NumbersFit
      tauto
    · obtain ⟨reach, action, receipt, blk, rfl, hreach, haction, hreceipt, hrev, hblk⟩ := readPage_fields hc ha hp
      have h4 := fieldAt_lt b 4 4
      refine ⟨rfl, rfl, ?_, rfl, rfl, rfl, hreach, haction, ?_, rfl, rfl, rfl, rfl, hreceipt, readArea_value hblk, ?_, rfl,
        rfl, rfl⟩
      · simp only [pageOf, BitVec.toNat_ofNat]
        omega
      · simp only [pageOf, BitVec.toNat_ofNat]
        omega
      · simp only [pageOf, bytesAt]
        rw [show 25 + area + 1 = 26 + area by omega]
  · simp [pageKey, h]
  · simp [pageKey, h]
  · simp [pageKey, h]

/-! ### The profile record (R44, R45, R194) -/

theorem collect_eq_some {α : Type} {xs : List (Option α)} {ys : List α} : collect xs = some ys ↔ xs = ys.map some := by
  induction xs generalizing ys with
  | nil => cases ys <;> simp [collect]
  | cons x xs ih =>
    cases x with
    | none => cases ys <;> simp [collect]
    | some a => cases ys <;> simp [collect, ih, and_comm]

theorem collect_isSome {α : Type} {xs : List (Option α)} : (collect xs).isSome = true ↔ ∀ x ∈ xs, x.isSome = true := by
  induction xs with
  | nil => simp [collect]
  | cons x xs ih => cases x <;> simp [collect, ih]

theorem readClass_iff (v : Nat) (c : AlertClass) : readClass v = some c ↔ v = c.num := by
  rcases v with _ | _ | _ | _ | _ | _ | v <;> cases c <;> simp [readClass, AlertClass.num]

theorem readClass_isSome (v : Nat) : (∃ c, readClass v = some c) ↔ 1 ≤ v ∧ v ≤ 5 := by
  rcases v with _ | _ | _ | _ | _ | _ | v <;> simp [readClass]

/-- A range of a record is sound exactly when it is read as its four fields. -/
theorem rangeAt_eq_some {b : List Byte} {k : Nat} {r : ChannelRange} : rangeAt b k = some r ↔
    r.first = fieldAt b (13 + 6 * k) 2 ∧ r.last = fieldAt b (15 + 6 * k) 2 ∧ r.cls.num = fieldAt b (17 + 6 * k) 1 ∧
    readFlag (fieldAt b (18 + 6 * k) 1) = some r.receipts ∧
    fieldAt b (13 + 6 * k) 2 ≤ fieldAt b (15 + 6 * k) 2 ∧ fieldAt b (15 + 6 * k) 2 ≤ 1023 := by
  have p2 : 13 + 6 * k + 2 = 15 + 6 * k := by omega
  have p4 : 13 + 6 * k + 4 = 17 + 6 * k := by omega
  have p5 : 13 + 6 * k + 5 = 18 + 6 * k := by omega
  obtain ⟨first, last, cls, receipts⟩ := r
  unfold rangeAt
  simp only [p2, p4, p5]
  constructor
  · intro h
    split at h
    · next c x hc hx =>
      rw [Option.ite_none_right_eq_some, Option.some_inj] at h
      obtain ⟨⟨h1, h2, h3⟩, h⟩ := h
      cases h
      exact ⟨rfl, rfl, ((readClass_iff _ _).1 hc).symm, hx, h1, h3⟩
    · cases h
  · rintro ⟨rfl, rfl, hc, hx, h1, h3⟩
    rw [(readClass_iff _ cls).2 hc.symm, hx]
    exact if_pos ⟨h1, h1.trans h3, h3⟩

theorem rangeAt_isSome {b : List Byte} {k : Nat} : (rangeAt b k).isSome = true ↔
    fieldAt b (13 + 6 * k) 2 ≤ fieldAt b (15 + 6 * k) 2 ∧ fieldAt b (15 + 6 * k) 2 ≤ 1023 ∧
    1 ≤ fieldAt b (17 + 6 * k) 1 ∧ fieldAt b (17 + 6 * k) 1 ≤ 5 ∧ fieldAt b (18 + 6 * k) 1 ≤ 1 := by
  rw [Option.isSome_iff_exists]
  constructor
  · rintro ⟨r, h⟩
    obtain ⟨-, -, hc, hx, h1, h3⟩ := rangeAt_eq_some.1 h
    obtain ⟨hlow, hhigh⟩ := (readClass_isSome _).1 ⟨r.cls, (readClass_iff _ _).2 hc.symm⟩
    refine ⟨h1, h3, hlow, hhigh, ?_⟩
    rcases (readFlag_iff _ _).1 hx with ⟨hv, -⟩ | ⟨hv, -⟩ <;> omega
  · rintro ⟨h1, h3, hlow, hhigh, hflag⟩
    obtain ⟨c, hc⟩ := (readClass_isSome _).2 ⟨hlow, hhigh⟩
    refine ⟨⟨_, _, c, decide (fieldAt b (18 + 6 * k) 1 = 1)⟩, rangeAt_eq_some.2
      ⟨rfl, rfl, ((readClass_iff _ _).1 hc).symm, ?_, h1, h3⟩⟩
    rw [readFlag_iff]
    simp
    omega

theorem clamp_eq {lo hi : Nat} (v : Nat) (h : lo ≤ hi) : clamp lo hi v = max lo (min hi v) := by
  unfold clamp
  split
  · omega
  · split <;> omega

/-- The profile of a record with sound ranges. -/
def profileOf (b : List Byte) (ranges : List ChannelRange) : Profile where
  version := fieldAt b 4 2
  defaultValidity := clamp 1 1440 (fieldAt b 6 2)
  assemblyLimit := clamp 10 600 (fieldAt b 8 2)
  reminderInterval := clamp 0 120 (fieldAt b 10 1)
  reminderLimit := clamp 0 15 (fieldAt b 11 1)
  ranges := ranges

/-- Marker, region, range count and check value of a record are sound (R44). -/
def RecordSound (n : Nat) (b : List Byte) : Prop :=
  fieldAt b 0 2 = 0x5A3C ∧ fieldAt b 2 2 = n ∧ 1 ≤ fieldAt b 12 1 ∧ fieldAt b 12 1 ≤ 24 ∧
  (checkValue (b.take 510)).toNat = fieldAt b 510 2

theorem judgeRecord_eq_some {n : Nat} {b : List Byte} {p : Profile} : judgeRecord n b = some p ↔
    RecordSound n b ∧ ∃ ranges, (List.range (fieldAt b 12 1)).map (rangeAt b) = ranges.map some ∧
      p = profileOf b ranges := by
  unfold judgeRecord
  simp only [Option.ite_none_right_eq_some, Option.map_eq_some_iff, collect_eq_some, eq_comm (b := p)]
  rfl

theorem judgeRecord_isSome {n : Nat} {b : List Byte} : (judgeRecord n b).isSome = true ↔
    RecordSound n b ∧ ∀ k < fieldAt b 12 1, (rangeAt b k).isSome = true := by
  have hc : (collect ((List.range (fieldAt b 12 1)).map (rangeAt b))).isSome = true ↔
      ∀ k < fieldAt b 12 1, (rangeAt b k).isSome = true := by
    simp [collect_isSome]
  rw [← hc, Option.isSome_iff_exists, Option.isSome_iff_exists]
  simp only [judgeRecord_eq_some, collect_eq_some]
  constructor
  · rintro ⟨p, hs, ranges, hr, -⟩
    exact ⟨hs, ranges, hr⟩
  · rintro ⟨hs, ranges, hr⟩
    exact ⟨_, hs, ranges, hr, rfl⟩

/-- Settles O28: the ranges one by one, the clamps, and the check value byte by byte. -/
theorem judgedRecordIsSoundAndClamped : Obligations.JudgedRecordIsSoundAndClamped := by
  refine fun n b => ⟨?_, fun p hp => ?_, rfl, fun x => ?_⟩
  · rw [judgeRecord_isSome]
    simp only [rangeAt_isSome, RecordSound, and_assoc]
  · obtain ⟨-, ranges, hr, rfl⟩ := judgeRecord_eq_some.1 hp
    have hlen : ranges.length = fieldAt b 12 1 := by simpa using (congrArg List.length hr).symm
    refine ⟨rfl, hlen, fun k r hk => ?_, clamp_eq _ (by decide), clamp_eq _ (by decide), ?_, ?_⟩
    · have hk' : k < fieldAt b 12 1 := by
        rw [← hlen]
        exact (List.getElem?_eq_some_iff.1 hk).1
      have hat : rangeAt b k = some r := by
        have h := congrArg (fun xs => xs[k]?) hr
        have hk2 : ranges[k]? = some r := hk
        simpa [hk', hk2] using h
      obtain ⟨h1, h2, h3, h4, -, -⟩ := rangeAt_eq_some.1 hat
      refine ⟨h1, h2, h3, ?_⟩
      rcases (readFlag_iff _ _).1 h4 with ⟨hv, hx⟩ | ⟨hv, hx⟩ <;> simp [hv, hx]
    · exact (clamp_eq _ (by decide)).trans (Nat.zero_max _)
    · exact (clamp_eq _ (by decide)).trans (Nat.zero_max _)
  · rw [checkValue_snoc, foldl_checkBit]

end Sys2Proof.Machine
end

section
/-! Pages and loads (R15, R16, R30, R31, R46 to R61): what a load request leaves of the profile unit, an accepted page
handed on, a wait deadline, a completed load, and the store's return and flush. -/

namespace Sys2Proof.Machine

/-! ### Load requests (R53, R54) -/

/-- A load that may start touches only the profile unit. -/
theorem startLoad_only (s : State) : startLoad s = s.setProf (startLoad s).prof := by
  unfold startLoad
  split
  · rfl
  · split <;> rfl

/-- A load request touches only the profile unit. -/
theorem requestLoad_only (n : Nat) (s : State) : requestLoad n s = s.setProf (requestLoad n s).prof := by
  unfold requestLoad
  split
  · rfl
  · split
    · rw [startLoad_only]
      rfl
    · rfl

/-- What a starting load leaves of the profile unit beside flight, flash and request. -/
theorem prof_startLoad (s : State) :
    (startLoad s).prof = { s.prof with
      flight := (startLoad s).prof.flight
      flashSelected := (startLoad s).prof.flashSelected
      pspOut := (startLoad s).prof.pspOut } := by
  unfold startLoad
  split
  · rfl
  · split <;> rfl

/-- What a load request leaves of the profile unit: the queue as `requested` says, flight, flash and request as
`LoadRequested` says, the rest as before. -/
theorem prof_requestLoad (n : Nat) (s : State) :
    (requestLoad n s).prof = { s.prof with
      loadQueue := requested s.prof.loadQueue n
      flight := (requestLoad n s).prof.flight
      flashSelected := (requestLoad n s).prof.flashSelected
      pspOut := (requestLoad n s).prof.pspOut } := by
  have hlim : Config.loadRegions = 8 := rfl
  unfold requestLoad requested
  by_cases hc : s.prof.loadQueue.contains n = true
  · rw [if_pos hc, if_pos (.inl hc)]
  · by_cases hl : s.prof.loadQueue.length < 8
    · rw [if_neg hc, hlim, if_pos hl, if_neg (by rintro (h | h); exact hc h; omega)]
      rw [prof_startLoad]
      rfl
    · rw [if_neg hc, hlim, if_neg hl, if_pos (.inr (by omega))]

/-- A load request is read off the parts of the unit that a request looks at. -/
theorem LoadRequested.congr {n : Nat} {p p' q : ProfileUnit} (h : LoadRequested n p q) (hq : p'.loadQueue = p.loadQueue)
    (hs : p'.store = p.store) (hf : p'.flight = p.flight) (hflash : p'.flashSelected = p.flashSelected)
    (ho : p'.pspOut = p.pspOut) : LoadRequested n p' q := by
  obtain ⟨hstarts, hstays⟩ := h
  rw [← hq, ← hs, ← hf] at hstarts
  rw [← hq, ← hs, ← hf, ← hflash, ← ho] at hstays
  exact ⟨hstarts, hstays⟩

/-! ### The accepted page (R15, R8, R30) -/

theorem acceptPage_eq (p : Page) : acceptPage p = { p with
    validity := min p.validity 1440
    area := match p.area with
      | none => none
      | some (.cells es) => some (.cells es)
      | some (.polygon vs _) => some (.polygon vs (decide (∃ v ∈ vs,
          ¬ (-9000000 ≤ v.lat ∧ v.lat ≤ 9000000 ∧ -18000000 ≤ v.lon ∧ v.lon ≤ 17999999)))) } := by
  have hm (vs : List Vertex) : (!vs.all vertexInRange) = decide (∃ v ∈ vs,
      ¬ (-9000000 ≤ v.lat ∧ v.lat ≤ 9000000 ∧ -18000000 ≤ v.lon ∧ v.lon ≤ 17999999)) := by
    rw [Bool.eq_iff_iff]
    simp only [Bool.not_eq_true', List.all_eq_false, decide_eq_true_eq, vertexInRange_iff]
  rcases h : p.area with _ | ⟨es⟩ | ⟨vs, m⟩
  · simp [acceptPage, h]
  · simp [acceptPage, h, markArea]
  · simp only [acceptPage, h, Option.map_some, markArea, hm]

section
variable (l : LinkId) (i : PageSlot) (q : Page) (s : State)

theorem takePage_endFrame : takePage l i q (endFrame l s) = handOn l i q (s.accepted l i q) := by
  cases l <;> rfl

@[simp] theorem link_accepted_same : (s.accepted l i q).link l =
    { s.link l with frame := none, slots := (s.link l).slots.set i (.held q) } := by
  cases l <;> rfl

@[simp] theorem link_accepted_other : (s.accepted l i q).link l.other = s.link l.other := by
  cases l <;> rfl

@[simp] theorem prof_accepted : (s.accepted l i q).prof = s.prof := by
  cases l <;> rfl

@[simp] theorem dir_accepted : (s.accepted l i q).dir = s.dir := by
  cases l <;> rfl

theorem pages_accepted :
    ((s.accepted l i q).host.counters l).pages = min ((s.host.counters l).pages + 1) 65535 := by
  cases l <;> rfl

theorem counters_accepted_other : (s.accepted l i q).host.counters l.other = s.host.counters l.other := by
  cases l <;> rfl

theorem fallbackPages_accepted : (s.accepted l i q).host.cntG = s.host.cntG := by
  cases l <;> rfl

theorem heldPage_accepted : (s.accepted l i q).heldPage l i = some q := by
  simp [State.heldPage, Slot.page]

theorem told_accepted : Told s (s.accepted l i q) := by
  refine (told_endFrame l s).trans ((told_modLink l (fun k => k.setSlot i (.held q)) _).trans (Work.told ?_))
  have h := work_countLink l (fun c => { c with pages := bump c.pages })
    (modLink l (fun k => k.setSlot i (.held q)) (endFrame l s)) fun c hc => by
      simp only [LinkCounters.bounded, bump] at hc ⊢
      omega
  have he : s.accepted l i q = countLink l (fun c => { c with pages := bump c.pages })
      (modLink l (fun k => k.setSlot i (.held q)) (endFrame l s)) := by
    cases l <;> rfl
  rw [he]
  exact h

end

section
variable {l : LinkId} {body : List Byte} {f : FrameProgress} {i : PageSlot} {p : Page} {s : State}

/-- A page that was read has a body. -/
theorem readPage_bounds (h : readPage l i s.now body = some p) :
    body ≠ [] ∧ p.channel ≤ 1023 ∧ p.arrival = s.now := by
  obtain ⟨reach, action, receipt, area, -, -, -, -, ⟨hl, -, -, -, hch, -⟩, -, rfl⟩ := (readPage_eq_some rfl rfl).1 h
  refine ⟨?_, hch, rfl⟩
  rintro rfl
  simp only [List.length_nil] at hl
  omega

/-- The end of a PAGE frame whose body is read hands the accepted page on. -/
theorem exec_page_accepted (hu : (s.link l).state = .up) (hf : (s.link l).frame = some f)
    (hh : f.header = some ⟨.page, body.length⟩) (hi : f.slot = some i) (hr : (s.link l).slots[i] = .receiving)
    (hp : readPage l i s.now body = some p) :
    exec (.page l body) s = .next (handOn l i (acceptPage p) (s.accepted l i (acceptPage p))) := by
  rw [exec_page_inSlot hu hf hh hi hr (readPage_bounds hp).1, pageInSlot, now_endFrame, hp]
  dsimp only
  rw [takePage_endFrame]

end

/-- What a disposition leaves, seen from before the page was accepted into its slot. -/
structure PageDisposed (l : LinkId) (i : PageSlot) (q : Page) (d : Disposition) (v : ProfileUnit) (s t : State) : Prop where
  state : (t.link l).state = .up
  slots : (t.link l).slots = (s.link l).slots.set i .free
  credits : (t.link l).credits = (s.link l).credits + 1
  frame : (t.link l).frame = none
  frames : nonReceipts (t.link l).outQ =
    nonReceipts (s.link l).outQ ++ [.disposition (pageKey q) q.revision q.partIndex d]
  otherFrames : nonReceipts (t.link l.other).outQ = nonReceipts (s.link l.other).outQ
  pages : (t.host.counters l).pages = min ((s.host.counters l).pages + 1) 65535
  prof : t.prof = v
  otherCore : (t.link l.other).core = (s.link l.other).core
  told : Told s t

theorem Disposed.pageDisposed {l : LinkId} {i : PageSlot} {q : Page} {d : Disposition} {v : ProfileUnit} {s t : State}
    (hu : (s.link l).state = .up) (h : Disposed l i q d ((s.accepted l i q).setProf v) t) :
    PageDisposed l i q d v s t := by
  have hlink : ((s.accepted l i q).setProf v).link l =
      { s.link l with frame := none, slots := (s.link l).slots.set i (.held q) } := by simp
  have hother : ((s.accepted l i q).setProf v).link l.other = s.link l.other := by simp
  have hcore := h.core
  rw [hlink] at hcore
  exact {
    state := (congrArg Link.state hcore).trans hu
    slots := (congrArg Link.slots hcore).trans (Vector.set_set ..)
    credits := (congrArg Link.credits hcore).trans (if_pos hu)
    frame := congrArg Link.frame hcore
    frames := by rw [h.up (by rw [hlink]; exact hu), hlink]
    otherFrames := by rw [h.otherFrames, hother]
    pages := (h.pages l).trans (pages_accepted l i q s)
    prof := h.prof
    otherCore := by rw [h.other, hother]
    told := (told_accepted l i q s).trans ((told_setProf _ v).trans h.told) }

/-! ### A page without a profile waits, or is judged under the fallback (R50, R56) -/

/-- A page parked while its region's load is requested. -/
def parked (l : LinkId) (i : PageSlot) (q : Page) (s : State) : State := requestLoad q.region (parkPage l i q.arrival s)

section
variable (l : LinkId) (i : PageSlot) (q : Page) (s : State)

/-- Parking a page touches only the profile unit. -/
theorem parked_only : parked l i q s = s.setProf (parked l i q s).prof := by
  rw [parked, requestLoad_only]
  rfl

/-- What parking leaves of the profile unit. -/
theorem prof_parked : (parked l i q s).prof = { s.prof with
    waiting := s.prof.waiting ++ [⟨l, i, q.arrival + 20000⟩]
    loadQueue := requested s.prof.loadQueue q.region
    flight := (parked l i q s).prof.flight
    flashSelected := (parked l i q s).prof.flashSelected
    pspOut := (parked l i q s).prof.pspOut } :=
  prof_requestLoad q.region (parkPage l i q.arrival s)

theorem loadRequested_parked : LoadRequested q.region s.prof (parked l i q s).prof :=
  (loadRequested_requestLoad q.region (parkPage l i q.arrival s)).congr rfl rfl rfl rfl rfl

theorem told_parked : Told s (parked l i q s) := (told_parkPage l i q.arrival s).trans (told_requestLoad q.region _)

end

/-- The lookup of an accepted page whose region is not cached (R50). -/
theorem handOn_uncached {l : LinkId} {i : PageSlot} {q : Page} {s : State} (hc : s.cached q.region = none) :
    handOn l i q s =
      if s.prof.loadQueue.contains q.region ∨ s.prof.loadQueue.length < 8 then parked l i q s else judge none l i s := by
  rw [handOn, hc]
  rfl

theorem handOn_cached {l : LinkId} {i : PageSlot} {q : Page} {s : State} {c : CacheEntry}
    (hc : s.cached q.region = some c) :
    handOn l i q s = judge c.profile l i (s.setProf { s.prof with cache := mostRecent s.prof.cache c }) := by
  rw [handOn, hc]
  rfl

theorem cached_accepted (l : LinkId) (i : PageSlot) (q : Page) (s : State) (n : Nat) :
    (s.accepted l i q).cached n = s.cached n := by
  rw [State.cached, prof_accepted]
  rfl

/-- The unit a page was parked in, seen from before its acceptance. -/
theorem parked_accepted_prof (l : LinkId) (i : PageSlot) (q : Page) (s : State) :
    (parked l i q (s.accepted l i q)).prof = { s.prof with
      waiting := s.prof.waiting ++ [⟨l, i, q.arrival + 20000⟩]
      loadQueue := requested s.prof.loadQueue q.region
      flight := (parked l i q (s.accepted l i q)).prof.flight
      flashSelected := (parked l i q (s.accepted l i q)).prof.flashSelected
      pspOut := (parked l i q (s.accepted l i q)).prof.pspOut } := by
  have h := prof_parked l i q (s.accepted l i q)
  rw [prof_accepted] at h
  exact h

/-- Settles O15: the page parked with its region requested, or judged under the fallback profile when the queue is full. -/
theorem pageWithoutProfileWaits : Obligations.PageWithoutProfileWaits := by
  intro l body f i p s hu hf hh hi hr hp hc
  obtain ⟨-, hch, harr⟩ := readPage_bounds hp
  obtain ⟨q, hq⟩ : ∃ q, q = acceptPage p := ⟨_, rfl⟩
  have he := exec_page_accepted hu hf hh hi hr hp
  have hlq : (s.accepted l i q).prof.loadQueue = s.prof.loadQueue := by rw [prof_accepted]
  have hreg : q.region = p.region := by rw [hq]; rfl
  rw [← hq, handOn_uncached (by rw [cached_accepted, hreg, hc]), hlq, hreg] at he
  refine ⟨fun hroom => ?_, fun hcn hlen => ?_, acceptPage_eq p⟩
  · rw [if_pos hroom] at he
    have hprof := parked_accepted_prof l i q s
    have honly := parked_only l i q (s.accepted l i q)
    have hreq : LoadRequested p.region s.prof (parked l i q (s.accepted l i q)).prof := by
      have h := loadRequested_parked l i q (s.accepted l i q)
      rwa [prof_accepted, hreg] at h
    refine ⟨_, he, ?_, ?_, ?_, ?_, ?_, hreq, ?_, ?_, ?_, ?_, ?_, ?_, ?_, ?_, ?_,
      (told_accepted l i q s).trans (told_parked l i q _)⟩
    · rw [honly, State.link_setProf, link_accepted_same, hq]
    · rw [honly, State.link_setProf, link_accepted_other]
    · rw [hprof, hq]
      simp only [acceptPage, harr]
    · rw [hprof]
    · rw [hprof]
    · rw [hprof, hreg, requested]
      by_cases hcont : s.prof.loadQueue.contains p.region = true
      · rw [if_pos hcont, if_pos (.inl hcont)]
      · have hlt := hroom.resolve_left hcont
        rw [if_neg hcont, if_neg]
        rintro (h | h)
        · exact hcont h
        · omega
    · rw [honly, State.host_setProf, pages_accepted]
    · rw [honly, State.host_setProf, counters_accepted_other]
    · rw [honly, State.host_setProf, fallbackPages_accepted]
    · rw [honly]
      cases l <;> rfl
    · rw [honly, State.dir_setProf, dir_accepted]
    · rw [honly]
      cases l <;> rfl
    · rw [honly]
      cases l <;> rfl
    · rw [honly]
      cases l <;> rfl
  · rw [if_neg (by rw [hcn]; simp; omega)] at he
    obtain ⟨d, hdisp, -, hfall, hd⟩ := disposed_judge none l i q (s.accepted l i q) (heldPage_accepted l i q s)
    obtain ⟨hnot, hfb, hev⟩ := hfall rfl
    have hsame : s.accepted l i q = (s.accepted l i q).setProf s.prof := by
      rw [← prof_accepted l i q s]
      rfl
    have hpage : PageDisposed l i q d s.prof s (judge none l i (s.accepted l i q)) :=
      Disposed.pageDisposed hu (hsame ▸ hdisp)
    refine ⟨_, d, he, hnot (by rw [hq]; exact hch), hpage.state, hpage.slots, hpage.credits, hpage.frame, ?_, hpage.pages,
      ?_, hev, hpage.prof, hpage.otherCore, hpage.told, ?_⟩
    · rw [hpage.frames, hq]
      rfl
    · rw [hfb, fallbackPages_accepted]
    · rintro q' u rfl rfl
      rw [← hq]
      exact ⟨judge_eq none (heldPage_accepted l i q s), hd⟩

/-- A use moves its entry to the last place and keeps the others' order (R49). -/
theorem mostRecent_split {a b : List CacheEntry} {c : CacheEntry} (h : ∀ x ∈ a ++ b, x.region ≠ c.region) :
    mostRecent (a ++ c :: b) c = a ++ b ++ [c] := by
  have hf (q : List CacheEntry) (hq : ∀ x ∈ q, x.region ≠ c.region) :
      q.filter (fun x => !decide (x.region = c.region)) = q :=
    List.filter_eq_self.2 fun x hx => by simpa using hq x hx
  have ha := hf a fun x hx => h x (List.mem_append_left b hx)
  have hb := hf b fun x hx => h x (List.mem_append_right a hx)
  rw [mostRecent, List.filter_append, List.filter_cons_of_neg (by simp), ha, hb]

/-- Settles O16: the page judged under its cached profile, the cache entry used. -/
theorem pageWithCachedRegionIsDisposed : Obligations.PageWithCachedRegionIsDisposed := by
  intro l body f i p c s hu hf hh hi hr hp hc
  obtain ⟨-, hch, -⟩ := readPage_bounds hp
  obtain ⟨q, hq⟩ : ∃ q, q = acceptPage p := ⟨_, rfl⟩
  have he := exec_page_accepted hu hf hh hi hr hp
  have hreg : q.region = p.region := by rw [hq]; rfl
  rw [← hq, handOn_cached (by rw [cached_accepted, hreg]; exact hc), prof_accepted] at he
  have hheld : ((s.accepted l i q).setProf { s.prof with cache := mostRecent s.prof.cache c }).heldPage l i = some q :=
    heldPage_accepted l i q s
  obtain ⟨d, hdisp, hign, hfall, hd⟩ := disposed_judge c.profile l i q _ hheld
  have hpage := hdisp.pageDisposed hu
  refine ⟨_, d, he, hpage.state, hpage.slots, hpage.credits, hpage.frame, ?_, hpage.otherFrames, hpage.pages, hpage.prof,
    fun g hg hn => ?_, fun hn => ?_, hpage.otherCore, hpage.told, ?_⟩
  · rw [hpage.frames, hq]
    rfl
  · obtain ⟨h1, h2⟩ := hign g hg (by rw [hq]; exact hn)
    exact ⟨h1, by rw [h2, State.dir_setProf, dir_accepted]⟩
  · obtain ⟨h1, h2, h3⟩ := hfall hn
    exact ⟨by rw [h2, State.host_setProf, fallbackPages_accepted], h3, h1 (by rw [hq]; exact hch)⟩
  · rintro q' u rfl rfl
    rw [← hq]
    have hregion := List.find?_some hc
    exact ⟨judge_eq c.profile hheld, hd, List.mem_of_find?_eq_some hc, by simpa using hregion,
      fun a b h => mostRecent_split h⟩

/-! ### A wait deadline (R57) -/

/-- Settles O24: the record leaves the queue and its page is judged under the fallback profile. -/
theorem waitDeadlineUsesFallback : Obligations.WaitDeadlineUsesFallback := by
  intro l k w p s hw hl hk hd hp hch
  obtain ⟨u, hu⟩ : ∃ u, u = s.setProf { s.prof with
      waiting := s.prof.waiting.filter (fun x => !(decide (x.link = l) && decide (x.slot = k))) } := ⟨_, rfl⟩
  have he : exec (.waitDeadlineExpiry l k) s = .next (judge none l k u) := by
    show Host.Outcome.next _ = _
    rw [if_pos, hu]
    exact List.any_eq_true.2 ⟨w, hw, by simp [hl, hk, hd]⟩
  have hlink (m : LinkId) : u.link m = s.link m := by rw [hu, State.link_setProf]
  have hheld : u.heldPage l k = some p := by
    rw [State.heldPage, hlink]
    exact hp
  obtain ⟨d, hdisp, -, hfall, hdw⟩ := disposed_judge none l k p u hheld
  obtain ⟨hnot, hfb, hev⟩ := hfall rfl
  have hcore := hdisp.core
  rw [hlink] at hcore
  refine ⟨_, he, ?_, congrArg Link.slots hcore, congrArg Link.credits hcore, ?_, fun hup => ⟨d, hnot hch, ?_⟩,
    fun hup => ?_, ?_, hev, ?_⟩
  · rw [hdisp.prof, hu]
    rfl
  · rintro v rfl
    rw [← hu]
    exact ⟨judge_eq none hheld, hdw ▸ hnot hch⟩
  · rw [hdisp.up (by rw [hlink]; exact hup), hlink]
  · rw [hdisp.notUp (by rw [hlink]; exact hup), hlink]
  · rw [hfb, hu]
    rfl
  · have ht : Told s u := by
      rw [hu]
      exact told_setProf s _
    exact ht.trans hdisp.told

end Sys2Proof.Machine
end

section
/-! SERVING (R36 to R38): the record replaced, the subscription that follows, and how a frame joins the output queue.
RECEIPT_RESULT (R40, R157 to R162): the outstanding record settled or refused. -/

namespace Sys2Proof.Machine

/-! ### Joining the output queue (R38, R39, R41) -/

theorem isSubscribe_eq_false {f : OutFrame} (h : ∀ x, f ≠ .subscribe x) : f.isSubscribe = false := by
  cases f
  case subscribe x => exact absurd rfl (h x)
  all_goals rfl

theorem isReceipt_eq_false {f : OutFrame} (h : ∀ id k r d, f ≠ .receipt id k r d) : f.isReceipt = false := by
  cases f
  case receipt id k r d => exact absurd rfl (h id k r d)
  all_goals rfl

theorem mem_nonReceipts {q : List OutFrame} {f : OutFrame} :
    f ∈ nonReceipts q ↔ f ∈ q ∧ ∀ id k r d, f ≠ .receipt id k r d := by
  rw [nonReceipts, List.mem_filter]
  cases f <;> simp [OutFrame.isReceipt]

/-- No frame of a queue is a SUBSCRIBE. -/
theorem any_isSubscribe_eq_false {q : List OutFrame} (h : ∀ y, .subscribe y ∉ q) : q.any OutFrame.isSubscribe = false := by
  rw [List.any_eq_false]
  intro f hf
  rw [Bool.not_eq_true]
  exact isSubscribe_eq_false fun x hx => h x (hx ▸ hf)

theorem pushFrame_subscribe_absent {q : List OutFrame} (x : List (Nat × Nat)) (h : ∀ y, .subscribe y ∉ q) :
    pushFrame q (.subscribe x) = q ++ [.subscribe x] := by
  simp [pushFrame, any_isSubscribe_eq_false h, OutFrame.isReceipt]

theorem map_replace_absent {q : List OutFrame} (f : OutFrame) (h : ∀ y, .subscribe y ∉ q) :
    q.map (fun g => if g.isSubscribe then f else g) = q := by
  have hg : ∀ g ∈ q, (if g.isSubscribe then f else g) = id g := by
    intro g hg
    rw [isSubscribe_eq_false fun x hx => h x (hx ▸ hg)]
    rfl
  rw [List.map_congr_left hg, List.map_id]

theorem pushFrame_subscribe_present {a b : List OutFrame} (x y : List (Nat × Nat)) (h : ∀ z, .subscribe z ∉ a ++ b) :
    pushFrame (a ++ .subscribe y :: b) (.subscribe x) = a ++ .subscribe x :: b := by
  have hany : (a ++ .subscribe y :: b).any OutFrame.isSubscribe = true := by simp [OutFrame.isSubscribe]
  rw [pushFrame, hany, if_pos (by rfl), List.map_append, List.map_cons,
    map_replace_absent _ fun z hz => h z (List.mem_append_left b hz),
    map_replace_absent _ fun z hz => h z (List.mem_append_right a hz)]
  rfl

theorem pushFrame_other (q : List OutFrame) {f : OutFrame} (hs : ∀ x, f ≠ .subscribe x)
    (hr : ∀ id k r d, f ≠ .receipt id k r d) : pushFrame q f = q ++ [f] := by
  simp [pushFrame, isSubscribe_eq_false hs, isReceipt_eq_false hr]

theorem pushFrame_receipt (q : List OutFrame) (id : ReceiptId) (k : Key) (r : Revision) (d : Nat) :
    pushFrame q (.receipt id k r d) = nonReceipts q ++ [.receipt id k r d] := by
  simp [pushFrame, OutFrame.isSubscribe, OutFrame.isReceipt, nonReceipts]

/-! ### The serving record replaced -/

/-- What a serving report leaves, the waiting subscription, the output queue and the profile unit apart. -/
structure Reported (l : LinkId) (v : Serving) (s t : State) : Prop where
  link : t.link l = { s.link l with
    frame := none, serving := v, subWaiting := (t.link l).subWaiting, outQ := (t.link l).outQ }
  other : t.link l.other = s.link l.other
  area : t.area = (servingTrigger s).area
  dir : t.dir = s.dir
  arb : t.arb = s.arb
  rcpt : t.rcpt = s.rcpt
  host : t.host = s.host

/-- The state in which a report has replaced the record and taken the trigger. -/
def reportTaken (l : LinkId) (v : Serving) (s : State) : State :=
  servingTrigger (modLink l (fun k => { k with serving := v }) (endFrame l s))

theorem link_reportTaken (l : LinkId) (v : Serving) (s : State) :
    (reportTaken l v s).link l = { s.link l with frame := none, serving := v } := by
  rw [reportTaken, link_servingTrigger, State.link_modLink_same, link_endFrame]

theorem prof_reportTaken (l : LinkId) (v : Serving) (s : State) : (reportTaken l v s).prof = s.prof := by
  simp [reportTaken, servingTrigger, trigger]

theorem reported_reportTaken (l : LinkId) (v : Serving) (s : State) : Reported l v s (reportTaken l v s) where
  link := by rw [link_reportTaken]
  other := by simp [reportTaken, link_servingTrigger]
  area := servingTrigger_kept ((receiptWork_endFrame l s).trans (receiptWork_modLink l _ _))
  dir := by simp [reportTaken, servingTrigger, trigger]
  arb := by simp [reportTaken, servingTrigger, trigger]
  rcpt := by simp [reportTaken, servingTrigger, trigger]
  host := by simp [reportTaken, servingTrigger, trigger]

/-- A change of the waiting subscription and the output queue stays within a report. -/
theorem Reported.modLink {l : LinkId} {v : Serving} {s t : State} (h : Reported l v s t) (f : Link → Link)
    (hf : f (t.link l) = { t.link l with subWaiting := (f (t.link l)).subWaiting, outQ := (f (t.link l)).outQ }) :
    Reported l v s (modLink l f t) where
  link := by
    rw [State.link_modLink_same, hf, h.link]
  other := by rw [State.link_modLink_other, h.other]
  area := by rw [State.area_modLink, h.area]
  dir := by rw [State.dir_modLink, h.dir]
  arb := by rw [State.arb_modLink, h.arb]
  rcpt := by rw [State.rcpt_modLink, h.rcpt]
  host := by rw [State.host_modLink, h.host]

theorem Reported.setProf {l : LinkId} {v : Serving} {s t : State} (h : Reported l v s t) (p : ProfileUnit) :
    Reported l v s (t.setProf p) :=
  ⟨h.link, by rw [State.link_setProf, h.other], h.area, h.dir, h.arb, h.rcpt, h.host⟩

/-- A report taken, case by case: no region, the region it had, a cached one, one to load (R36, R37). -/
theorem takeServing_noRegion {l : LinkId} {v : Serving} (s : State) (h : v.region = none) :
    takeServing l v (endFrame l s) = setSubWaiting none l (reportTaken l v s) := by
  rw [takeServing, h]
  rfl

theorem takeServing_sameRegion {l : LinkId} {v : Serving} {s : State} {n : Nat} (h : v.region = some n)
    (hs : (s.link l).serving.region = some n) : takeServing l v (endFrame l s) = reportTaken l v s := by
  rw [takeServing, h]
  exact if_pos (by rw [link_endFrame]; exact hs)

theorem takeServing_newRegion {l : LinkId} {v : Serving} {s : State} {n : Nat} (h : v.region = some n)
    (hs : (s.link l).serving.region ≠ some n) :
    takeServing l v (endFrame l s) = deriveSubscription l n (reportTaken l v s) := by
  rw [takeServing, h]
  exact if_neg (by rw [link_endFrame]; exact hs)

/-- The subscription from a cached profile, the cache entry used. -/
def subscribed (l : LinkId) (c : CacheEntry) (s : State) : State :=
  modLink l (fun k => { k with subWaiting := none, outQ := pushFrame k.outQ (subscriptionOf c.profile) })
    (s.setProf { s.prof with cache := mostRecent s.prof.cache c })

/-- The fallback subscription, the region awaited and its load requested. -/
def awaitingRegion (l : LinkId) (n : Nat) (s : State) : State :=
  requestLoad n
    (modLink l (fun k => { k with subWaiting := some n, outQ := pushFrame k.outQ (.subscribe [(0, 1023)]) }) s)

theorem cached_setSubWaiting (v : Option Nat) (l : LinkId) (s : State) (n : Nat) :
    (setSubWaiting v l s).cached n = s.cached n := by
  rw [State.cached, setSubWaiting, State.prof_modLink]
  rfl

theorem deriveSubscription_cached {l : LinkId} {n : Nat} {c : CacheEntry} {s : State} (h : s.cached n = some c) :
    deriveSubscription l n s = subscribed l c s := by
  rw [deriveSubscription, cached_setSubWaiting, h]
  cases l <;> rfl

theorem deriveSubscription_uncached {l : LinkId} {n : Nat} {s : State} (h : s.cached n = none) :
    deriveSubscription l n s = awaitingRegion l n s := by
  rw [deriveSubscription, cached_setSubWaiting, h]
  cases l <;> rfl

theorem Reported.subscribed {l : LinkId} {v : Serving} {s t : State} (h : Reported l v s t) (c : CacheEntry) :
    Reported l v s (subscribed l c t) :=
  (h.setProf _).modLink _ rfl

theorem Reported.awaitingRegion {l : LinkId} {v : Serving} {s t : State} (h : Reported l v s t) (n : Nat) :
    Reported l v s (awaitingRegion l n t) := by
  rw [Machine.awaitingRegion, requestLoad_only]
  exact (h.modLink _ rfl).setProf _

/-- Every report leaves what `Reported` says. -/
theorem reported_takeServing (l : LinkId) (v : Serving) (s : State) : Reported l v s (takeServing l v (endFrame l s)) := by
  have h := reported_reportTaken l v s
  cases hv : v.region with
  | none =>
    rw [takeServing_noRegion s hv]
    exact h.modLink _ rfl
  | some n =>
    by_cases hs : (s.link l).serving.region = some n
    · rw [takeServing_sameRegion hv hs]
      exact h
    · rw [takeServing_newRegion hv hs]
      cases hc : (reportTaken l v s).cached n with
      | some c =>
        rw [deriveSubscription_cached hc]
        exact h.subscribed c
      | none =>
        rw [deriveSubscription_uncached hc]
        exact h.awaitingRegion n

theorem cached_reportTaken (l : LinkId) (v : Serving) (s : State) (n : Nat) :
    (reportTaken l v s).cached n = s.cached n := by
  rw [State.cached, prof_reportTaken]
  rfl

theorem selectedByServing_iff (e : Entry) : selectedByServing e = true ↔
    e.hold = some .area ∧ ∃ c es, e.current = some c ∧ c.desc.area = some (.cells es) := by
  have hb : selectedByServing e = true ↔ e.hold = some .area ∧ ∃ es, e.areaBlock = some (.cells es) := by
    rw [selectedByServing, Bool.and_eq_true, decide_eq_true_eq]
    refine and_congr_right fun _ => ?_
    rcases e.areaBlock with _ | ⟨es⟩ | ⟨vs, m⟩ <;> simp
  rw [hb]
  simp only [areaBlock_eq_some]
  exact and_congr_right fun _ => ⟨fun ⟨es, c, h⟩ => ⟨c, es, h⟩, fun ⟨c, es, h⟩ => ⟨es, c, h⟩⟩

/-- Settles O17: what every report leaves by `Reported`, subscription and load by the case of its region. -/
theorem servingReplacesRecord : Obligations.ServingReplacesRecord := by
  intro l body v s hu hrec hv
  obtain ⟨f, hf, hh⟩ := hrec
  have he : exec (.serving l body) s = .next (takeServing l v (endFrame l s)) := by
    rw [show Instr.serving l body = frameEnd .serving l body from rfl, exec_frameEnd_up hu hf hh, frameUp, hv]
  have hr := reported_takeServing l v s
  have hlink := hr.link
  have hslots := congrArg Link.slots hlink
  have hcredits := congrArg Link.credits hlink
  have hout := congrArg Link.outstanding hlink
  have hfault := congrArg Link.fault hlink
  refine ⟨_, he, (congrArg Link.state hlink).trans hu, congrArg Link.serving hlink, congrArg Link.frame hlink,
    hslots, hcredits, hout, hfault,
    fun hn => ?_, fun n hn hs => ?_, fun n c hn hs hc => ?_, fun n hn hs hc => ?_, by rw [hr.area], rfl,
    selectedByServing_iff, hr.other, hr.dir, hr.arb, hr.rcpt, hr.host,
    (told_endFrame l s).trans (told_takeServing l v _), fun f => rfl, rfl,
    fun q x h => pushFrame_subscribe_absent x h, fun a b x y h => pushFrame_subscribe_present x y h,
    fun q f hs hr => pushFrame_other q hs hr, pushFrame_receipt, fun q f => mem_nonReceipts⟩
  · rw [takeServing_noRegion s hn, setSubWaiting, State.link_modLink_same, link_reportTaken, State.prof_modLink,
      prof_reportTaken]
    exact ⟨rfl, rfl, rfl⟩
  · rw [takeServing_sameRegion hn hs, link_reportTaken, prof_reportTaken]
    exact ⟨rfl, rfl, rfl⟩
  · rw [takeServing_newRegion hn hs, deriveSubscription_cached ((cached_reportTaken l v s n).trans hc), subscribed,
      State.link_modLink_same, State.link_setProf, link_reportTaken, State.prof_modLink, prof_reportTaken]
    exact ⟨rfl, rfl, rfl⟩
  · obtain ⟨u, hu'⟩ : ∃ u, u = modLink l
        (fun k => { k with subWaiting := some n, outQ := pushFrame k.outQ (.subscribe [(0, 1023)]) })
        (reportTaken l v s) := ⟨_, rfl⟩
    have ht : takeServing l v (endFrame l s) = requestLoad n u := by
      rw [takeServing_newRegion hn hs, deriveSubscription_uncached ((cached_reportTaken l v s n).trans hc), hu']
      rfl
    have hup : u.prof = s.prof := by rw [hu', State.prof_modLink, prof_reportTaken]
    have hul : u.link l = { s.link l with
        frame := none, serving := v, subWaiting := some n,
        outQ := pushFrame (s.link l).outQ (.subscribe [(0, 1023)]) } := by
      rw [hu', State.link_modLink_same, link_reportTaken]
    have hprof := prof_requestLoad n u
    have hreq := loadRequested_requestLoad n u
    rw [hup] at hprof hreq
    rw [ht, link_requestLoad, hul]
    refine ⟨rfl, rfl, ?_, ?_, ?_, ?_, hreq, ?_⟩
    · rw [hprof]
    · rw [hprof]
    · rw [hprof]
    · rw [hprof]
    · rw [hprof]
      rfl

/-! ### The outstanding receipt settled (R40, R159 to R161) -/

/-- What follows at the link is read off receipts, directory, clock and the link's output queue. -/
theorem NextOffered.before {r : ReceiptRecord} {s u t : State} (h : NextOffered r u t) (hr : u.rcpt = s.rcpt)
    (hd : u.dir = s.dir) (hn : u.now = s.now) (hq : (u.link r.target).outQ = (s.link r.target).outQ) :
    NextOffered r s t where
  none := by
    have hnone := h.none
    simpa only [hr, hq, entryAt_congr hd] using hnone
  next := by
    have hnext := h.next
    simpa only [hr, hq, hn, entryAt_congr hd, named_congr hd] using hnext

theorem link_other_offer (l : LinkId) (s : State) : (offer l s).link l.other = s.link l.other := by
  rcases offer_cases l s with ⟨h, -⟩ | ⟨y, -, -, hy, h⟩
  · rw [h]
  · rw [h, link_makeOffer, (nextReceipt_target hy).1, if_neg (LinkId.other_ne l)]

/-- The state in which a record is settled as sent, before the next offer (R159). -/
def settledSent (r : ReceiptRecord) (s : State) : State :=
  countGlobal (fun c => { c with receiptsSent := bump c.receiptsSent }) (post .receiptDone
    (setReceipt r.handle .sent (dropRecord r.id (clearOutstanding r.target s))))

theorem receiptSent_eq (r : ReceiptRecord) (s : State) : receiptSent r s = offer r.target (settledSent r s) := rfl

theorem queue_settledSent (r : ReceiptRecord) (s : State) :
    (settledSent r s).rcpt.queue = s.rcpt.queue.filter (fun x => !decide (x.id = r.id)) := by
  simp [settledSent, rcpt_setReceipt, dropRecord, State.setQueue, rcpt_clearOutstanding]

theorem link_other_settledSent (r : ReceiptRecord) (s : State) :
    (settledSent r s).link r.target.other = s.link r.target.other := by
  simp [settledSent, link_setReceipt, dropRecord, State.setQueue, link_clearOutstanding, LinkId.other_ne]

theorem named_settledSent {r : ReceiptRecord} {s : State} {e : Entry} (h : s.named r.handle = some e) :
    (settledSent r s).named r.handle = some { e with receipt := .sent, changed := true } := by
  have hd : (dropRecord r.id (clearOutstanding r.target s)).dir = s.dir := dir_clearOutstanding r.target s
  have hn := named_setReceipt (h := r.handle) .sent ((named_congr hd r.handle).trans h)
  exact hn

/-- What the settling of a record as sent leaves (R159). -/
structure SentBy (r : ReceiptRecord) (s t : State) : Prop where
  gone : ∀ x ∈ t.rcpt.queue, x.id ≠ r.id
  entry : ∀ e, s.named r.handle = some e →
    (t.entryAt r.handle.slot).map (fun x => (x.receipt, x.changed)) = some (.sent, true)
  posted : EventSet.holds t.host.events .receiptDone = true
  counted : t.host.cntG.receiptsSent = min (s.host.cntG.receiptsSent + 1) 65535
  other : t.link r.target.other = s.link r.target.other

theorem sentBy_receiptSent (r : ReceiptRecord) (s : State) (hs : ∀ x ∈ s.rcpt.queue, x.handle = r.handle → x.id = r.id) :
    SentBy r s (receiptSent r s) := by
  have hid : ∀ x ∈ (settledSent r s).rcpt.queue, x.id ≠ r.id := by
    intro x hx
    rw [queue_settledSent, List.mem_filter] at hx
    simpa using hx.2
  have hhandle : ∀ x ∈ (settledSent r s).rcpt.queue, x.handle ≠ r.handle := by
    intro x hx he
    have hx' := hx
    rw [queue_settledSent, List.mem_filter] at hx'
    exact hid x hx (hs x hx'.1 he)
  obtain ⟨hgone, -, hhost, hnamed, -⟩ := offer_absent r.target r.id r.handle (settledSent r s) hid hhandle
  rw [receiptSent_eq]
  exact {
    gone := hgone
    entry := fun e he => by
      rw [named_entryAt (hnamed _ (named_settledSent he))]
      rfl
    posted := by
      rw [hhost]
      exact holds_post .receiptDone _
    counted := by
      rw [hhost]
      simp only [settledSent, countGlobal, post, State.host_setHost, host_setReceipt]
      simp [dropRecord, State.setQueue, clearOutstanding, bump_eq]
    other := by rw [link_other_offer, link_other_settledSent] }

theorem SentBy.before {r : ReceiptRecord} {s u t : State} (h : SentBy r u t) (hd : u.dir = s.dir)
    (hc : u.host.cntG = s.host.cntG) (ho : u.link r.target.other = s.link r.target.other) : SentBy r s t where
  gone := h.gone
  entry e he := h.entry e (by rw [named_congr hd]; exact he)
  posted := h.posted
  counted := by rw [h.counted, hc]
  other := by rw [h.other, ho]

/-- The state in which the frame of a receipt result is over and nothing is outstanding on its link (R40). -/
def resultTaken (l : LinkId) (s : State) : State := clearOutstanding l (endFrame l s)

section
variable (l : LinkId) (s : State)

theorem link_resultTaken : (resultTaken l s).link l = { s.link l with frame := none, outstanding := none } := by
  rw [resultTaken, link_clearOutstanding, if_pos rfl, link_endFrame]

theorem link_other_resultTaken : (resultTaken l s).link l.other = s.link l.other := by
  rw [resultTaken, link_clearOutstanding, if_neg (LinkId.other_ne l), link_other_endFrame]

theorem rcpt_resultTaken : (resultTaken l s).rcpt = s.rcpt := by rw [resultTaken, rcpt_clearOutstanding, rcpt_endFrame]

theorem dir_resultTaken : (resultTaken l s).dir = s.dir := by rw [resultTaken, dir_clearOutstanding, dir_endFrame]

theorem now_resultTaken : (resultTaken l s).now = s.now := by rw [resultTaken, now_clearOutstanding, now_endFrame]

theorem host_resultTaken : (resultTaken l s).host = s.host := by
  rw [resultTaken, clearOutstanding, State.host_modLink, host_endFrame]

end

/-- What any settling of a result keeps: the link but its queue and outstanding receipt, the other link's core, the blocks
that receipts do not touch. -/
structure ResultKept (l : LinkId) (s t : State) : Prop where
  frame : (t.link l).frame = none
  slots : (t.link l).slots = (s.link l).slots
  state : (t.link l).state = (s.link l).state
  other : (t.link l.other).core = (s.link l.other).core
  prof : t.prof = s.prof
  arb : t.arb = s.arb
  area : t.area = s.area
  dir : directoryKept s t
  told : Told s t

theorem resultKept_of_work {l : LinkId} {s t : State} (w : Work (resultTaken l s) t) (r : ReceiptWork (resultTaken l s) t) :
    ResultKept l s t := by
  have hk := w.link l
  have ho := w.link l.other
  rw [link_resultTaken] at hk
  rw [link_other_resultTaken] at ho
  have hw : ReceiptWork s (resultTaken l s) := (receiptWork_endFrame l s).trans (receiptWork_clearOutstanding l _)
  have hr := hw.trans r
  have hslots := Link.slots_of_core hk
  have hstate := Link.state_of_core hk
  exact {
    frame := Link.frame_of_core hk
    slots := hslots
    state := hstate
    other := ho
    prof := w.prof.trans (by simp [resultTaken, clearOutstanding])
    arb := hr.arb
    area := hr.area
    dir := hr.directory
    told := (told_endFrame l s).trans ((work_clearOutstanding l _).told.trans w.told) }

/-- RECEIPT_RESULT with a body that is read settles its result after its frame's end. -/
theorem exec_receiptResult {l : LinkId} {body : List Byte} {id : ReceiptId} {sent : Bool} {s : State}
    (hu : (s.link l).state = .up) (hrec : s.receives l .receiptResult body.length)
    (hb : readReceiptResult body = some (id, sent)) :
    exec (.receiptResult l body) s = .next (settleResult l id sent (endFrame l s)) := by
  obtain ⟨f, hf, hh⟩ := hrec
  rw [show Instr.receiptResult l body = frameEnd .receiptResult l body from rfl, exec_frameEnd_up hu hf hh, frameUp, hb]

/-- A result for the outstanding record. -/
theorem settleResult_outstanding {l : LinkId} {id : ReceiptId} {r : ReceiptRecord} (sent : Bool) {s : State}
    (ho : (s.link l).outstanding = some id) (hr : s.recordOf id = some r) :
    settleResult l id sent (endFrame l s) =
      if sent then receiptSent r (resultTaken l s) else refuse r (resultTaken l s) := by
  have hr' : (endFrame l s).recordOf id = some r := by
    rw [State.recordOf, rcpt_endFrame]
    exact hr
  rw [settleResult, if_pos (by rw [link_endFrame]; exact ho), hr']
  rfl

/-- Settles O18: the record sent or refused after the frame's end, then the next offer. -/
theorem receiptResultSettlesOutstanding : Obligations.ReceiptResultSettlesOutstanding := by
  intro l body id sent s hu hrec hb
  have he := exec_receiptResult hu hrec hb
  have hup : ((resultTaken l s).link l).state = .up := by rw [link_resultTaken]; exact hu
  refine ⟨fun ho => ?_, fun r ho hr ht hsent huniq => ?_, fun r ho hr ht hstate hsent hids huniq => ?_⟩
  · rw [he, settleResult, if_neg (by rw [link_endFrame]; exact ho), endFrame_eq]
  · obtain rfl : r.id = id := by simpa using List.find?_some hr
    subst ht hsent
    have huniq' : ∀ x ∈ (resultTaken r.target s).rcpt.queue, x.handle = r.handle → x.id = r.id := by
      rw [rcpt_resultTaken]
      exact huniq
    rw [settleResult_outstanding _ ho hr, if_pos rfl] at he
    have hk : ResultKept r.target s (receiptSent r (resultTaken r.target s)) :=
      resultKept_of_work (work_receiptSent r _) (receiptWork_receiptSent r _)
    have hs : SentBy r s (receiptSent r (resultTaken r.target s)) :=
      (sentBy_receiptSent r _ huniq').before (dir_resultTaken _ s) (by rw [host_resultTaken])
        (link_other_resultTaken _ s)
    have hn : NextOffered r s (receiptSent r (resultTaken r.target s)) :=
      (nextOffered_receiptSent r _ hup huniq').before (rcpt_resultTaken _ s) (dir_resultTaken _ s)
        (now_resultTaken _ s) (by rw [link_resultTaken])
    exact ⟨_, he, hs.gone, hs.entry, hs.posted, hs.counted, hk.frame, hk.slots, hk.state.trans hu, hs.other, hk.prof,
      hk.arb, hk.area, hk.dir, hk.told, hn⟩
  · obtain rfl : r.id = id := by simpa using List.find?_some hr
    subst ht hsent
    have hmem : r ∈ (resultTaken r.target s).rcpt.queue := by
      rw [rcpt_resultTaken]
      exact recordOf_mem hr
    have hids' : ((resultTaken r.target s).rcpt.queue.map (·.id)).Nodup := by
      rw [rcpt_resultTaken]
      exact hids
    have huniq' : ∀ x ∈ (resultTaken r.target s).rcpt.queue, x.handle = r.handle → x.id = r.id := by
      rw [rcpt_resultTaken]
      exact huniq
    rw [settleResult_outstanding _ ho hr, if_neg (by decide)] at he
    have hk : ResultKept r.target s (refuse r (resultTaken r.target s)) :=
      resultKept_of_work (work_refuse r _) (receiptWork_refuse r _)
    have href : RefusedBy r s (refuse r (resultTaken r.target s)) :=
      (refusedBy_refuse r _ hmem hids' huniq').before (rcpt_resultTaken _ s) (dir_resultTaken _ s) (now_resultTaken _ s)
        (by rw [host_resultTaken]) (link_other_resultTaken _ s)
    refine ⟨_, he, href, hk.frame, hk.slots, hk.state.trans hu, hk.other, hk.prof, hk.arb, hk.area, hk.dir, hk.told,
      fun hno => ?_⟩
    refine (nextOffered_refuse r _ hup hids' hmem huniq' ?_).before (rcpt_resultTaken _ s) (dir_resultTaken _ s)
      (now_resultTaken _ s) (by rw [link_resultTaken])
    unfold State.nothingToOffer
    rw [link_other_resultTaken, rcpt_resultTaken]
    exact hno

end Sys2Proof.Machine
end

section
/-! The store returned and the profiles flushed (R53, R54, R60, R61): the serving regions requested again, and the load that
starts. -/

namespace Sys2Proof.Machine

/-! ### The serving regions requested (R38, R60, R61) -/

/-- The region a link in UP names in its serving record. -/
def Link.awaits (k : Link) : Option Nat := if k.state = .up then k.serving.region else none

/-- A link that waits for the region it names. -/
def Link.awaiting (k : Link) : Link :=
  match k.awaits with
  | none => k
  | some n => { k with subWaiting := some n }

theorem servingRegions_eq (s : State) :
    s.servingRegions = s.la.awaits.toList ++ s.lb.awaits.toList := by
  unfold State.servingRegions
  change [LinkId.la, LinkId.lb].filterMap (fun l => (s.link l).awaits) = _
  simp only [List.filterMap_cons, List.filterMap_nil, State.link]
  cases s.la.awaits <;> cases s.lb.awaits <;> rfl

theorem modLink_self {l : LinkId} {f : Link → Link} {s : State} (h : f (s.link l) = s.link l) : modLink l f s = s := by
  rw [modLink, h]
  cases l <;> rfl

theorem requestServing_none {l : LinkId} {s : State} (h : (s.link l).awaits = none) : requestServing l s = s := by
  unfold Link.awaits at h
  unfold requestServing
  split
  · next hu =>
    rw [if_pos hu] at h
    rw [h]
  · rfl

theorem requestServing_some {l : LinkId} {s : State} {n : Nat} (h : (s.link l).awaits = some n) :
    requestServing l s = setSubWaiting (some n) l (requestLoad n s) := by
  unfold Link.awaits at h
  unfold requestServing
  split
  · next hu =>
    rw [if_pos hu] at h
    rw [h]
  · next hu =>
    rw [if_neg hu] at h
    cases h

/-- A link's request touches its waiting subscription and the profile unit. -/
theorem requestServing_only (l : LinkId) (s : State) :
    requestServing l s = modLink l Link.awaiting (s.setProf (requestServing l s).prof) := by
  cases h : (s.link l).awaits with
  | none =>
    rw [requestServing_none h]
    exact (modLink_self (by simp [Link.awaiting, h])).symm
  | some n =>
    rw [requestServing_some h, setSubWaiting, State.prof_modLink, modLink, link_requestLoad, modLink, State.link_setProf,
      Link.awaiting, h, requestLoad_only]
    rfl

/-- What a link's request leaves of the profile unit. -/
theorem unit_requestServing (l : LinkId) (s : State) : (requestServing l s).prof = { s.prof with
    loadQueue := (s.link l).awaits.toList.foldl requested s.prof.loadQueue
    flight := (requestServing l s).prof.flight
    flashSelected := (requestServing l s).prof.flashSelected
    pspOut := (requestServing l s).prof.pspOut } := by
  cases h : (s.link l).awaits with
  | none => rw [requestServing_none h]; rfl
  | some n =>
    rw [requestServing_some h, setSubWaiting, State.prof_modLink]
    exact prof_requestLoad n s

theorem link_requestServing (l m : LinkId) (s : State) :
    (requestServing l s).link m = if m = l then (s.link m).awaiting else s.link m := by
  rw [requestServing_only, State.link_modLink, State.link_setProf]

/-- What the requests of both links leave of the profile unit. -/
theorem unit_requestServingRegions (s : State) : (requestServingRegions s).prof = { s.prof with
    loadQueue := s.servingRegions.foldl requested s.prof.loadQueue
    flight := (requestServingRegions s).prof.flight
    flashSelected := (requestServingRegions s).prof.flashSelected
    pspOut := (requestServingRegions s).prof.pspOut } := by
  have hla := unit_requestServing .la s
  have hlb := unit_requestServing .lb (requestServing .la s)
  have hlink : (requestServing .la s).link .lb = s.lb := by
    rw [link_requestServing, if_neg (by decide)]
    rfl
  rw [hlink] at hlb
  rw [servingRegions_eq, List.foldl_append, requestServingRegions, hlb, hla]
  rfl

theorem link_requestServingRegions (l : LinkId) (s : State) :
    (requestServingRegions s).link l = (s.link l).awaiting := by
  rw [requestServingRegions, link_requestServing, link_requestServing]
  cases l <;> simp

/-- The requests of both links touch the waiting subscriptions and the profile unit. -/
theorem requestServingRegions_only (s : State) :
    requestServingRegions s =
      modLink .lb Link.awaiting (modLink .la Link.awaiting (s.setProf (requestServingRegions s).prof)) := by
  have hla := requestServing_only .la s
  have hlb := requestServing_only .lb (requestServing .la s)
  have hlater (p q : ProfileUnit) :
      (modLink .la Link.awaiting (s.setProf p)).setProf q = modLink .la Link.awaiting (s.setProf q) := rfl
  have hboth := congrArg (fun u => modLink .lb Link.awaiting (u.setProf (requestServingRegions s).prof)) hla
  simp only [hlater] at hboth
  exact hlb.trans hboth

/-! ### The load that starts (R54, R194) -/

/-- While the serving regions are requested: no load is in flight, flash and request as before, or the load of the queue's
head has just started. -/
def Reloading (p q : ProfileUnit) : Prop :=
  (q.flight = none ∧ q.flashSelected = p.flashSelected ∧ q.pspOut = p.pspOut) ∨
  (q.store = .owned ∧ ∃ n, q.loadQueue.head? = some n ∧ q.reads n)

theorem head?_requested {q : List Nat} {h : Nat} (n : Nat) (hq : q.head? = some h) : (requested q n).head? = some h := by
  unfold requested
  split
  · exact hq
  · rw [List.head?_append, hq]
    rfl

theorem reloading_requestLoad {p : ProfileUnit} (n : Nat) {s : State} (h : Reloading p s.prof) :
    Reloading p (requestLoad n s).prof := by
  have hprof := prof_requestLoad n s
  have hqueue : (requestLoad n s).prof.loadQueue = requested s.prof.loadQueue n := by rw [hprof]
  have hstore : (requestLoad n s).prof.store = s.prof.store := by rw [hprof]
  obtain ⟨hstarts, hstays⟩ := loadRequested_requestLoad n s
  rcases h with ⟨hf, hs, ho⟩ | ⟨ho, m, hm, hf, hs, hp⟩
  · by_cases hjoin : s.prof.loadQueue.contains n = false ∧ s.prof.loadQueue.length < 8 ∧ s.prof.store = .owned
    · obtain ⟨hc, hl, hown⟩ := hjoin
      obtain ⟨m, hm⟩ : ∃ m, (s.prof.loadQueue ++ [n]).head? = some m := by
        cases s.prof.loadQueue <;> simp
      refine .inr ⟨hstore.trans hown, m, ?_, hstarts hc hl hown hf m hm⟩
      rw [hqueue, requested, if_neg (by rw [hc]; simp; omega), hm]
    · have hstay : s.prof.loadQueue.contains n = true ∨ 8 ≤ s.prof.loadQueue.length ∨ s.prof.store ≠ .owned ∨
          s.prof.flight ≠ none := by
        by_cases hc : s.prof.loadQueue.contains n = true
        · exact .inl hc
        · by_cases hl : s.prof.loadQueue.length < 8
          · exact .inr (.inr (.inl fun hown => hjoin ⟨by simpa using hc, hl, hown⟩))
          · exact .inr (.inl (by omega))
      obtain ⟨h1, h2, h3⟩ := hstays hstay
      exact .inl ⟨h1.trans hf, h2.trans hs, h3.trans ho⟩
  · obtain ⟨h1, h2, h3⟩ := hstays (.inr (.inr (.inr (by rw [hf]; simp))))
    exact .inr ⟨hstore.trans ho, m, by rw [hqueue]; exact head?_requested n hm, h1.trans hf, h2.trans hs, h3.trans hp⟩

theorem reloading_requestServing {p : ProfileUnit} (l : LinkId) {s : State} (h : Reloading p s.prof) :
    Reloading p (requestServing l s).prof := by
  cases ha : (s.link l).awaits with
  | none => rw [requestServing_none ha]; exact h
  | some n =>
    rw [requestServing_some ha, setSubWaiting, State.prof_modLink]
    exact reloading_requestLoad n h

theorem reloading_requestServingRegions {p : ProfileUnit} {s : State} (h : Reloading p s.prof) :
    Reloading p (requestServingRegions s).prof :=
  reloading_requestServing .lb (reloading_requestServing .la h)

/-- A head that starts is in flight, the flash selected with it. -/
theorem HeadStarts.flight {p q : ProfileUnit} (h : HeadStarts p q) (ho : q.store = .owned) :
    q.flight = headLoad q.loadQueue ∧ q.flashSelected = q.flight.isSome := by
  cases hq : q.loadQueue with
  | nil =>
    obtain ⟨h1, h2, -⟩ := h.idles (.inr hq)
    rw [h1, h2]
    exact ⟨rfl, rfl⟩
  | cons n ns =>
    obtain ⟨h1, h2, -⟩ := h.starts n ho (by rw [hq]; rfl)
    rw [h1, h2]
    exact ⟨rfl, rfl⟩

theorem flight_startLoad (s : State) (hf : s.prof.flight = none) :
    (startLoad s).prof.flight = if s.prof.store = .owned then headLoad s.prof.loadQueue else none := by
  unfold startLoad
  cases hq : s.prof.loadQueue with
  | nil => simp [hf, headLoad]
  | cons n ns =>
    by_cases ho : s.prof.store = .owned
    · simp [hf, ho, headLoad]
    · simp [hf, ho]

theorem startLoad_loading {s : State} (h : s.prof.flight ≠ none) : startLoad s = s := by
  unfold startLoad
  split
  · rfl
  · exact if_neg fun hc => h hc.2

/-- The load in flight after the requests and the start. -/
theorem flight_reloading {p : ProfileUnit} {s : State} (h : Reloading p s.prof) :
    (startLoad s).prof.flight = if s.prof.store = .owned then headLoad s.prof.loadQueue else none := by
  rcases h with ⟨hf, -, -⟩ | ⟨ho, n, hn, hf, -, -⟩
  · exact flight_startLoad s hf
  · rw [startLoad_loading (by rw [hf]; simp), hf, if_pos ho, headLoad, hn]
    rfl

theorem headStarts_reloading {p : ProfileUnit} {s : State} (h : Reloading p s.prof) (hs : p.flashSelected = false) :
    HeadStarts p (startLoad s).prof := by
  rcases h with ⟨hf, hflash, ho⟩ | ⟨hown, n, hn, hreads⟩
  · have hh := headStarts_startLoad s hf (hflash.trans hs)
    exact ⟨hh.starts, fun hi => ho ▸ hh.idles hi⟩
  · rw [startLoad_loading (by rw [hreads.1]; simp)]
    refine ⟨fun m _ hm => ?_, fun hi => ?_⟩
    · obtain rfl : n = m := Option.some.inj (hn.symm.trans hm)
      exact hreads
    · rcases hi with hi | hi
      · exact absurd hown hi
      · rw [hi] at hn
        cases hn

/-- Links and blocks after the serving regions were requested and a load may have started, from a state that had changed
only profile unit and host port. -/
theorem servingAwaited_of {s u t : State} (hl : ∀ l, u.link l = s.link l) (hd : u.dir = s.dir) (ha : u.area = s.area)
    (hr : u.arb = s.arb) (hq : u.rcpt = s.rcpt) (hp : u.pending = s.pending) (hn : u.now = s.now)
    (hc : u.freeCtr = s.freeCtr) {p : ProfileUnit} {h : HostPort}
    (ht : t = ((requestServingRegions u).setHost h).setProf p) : servingAwaited s t := by
  have hlink (l : LinkId) : t.link l = (s.link l).awaiting := by
    rw [ht, State.link_setProf, State.link_setHost, link_requestServingRegions, hl]
  have honly := requestServingRegions_only u
  refine ⟨fun l n hup hreg => ?_, fun l hno => ?_, ?_, ?_, ?_, ?_, ?_, ?_, ?_⟩
  · rw [hlink]
    simp [Link.awaiting, Link.awaits, hup, hreg]
  · rw [hlink]
    have hnone : (s.link l).awaits = none := by
      rcases hno with hno | hno
      · exact if_neg hno
      · simp [Link.awaits, hno]
    simp [Link.awaiting, hnone]
  · rw [ht, honly]; simp [hd]
  · rw [ht, honly]; simp [ha]
  · rw [ht, honly]; simp [hr]
  · rw [ht, honly]; simp [hq]
  · rw [ht, honly]; simp [hp]
  · rw [ht, honly]; simp [hn]
  · rw [ht, honly]; simp [hc]

/-! ### RETURN-STORE and FLUSH-PROFILES -/

theorem exec_returnStore_framed (s : State) (h : s.portIdle) :
    exec (.returnStore (framed [])) s =
      .next ((returnStoreWork [] (s.taken 0)).1.answered (returnStoreWork [] (s.taken 0)).2) := by
  show Host.Outcome.next _ = _
  rw [transact_framed 0x11 0 returnStoreWork [] s h rfl (by decide)]

theorem exec_flushProfiles_framed (s : State) (h : s.portIdle) :
    exec (.flushProfiles (framed [])) s =
      .next ((flushProfiles (s.taken 0)).answered (storeBody (flushProfiles (s.taken 0)))) := by
  show Host.Outcome.next _ = _
  rw [transact_framed 0x0F 0 flushProfilesWork [] s h rfl (by decide)]
  rfl

/-- The state in which the host gives the store back and the serving regions are requested, before the load that starts. -/
def storeReturned (s : State) : State := ownStore (requestServingRegions (emptyCache (drivePins s)))

theorem returnStore_eq (s : State) : returnStore s = startLoad (storeReturned s) := rfl

theorem servingRegions_congr {s u : State} (h : ∀ l, u.link l = s.link l) : u.servingRegions = s.servingRegions := by
  unfold State.servingRegions
  simp only [h]

/-- What the return of the store leaves of the profile unit before a load starts. -/
theorem prof_storeReturned (s : State) : (storeReturned s).prof = { s.prof with
    cache := []
    loadQueue := s.servingRegions.foldl requested s.prof.loadQueue
    flight := (storeReturned s).prof.flight
    flashSelected := (storeReturned s).prof.flashSelected
    pspOut := (storeReturned s).prof.pspOut
    store := .owned
    pspDriven := true } := by
  have h := unit_requestServingRegions (emptyCache (drivePins s))
  have hs : (emptyCache (drivePins s)).servingRegions = s.servingRegions := servingRegions_congr fun _ => rfl
  rw [hs] at h
  exact congrArg (fun p : ProfileUnit => { p with store := .owned }) h

/-- While the store is YIELDED the requests start no load. -/
theorem reloading_storeReturned {s : State} (hy : s.prof.store = .yielded) (hf : s.prof.flight = none) :
    Reloading { s.prof with flashSelected := false } (storeReturned s).prof := by
  have h : Reloading { s.prof with flashSelected := false } (requestServingRegions (emptyCache (drivePins s))).prof :=
    reloading_requestServingRegions (.inl ⟨hf, rfl, rfl⟩)
  rcases h with h | ⟨ho, -⟩
  · exact .inl h
  · rw [unit_requestServingRegions] at ho
    exact absurd (hy.symm.trans ho) (by decide)

/-- Settles O26: the requests leave no load in flight, then the queue's head starts. -/
theorem returnStoreReloads : Obligations.ReturnStoreReloads := by
  intro s hidle
  refine ⟨fun hy hf => ?_, fun ho => ?_⟩
  · have hre := reloading_storeReturned (s := s.taken 0) hy hf
    have hprof := prof_storeReturned (s.taken 0)
    have hstart := prof_startLoad (storeReturned (s.taken 0))
    have hown : (storeReturned (s.taken 0)).prof.store = .owned := by rw [hprof]
    have hheads : HeadStarts s.prof (returnStore (s.taken 0)).prof :=
      ⟨(headStarts_reloading hre rfl).starts, (headStarts_reloading hre rfl).idles⟩
    have howned : (returnStore (s.taken 0)).prof.store = .owned := by rw [returnStore_eq, hstart, hown]
    refine ⟨returnStore (s.taken 0), ?_, ?_, howned, ?_, ?_, ?_, (hheads.flight howned).1, (hheads.flight howned).2,
      hheads, ?_, ?_⟩
    · have hw : returnStoreWork [] (s.taken 0) = (returnStore (s.taken 0), ⟨.ok, [1#8]⟩) := by
        have hbody : storeBody (returnStore (s.taken 0)) = ⟨.ok, [1#8]⟩ := by
          rw [storeBody, howned]
          rfl
        have hy' : (s.taken 0).prof.store = .yielded := hy
        rw [returnStoreWork, hy', hbody]
      rw [exec_returnStore_framed s hidle, hw]
    · rw [returnStore_eq, hstart, hprof]
    · rw [returnStore_eq, hstart, hprof]
    · rw [returnStore_eq, hstart, hprof]
      rfl
    · rw [returnStore_eq, hstart, hprof]
      rfl
    · refine servingAwaited_of (u := emptyCache (drivePins (s.taken 0))) (fun _ => rfl) rfl rfl rfl rfl rfl rfl rfl
        (p := (returnStore (s.taken 0)).prof) (h := (post .storeState (requestServingRegions (emptyCache (drivePins (s.taken 0))))).host) ?_
      rw [returnStore_eq, startLoad_only]
      rfl
    · rw [returnStore_eq, startLoad_only, storeReturned, ownStore, requestServingRegions_only]
      rfl
  · have ho' : (s.taken 0).prof.store = .owned := ho
    rw [exec_returnStore_framed s hidle, returnStoreWork, ho']
    rfl

/-- The state in which the profiles are forgotten and the serving regions requested, before the load that starts. -/
def profilesFlushed (s : State) : State := requestServingRegions (abandonIfLoading (emptyCache s))

theorem flushProfiles_eq (s : State) : flushProfiles s = startLoad (profilesFlushed s) := rfl

theorem abandonIfLoading_only (s : State) : abandonIfLoading s = s.setProf { s.prof with
    flight := none, flashSelected := (abandonIfLoading s).prof.flashSelected } := by
  unfold abandonIfLoading
  cases h : s.prof.flight with
  | none =>
    dsimp only
    rw [← h]
    rfl
  | some f => rfl

theorem flash_abandonIfLoading {s : State} (h : s.prof.flashSelected = s.prof.flight.isSome) :
    (abandonIfLoading s).prof.flashSelected = false := by
  unfold abandonIfLoading
  cases hf : s.prof.flight with
  | none => simpa [hf] using h
  | some f => rfl

/-- What the flush leaves of the profile unit before a load starts. -/
theorem prof_profilesFlushed (s : State) : (profilesFlushed s).prof = { s.prof with
    cache := []
    loadQueue := s.servingRegions.foldl requested s.prof.loadQueue
    flight := (profilesFlushed s).prof.flight
    flashSelected := (profilesFlushed s).prof.flashSelected
    pspOut := (profilesFlushed s).prof.pspOut } := by
  have h := unit_requestServingRegions (abandonIfLoading (emptyCache s))
  have hs : (abandonIfLoading (emptyCache s)).servingRegions = s.servingRegions :=
    servingRegions_congr fun l => link_abandonIfLoading (emptyCache s) l
  have hu := congrArg State.prof (abandonIfLoading_only (emptyCache s))
  unfold profilesFlushed
  generalize abandonIfLoading (emptyCache s) = u at h hs hu ⊢
  rw [hs, hu] at h
  exact h

theorem reloading_profilesFlushed (s : State) :
    Reloading { s.prof with flashSelected := (abandonIfLoading (emptyCache s)).prof.flashSelected }
      (profilesFlushed s).prof := by
  refine reloading_requestServingRegions (.inl ⟨flight_abandonIfLoading _, rfl, ?_⟩)
  rw [abandonIfLoading_only]
  rfl

/-- Settles O27: the abandoned load apart, the flush is the reload of RETURN-STORE on the store as it is. -/
theorem flushProfilesReloads : Obligations.FlushProfilesReloads := by
  intro s hidle
  have hre := reloading_profilesFlushed (s.taken 0)
  have hprof := prof_profilesFlushed (s.taken 0)
  have hstart := prof_startLoad (profilesFlushed (s.taken 0))
  have hstore : (flushProfiles (s.taken 0)).prof.store = s.prof.store := by
    rw [flushProfiles_eq, hstart, hprof]
    rfl
  have hfl := flight_reloading hre
  refine ⟨flushProfiles (s.taken 0), ?_, ?_, hstore, ?_, ?_, ?_, ?_, fun hflash => ?_, ?_, ?_⟩
  · rw [exec_flushProfiles_framed s hidle, storeBody, hstore]
    cases s.prof.store <;> rfl
  · rw [flushProfiles_eq, hstart, hprof]
  · rw [flushProfiles_eq, hstart, hprof]
    rfl
  · rw [flushProfiles_eq, hstart, hprof]
    rfl
  · rw [flushProfiles_eq, hstart, hprof]
    rfl
  · have hq := loadQueue_startLoad (profilesFlushed (s.taken 0))
    have hs : (profilesFlushed (s.taken 0)).prof.store = s.prof.store := by
      rw [hprof]
      rfl
    rw [flushProfiles_eq, hfl, hq, hs]
  · have hoff : (abandonIfLoading (emptyCache (s.taken 0))).prof.flashSelected = false := flash_abandonIfLoading hflash
    have hh := headStarts_reloading hre hoff
    exact ⟨hh.starts, hh.idles⟩
  · refine servingAwaited_of (u := abandonIfLoading (emptyCache (s.taken 0))) (fun l => link_abandonIfLoading _ l) ?_ ?_ ?_ ?_ ?_
      ?_ ?_ (p := (flushProfiles (s.taken 0)).prof) (h := (requestServingRegions (abandonIfLoading (emptyCache (s.taken 0)))).host) ?ht
    case ht => rw [flushProfiles_eq, startLoad_only]; rfl
    all_goals
      rw [abandonIfLoading_only]
      rfl
  · rw [flushProfiles_eq, startLoad_only, profilesFlushed, requestServingRegions_only, abandonIfLoading_only]
    rfl

end Sys2Proof.Machine
end

section
/-! A completed load (R55): the pages judged in order, the subscriptions that follow, the next load. -/

namespace Sys2Proof.Machine

/-! ### What the judging of a page leaves -/

/-- A link record that a judged page may leave: slots, credits, output queue and outstanding receipt apart, as before. -/
def Link.JudgedFrom (k k' : Link) : Prop := k'.core = { k.core with slots := k'.slots, credits := k'.credits }

theorem Link.JudgedFrom.refl (k : Link) : k.JudgedFrom k := rfl

theorem Link.JudgedFrom.of_core {k k' : Link} (h : k'.core = k.core) : k.JudgedFrom k' := by
  rw [JudgedFrom, h, Link.slots_of_core h, Link.credits_of_core h]
  rfl

theorem Link.JudgedFrom.trans {a b c : Link} (h : a.JudgedFrom b) (g : b.JudgedFrom c) : a.JudgedFrom c := by
  unfold JudgedFrom at h g ⊢
  rw [g, h]

theorem Link.JudgedFrom.state {k k' : Link} (h : k.JudgedFrom k') : k'.state = k.state := by
  have hs := congrArg Link.state h
  exact hs

theorem Link.JudgedFrom.subWaiting {k k' : Link} (h : k.JudgedFrom k') : k'.subWaiting = k.subWaiting := by
  have hs := congrArg Link.subWaiting h
  exact hs

/-- Judging an empty slot counts and announces the fallback at most. -/
theorem judge_empty (f : Option Profile) {l : LinkId} {k : PageSlot} {s : State} (h : s.heldPage l k = none) :
    judge f l k s = if f.isSome then s else noteFallback s := by
  cases f with
  | some g => rw [judge, judgeUnder, h]; rfl
  | none =>
    have hn : (noteFallback s).heldPage l k = none := h
    rw [judge, judgeUnder, hn]
    rfl

section
variable (f : Option Profile) (l : LinkId) (k : PageSlot) (s : State)

theorem link_judge_empty (h : s.heldPage l k = none) (m : LinkId) : (judge f l k s).link m = s.link m := by
  rw [judge_empty f h]
  split
  · rfl
  · simp [noteFallback]

/-- What judging one slot leaves of a link. -/
theorem judgedFrom_judge (m : LinkId) : (s.link m).JudgedFrom ((judge f l k s).link m) := by
  cases hp : s.heldPage l k with
  | none =>
    rw [link_judge_empty f l k s hp]
    exact .refl _
  | some p =>
    obtain ⟨d, hd, -⟩ := disposed_judge f l k p s hp
    rcases LinkId.eq_or_other l m with rfl | rfl
    · have hslots := congrArg Link.slots hd.core
      have hcredits := congrArg Link.credits hd.core
      dsimp only [Link.core] at hslots hcredits
      rw [Link.JudgedFrom, hslots, hcredits]
      exact hd.core
    · exact .of_core hd.other

/-- What judging one slot leaves of the page slots: its own FREE when it held a page. -/
theorem slots_judge (m : LinkId) (j : PageSlot) : ((judge f l k s).link m).slots[j] =
    if (m = l ∧ j = k) ∧ (s.heldPage l k).isSome then .free else (s.link m).slots[j] := by
  cases hp : s.heldPage l k with
  | none => rw [link_judge_empty f l k s hp, if_neg (by simp)]
  | some p =>
    obtain ⟨d, hd, -⟩ := disposed_judge f l k p s hp
    rcases LinkId.eq_or_other l m with rfl | rfl
    · have hslots : ((judge f m k s).link m).slots = (s.link m).slots.set k .free := congrArg Link.slots hd.core
      simp only [hslots, Fin.getElem_fin, Vector.getElem_set, Fin.ext_iff, true_and, Option.isSome_some, and_true, eq_comm]
    · rw [Link.slots_of_core hd.other, if_neg (by simp [LinkId.other_ne])]

/-- Judging counts no load. -/
theorem loads_judge : (judge f l k s).host.cntG.loads = s.host.cntG.loads ∧
    (judge f l k s).host.cntG.loadFails = s.host.cntG.loadFails := by
  have hunder (b : Bool) (g : Profile) (u : State) : (judgeUnder b g l k u).host.cntG.loads = u.host.cntG.loads ∧
      (judgeUnder b g l k u).host.cntG.loadFails = u.host.cntG.loadFails := by
    cases hp : u.heldPage l k with
    | none => rw [judgeUnder, hp]; exact ⟨rfl, rfl⟩
    | some p =>
      cases hg : governingRange g.ranges p.channel with
      | none =>
        obtain ⟨-, -, hc, -⟩ := disposed_dispose l k p .ignored u hp
        rw [judgeUnder, hp]
        dsimp only
        rw [hg]
        dsimp only
        rw [hc]
        exact ⟨rfl, rfl⟩
      | some x =>
        have ht := tally_workPage p (governing b g x.1 x.2) u
        have hheld := ((work_workPage p (governing b g x.1 x.2) u).heldPage l k).trans hp
        obtain ⟨-, -, hc, -⟩ := disposed_dispose l k p (workPage p (governing b g x.1 x.2) u).2 _ hheld
        rw [judgeUnder, hp]
        dsimp only
        rw [hg]
        dsimp only
        rw [hc]
        exact ⟨congrArg (fun y => y.2.2.1) ht, congrArg (fun y => y.2.2.2.1) ht⟩
  cases f with
  | some g => exact hunder false g s
  | none => exact hunder true fallbackProfile (noteFallback s)

end

section
variable (f : Option Profile) (ws : List WaitingPage)

theorem judgedFrom_foldl_judge (s : State) (m : LinkId) :
    (s.link m).JudgedFrom ((ws.foldl (fun u w => judge f w.link w.slot u) s).link m) := by
  induction ws generalizing s with
  | nil => exact .refl _
  | cons w ws ih => exact (judgedFrom_judge f w.link w.slot s m).trans (ih _)

theorem loads_foldl_judge (s : State) :
    (ws.foldl (fun u w => judge f w.link w.slot u) s).host.cntG.loads = s.host.cntG.loads ∧
    (ws.foldl (fun u w => judge f w.link w.slot u) s).host.cntG.loadFails = s.host.cntG.loadFails := by
  induction ws generalizing s with
  | nil => exact ⟨rfl, rfl⟩
  | cons w ws ih =>
    obtain ⟨h1, h2⟩ := loads_judge f w.link w.slot s
    obtain ⟨h3, h4⟩ := ih (judge f w.link w.slot s)
    exact ⟨h3.trans h1, h4.trans h2⟩

/-- A slot that is FREE stays so. -/
theorem free_foldl_judge {s : State} {m : LinkId} {j : PageSlot} (h : (s.link m).slots[j] = .free) :
    ((ws.foldl (fun u w => judge f w.link w.slot u) s).link m).slots[j] = .free := by
  induction ws generalizing s with
  | nil => exact h
  | cons w ws ih =>
    refine ih ?_
    rw [slots_judge, h]
    exact ite_self _

/-- Every slot that is judged and held a page is FREE after the run. -/
theorem freed_foldl_judge {s : State} {w : WaitingPage} (hw : w ∈ ws) (hh : (s.heldPage w.link w.slot).isSome = true) :
    ((ws.foldl (fun u w => judge f w.link w.slot u) s).link w.link).slots[w.slot] = .free := by
  induction ws generalizing s with
  | nil => cases hw
  | cons x ws ih =>
    rw [List.foldl_cons]
    by_cases hx : w.link = x.link ∧ w.slot = x.slot
    · refine free_foldl_judge f ws ?_
      rw [slots_judge, if_pos ⟨hx, by rw [← hx.1, ← hx.2]; exact hh⟩]
    · have hmem : w ∈ ws := by
        rcases List.mem_cons.1 hw with rfl | hmem
        · exact absurd ⟨rfl, rfl⟩ hx
        · exact hmem
      refine ih hmem ?_
      rw [heldPage_judge f x.link x.slot s w.link w.slot hx]
      exact hh

/-- A run of judged pages leaves the queue of a link that is not UP. -/
theorem outQ_foldl_judge {s : State} {m : LinkId} (h : (s.link m).state ≠ .up) :
    ((ws.foldl (fun u w => judge f w.link w.slot u) s).link m).outQ = (s.link m).outQ := by
  induction ws generalizing s with
  | nil => rfl
  | cons w ws ih =>
    rw [List.foldl_cons, ih (by rw [(judgedFrom_judge f w.link w.slot s m).state]; exact h)]
    cases hp : s.heldPage w.link w.slot with
    | none => rw [link_judge_empty f w.link w.slot s hp]
    | some p =>
      obtain ⟨d, hd, -⟩ := disposed_judge f w.link w.slot p s hp
      rcases LinkId.eq_or_other w.link m with rfl | rfl
      · exact hd.notUp h
      · exact hd.otherNotUp h

end

/-! ### The steps of a completed load -/

/-- The cache after the record of a region was installed (R51). -/
def installed (p : ProfileUnit) (n : Nat) (profile : Option Profile) : List CacheEntry :=
  makeRoom (p.cache.filter (fun x => !decide (x.region = n))) ++ [⟨n, profile⟩]

/-- The load counted, its record installed, the waiting pages of its region taken off the queue: what the judging of those
pages starts from (R55). -/
def loadEnded (n : Nat) (profile : Option Profile) (s : State) : State :=
  { s with
    prof := { s.prof with
      cache := installed s.prof n profile
      loadQueue := s.prof.loadQueue.erase n
      flight := none
      flashSelected := false
      waiting := s.prof.waiting.filter (fun w => !s.waitsFor n w) }
    host := { s.host with cntG := { s.host.cntG with
      loads := min (s.host.cntG.loads + 1) 65535
      loadFails := if profile.isSome then s.host.cntG.loadFails else min (s.host.cntG.loadFails + 1) 65535 } } }

/-- The waiting pages of the region judged in their order (R55 step 3). -/
def loadJudged (n : Nat) (profile : Option Profile) (s : State) : State :=
  (s.prof.waiting.filter (s.waitsFor n)).foldl (fun u w => judge profile w.link w.slot u) (loadEnded n profile s)

/-- The subscriptions sent and an absent record announced (R38, R52). -/
def loadAnnounced (n : Nat) (profile : Option Profile) (u : State) : State :=
  let t := subscribeIfWaiting n profile .lb (subscribeIfWaiting n profile .la u)
  if profile.isSome then t else post .profileFallback t

theorem completeLoad_eq (n : Nat) (record : List Byte) (s : State) :
    completeLoad n record s =
      startLoad (loadAnnounced n (judgeRecord n record) (loadJudged n (judgeRecord n record) s)) := rfl

/-- The subscription of one link, as a change of its record. -/
def Link.subscribed (n : Nat) (profile : Option Profile) (k : Link) : Link :=
  if k.state = .up ∧ k.subWaiting = some n then
    { k with subWaiting := none, outQ := pushFrame k.outQ (subscriptionOf profile) }
  else k

theorem subscribeIfWaiting_eq (n : Nat) (profile : Option Profile) (l : LinkId) (s : State) :
    subscribeIfWaiting n profile l s = modLink l (Link.subscribed n profile) s := by
  unfold subscribeIfWaiting
  split
  · next h =>
    rw [modLink, Link.subscribed, if_pos h]
    cases l <;> rfl
  · next h => exact (modLink_self (if_neg h)).symm

section
variable (n : Nat) (profile : Option Profile) (u : State)

theorem link_loadAnnounced (l : LinkId) :
    (loadAnnounced n profile u).link l = (u.link l).subscribed n profile := by
  have h : (subscribeIfWaiting n profile .lb (subscribeIfWaiting n profile .la u)).link l =
      (u.link l).subscribed n profile := by
    rw [subscribeIfWaiting_eq, subscribeIfWaiting_eq]
    cases l <;> rfl
  unfold loadAnnounced
  dsimp only
  split
  · exact h
  · exact h

theorem loadAnnounced_only : loadAnnounced n profile u =
    ((u.setLink .la (u.la.subscribed n profile)).setLink .lb (u.lb.subscribed n profile)).setHost
      (if profile.isSome then u.host else (post .profileFallback u).host) := by
  unfold loadAnnounced
  rw [subscribeIfWaiting_eq, subscribeIfWaiting_eq]
  dsimp only
  split
  · rfl
  · rfl

end

/-- The state of a completed load before the next one starts. -/
def loadDone (n : Nat) (profile : Option Profile) (s : State) : State :=
  loadAnnounced n profile (loadJudged n profile s)

section
variable (n : Nat) (profile : Option Profile) (s : State)

theorem prof_loadDone : (loadDone n profile s).prof = (loadEnded n profile s).prof := by
  rw [loadDone, loadAnnounced_only]
  exact prof_foldl_judge profile _ _

theorem link_loadEnded (l : LinkId) : (loadEnded n profile s).link l = s.link l := by
  cases l <;> rfl

theorem judgedFrom_loadJudged (l : LinkId) : (s.link l).JudgedFrom ((loadJudged n profile s).link l) := by
  have h := judgedFrom_foldl_judge profile (s.prof.waiting.filter (s.waitsFor n)) (loadEnded n profile s) l
  rw [link_loadEnded] at h
  exact h

/-- A link after its subscription, by its record before the load. -/
theorem link_loadDone (l : LinkId) : (loadDone n profile s).link l =
    if (s.link l).state = .up ∧ (s.link l).subWaiting = some n then
      { (loadJudged n profile s).link l with
        subWaiting := none, outQ := pushFrame ((loadJudged n profile s).link l).outQ (subscriptionOf profile) }
    else (loadJudged n profile s).link l := by
  have h := judgedFrom_loadJudged n profile s l
  rw [loadDone, link_loadAnnounced, Link.subscribed]
  exact if_congr (by rw [h.state, h.subWaiting]) rfl rfl

/-- Every pending record of the region names a held page of it. -/
theorem waitsFor_iff (w : WaitingPage) :
    s.waitsFor n w = true ↔ ∃ p, s.heldPage w.link w.slot = some p ∧ p.region = n := by
  rw [State.waitsFor, Option.any_eq_true]
  simp

theorem held_of_waitsFor {w : WaitingPage} (h : s.waitsFor n w = true) :
    ((loadEnded n profile s).heldPage w.link w.slot).isSome = true := by
  obtain ⟨p, hp, -⟩ := (waitsFor_iff n s w).1 h
  have hh : (loadEnded n profile s).heldPage w.link w.slot = s.heldPage w.link w.slot := by
    rw [State.heldPage, link_loadEnded]
    rfl
  rw [hh, hp]
  rfl

/-- The pages judged leave their slots. -/
theorem freed_loadDone {w : WaitingPage} (hw : w ∈ s.prof.waiting) (h : s.waitsFor n w = true) :
    ((loadDone n profile s).link w.link).slots[w.slot] = .free := by
  have hfree := freed_foldl_judge profile (s.prof.waiting.filter (s.waitsFor n)) (List.mem_filter.2 ⟨hw, h⟩)
    (held_of_waitsFor n profile s h)
  rw [link_loadDone]
  split
  · exact hfree
  · exact hfree

theorem outQ_loadDone_notUp {l : LinkId} (h : (s.link l).state ≠ .up) :
    ((loadDone n profile s).link l).outQ = (s.link l).outQ := by
  have hq := outQ_foldl_judge profile (s.prof.waiting.filter (s.waitsFor n)) (s := loadEnded n profile s) (m := l)
    (by rw [link_loadEnded]; exact h)
  rw [link_loadEnded] at hq
  rw [link_loadDone, if_neg fun hc => h hc.1]
  exact hq

theorem host_loadDone : (loadDone n profile s).host =
    if profile.isSome then (loadJudged n profile s).host else (post .profileFallback (loadJudged n profile s)).host := by
  rw [loadDone, loadAnnounced_only]
  rfl

theorem loads_loadDone : (loadDone n profile s).host.cntG.loads = min (s.host.cntG.loads + 1) 65535 ∧
    (loadDone n profile s).host.cntG.loadFails =
      if profile.isSome then s.host.cntG.loadFails else min (s.host.cntG.loadFails + 1) 65535 := by
  obtain ⟨h1, h2⟩ := loads_foldl_judge profile (s.prof.waiting.filter (s.waitsFor n)) (loadEnded n profile s)
  rw [host_loadDone]
  split
  · exact ⟨h1, h2.trans (if_pos ‹_›)⟩
  · exact ⟨h1, h2.trans (if_neg ‹_›)⟩

/-- With each slot waited for once, the judging is the one of `State.judgedInOrder`. -/
theorem loadJudged_eq (hn : (s.prof.waiting.map (fun w => (w.link, w.slot))).Nodup) :
    loadJudged n profile s =
      (loadEnded n profile s).judgedInOrder profile (s.prof.waiting.filter (s.waitsFor n)) :=
  foldl_judge_eq profile _ _ (hn.sublist (List.filter_sublist.map _))
    fun _ hw => held_of_waitsFor n profile s (List.mem_filter.1 hw).2

/-- The dispositions of the judged pages and the subscription after them, receipts apart. -/
theorem frames_loadDone (hn : (s.prof.waiting.map (fun w => (w.link, w.slot))).Nodup) :
    ∃ d : WaitingPage → Disposition, ∀ l, (s.link l).state = .up → ∀ q, q = nonReceipts (s.link l).outQ ++
        (s.prof.waiting.filter (fun w => s.waitsFor n w && decide (w.link = l))).filterMap (fun w =>
          (s.heldPage w.link w.slot).map (fun p => OutFrame.disposition (pageKey p) p.revision p.partIndex (d w))) →
      nonReceipts ((loadDone n profile s).link l).outQ =
        if (s.link l).subWaiting = some n then pushFrame q (subscriptionOf profile) else q := by
  obtain ⟨d, hd⟩ := frames_foldl_judge profile (s.prof.waiting.filter (s.waitsFor n)) (loadEnded n profile s)
    (hn.sublist (List.filter_sublist.map _)) fun _ hw => held_of_waitsFor n profile s (List.mem_filter.1 hw).2
  refine ⟨d, fun l hup q hq => ?_⟩
  have hframes : nonReceipts ((loadJudged n profile s).link l).outQ = q := by
    have h := hd l (by rw [link_loadEnded]; exact hup)
    rw [link_loadEnded, List.filter_filter] at h
    rw [hq]
    simp only [Bool.and_comm (s.waitsFor n _)]
    exact h
  rw [link_loadDone]
  by_cases hs : (s.link l).subWaiting = some n
  · obtain ⟨hsub, hrec⟩ := subscriptionOf_isSubscribe profile
    rw [if_pos ⟨hup, hs⟩, if_pos hs, nonReceipts_pushSubscribe _ _ hsub hrec, hframes]
  · rw [if_neg fun h => hs h.2, if_neg hs, hframes]

end

theorem makeRoom_room {q : List CacheEntry} (h : q.length < 6) : makeRoom q = q :=
  if_neg (Nat.not_le.2 h)

theorem makeRoom_full (x : CacheEntry) {q : List CacheEntry} (h : q.length = 5) : makeRoom (x :: q) = q := by
  have hfull : Config.cacheEntries ≤ (x :: q).length := Nat.le_of_eq (congrArg (· + 1) h).symm
  exact (if_pos hfull).trans rfl

/-- Settles O23: the judging on `loadEnded`, the subscriptions after it, the next load by `headStarts_startLoad`. -/
theorem loadCompletionInstallsRecord : Obligations.LoadCompletionInstallsRecord := by
  intro data f s hf hlen
  obtain ⟨r, hr⟩ : ∃ r, r = judgeRecord f.region (f.bytes ++ data) := ⟨_, rfl⟩
  obtain ⟨t, ht⟩ : ∃ t, t = startLoad (loadDone f.region r s) := ⟨_, rfl⟩
  have he : exec (.loadComplete data) s = .next t := by
    show Host.Outcome.next _ = _
    rw [hf, ht, hr, loadDone, ← completeLoad_eq]
    exact congrArg _ (if_pos hlen)
  have htold : Told s t := told_exec (by simp [fromHost, hostFrame]) he
  have honly : t = (loadDone f.region r s).setProf t.prof := by rw [ht]; exact startLoad_only _
  have hlink (l : LinkId) : t.link l = (loadDone f.region r s).link l := by rw [ht, link_startLoad]
  have hhost : t.host = (loadDone f.region r s).host := by rw [honly]; rfl
  have hprof := prof_startLoad (loadDone f.region r s)
  rw [← ht, prof_loadDone] at hprof
  have hflight : (loadDone f.region r s).prof.flight = none := by rw [prof_loadDone]; rfl
  obtain ⟨hloads, hfails⟩ := loads_loadDone f.region r s
  rw [← hr]
  refine ⟨t, he, ?_, ?_, ?_, ?_, ?_, ?_, ?_, fun w hw h => ?_, fun l hup hs => ?_, fun l hup => ?_, fun hn => ?_, ?_, ?_,
    fun hnone => ?_, htold, fun q h => makeRoom_room h, fun x q h => makeRoom_full x h, waitsFor_iff f.region s,
    fun hn r' u hr' hu => ?_⟩
  · rw [hprof]; rfl
  · rw [hprof]; rfl
  · rw [ht, flight_startLoad _ hflight, prof_loadDone]
    rfl
  · have hh := headStarts_startLoad (loadDone f.region r s) hflight (by rw [prof_loadDone]; rfl)
    rw [← ht, prof_loadDone] at hh
    exact ⟨hh.starts, hh.idles⟩
  · rw [hprof]; rfl
  · rw [hprof]; rfl
  · rw [hprof]; rfl
  · rw [hlink]
    exact freed_loadDone f.region r s hw h
  · rw [hlink, link_loadDone, if_pos ⟨hup, hs⟩]
  · rw [hlink]
    exact outQ_loadDone_notUp f.region r s hup
  · obtain ⟨d, hd⟩ := frames_loadDone f.region r s hn
    exact ⟨d, fun l hup q hq => by rw [hlink]; exact hd l hup q hq⟩
  · rw [hhost, hloads]
  · rw [hhost, hfails]
  · rw [hhost, host_loadDone, hnone]
    exact holds_post .profileFallback _
  · subst hr'
    have hu' : loadJudged f.region r' s = u := (loadJudged_eq f.region r' s hn).trans hu.symm
    have hdone : loadDone f.region r' s = loadAnnounced f.region r' u := by rw [loadDone, hu']
    refine ⟨?_, ?_, ?_, ?_, fun l => ?_, ?_⟩
    · rw [honly, hdone, loadAnnounced_only]; rfl
    · rw [honly, hdone, loadAnnounced_only]; rfl
    · rw [honly, hdone, loadAnnounced_only]; rfl
    · rw [honly, hdone, loadAnnounced_only]; rfl
    · rw [hlink, link_loadDone, hu']
      by_cases hc : (s.link l).state = .up ∧ (s.link l).subWaiting = some f.region
      · rw [if_pos hc, if_pos hc]
        exact ⟨rfl, rfl, rfl, rfl⟩
      · rw [if_neg hc, if_neg hc]
        exact ⟨rfl, rfl, rfl, rfl⟩
    · rw [hhost, host_loadDone, hu']

end Sys2Proof.Machine
end

section
/-! The attention arbiter: selection (R134), the ends of a play, preemption and yield (R137 to R141, R144). -/

namespace Sys2Proof.Machine

/-! ### Selection (R134) -/

theorem searchDistance_inj {p i j : EntrySlot} (h : searchDistance p i = searchDistance p j) : i = j := by
  have hp : p.val < 48 := p.isLt
  have hi : i.val < 48 := i.isLt
  have hj : j.val < 48 := j.isLt
  apply Fin.ext
  simp only [searchDistance] at h
  omega

/-- The pointer's own slot comes last. -/
theorem searchDistance_lt_self {p i : EntrySlot} (h : i ≠ p) : searchDistance p i < searchDistance p p := by
  have hp : p.val < 48 := p.isLt
  have hi : i.val < 48 := i.isLt
  have hne : i.val ≠ p.val := fun hv => h (Fin.ext hv)
  simp only [searchDistance]
  omega

theorem pointers_clearPlay (s : State) : (clearPlay s).arb.pointers = s.arb.pointers := rfl

theorem entryAt_clearPlay (s : State) (i : EntrySlot) : (clearPlay s).entryAt i = s.entryAt i := rfl

/-- The choice on an IDLE generator is the one request first in its level, the level highest. -/
theorem choice_eq {s : State} (hp : s.arb.play = none) {start : Level → EntrySlot} {lv : Level} {i : EntrySlot}
    (hi : s.waitsAt lv i = true) (hlv : ∀ lv' j, s.waitsAt lv' j = true → lv.rank ≤ lv'.rank)
    (hfirst : ∀ j, s.waitsAt lv j = true → searchDistance (start lv) i ≤ searchDistance (start lv) j) :
    s.choice start = some (lv, i) := by
  obtain ⟨e, r, he, hr, hrl⟩ := (waitsAt_idle s hp lv i).1 hi
  rcases choice_spec s start hp with ⟨-, hnone⟩ | ⟨lv', j, x, y, hc, hx, hy, hyl, hmin, hnear⟩
  · exact absurd ((hnone i e he).symm.trans hr) (by simp)
  · have hle : lv.rank ≤ lv'.rank := hlv lv' j ((waitsAt_idle s hp lv' j).2 ⟨x, y, hx, hy, hyl⟩)
    have hge : lv'.rank ≤ lv.rank := hrl ▸ hmin i e r he hr
    obtain rfl : lv' = lv := Level.rank_inj (Nat.le_antisymm hge hle)
    have hij := hfirst j ((waitsAt_idle s hp lv' j).2 ⟨x, y, hx, hy, hyl⟩)
    have hji := hnear i e r he hr hrl
    rw [hc, searchDistance_inj (Nat.le_antisymm hij hji)]

/-- Settles O43: the choice is unique, and `choice_spec` finds one where a request waits. -/
theorem selectionTakesHighestThenRoundRobin : Obligations.SelectionTakesHighestThenRoundRobin := by
  intro s hp
  refine ⟨fun lv i e r hi he hr hlv hfirst => ?_, fun hnone => ?_, selects_select hp rfl⟩
  · rw [select, selectFrom, choice_eq hp hi hlv hfirst]
    simp only [beginPlay, he, hr]
  · rcases choice_spec s s.pointer hp with ⟨hc, -⟩ | ⟨lv, i, e, r, -, he, hr, -⟩
    · rw [select, selectFrom, hc]
    · exact absurd ((hnone i e he).symm.trans hr) (by simp)

/-! ### The end of a play (R141, R144) -/

theorem exec_playEnd {s : State} {p : Play} {e : Entry} {r : Request} (h : s.playingRequest = some (p, e, r))
    (hr : r.remaining = 0) : exec .playEnd s = .next (finishPlay p r s) := by
  show Host.Outcome.next _ = _
  rw [h]
  exact congrArg _ (if_pos (decide_eq_true hr))

theorem exec_silencedPlayEnd {s : State} {p : Play} {e : Entry} {r : Request} (h : s.playingRequest = some (p, e, r))
    (hs : r.silenced = true) (hm : s.host.settings.minimumPlay * 1000 ≤ r.played) :
    exec .silencedPlayEnd s = .next (finishPlay p r s) := by
  have hdue : s.silencedEndDue r = true := by
    rw [State.silencedEndDue, hs]
    exact decide_eq_true hm
  show Host.Outcome.next _ = _
  rw [h]
  exact congrArg _ (if_pos hdue)

theorem entryAt_hearRequest (i : EntrySlot) (k : RequestKind) (s : State) (j : EntrySlot) :
    (hearRequest i k s).entryAt j =
      if i = j then (s.entryAt j).map (fun e => heardEntry s.now k (setRequest none e)) else s.entryAt j :=
  State.entryAt_modEntry _ _ _ _

theorem entryAt_finishPlay (p : Play) (r : Request) (s : State) (j : EntrySlot) :
    (finishPlay p r s).entryAt j = (hearRequest p.handle.slot r.kind s).entryAt j := by
  rw [finishPlay, entryAt_select, entryAt_clearPlay]

theorem arb_hearRequest (i : EntrySlot) (k : RequestKind) (s : State) : (hearRequest i k s).arb = s.arb :=
  State.arb_modEntry _ _ _

theorem selects_finishPlay (p : Play) (r : Request) {s u : State} (hu : u.arb.pointers = s.arb.pointers) :
    s.selects (finishPlay p r u) := by
  refine selects_select rfl ?_
  rw [pointers_clearPlay, arb_hearRequest, hu]

/-- An ALERT heard (R166). -/
theorem heardEntry_alert (n : Nat) (e : Entry) : heardEntry n .alert e = { e with
    alerted := true
    changed := e.changed || !e.alerted
    nextReminder := if 0 < e.interval ∧ 0 < e.limit ∧ e.given + e.backlog < e.limit
      then some (n + e.interval * 60000) else e.nextReminder } := by
  show startReminders n _ = _
  by_cases h : 0 < e.interval ∧ 0 < e.limit ∧ e.given + e.backlog < e.limit
  · rw [if_pos h]
    exact if_pos h
  · rw [if_neg h]
    exact if_neg h

/-- A REMINDER heard (R168). -/
theorem heardEntry_reminder (n : Nat) (e : Entry) : heardEntry n .reminder e = { e with
    given := e.given + 1
    backlog := 0
    nextReminder := if e.given + 1 = e.limit then none else e.nextReminder } := rfl

theorem interval_none {e : Entry} (h : e.current = none) : e.interval = 0 ∧ e.limit = 0 := by
  simp [Entry.interval, Entry.limit, h]

theorem interval_some {e : Entry} {x : Content} (h : e.current = some x) :
    e.interval = x.rules.reminderInterval ∧ e.limit = x.rules.reminderLimit := by
  simp [Entry.interval, Entry.limit, h]

/-- Settles O44: both ends of a play are `finishPlay`. -/
theorem playEndsAsHeard : Obligations.PlayEndsAsHeard := by
  intro c p e r s h hc
  obtain ⟨hp, hn, hr⟩ := playingRequest_spec h
  have hexec : exec c s = .next (finishPlay p r s) := by
    rcases hc with ⟨rfl, hrem⟩ | ⟨rfl, hsil, hmin⟩
    · exact exec_playEnd h hrem
    · exact exec_silencedPlayEnd h hsil hmin
  have hat : (finishPlay p r s).entryAt p.handle.slot = some (heardEntry s.now r.kind (setRequest none e)) := by
    rw [entryAt_finishPlay, entryAt_hearRequest, if_pos rfl, named_entryAt hn]
    rfl
  refine ⟨_, hexec, fun hk => ?_, fun hk => ?_, fun j hj => ?_, selects_finishPlay p r rfl, requestWork_finishPlay p r s,
    interval_none, fun x => interval_some⟩
  · rw [hat, hk, heardEntry_alert]
    rfl
  · rw [hat, hk, heardEntry_reminder]
    rfl
  · rw [entryAt_finishPlay, entryAt_hearRequest, if_neg (Ne.symm hj)]

/-! ### Preemption and yield (R137 to R139) -/

/-- A request makes selection begin a play, at its level or a higher one, of its level no later in search order. -/
theorem State.selectsFrom.play {s t : State} {start : Level → EntrySlot} (h : s.selectsFrom start t) {i : EntrySlot}
    {e : Entry} {r : Request} (he : t.entryAt i = some e) (hr : e.request = some r) :
    ∃ q x y, t.arb.play = some q ∧ t.entryAt q.handle.slot = some x ∧ x.request = some y ∧
      y.level.rank ≤ r.level.rank ∧
      (r.level = y.level → searchDistance (start y.level) q.handle.slot ≤ searchDistance (start y.level) i) := by
  unfold State.selectsFrom at h
  cases hp : t.arb.play with
  | none =>
    rw [hp] at h
    exact absurd ((h.2 i e he).symm.trans hr) (by simp)
  | some q =>
    rw [hp] at h
    obtain ⟨-, -, -, -, x, y, hx, hy, -, -, -, hmin, hfirst⟩ := h
    exact ⟨q, x, y, rfl, hx, hy, hmin i e r he hr, hfirst i e r he hr⟩

theorem slot_ne_of_waiting {s : State} {p : Play} {i : EntrySlot} {q : Request} (hp : s.arb.play = some p)
    (hh : p.handle = s.handleOf p.handle.slot) (hw : s.waitingRequest i = some q) : i ≠ p.handle.slot := by
  rintro rfl
  have hplays : s.playsAt p.handle.slot = true := by
    rw [State.playsAt, hp]
    exact decide_eq_true hh
  rw [State.waitingRequest] at hw
  split at hw
  · cases hw
  · rw [if_pos hplays] at hw
    cases hw

theorem handleOf_of_named {s : State} {h : Handle} {e : Entry} (x : s.named h = some e) : h = s.handleOf h.slot := by
  unfold State.named at x
  split at x
  · next hu => exact congrArg (Handle.mk h.slot) hu.symm
  · cases x

theorem exec_preemption {s : State} {p : Play} {e : Entry} {r : Request} (h : s.playingRequest = some (p, e, r)) :
    exec .preemption s = .next (if s.preemptionDue p r then preempt s else s) := by
  show Host.Outcome.next _ = _
  rw [h]

theorem exec_yield {s : State} {p : Play} {e : Entry} {r : Request} (h : s.playingRequest = some (p, e, r)) :
    exec .yield s = .next (if s.yieldDue p r || s.mayYieldEarly p r then yieldTurn p r s else s) := by
  show Host.Outcome.next _ = _
  rw [h]

theorem preemptionDue_iff (s : State) (p : Play) (r : Request) : s.preemptionDue p r = true ↔
    0 < r.remaining ∧ r.silenced = false ∧ s.minimumMs ≤ p.turn ∧
      ∃ i q, s.waitingRequest i = some q ∧ q.level.rank < r.level.rank := by
  simp [State.preemptionDue, someWaits_iff, and_assoc]

theorem selectFrom_clearPlay (start : Level → EntrySlot) (s : State) :
    selectFrom start (clearPlay s) = s.setArb (selectFrom start (clearPlay s)).arb := by
  rw [selectFrom_arb]
  rfl

/-- What selection leaves once the play has stopped at its point. -/
theorem selectsFrom_clearPlay (start : Level → EntrySlot) (s : State) :
    s.selectsFrom start (selectFrom start (clearPlay s)) :=
  State.selectsFrom_congr (selects_selectFrom (clearPlay s) start rfl) rfl

/-- The play of another slot than that of the play `p`. -/
def PlaysOther (p : Play) (t : State) : Prop := ∃ q, t.arb.play = some q ∧ q.handle.slot ≠ p.handle.slot

section
variable {s : State} {p : Play} {e : Entry} {r : Request}

/-- A preemption selects, and for a request of a higher level another slot's. -/
theorem selects_preempt (s : State) : s.selects (preempt s) := selectsFrom_clearPlay s.pointer s

theorem playsOther_preempt (h : s.playingRequest = some (p, e, r))
    (hw : ∃ i q, s.waitingRequest i = some q ∧ q.level.rank < r.level.rank) : PlaysOther p (preempt s) := by
  obtain ⟨i, q, hw, hq⟩ := hw
  obtain ⟨-, hn, hr⟩ := playingRequest_spec h
  obtain ⟨x, hx, hxq⟩ := waitingRequest_spec hw
  obtain ⟨n, y, z, hn', hy, hz, hle, -⟩ := (selects_preempt s).play ((entryAt_preempt s i).trans hx) hxq
  refine ⟨n, hn', fun heq => ?_⟩
  rw [entryAt_preempt, heq, named_entryAt hn, Option.some_inj] at hy
  rw [← hy, hr, Option.some_inj] at hz
  rw [← hz] at hle
  omega

/-- A yield selects, the search of its level after its slot, and for a request of that level another slot's. -/
theorem selectsFrom_yieldTurn (s : State) (p : Play) (r : Request) :
    s.selectsFrom (s.yieldStart p r) (yieldTurn p r s) := selectsFrom_clearPlay _ s

theorem playsOther_yieldTurn (h : s.playingRequest = some (p, e, r))
    (hw : ∃ i q, s.waitingRequest i = some q ∧ q.level = r.level) : PlaysOther p (yieldTurn p r s) := by
  obtain ⟨i, q, hw, hq⟩ := hw
  obtain ⟨hp, hn, hr⟩ := playingRequest_spec h
  obtain ⟨x, hx, hxq⟩ := waitingRequest_spec hw
  obtain ⟨n, y, z, hn', hy, hz, -, hfirst⟩ :=
    (selectsFrom_yieldTurn s p r).play ((entryAt_yieldTurn p r s i).trans hx) hxq
  refine ⟨n, hn', fun heq => ?_⟩
  rw [entryAt_yieldTurn, heq, named_entryAt hn, Option.some_inj] at hy
  rw [← hy, hr, Option.some_inj] at hz
  subst hz
  have hd := hfirst hq
  have hlast := searchDistance_lt_self (slot_ne_of_waiting hp (handleOf_of_named hn) hw)
  rw [heq, State.yieldStart, if_pos rfl] at hd
  omega

end

/-- Settles O45: the request that waits makes selection begin another slot's play. -/
theorem playIsPreemptedOrYields : Obligations.PlayIsPreemptedOrYields := by
  intro c p e r s h
  refine ⟨fun hrem hsil hc => ?_, fun hsil => ⟨?_, ?_⟩⟩
  · rcases hc with ⟨rfl, hturn, hw⟩ | ⟨rfl, hturn, hw⟩
    · have harb : preempt s = s.setArb (preempt s).arb := selectFrom_clearPlay _ s
      obtain ⟨q, hq, hne⟩ := playsOther_preempt h hw
      refine ⟨(preempt s).arb, q, ?_, hq, hne, fun _ => harb ▸ selects_preempt s, by simp⟩
      rw [exec_preemption h, if_pos ((preemptionDue_iff s p r).2 ⟨hrem, hsil, hturn, hw⟩), ← harb]
    · have harb : yieldTurn p r s = s.setArb (yieldTurn p r s).arb := selectFrom_clearPlay _ s
      obtain ⟨q, hq, hne⟩ := playsOther_yieldTurn h hw
      refine ⟨(yieldTurn p r s).arb, q, ?_, hq, hne, by simp, fun _ => harb ▸ selectsFrom_yieldTurn s p r⟩
      rw [exec_yield h, if_pos ((yieldAllowed_iff s p r).2 ⟨hturn, hrem, hsil, hw⟩), ← harb]
  · rw [exec_preemption h, if_neg (by simp [preemptionDue_iff, hsil])]
  · rw [exec_yield h, if_neg (by simp only [yieldAllowed_iff]; simp [hsil])]

end Sys2Proof.Machine
end

section
/-! A change of every request, slot by slot, and SILENCE as one (R143, R144); reminders falling due (R133, R167); the offer
deadline of a receipt (R158). -/

namespace Sys2Proof.Machine

/-! ### A change of each waiting request, slot by slot -/

/-- The waiting request is that of the slot's entry, which does not play. -/
theorem waitingRequest_of {s : State} {i : EntrySlot} {e : Entry} (he : s.entryAt i = some e) (hp : s.playsAt i = false) :
    s.waitingRequest i = e.request := by
  simp [State.waitingRequest, he, hp]

theorem waitingRequest_playing {s : State} {i : EntrySlot} (hp : s.playsAt i = true) : s.waitingRequest i = none := by
  rw [State.waitingRequest]
  split
  · rfl
  · exact if_pos hp

theorem playsAt_of_playingRequest {s : State} {p : Play} {e : Entry} {r : Request}
    (h : s.playingRequest = some (p, e, r)) : s.playsAt p.handle.slot = true := by
  obtain ⟨hp, hn, -⟩ := playingRequest_spec h
  rw [State.playsAt, hp]
  exact decide_eq_true (handleOf_of_named hn)

/-- A request that plays is the playing one. -/
theorem playingRequest_of {s : State} {i : EntrySlot} {e : Entry} {r : Request} (he : s.entryAt i = some e)
    (hr : e.request = some r) (h : s.playsAt i = true) : ∃ p, s.playingRequest = some (p, e, r) ∧ p.handle.slot = i := by
  rw [State.playsAt] at h
  split at h
  · cases h
  · next p hp =>
    have hh : p.handle = s.handleOf i := of_decide_eq_true h
    have hn : s.named p.handle = some e := by
      rw [hh, State.named]
      exact (if_pos rfl).trans he
    refine ⟨p, ?_, by rw [hh]; rfl⟩
    rw [State.playingRequest, playing_of hp hn]
    simp [hr]

/-- What a slot holds once its waiting request has met a change. -/
def State.changedWaiting (s : State) (change : State → Entry → Entry) (i : EntrySlot) : Option Entry :=
  match s.waitingRequest i with
  | none => s.entryAt i
  | some _ => (s.entryAt i).map (change s)

/-- Work on one slot at a time that changes the entry of a waiting request, by the port and the clock, and nothing else. -/
structure SlotWork (f : EntrySlot → State → State) (change : State → Entry → Entry) : Prop where
  work : ∀ i s, RequestWork s (f i s)
  arb : ∀ i s, (f i s).arb = s.arb
  slot : ∀ i s j, (f i s).entryAt j = if i = j then s.changedWaiting change i else s.entryAt j
  same : ∀ s t, t.host = s.host → t.now = s.now → change t = change s
  idle : ∀ s e, e.request = none → change s e = e

theorem changedWaiting_congr {change : State → Entry → Entry} {s t : State} (h : RequestWork s t) (ha : t.arb = s.arb)
    (hc : change t = change s) {j : EntrySlot} (hj : t.entryAt j = s.entryAt j) :
    t.changedWaiting change j = s.changedWaiting change j := by
  have hplays : t.playsAt j = s.playsAt j := by simp only [State.playsAt, ha, h.handleOf]
  have hwait : t.waitingRequest j = s.waitingRequest j := by simp only [State.waitingRequest, hj, hplays]
  simp only [State.changedWaiting, hwait, hj, hc]

/-- The work on some slots, in order. -/
def onSlots (f : EntrySlot → State → State) (xs : List EntrySlot) (s : State) : State := xs.foldl (fun t i => f i t) s

/-- The work on every slot. -/
def onEverySlot (f : EntrySlot → State → State) (s : State) : State := onSlots f entrySlotList s

section
variable {f : EntrySlot → State → State} {change : State → Entry → Entry}

theorem SlotWork.onSlots_work (h : SlotWork f change) (xs : List EntrySlot) (s : State) :
    RequestWork s (onSlots f xs s) :=
  requestWork_foldl _ (fun s i => h.work i s) xs s

theorem SlotWork.onSlots_arb (h : SlotWork f change) (xs : List EntrySlot) (s : State) :
    (onSlots f xs s).arb = s.arb := by
  induction xs generalizing s with
  | nil => rfl
  | cons x xs ih => exact (ih _).trans (h.arb x s)

theorem SlotWork.onSlots_entryAt (h : SlotWork f change) (xs : List EntrySlot) (hn : xs.Nodup) (s : State)
    (j : EntrySlot) : (onSlots f xs s).entryAt j = if j ∈ xs then s.changedWaiting change j else s.entryAt j := by
  induction xs generalizing s with
  | nil => rfl
  | cons x xs ih =>
    obtain ⟨hx, hxs⟩ := List.nodup_cons.1 hn
    have hstep := ih hxs (f x s)
    show (onSlots f xs (f x s)).entryAt j = _
    rw [hstep, h.slot]
    by_cases hj : x = j
    · subst hj
      simp [hx]
    · rw [if_neg hj]
      have hcongr : (f x s).changedWaiting change j = s.changedWaiting change j :=
        changedWaiting_congr (h.work x s) (h.arb x s) (h.same _ _ (h.work x s).host (h.work x s).now)
          ((h.slot x s j).trans (if_neg hj))
      simp [hcongr, Ne.symm hj]

theorem SlotWork.work_onEverySlot (h : SlotWork f change) (s : State) : RequestWork s (onEverySlot f s) :=
  h.onSlots_work entrySlotList s

theorem SlotWork.arb_onEverySlot (h : SlotWork f change) (s : State) : (onEverySlot f s).arb = s.arb :=
  h.onSlots_arb entrySlotList s

theorem SlotWork.entryAt_onEverySlot (h : SlotWork f change) (s : State) (j : EntrySlot) :
    (onEverySlot f s).entryAt j = s.changedWaiting change j :=
  (h.onSlots_entryAt entrySlotList (List.nodup_finRange _) s j).trans (if_pos (List.mem_finRange j))

/-- The entry of the slot that plays stands. -/
theorem SlotWork.entryAt_playing (h : SlotWork f change) {s : State} {i : EntrySlot} (hp : s.playsAt i = true) :
    (onEverySlot f s).entryAt i = s.entryAt i := by
  rw [h.entryAt_onEverySlot, State.changedWaiting, waitingRequest_playing hp]

theorem SlotWork.playingRequest_onEverySlot (h : SlotWork f change) (s : State) :
    (onEverySlot f s).playingRequest = s.playingRequest := by
  have harb := h.arb_onEverySlot s
  have huse : (onEverySlot f s).dir.useCounts = s.dir.useCounts := by rw [h.work_onEverySlot s]
  have hnamed {p : Play} (hp : s.arb.play = some p) : (onEverySlot f s).named p.handle = s.named p.handle := by
    simp only [State.named, huse]
    by_cases hh : s.dir.useCounts[p.handle.slot] = p.handle.use
    · have hplays : s.playsAt p.handle.slot = true := by
        rw [State.playsAt, hp]
        exact decide_eq_true (congrArg (Handle.mk p.handle.slot) hh.symm)
      rw [if_pos hh, if_pos hh, h.entryAt_playing hplays]
    · rw [if_neg hh, if_neg hh]
  have hplaying : (onEverySlot f s).playing = s.playing := by
    simp only [State.playing, harb]
    cases hp : s.arb.play with
    | none => rfl
    | some p => simp only [hnamed hp]
  simp only [State.playingRequest, hplaying]

theorem SlotWork.changedWaiting_waiting (h : SlotWork f change) {s : State} {i : EntrySlot} (hp : s.playsAt i = false) :
    s.changedWaiting change i = (s.entryAt i).map (change s) := by
  cases he : s.entryAt i with
  | none => simp [State.changedWaiting, State.waitingRequest, he]
  | some e =>
    rw [State.changedWaiting, waitingRequest_of he hp, he]
    cases hr : e.request with
    | none => exact congrArg some (h.idle s e hr).symm
    | some r => rfl

/-- With the change made to the playing entry too, every entry has met it. -/
theorem SlotWork.entryAt_all (h : SlotWork f change) {s u : State}
    (hidle : s.playingRequest = none → u = onEverySlot f s)
    (hplay : ∀ p e r, s.playingRequest = some (p, e, r) → ∀ j,
      u.entryAt j = if p.handle.slot = j then some (change s e) else (onEverySlot f s).entryAt j) (i : EntrySlot) :
    u.entryAt i = (s.entryAt i).map (change s) := by
  cases hp : s.playingRequest with
  | none =>
    rw [hidle hp, h.entryAt_onEverySlot]
    cases hpl : s.playsAt i with
    | false => exact h.changedWaiting_waiting hpl
    | true =>
      rw [State.changedWaiting, waitingRequest_playing hpl]
      cases he : s.entryAt i with
      | none => rfl
      | some e =>
        have hr : e.request = none := by
          cases hr : e.request with
          | none => rfl
          | some r =>
            obtain ⟨p, hp', -⟩ := playingRequest_of he hr hpl
            exact absurd (hp.symm.trans hp') (by simp)
        exact congrArg some (h.idle s e hr).symm
  | some x =>
    obtain ⟨p, e, r⟩ := x
    obtain ⟨harb, hn, -⟩ := playingRequest_spec hp
    rw [hplay p e r hp]
    by_cases hi : p.handle.slot = i
    · rw [if_pos hi, ← hi, named_entryAt hn]
      rfl
    · have hwaits : s.playsAt i = false := by
        rw [State.playsAt, harb]
        exact decide_eq_false fun hh => hi (congrArg Handle.slot hh)
      rw [if_neg hi, h.entryAt_onEverySlot, h.changedWaiting_waiting hwaits]

end

/-! ### SILENCE (R143, R144) -/

/-- What SILENCE makes of an entry: a spared request is marked, any other removed as heard. -/
def State.silenceEntry (s : State) (e : Entry) : Entry :=
  match e.request with
  | none => e
  | some r =>
    if s.spared e r then { e with request := some { r with silenced := true } }
    else heardEntry s.now r.kind { e with request := none }

theorem silenceEntry_spared {s : State} {e : Entry} {r : Request} (hr : e.request = some r) (h : s.spared e r = true) :
    s.silenceEntry e = { e with request := some { r with silenced := true } } := by
  rw [State.silenceEntry, hr]
  exact if_pos h

theorem silenceEntry_heard {s : State} {e : Entry} {r : Request} (hr : e.request = some r) (h : ¬ s.spared e r = true) :
    s.silenceEntry e = heardEntry s.now r.kind { e with request := none } := by
  rw [State.silenceEntry, hr]
  exact if_neg h

theorem silenceEntry_idle {s : State} {e : Entry} (hr : e.request = none) : s.silenceEntry e = e := by
  rw [State.silenceEntry, hr]

theorem spared_iff (s : State) (e : Entry) (r : Request) : s.spared e r = true ↔
    e.cls = .national ∧ r.played < s.host.settings.minimumPlay * 1000 := by
  rw [State.spared, Bool.and_eq_true, decide_eq_true_iff, decide_eq_true_iff]
  exact Iff.rfl

theorem spared_congr {s t : State} (h : t.host = s.host) (e : Entry) (r : Request) : t.spared e r = s.spared e r := by
  rw [State.spared, State.spared, State.minimumMs, State.minimumMs, h]

theorem silenceWaiting_idle {s : State} {i : EntrySlot} (hw : s.waitingRequest i = none) : silenceWaiting i s = s := by
  rw [silenceWaiting]
  split
  · rfl
  · rw [hw]

theorem silenceWaiting_eq {s : State} {i : EntrySlot} {e : Entry} {r : Request} (he : s.entryAt i = some e)
    (hw : s.waitingRequest i = some r) : silenceWaiting i s =
      if s.spared e r then modEntry i (setRequest (some { r with silenced := true })) s else hearRequest i r.kind s := by
  rw [silenceWaiting, he]
  simp only [hw]

theorem entryAt_silenceWaiting (i : EntrySlot) (s : State) (j : EntrySlot) :
    (silenceWaiting i s).entryAt j = if i = j then s.changedWaiting State.silenceEntry i else s.entryAt j := by
  cases hw : s.waitingRequest i with
  | none =>
    rw [silenceWaiting_idle hw, State.changedWaiting, hw]
    split
    · next h => rw [h]
    · rfl
  | some r =>
    obtain ⟨e, he, hr⟩ := waitingRequest_spec hw
    have hchanged : s.changedWaiting State.silenceEntry i = some (s.silenceEntry e) := by
      rw [State.changedWaiting, hw, he]
      rfl
    rw [silenceWaiting_eq he hw, hchanged]
    by_cases hs : s.spared e r = true
    · rw [if_pos hs, State.entryAt_modEntry, silenceEntry_spared hr hs]
      split
      · next h =>
        rw [← h, he]
        rfl
      · rfl
    · rw [if_neg hs, entryAt_hearRequest, silenceEntry_heard hr hs]
      split
      · next h =>
        rw [← h, he]
        rfl
      · rfl

theorem requestWork_silenceWaiting (i : EntrySlot) (s : State) : RequestWork s (silenceWaiting i s) := by
  unfold silenceWaiting
  split
  · exact RequestWork.refl s
  · split
    · exact RequestWork.refl s
    · split
      · exact requestWork_modEntry _ _ _
      · exact requestWork_hearRequest _ _ _

theorem arb_silenceWaiting (i : EntrySlot) (s : State) : (silenceWaiting i s).arb = s.arb := by
  unfold silenceWaiting
  split
  · rfl
  · split
    · rfl
    · split
      · exact State.arb_modEntry _ _ _
      · exact arb_hearRequest _ _ _

theorem slotWork_silenceWaiting : SlotWork silenceWaiting State.silenceEntry where
  work := requestWork_silenceWaiting
  arb := arb_silenceWaiting
  slot := entryAt_silenceWaiting
  same s t hh hn := by
    funext e
    simp only [State.silenceEntry, spared_congr hh, hn]
  idle _ _ := silenceEntry_idle

/-- SILENCE on every waiting request. -/
def silencedWaiting (s : State) : State := onEverySlot silenceWaiting s

theorem silenceAll_eq (s : State) : silenceAll s = silencePlaying (silencedWaiting s) := rfl

theorem arb_silencedWaiting (s : State) : (silencedWaiting s).arb = s.arb :=
  slotWork_silenceWaiting.arb_onEverySlot s

theorem requestWork_silencedWaiting (s : State) : RequestWork s (silencedWaiting s) :=
  slotWork_silenceWaiting.work_onEverySlot s

theorem playingRequest_silencedWaiting (s : State) : (silencedWaiting s).playingRequest = s.playingRequest :=
  slotWork_silenceWaiting.playingRequest_onEverySlot s

theorem silenceAll_idle {s : State} (h : s.playingRequest = none) : silenceAll s = silencedWaiting s := by
  rw [silenceAll_eq, silencePlaying, playingRequest_silencedWaiting, h]

theorem silenceAll_playing {s : State} {p : Play} {e : Entry} {r : Request} (h : s.playingRequest = some (p, e, r)) :
    silenceAll s =
      if s.spared e r then modEntry p.handle.slot (setRequest (some { r with silenced := true })) (silencedWaiting s)
      else finishPlay p r (silencedWaiting s) := by
  rw [silenceAll_eq, silencePlaying, playingRequest_silencedWaiting, h]
  simp only [spared_congr (requestWork_silencedWaiting s).host]

theorem requestWork_silenceAll (s : State) : RequestWork s (silenceAll s) := by
  refine (requestWork_silencedWaiting s).trans ?_
  rw [silenceAll_eq]
  unfold silencePlaying
  split
  · exact RequestWork.refl _
  · split
    · exact requestWork_modEntry _ _ _
    · exact requestWork_finishPlay _ _ _

/-- SILENCE does the same to the entry that plays and to those that wait. -/
theorem entryAt_silenceAll (s : State) (i : EntrySlot) :
    (silenceAll s).entryAt i = (s.entryAt i).map s.silenceEntry := by
  refine slotWork_silenceWaiting.entryAt_all silenceAll_idle (fun p e r h j => ?_) i
  obtain ⟨-, hn, hr⟩ := playingRequest_spec h
  have hkept : (silencedWaiting s).entryAt p.handle.slot = some e :=
    (slotWork_silenceWaiting.entryAt_playing (playsAt_of_playingRequest h)).trans (named_entryAt hn)
  rw [silenceAll_playing h]
  by_cases hs : s.spared e r = true
  · rw [if_pos hs, State.entryAt_modEntry, silenceEntry_spared hr hs]
    split
    · next hj =>
      rw [← hj, hkept]
      rfl
    · rfl
  · rw [if_neg hs, entryAt_finishPlay, entryAt_hearRequest, silenceEntry_heard hr hs,
      (requestWork_silencedWaiting s).now]
    split
    · next hj =>
      rw [← hj, hkept]
      rfl
    · rfl

/-- A play stops with SILENCE exactly when its request is not spared (R144). -/
theorem arb_silenceAll_spared {s : State} {p : Play} {e : Entry} {r : Request} (h : s.playingRequest = some (p, e, r))
    (hs : s.spared e r = true) : (silenceAll s).arb = s.arb := by
  rw [silenceAll_playing h, if_pos hs, State.arb_modEntry]
  exact arb_silencedWaiting s

theorem selects_silenceAll {s t : State} {p : Play} {e : Entry} {r : Request} (h : s.playingRequest = some (p, e, r))
    (hs : ¬ s.spared e r = true) (ht : t = silenceAll s) : s.selects t := by
  obtain ⟨u, hu⟩ : ∃ u, u = silencedWaiting s := ⟨_, rfl⟩
  have harb : u.arb = s.arb := by rw [hu, arb_silencedWaiting]
  rw [ht, silenceAll_playing h, if_neg hs, ← hu]
  exact selects_finishPlay p r (congrArg Arbiter.pointers harb)

theorem exec_silence {s : State} (h : s.portIdle) :
    exec (.silence (framed [])) s = .next ((silenceAll (s.taken 0)).answered ⟨.ok, []⟩) := by
  show Host.Outcome.next _ = _
  rw [transact_framed 0x08 0 silenceWork [] s h rfl (by decide), silenceWork, okWith]

/-- Settles O47: `silenceAll`, slot by slot, on the state that took the command. -/
theorem silenceSparesOnlyUnheardNational : Obligations.SilenceSparesOnlyUnheardNational := by
  intro s h
  obtain ⟨t, ht⟩ : ∃ t, t = silenceAll (s.taken 0) := ⟨_, rfl⟩
  have hat (i : EntrySlot) : t.entryAt i = (s.entryAt i).map s.silenceEntry := by
    rw [ht]
    exact entryAt_silenceAll (s.taken 0) i
  refine ⟨t, ht ▸ exec_silence h, ht ▸ requestWork_silenceAll (s.taken 0), fun i hi => ?_, fun i e he hr => ?_,
    fun i e r he hr => ⟨fun hs => ?_, fun hs => ?_⟩, fun hp => ?_, fun p e r hp => ⟨fun hs => ?_, fun hs => ?_⟩,
    heardEntry_alert, heardEntry_reminder⟩
  · rw [hat, hi]
    rfl
  · rw [hat, he, Option.map_some, silenceEntry_idle hr]
  · rw [hat, he, Option.map_some, silenceEntry_spared hr ((spared_iff s e r).2 hs)]
  · rw [hat, he, Option.map_some, silenceEntry_heard hr fun hsp => hs ((spared_iff s e r).1 hsp)]
  · rw [ht, silenceAll_idle (s := s.taken 0) hp]
    exact arb_silencedWaiting (s.taken 0)
  · rw [ht]
    exact arb_silenceAll_spared (s := s.taken 0) hp ((spared_iff s e r).2 hs)
  · exact State.selects_congr (selects_silenceAll (s := s.taken 0) hp (fun hsp => hs ((spared_iff s e r).1 hsp)) ht) rfl

/-! ### Reminders falling due (R133, R167) -/

theorem raiseReminder_idle {s : State} {i : EntrySlot} {e : Entry} (he : s.entryAt i = some e) (hr : e.request = none) :
    raiseReminder i s = selectIfIdle (modEntry i (setRequest (some reminderRequest)) s) := by
  rw [raiseReminder, he]
  simp only [hr]

theorem raiseReminder_held {s : State} {i : EntrySlot} {e : Entry} {r : Request} (he : s.entryAt i = some e)
    (hr : e.request = some r) : raiseReminder i s = s := by
  rw [raiseReminder, he]
  simp only [hr]

theorem selectIfIdle_idle {s : State} (h : s.arb.play = none) : selectIfIdle s = select s := by
  rw [selectIfIdle, h]

/-- The entry once the reminder has fallen due, its request raised. -/
def remindedEntry (now : Nat) (e : Entry) : Entry :=
  { reminderFallsDue now e with request := some (e.request.getD reminderRequest) }

/-- What the raising leaves in the slot of a due reminder. -/
theorem entryAt_raiseReminder {s : State} {i : EntrySlot} {e : Entry} (he : s.entryAt i = some e) (j : EntrySlot) :
    (raiseReminder i (modEntry i (reminderFallsDue s.now) s)).entryAt j =
      if i = j then some (remindedEntry s.now e) else s.entryAt j := by
  have hdue : (modEntry i (reminderFallsDue s.now) s).entryAt i = some (reminderFallsDue s.now e) := by
    rw [State.entryAt_modEntry_same, he]
    rfl
  cases hr : e.request with
  | none =>
    rw [raiseReminder_idle hdue hr, entryAt_selectIfIdle, State.entryAt_modEntry, State.entryAt_modEntry]
    by_cases hj : i = j
    · subst hj
      simp [he, remindedEntry, hr, setRequest]
    · simp [hj]
  | some r =>
    rw [raiseReminder_held hdue hr, State.entryAt_modEntry]
    by_cases hj : i = j
    · subst hj
      have hsame : remindedEntry s.now e = reminderFallsDue s.now e := by
        simp only [remindedEntry, hr, Option.getD_some]
        rw [← hr]
        rfl
      simp [he, hsame]
    · simp [hj]

theorem remind_eq {s : State} {i : EntrySlot} {e : Entry} (he : s.entryAt i = some e) : remind i s =
    if min (e.backlog + 1) 2 = 2 then
      modEntry i escalateEntry (raiseReminder i (modEntry i (reminderFallsDue s.now) s))
    else raiseReminder i (modEntry i (reminderFallsDue s.now) s) := by
  have h := entryAt_raiseReminder he i
  rw [if_pos rfl] at h
  rw [remind]
  simp only [h]
  rfl

theorem arb_remind {s : State} {i : EntrySlot} {e : Entry} (he : s.entryAt i = some e) :
    (remind i s).arb = (raiseReminder i (modEntry i (reminderFallsDue s.now) s)).arb := by
  rw [remind_eq he]
  split
  · exact State.arb_modEntry _ _ _
  · rfl

/-- What a due reminder leaves in its slot. -/
theorem entryAt_remind {s : State} {i : EntrySlot} {e : Entry} (he : s.entryAt i = some e) (j : EntrySlot) :
    (remind i s).entryAt j = if i = j then
        some (if 1 ≤ e.backlog then escalateEntry (remindedEntry s.now e) else remindedEntry s.now e)
      else s.entryAt j := by
  have hback : min (e.backlog + 1) 2 = 2 ↔ 1 ≤ e.backlog := by omega
  simp only [remind_eq he, hback]
  by_cases hb : 1 ≤ e.backlog
  · rw [if_pos hb, if_pos hb, State.entryAt_modEntry, entryAt_raiseReminder he]
    split
    · rfl
    · rfl
  · rw [if_neg hb, if_neg hb, entryAt_raiseReminder he]

/-- The entry a due reminder leaves, as R167 and R133 tell it. -/
theorem remindedEntry_escalated (now : Nat) (e : Entry) :
    (if 1 ≤ e.backlog then escalateEntry (remindedEntry now e) else remindedEntry now e) = { e with
        backlog := min (e.backlog + 1) 2
        nextReminder := if e.given + min (e.backlog + 1) 2 < e.limit then some (now + e.interval * 60000) else none
        request :=
          match e.request with
          | none => some ⟨.reminder, if 1 ≤ e.backlog then .cls e.cls else .trickle, 1500, 0, false⟩
          | some r => if r.kind = .reminder ∧ 1 ≤ e.backlog then some { r with level := .cls e.cls } else some r } := by
  by_cases hb : 1 ≤ e.backlog
  · cases hr : e.request with
    | none => simp only [hb, if_true, remindedEntry, escalateEntry, hr]; rfl
    | some r =>
      cases hk : r.kind with
      | alert => simp only [hb, if_true, remindedEntry, escalateEntry, hr, hk, Option.getD_some]; rfl
      | reminder => simp only [hb, if_true, remindedEntry, escalateEntry, hr, hk, Option.getD_some]; rfl
  · cases hr : e.request with
    | none => simp only [hb, if_false, remindedEntry, hr]; rfl
    | some r => simp only [hb, if_false, and_false, remindedEntry, hr, Option.getD_some]; rfl

theorem requestWork_remind {s : State} {i : EntrySlot} {e : Entry} (he : s.entryAt i = some e) :
    RequestWork s (remind i s) := by
  have hraise : RequestWork s (raiseReminder i (modEntry i (reminderFallsDue s.now) s)) :=
    (requestWork_modEntry _ _ _).trans (requestWork_raiseReminder _ _)
  rw [remind_eq he]
  split
  · exact hraise.trans (requestWork_modEntry _ _ _)
  · exact hraise

theorem exec_reminderDeadline {s : State} {i : EntrySlot} {e : Entry} {d : Nat} (he : s.entryAt i = some e)
    (ha : e.state = .active) (hd : e.nextReminder = some d) (hle : d ≤ s.now) :
    exec (.reminderDeadline i) s = .next (remind i s) := by
  show Host.Outcome.next _ = _
  rw [he]
  simp [ha, hd, hle]

/-- The state in which the request of a due reminder is raised. -/
def reminderRaised (i : EntrySlot) (s : State) : State :=
  modEntry i (setRequest (some reminderRequest)) (modEntry i (reminderFallsDue s.now) s)

theorem entryAt_reminderRaised {s : State} {i : EntrySlot} {e : Entry} (he : s.entryAt i = some e) (j : EntrySlot) :
    (reminderRaised i s).entryAt j =
      if i = j then some (setRequest (some reminderRequest) (reminderFallsDue s.now e)) else s.entryAt j := by
  rw [reminderRaised, State.entryAt_modEntry, State.entryAt_modEntry]
  by_cases hj : i = j
  · subst hj
    simp [he]
  · simp [hj]

theorem arb_reminderRaised (i : EntrySlot) (s : State) : (reminderRaised i s).arb = s.arb := by
  simp [reminderRaised]

theorem handleOf_reminderRaised (i j : EntrySlot) (s : State) : (reminderRaised i s).handleOf j = s.handleOf j := by
  simp [reminderRaised]

/-- On an IDLE generator the raised request is selected, or another that waited. -/
theorem raiseReminder_select {s : State} {i : EntrySlot} {e : Entry} (he : s.entryAt i = some e)
    (hr : e.request = none) (hp : s.arb.play = none) :
    raiseReminder i (modEntry i (reminderFallsDue s.now) s) = select (reminderRaised i s) := by
  have hdue : (modEntry i (reminderFallsDue s.now) s).entryAt i = some (reminderFallsDue s.now e) := by
    rw [State.entryAt_modEntry_same, he]
    rfl
  rw [raiseReminder_idle hdue hr]
  exact selectIfIdle_idle ((congrArg Arbiter.play (arb_reminderRaised i s)).trans hp)

theorem selects_raiseReminder {s : State} {i : EntrySlot} {e : Entry} (he : s.entryAt i = some e)
    (hr : e.request = none) (hp : s.arb.play = none) :
    s.selects (raiseReminder i (modEntry i (reminderFallsDue s.now) s)) := by
  rw [raiseReminder_select he hr hp]
  exact selects_select ((congrArg Arbiter.play (arb_reminderRaised i s)).trans hp)
    (congrArg Arbiter.pointers (arb_reminderRaised i s))

/-- Without another request the raised reminder plays. -/
theorem arb_raiseReminder_only {s : State} {i : EntrySlot} {e : Entry} (he : s.entryAt i = some e)
    (hr : e.request = none) (hp : s.arb.play = none)
    (hothers : ∀ j y, j ≠ i → s.entryAt j = some y → y.request = none) :
    (raiseReminder i (modEntry i (reminderFallsDue s.now) s)).arb =
      ⟨s.arb.pointers.set Level.trickle.index i, some ⟨s.handleOf i, .pr, 0, 0, 0⟩⟩ := by
  have hidle : (reminderRaised i s).arb.play = none := (congrArg Arbiter.play (arb_reminderRaised i s)).trans hp
  have hself := entryAt_reminderRaised he i
  rw [if_pos rfl] at hself
  have honly {lv : Level} {j : EntrySlot} (hw : (reminderRaised i s).waitsAt lv j = true) : j = i ∧ lv = .trickle := by
    obtain ⟨y, q, hy, hq, hlv⟩ := (waitsAt_idle _ hidle lv j).1 hw
    rw [entryAt_reminderRaised he] at hy
    split at hy
    · next hj =>
      cases hy
      cases hq
      exact ⟨hj.symm, hlv.symm⟩
    · next hj => exact absurd ((hothers j y (Ne.symm hj) hy).symm.trans hq) (by simp)
  have hwaits : (reminderRaised i s).waitsAt .trickle i = true := (waitsAt_idle _ hidle _ _).2 ⟨_, _, hself, rfl, rfl⟩
  have hsel := (selectionTakesHighestThenRoundRobin (reminderRaised i s) hidle).1 .trickle i _ _ hwaits hself rfl
    (fun lv j hw => (honly hw).2 ▸ Nat.le_refl _) (fun j hw => (honly hw).1 ▸ Nat.le_refl _)
  rw [raiseReminder_select he hr hp, hsel]
  simp [arb_reminderRaised, handleOf_reminderRaised, patternOf, reminderRequest]

/-- Settles O49 (its plain name is a function of the model's): the entry by `entryAt_remind`, the arbiter by what the
raised request selects. -/
theorem reminderFallsDue' : Obligations.ReminderFallsDue := by
  intro i e d s he ha hd hle
  have hplay (hr : e.request = none) (hp : s.arb.play = none) : (remind i s).arb.play ≠ none := by
    have hself := entryAt_raiseReminder he i
    rw [if_pos rfl] at hself
    obtain ⟨q, x, y, hq, -⟩ := (selects_raiseReminder he hr hp).play hself rfl
    rw [arb_remind he, hq]
    simp
  refine ⟨remind i s, exec_reminderDeadline he ha hd hle, ?_, fun j hj => ?_, fun hp => ?_, hplay, fun hr hp hb => ?_,
    fun hr hp hothers => ?_, requestWork_remind he⟩
  · exact ((entryAt_remind he i).trans (if_pos rfl)).trans (congrArg some (remindedEntry_escalated s.now e))
  · rw [entryAt_remind he, if_neg (Ne.symm hj)]
  · rw [arb_remind he, raiseReminder]
    split
    · exact State.arb_modEntry _ _ _
    · split
      · exact State.arb_modEntry _ _ _
      · rw [arb_selectIfIdle _ (by simpa using hp)]
        simp
  · rw [remind_eq he, if_neg (by omega)]
    exact selects_raiseReminder he hr hp
  · rw [arb_remind he]
    exact arb_raiseReminder_only he hr hp hothers

/-! ### The offer deadline (R158) -/

theorem recordOf_spec {s : State} {id : ReceiptId} {r : ReceiptRecord} (h : s.recordOf id = some r) :
    r ∈ s.rcpt.queue ∧ r.id = id := by
  unfold State.recordOf at h
  exact ⟨List.mem_of_find?_eq_some h, by simpa using List.find?_some h⟩

theorem exec_offerDeadline {s : State} {id : ReceiptId} {r : ReceiptRecord} {d : Nat} (h : s.recordOf id = some r)
    (ho : r.state = .offered) (hd : r.deadline = some d) (hle : d ≤ s.now) :
    exec (.offerDeadline id) s = .next (refuse r s) := by
  show Host.Outcome.next _ = _
  rw [h]
  simp [ho, hd, hle]

/-- Settles O50: the deadline of an OFFERED record is a refusal. -/
theorem offerDeadlineRefuses : Obligations.OfferDeadlineRefuses := by
  intro id r d s h ho hd hle hn hu
  obtain ⟨hr, rfl⟩ := recordOf_spec h
  exact ⟨refuse r s, exec_offerDeadline h ho hd hle, refusedBy_refuse r s hr hn hu,
    (receiptWork_refuse r s).directory, work_refuse r s,
    fun h0 hup => (refusedBy_retarget r s hr hn hu h0 hup).2,
    fun hup hno => nextOffered_refuse r s hup hn hr hu hno⟩

end Sys2Proof.Machine
end

section
/-! What an idle step does: a due event, or a millisecond of the alert clock; and what makes each event due (logs 2, 3). -/

namespace Sys2Proof.Machine

/-! ### The alert clock -/

theorem advanceClock_idle {s : State} (h : s.playingRequest = none) : advanceClock s = { s with now := s.now + 1 } := by
  rw [advanceClock, countPlay, h]

theorem advanceClock_playing {s : State} {p : Play} {e : Entry} {r : Request}
    (h : s.playingRequest = some (p, e, r)) : advanceClock s = { s with
        now := s.now + 1
        arb := { s.arb with play := some { p with into := p.into + 1, turn := p.turn + 1 } }
        dir := { s.dir with
          entries := s.dir.entries.set p.handle.slot
            (some { e with request := some { r with remaining := r.remaining - 1, played := r.played + 1 } }) } } := by
  obtain ⟨-, hn, -⟩ := playingRequest_spec h
  rw [advanceClock, countPlay, h]
  simp only [modEntry, named_entryAt hn]
  rfl

/-! ### Due, family by family -/

theorem mem_dueTimeout {s : State} {l : LinkId} {c : Instr} : c ∈ s.dueTimeout l ↔
    ∃ f, (s.link l).frame = some f ∧ (s.link l).state ≠ .faulted ∧ f.deadline ≤ s.now ∧
      c = .frameTimeout l (if f.header.isSome then none else Config.freeKindRead s.freeCtr) := by
  rw [State.dueTimeout]
  cases (s.link l).frame with
  | none => simp
  | some f => simp [and_assoc, and_left_comm]

theorem mem_quarantineDue {s : State} {l : LinkId} {c : Instr} :
    c ∈ (if (s.link l).state = .faulted ∧ s.reached (s.link l).quarantine = true then [Instr.quarantineExpiry l] else []) ↔
      ∃ d, (s.link l).state = .faulted ∧ (s.link l).quarantine = some d ∧ d ≤ s.now ∧ c = .quarantineExpiry l := by
  simp only [reached_iff, List.mem_ite_nil_right, List.mem_singleton, ← exists_and_left, ← exists_and_right, and_assoc]

theorem mem_sendDue {s : State} {l : LinkId} {c : Instr} :
    c ∈ (if (s.link l).outQ = [] then [] else [Instr.frameSend l]) ↔ (s.link l).outQ ≠ [] ∧ c = .frameSend l := by
  simp [List.mem_ite_nil_left]

theorem mem_dueWaits {s : State} {c : Instr} : c ∈ s.dueWaits ↔
    ∃ w ∈ s.prof.waiting, w.deadline ≤ s.now ∧ c = .waitDeadlineExpiry w.link w.slot := by
  simp [State.dueWaits, and_assoc, eq_comm]

/-- A command per slot whose entry meets a condition. -/
theorem mem_map_slotsWhere {s : State} {q : Entry → Bool} {f : EntrySlot → Instr} {c : Instr} :
    c ∈ (s.slotsWhere q).map f ↔ ∃ i e, s.entryAt i = some e ∧ q e = true ∧ c = f i := by
  simp only [List.mem_map, mem_slotsWhere]
  constructor
  · rintro ⟨i, ⟨e, he, hq⟩, rfl⟩
    exact ⟨i, e, he, hq, rfl⟩
  · rintro ⟨i, e, he, hq, rfl⟩
    exact ⟨i, ⟨e, he, hq⟩, rfl⟩

theorem mem_expiryDue {s : State} {c : Instr} : c ∈ (s.slotsWhere (fun e => s.reached e.expiry)).map .expiry ↔
    ∃ i e x, s.entryAt i = some e ∧ e.expiry = some x ∧ x ≤ s.now ∧ c = .expiry i := by
  simp only [mem_map_slotsWhere, reached_iff, ← exists_and_left, ← exists_and_right, and_assoc]

theorem mem_assemblyDue {s : State} {c : Instr} :
    c ∈ (s.slotsWhere (fun e => s.reached (e.incoming.map (·.deadline)))).map .assemblyDeadline ↔
      ∃ i e r, s.entryAt i = some e ∧ e.incoming = some r ∧ r.deadline ≤ s.now ∧ c = .assemblyDeadline i := by
  simp only [mem_map_slotsWhere, reached_iff]
  constructor
  · rintro ⟨i, e, he, ⟨x, hx, hle⟩, hc⟩
    obtain ⟨r, hr, rfl⟩ := Option.map_eq_some_iff.1 hx
    exact ⟨i, e, r, he, hr, hle, hc⟩
  · rintro ⟨i, e, r, he, hr, hle, hc⟩
    exact ⟨i, e, he, ⟨r.deadline, by rw [hr]; rfl, hle⟩, hc⟩

theorem mem_reminderDue {s : State} {c : Instr} :
    c ∈ (s.slotsWhere (fun e => decide (e.state = .active) && s.reached e.nextReminder)).map .reminderDeadline ↔
      ∃ i e d, s.entryAt i = some e ∧ e.state = .active ∧ e.nextReminder = some d ∧ d ≤ s.now ∧
        c = .reminderDeadline i := by
  simp only [mem_map_slotsWhere, reached_iff, Bool.and_eq_true, decide_eq_true_iff, ← exists_and_left,
    ← exists_and_right, and_assoc]

theorem mem_dueRedecision {s : State} {c : Instr} :
    c ∈ s.dueRedecision ↔ s.area.redecide ≠ [] ∧ c = .redecision := by
  simp [State.dueRedecision, List.mem_ite_nil_left]

/-- The points of a play (R137, R138, R141, R144). -/
def PlayPoint (s : State) (p : Play) (r : Request) (c : Instr) : Prop :=
  (r.remaining = 0 ∧ c = .playEnd) ∨
  (0 < r.remaining ∧ r.silenced = false ∧ s.host.settings.minimumPlay * 1000 ≤ p.turn ∧
    (∃ i q, s.waitingRequest i = some q ∧ q.level.rank < r.level.rank) ∧ c = .preemption) ∨
  (0 < r.remaining ∧ r.silenced = false ∧
    (s.host.settings.minimumPlay * 1000 + s.host.settings.maximumPlay * 1000 ≤ p.turn ∨
      r.kind = .reminder ∧ r.level ≠ .trickle ∧ s.host.settings.minimumPlay * 1000 ≤ p.turn ∧
        Config.freeEarlyYield s.freeCtr s.now = true) ∧
    (∃ i q, s.waitingRequest i = some q ∧ q.level = r.level) ∧ c = .yield) ∨
  (r.silenced = true ∧ s.host.settings.minimumPlay * 1000 ≤ r.played ∧ c = .silencedPlayEnd)

theorem mem_ite_singleton {b : Bool} {x c : Instr} : c ∈ (if b then [x] else []) ↔ b = true ∧ c = x := by
  cases b <;> simp

theorem silencedEndDue_iff (s : State) (r : Request) :
    s.silencedEndDue r = true ↔ r.silenced = true ∧ s.minimumMs ≤ r.played := by
  simp [State.silencedEndDue]

theorem mem_dueInPlay {s : State} {c : Instr} :
    c ∈ s.dueInPlay ↔ ∃ p e r, s.playingRequest = some (p, e, r) ∧ PlayPoint s p r c := by
  rw [State.dueInPlay]
  cases s.playingRequest with
  | none => simp
  | some x =>
    obtain ⟨p, e, r⟩ := x
    have hpoint : (c ∈ (if playEndDue r then [Instr.playEnd] else []) ++
        (if s.preemptionDue p r then [.preemption] else []) ++ (if s.yieldsNow p r then [.yield] else []) ++
        (if s.silencedEndDue r then [.silencedPlayEnd] else [])) ↔ PlayPoint s p r c := by
      simp only [List.mem_append, mem_ite_singleton, or_assoc]
      exact or_congr (and_congr_left' decide_eq_true_iff) (or_congr
        ((and_congr_left' (preemptionDue_iff s p r)).trans (by simp only [and_assoc]; exact Iff.rfl))
        (or_congr ((and_congr_left' (yieldsNow_iff s p r)).trans
            ⟨fun ⟨⟨ht, h0, hs, hw⟩, hc⟩ => ⟨h0, hs, ht, hw, hc⟩, fun ⟨h0, hs, ht, hw, hc⟩ => ⟨⟨ht, h0, hs, hw⟩, hc⟩⟩)
          ((and_congr_left' (silencedEndDue_iff s r)).trans and_assoc)))
    rw [hpoint]
    simp

theorem mem_dueSegment {s : State} {c : Instr} :
    c ∈ s.dueSegment ↔ ∃ p, s.arb.play = some p ∧ p.segmentNow.2 ≤ p.into ∧ c = .cadenceSegmentEnd := by
  rw [State.dueSegment]
  cases s.arb.play with
  | none => simp
  | some p => simp [List.mem_ite_nil_right]

theorem mem_dueOffers {s : State} {c : Instr} : c ∈ s.dueOffers ↔
    ∃ r ∈ s.rcpt.queue, ∃ d, r.state = .offered ∧ r.deadline = some d ∧ d ≤ s.now ∧ c = .offerDeadline r.id := by
  simp only [State.dueOffers, List.mem_map, List.mem_filter, Bool.and_eq_true, decide_eq_true_iff, reached_iff,
    @eq_comm _ _ c, ← exists_and_left, ← exists_and_right, and_assoc]

/-- Everything that is due comes from one of the families. -/
theorem mem_dueEvents {s : State} {c : Instr} : c ∈ s.dueEvents ↔
    (∃ l, c ∈ s.dueOnLink l) ∨ c ∈ s.dueWaits ∨ c ∈ s.dueInDirectory ∨ c ∈ s.dueRedecision ∨ c ∈ s.dueInPlay ∨
      c ∈ s.dueSegment ∨ c ∈ s.dueOffers := by
  have hlink : (∃ l, c ∈ s.dueOnLink l) ↔ c ∈ s.dueOnLink .la ∨ c ∈ s.dueOnLink .lb := by
    constructor
    · rintro ⟨l, h⟩
      cases l with
      | la => exact .inl h
      | lb => exact .inr h
    · rintro (h | h)
      · exact ⟨_, h⟩
      · exact ⟨_, h⟩
  simp only [State.dueEvents, List.mem_append, or_assoc, hlink]

/-- Settles O2: the clock by `advanceClock`, what is due family by family. -/
theorem idleStepTicks : Obligations.IdleStepTicks := by
  intro s hq
  have hstep : step s = tick s := by
    unfold step
    rw [hq]
  refine ⟨fun hdue hp => ?_, fun p e r hdue hp => ?_, fun hdue => ?_, fun c => ?_⟩
  · rcases tick_cases s with ⟨-, ht⟩ | ⟨c, hc, -⟩
    · rw [hstep, ht, advanceClock_idle hp]
    · exact absurd hc (by simp [hdue])
  · rcases tick_cases s with ⟨-, ht⟩ | ⟨c, hc, -⟩
    · rw [hstep, ht, advanceClock_playing hp]
    · exact absurd hc (by simp [hdue])
  · rcases tick_cases s with ⟨hnone, -⟩ | ⟨c, hc, ht⟩
    · exact absurd hnone hdue
    · exact ⟨c, hc, hstep.trans ht⟩
  · rw [mem_dueEvents, mem_dueWaits, mem_dueRedecision, mem_dueInPlay, mem_dueSegment, mem_dueOffers]
    simp only [State.dueOnLink, State.dueInDirectory, List.mem_append, mem_dueTimeout, mem_quarantineDue, mem_sendDue,
      mem_expiryDue, mem_assemblyDue, mem_reminderDue, exists_or, or_assoc, PlayPoint]

end Sys2Proof.Machine
end

section
/-! A judged page at the directory (R70, R71, R91, R103 to R107): the lookups, the disposition of a page by the entry it
hits, and what a page that stores nothing leaves. -/

namespace Sys2Proof.Machine

/-! ### Lookups (R70, R71) -/

theorem entryOfKey_none_iff {s : State} {k : Key} :
    s.entryOfKey k = none ↔ ∀ j y, s.entryAt j = some y → y.key ≠ k := by
  simp only [State.entryOfKey, List.findSome?_eq_none_iff, Option.map_eq_none_iff, Option.filter_eq_none_iff,
    decide_eq_true_eq]
  exact ⟨fun h j y => h j (List.mem_finRange j) y, fun h j _ => h j⟩

/-- The entry of a key is the one in the lowest slot that has the key. -/
theorem entryOfKey_some_iff {s : State} {k : Key} {i : EntrySlot} {e : Entry} : s.entryOfKey k = some (i, e) ↔
    s.entryAt i = some e ∧ e.key = k ∧ ∀ j < i, ∀ y, s.entryAt j = some y → y.key ≠ k := by
  have hnone (j : EntrySlot) : ((s.entryAt j).filter (fun x => decide (x.key = k))).map (fun x => (j, x)) = none ↔
      ∀ y, s.entryAt j = some y → y.key ≠ k := by
    simp only [Option.map_eq_none_iff, Option.filter_eq_none_iff, decide_eq_true_eq, ne_eq]
  have hsome (j : EntrySlot) : ((s.entryAt j).filter (fun x => decide (x.key = k))).map (fun x => (j, x)) = some (i, e) ↔
      j = i ∧ s.entryAt j = some e ∧ e.key = k := by
    simp only [Option.map_eq_some_iff, Option.filter_eq_some_iff, decide_eq_true_eq, Prod.mk.injEq]
    constructor
    · rintro ⟨x, ⟨hx, hk⟩, hj, rfl⟩
      exact ⟨hj, hx, hk⟩
    · rintro ⟨hj, hx, hk⟩
      exact ⟨e, ⟨hx, hk⟩, hj, rfl⟩
  have hsorted : entrySlotList.Pairwise (· < ·) := List.pairwise_lt_finRange 48
  rw [State.entryOfKey, List.findSome?_eq_some_iff]
  constructor
  · rintro ⟨before, j, after, hlist, hj, hbefore⟩
    obtain ⟨rfl, he, hk⟩ := (hsome j).1 hj
    refine ⟨he, hk, fun m hm y hy => (hnone m).1 (hbefore m ?_) y hy⟩
    have hmem : m ∈ entrySlotList := List.mem_finRange m
    rw [hlist] at hmem hsorted
    rcases List.mem_append.1 hmem with h | h
    · exact h
    · rcases List.mem_cons.1 h with rfl | h
      · exact absurd hm (lt_irrefl _)
      · exact absurd hm (List.rel_of_pairwise_cons (List.pairwise_append.1 hsorted).2.1 h).asymm
  · rintro ⟨he, hk, hfirst⟩
    have hmem : i ∈ entrySlotList := List.mem_finRange i
    obtain ⟨before, after, hlist⟩ := List.append_of_mem hmem
    refine ⟨before, i, after, hlist, (hsome i).2 ⟨rfl, he, hk⟩, fun m hm => (hnone m).2 (hfirst m ?_)⟩
    rw [hlist] at hsorted
    exact (List.pairwise_append.1 hsorted).2.2 m hm i List.mem_cons_self

theorem retiredRecord_none_iff {s : State} {k : Key} : s.retiredRecord k = none ↔ ∀ y ∈ s.dir.retired, y.key ≠ k := by
  simp [State.retiredRecord, List.find?_eq_none]

theorem retiredRecord_spec {s : State} {k : Key} {r : Retired} (h : s.retiredRecord k = some r) :
    r ∈ s.dir.retired ∧ r.key = k := by
  unfold State.retiredRecord at h
  exact ⟨List.mem_of_find?_eq_some h, by simpa using List.find?_some h⟩

/-! ### The three ways of a page (R70, R71, R72) -/

section
variable {p : Page} {g : Governing} {s : State}

theorem workPage_hit {i : EntrySlot} {e : Entry} (h : s.entryOfKey (pageKey p) = some (i, e)) :
    workPage p g s = joinUnlessFull i p (workHit i e p g s) := by
  rw [workPage, h]

theorem workPage_miss (h : s.entryOfKey (pageKey p) = none) (hr : s.retiredRecord (pageKey p) = none) :
    workPage p g s = workMiss p g s := by
  rw [workPage, h]
  simp only [hr]

theorem workPage_retired {r : Retired} (h : s.entryOfKey (pageKey p) = none)
    (hr : s.retiredRecord (pageKey p) = some r) : workPage p g s =
      if newer p.revision r.revision && !s.repeatsDiscarded p r then workMiss p g (unretire (pageKey p) s)
      else (s, .haveAll) := by
  rw [workPage, h]
  simp only [hr]

theorem disposition_joinUnlessFull (i : EntrySlot) (p : Page) (r : State × Disposition) :
    (joinUnlessFull i p r).2 = r.2 := by
  rw [joinUnlessFull]
  split
  · rfl
  · rfl

theorem joinUnlessFull_full {i : EntrySlot} {r : State × Disposition} (h : r.2 = .full) : joinUnlessFull i p r = r :=
  if_pos h

theorem joinUnlessFull_joins {i : EntrySlot} {r : State × Disposition} (h : r.2 ≠ .full) :
    joinUnlessFull i p r = (modEntry i (joinLink p.link) r.1, r.2) :=
  if_neg h

end

/-! ### Pages that store (R76, R92, R93, R94) -/

/-- The page is stored, or earns FULL and leaves the state `s`. -/
def Stores (s : State) (r : State × Disposition) : Prop :=
  r.2 = .storedMore ∨ r.2 = .storedDone ∨ r = (s, .full)

/-- The page is stored, or leaves the state `s`. -/
def StoresOrKeeps (s : State) (r : State × Disposition) : Prop :=
  r.2 = .storedMore ∨ r.2 = .storedDone ∨ r.1 = s

theorem Stores.orKeeps {s : State} {r : State × Disposition} (h : Stores s r) : StoresOrKeeps s r :=
  h.imp_right fun h => h.imp_right fun h => congrArg Prod.fst h

theorem Stores.disposition {s : State} {r : State × Disposition} (h : Stores s r) :
    r.2 = .storedMore ∨ r.2 = .storedDone ∨ r.2 = .full :=
  h.imp_right fun h => h.imp_right fun h => congrArg Prod.snd h

theorem startRevision_stored {i : EntrySlot} {p : Page} {g : Governing} {s : State} {x : State × Disposition}
    (h : startRevision i p g s = some x) : x.2 = .storedMore ∨ x.2 = .storedDone := by
  unfold startRevision at h
  split at h
  · cases h
  · dsimp only at h
    split at h
    · cases h
      exact .inr rfl
    · cases h
      exact .inl rfl

theorem stores_orFull_startRevision (i : EntrySlot) (p : Page) (g : Governing) (s t : State) :
    Stores s (orFull s (startRevision i p g t)) := by
  cases h : startRevision i p g t with
  | none => exact .inr (.inr rfl)
  | some x => exact (startRevision_stored h).imp_right .inl

section
variable (i : EntrySlot) (inc : Incoming) (p : Page) (g : Governing) (s : State)

theorem storePart_conflict (h : p.partCount ≠ inc.partCount) : storePart i inc p g s = (s, .conflict) :=
  if_pos h

theorem storePart_havePart (hc : p.partCount = inc.partCount) (h : p.partIndex ∈ inc.parts) :
    storePart i inc p g s = (s, .havePart) := by
  rw [storePart, if_neg (by simp [hc]), if_pos (by simpa using h)]

/-- The last part completes the revision, any other joins it. -/
theorem storePart_new (hc : p.partCount = inc.partCount) (h : p.partIndex ∉ inc.parts) :
    storePart i inc p g s = orFull s ((takeSegment i p.partIndex p.text g.cls s).map fun t =>
      if allPartsPresent (joinPart p inc).parts (joinPart p inc).partCount then
        (complete i g (modEntry i (fun e => { e with incoming := some (joinPart p inc) }) t), .storedDone)
      else (modEntry i (fun e => { e with incoming := some (joinPart p inc) }) t, .storedMore)) := by
  rw [storePart, if_neg (by simp [hc]), if_neg (by simpa using h)]

theorem stores_storePart (hc : p.partCount = inc.partCount) (h : p.partIndex ∉ inc.parts) :
    Stores s (storePart i inc p g s) := by
  rw [storePart_new i inc p g s hc h]
  cases takeSegment i p.partIndex p.text g.cls s with
  | none => exact .inr (.inr rfl)
  | some t =>
    show Stores s (if _ then _ else _)
    split
    · exact .inr (.inl rfl)
    · exact .inl rfl

end

/-! ### Table 24 and the cancellations (R91, R103, R105, R106) -/

section
variable (i : EntrySlot) (e : Entry) (p : Page) (g : Governing) (s : State)

theorem issueAtLive_same {inc : Incoming} (h : e.incoming = some inc) (hr : p.revision = inc.revision) :
    issueAtLive i e p g s = storePart i inc p g s := by
  rw [issueAtLive, h]
  exact if_pos hr

/-- A revision newer than the current one starts, or restarts, the incoming one. -/
def startOrRestart : State × Disposition :=
  if e.incoming.isSome then restartRevision i p g s else orFull s (startRevision i p g s)

theorem stores_startOrRestart : Stores s (startOrRestart i e p g s) := by
  rw [startOrRestart]
  split
  · exact stores_orFull_startRevision i p g s _
  · exact stores_orFull_startRevision i p g s s

theorem newerThan_none (c : Revision) : newerThan c none = true := rfl

theorem newerThan_some (c h : Revision) : newerThan c (some h) = newer c h := rfl

theorem issueAtLive_other (h : ∀ inc, e.incoming = some inc → p.revision ≠ inc.revision) :
    issueAtLive i e p g s =
      if sameAs p.revision (e.current.map (·.revision)) then (s, .haveAll)
      else if newerThan p.revision (e.current.map (·.revision)) && newerThan p.revision (e.incoming.map (·.revision))
        then startOrRestart i e p g s
      else (s, .stale) := by
  cases hi : e.incoming with
  | none => simp [issueAtLive, startOrRestart, hi, newerThan_none]
  | some inc => simp [issueAtLive, startOrRestart, hi, h inc hi, newerThan_some, and_comm]

theorem cancelAtLive_eq : cancelAtLive i e p g s =
    if sameAs p.revision (e.current.map (·.revision)) || sameAs p.revision (e.incoming.map (·.revision)) then
      (s, .conflict)
    else if newerThan p.revision (e.current.map (·.revision)) && newerThan p.revision (e.incoming.map (·.revision)) then
      (takeCancel i p g s, .storedDone)
    else (s, .stale) := rfl

theorem workHit_issueLive (ha : p.action = .issue) (hc : e.cancel = none) :
    workHit i e p g s = issueAtLive i e p g s := by
  rw [workHit, ha, hc]

theorem workHit_cancelLive (ha : p.action = .cancel) (hc : e.cancel = none) :
    workHit i e p g s = cancelAtLive i e p g s := by
  rw [workHit, ha, hc]

theorem workHit_issueTombstone {k : CancelMark} (ha : p.action = .issue) (hc : e.cancel = some k) :
    workHit i e p g s = issueAtTombstone i k p g s := by
  rw [workHit, ha, hc]

theorem workHit_cancelTombstone {k : CancelMark} (ha : p.action = .cancel) (hc : e.cancel = some k) :
    workHit i e p g s = cancelAtTombstone i k p s := by
  rw [workHit, ha, hc]

theorem storesOrKeeps_storePart (inc : Incoming) : StoresOrKeeps s (storePart i inc p g s) := by
  by_cases hc : p.partCount = inc.partCount
  · by_cases hp : p.partIndex ∈ inc.parts
    · rw [storePart_havePart i inc p g s hc hp]
      exact .inr (.inr rfl)
    · exact (stores_storePart i inc p g s hc hp).orKeeps
  · rw [storePart_conflict i inc p g s hc]
    exact .inr (.inr rfl)

theorem storesOrKeeps_issueAtLive : StoresOrKeeps s (issueAtLive i e p g s) := by
  by_cases h : ∃ inc, e.incoming = some inc ∧ p.revision = inc.revision
  · obtain ⟨inc, hi, hr⟩ := h
    rw [issueAtLive_same i e p g s hi hr]
    exact storesOrKeeps_storePart i p g s inc
  · rw [issueAtLive_other i e p g s fun inc hi hr => h ⟨inc, hi, hr⟩]
    split
    · exact .inr (.inr rfl)
    · split
      · exact (stores_startOrRestart i e p g s).orKeeps
      · exact .inr (.inr rfl)

/-- A page that hits an entry is stored, or leaves the state to the join of its link. -/
theorem storesOrKeeps_workHit : StoresOrKeeps s (workHit i e p g s) := by
  cases ha : p.action with
  | issue =>
    cases hc : e.cancel with
    | none =>
      rw [workHit_issueLive i e p g s ha hc]
      exact storesOrKeeps_issueAtLive i e p g s
    | some k =>
      rw [workHit_issueTombstone i e p g s ha hc, issueAtTombstone]
      split
      · exact .inr (.inr rfl)
      · split
        · exact (stores_orFull_startRevision i p g s _).orKeeps
        · exact .inr (.inr rfl)
  | cancel =>
    cases hc : e.cancel with
    | none =>
      rw [workHit_cancelLive i e p g s ha hc, cancelAtLive_eq]
      split
      · exact .inr (.inr rfl)
      · split
        · exact .inr (.inl rfl)
        · exact .inr (.inr rfl)
    | some k =>
      rw [workHit_cancelTombstone i e p g s ha hc, cancelAtTombstone]
      split
      · exact .inr (.inr rfl)
      · split
        · exact .inr (.inl rfl)
        · exact .inr (.inr rfl)

end

/-! ### A page that is not stored (R76, R107) -/

section
variable {p : Page} {g : Governing} {i : EntrySlot} {e : Entry} {s : State}

theorem disposition_workPage (h : s.entryOfKey (pageKey p) = some (i, e)) :
    (workPage p g s).2 = (workHit i e p g s).2 := by
  rw [workPage_hit h, disposition_joinUnlessFull]

theorem workPage_full (h : s.entryOfKey (pageKey p) = some (i, e)) (hd : (workPage p g s).2 = .full) :
    (workPage p g s).1 = s := by
  have hw : (workHit i e p g s).2 = .full := (disposition_workPage h).symm.trans hd
  rw [workPage_hit h, joinUnlessFull_full hw]
  rcases storesOrKeeps_workHit i e p g s with hs | hs | hs
  · exact absurd (hs.symm.trans hw) (by simp)
  · exact absurd (hs.symm.trans hw) (by simp)
  · exact hs

/-- A page that is answered from what is there only joins its link. -/
theorem workPage_joins (h : s.entryOfKey (pageKey p) = some (i, e)) (hm : (workPage p g s).2 ≠ .storedMore)
    (hd : (workPage p g s).2 ≠ .storedDone) (hf : (workPage p g s).2 ≠ .full) :
    (workPage p g s).1 = s.putEntry i (some { e with
      links := e.links.join p.link, changed := e.changed || decide (e.links.join p.link ≠ e.links) }) := by
  have hw : (workPage p g s).2 = (workHit i e p g s).2 := disposition_workPage h
  rw [hw] at hm hd hf
  have hkept : (workHit i e p g s).1 = s := by
    rcases storesOrKeeps_workHit i e p g s with hs | hs | hs
    · exact absurd hs hm
    · exact absurd hs hd
    · exact hs
  rw [workPage_hit h, joinUnlessFull_joins hf, hkept, modEntry_some (entryOfKey_spec h).1]
  rfl

theorem issue_sameRevision (h : s.entryOfKey (pageKey p) = some (i, e)) (ha : p.action = .issue)
    (hc : e.cancel = none) {inc : Incoming} (hi : e.incoming = some inc) (hr : p.revision = inc.revision) :
    (workPage p g s).2 = (storePart i inc p g s).2 := by
  rw [disposition_workPage h, workHit_issueLive i e p g s ha hc, issueAtLive_same i e p g s hi hr]

theorem issue_otherRevision (h : s.entryOfKey (pageKey p) = some (i, e)) (ha : p.action = .issue)
    (hc : e.cancel = none) (hi : ∀ inc, e.incoming = some inc → p.revision ≠ inc.revision) :
    (sameAs p.revision (e.current.map (·.revision)) = true → (workPage p g s).2 = .haveAll) ∧
    (sameAs p.revision (e.current.map (·.revision)) = false →
      newerThan p.revision (e.current.map (·.revision)) = true ∧
          newerThan p.revision (e.incoming.map (·.revision)) = true →
        (workPage p g s).2 = .storedMore ∨ (workPage p g s).2 = .storedDone ∨ (workPage p g s).2 = .full) ∧
    (sameAs p.revision (e.current.map (·.revision)) = false →
      newerThan p.revision (e.current.map (·.revision)) = false ∨
          newerThan p.revision (e.incoming.map (·.revision)) = false → (workPage p g s).2 = .stale) := by
  rw [disposition_workPage h, workHit_issueLive i e p g s ha hc, issueAtLive_other i e p g s hi]
  refine ⟨fun hs => ?_, fun hs hn => ?_, fun hs hn => ?_⟩
  · rw [if_pos hs]
  · rw [if_neg (by simp [hs]), if_pos (by simp [hn])]
    exact (stores_startOrRestart i e p g s).disposition
  · rw [if_neg (by simp [hs]), if_neg (by rwa [Bool.not_eq_true, Bool.and_eq_false_iff])]

theorem cancel_live (h : s.entryOfKey (pageKey p) = some (i, e)) (ha : p.action = .cancel) (hc : e.cancel = none) :
    (sameAs p.revision (e.current.map (·.revision)) = true ∨ sameAs p.revision (e.incoming.map (·.revision)) = true →
      (workPage p g s).2 = .conflict) ∧
    (newerThan p.revision (e.current.map (·.revision)) = true ∧
        newerThan p.revision (e.incoming.map (·.revision)) = true → (workPage p g s).2 = .storedDone) ∧
    (sameAs p.revision (e.current.map (·.revision)) = false →
      sameAs p.revision (e.incoming.map (·.revision)) = false →
      newerThan p.revision (e.current.map (·.revision)) = false ∨
          newerThan p.revision (e.incoming.map (·.revision)) = false → (workPage p g s).2 = .stale) := by
  rw [disposition_workPage h, workHit_cancelLive i e p g s ha hc, cancelAtLive_eq]
  refine ⟨fun hs => ?_, fun hn => ?_, fun hs1 hs2 hn => ?_⟩
  · rw [if_pos (by simpa using hs)]
  · rw [if_neg (by simp [newerThan_not_same _ _ hn.1, newerThan_not_same _ _ hn.2]), if_pos (by simp [hn])]
  · rw [if_neg (by simp [hs1, hs2]), if_neg (by rwa [Bool.not_eq_true, Bool.and_eq_false_iff])]

theorem page_tombstone (h : s.entryOfKey (pageKey p) = some (i, e)) {k : CancelMark} (hc : e.cancel = some k) :
    (p.revision = k.revision →
      (workPage p g s).2 = match p.action with | .issue => .conflict | .cancel => .haveAll) ∧
    (newer p.revision k.revision = true → p.action = .cancel → (workPage p g s).2 = .storedDone) ∧
    (newer p.revision k.revision = true → p.action = .issue →
      (workPage p g s).2 = .storedMore ∨ (workPage p g s).2 = .storedDone ∨ (workPage p g s).2 = .full) ∧
    (p.revision ≠ k.revision → newer p.revision k.revision = false → (workPage p g s).2 = .stale) := by
  rw [disposition_workPage h]
  cases ha : p.action with
  | issue =>
    rw [workHit_issueTombstone i e p g s ha hc, issueAtTombstone]
    refine ⟨fun hr => ?_, fun _ hcontra => ?_, fun hn _ => ?_, fun hr hn => ?_⟩
    · rw [if_pos hr]
    · cases hcontra
    · rw [if_neg (newer_ne _ _ hn), if_pos hn]
      exact (stores_orFull_startRevision i p g s _).disposition
    · rw [if_neg hr, if_neg (by simp [hn])]
  | cancel =>
    rw [workHit_cancelTombstone i e p g s ha hc, cancelAtTombstone]
    refine ⟨fun hr => ?_, fun hn _ => ?_, fun _ hcontra => ?_, fun hr hn => ?_⟩
    · rw [if_pos hr]
    · rw [if_neg (newer_ne _ _ hn), if_pos hn]
    · cases hcontra
    · rw [if_neg hr, if_neg (by simp [hn])]

end

theorem entryOfKey_unretire (k k' : Key) (s : State) : (unretire k s).entryOfKey k' = s.entryOfKey k' := rfl

theorem retiredRecord_unretire (k : Key) (s : State) : (unretire k s).retiredRecord k = none := by
  rw [retiredRecord_none_iff]
  intro y hy
  simpa using (List.mem_filter.1 hy).2

theorem workPage_unretired {p : Page} {g : Governing} {s : State} {r : Retired}
    (h : s.entryOfKey (pageKey p) = none) (hr : s.retiredRecord (pageKey p) = some r)
    (hn : newer p.revision r.revision = true) (hd : ¬ s.repeatsDiscarded p r = true) :
    workPage p g s = workPage p g (unretire (pageKey p) s) := by
  rw [workPage_retired h hr, if_pos (by simp [hn, hd]),
    workPage_miss ((entryOfKey_unretire _ _ s).trans h) (retiredRecord_unretire _ s)]

theorem workPage_retired_kept {p : Page} {g : Governing} {s : State} {r : Retired}
    (h : s.entryOfKey (pageKey p) = none) (hr : s.retiredRecord (pageKey p) = some r)
    (hk : newer p.revision r.revision = false ∨ s.repeatsDiscarded p r = true) : workPage p g s = (s, .haveAll) := by
  rw [workPage_retired h hr, if_neg]
  rcases hk with hk | hk
  · simp [hk]
  · simp [hk]

/-- Settles O37: the disposition by the tables, and `workPage_joins` for what is left. -/
theorem repeatedPageOnlyJoinsLink : Obligations.RepeatedPageOnlyJoinsLink := by
  refine ⟨fun p g i e s h => ⟨fun hd => ?_, workPage_full h, workPage_not_ignored p g s, fun ha hc inc hi hr => ?_,
    fun ha hc hi => issue_otherRevision h ha hc hi, fun ha hc => cancel_live h ha hc, fun k hc => page_tombstone h hc⟩,
    fun p g r s h hr => ⟨fun hn => workPage_retired_kept h hr (.inl hn), fun d hd hm ha hrev hcount hpart => ?_,
      fun hn hd => ?_⟩,
    fun k s => ⟨entryOfKey_none_iff, fun i e => entryOfKey_spec, retiredRecord_none_iff, fun r => retiredRecord_spec⟩,
    fun x l => rfl⟩
  · refine workPage_joins h ?_ ?_ ?_
    all_goals
      intro hne
      rw [hne] at hd
      simp at hd
  · rw [issue_sameRevision h ha hc hi hr]
    exact ⟨fun hcount => congrArg Prod.snd (storePart_conflict i inc p g s hcount),
      fun hcount hp => congrArg Prod.snd (storePart_havePart i inc p g s hcount hp),
      fun hcount hp => (stores_storePart i inc p g s hcount hp).disposition⟩
  · exact workPage_retired_kept h hr (.inr ((repeatsDiscarded_iff s p r).2 ⟨d, hd, hm, ha, hrev, hcount, hpart⟩))
  · refine workPage_unretired h hr hn fun hrep => ?_
    obtain ⟨d, hrd, hm, ha, hrev, hcount, hpart⟩ := (repeatsDiscarded_iff s p r).1 hrep
    have hcases := hd d hrd
    simp [hm, ha, hrev, hcount, hpart] at hcases

end Sys2Proof.Machine
end

section
/-! ISSUE pages over the directory with a segment free (R92, R93, R94, R106): every start of a revision is one start on a
prepared entry, and every completion is `completedBy_complete`. -/

namespace Sys2Proof.Machine

/-! ### The join of the page's link (R107) -/

theorem putEntry_self {s : State} {i : EntrySlot} {x : Option Entry} (h : s.entryAt i = x) : s.putEntry i x = s := by
  have hset : s.dir.entries.set i x = s.dir.entries := by
    rw [← h]
    exact Vector.set_getElem_self i.isLt
  rw [State.putEntry, hset]
  rfl

theorem joinLink_self {l : LinkId} {e : Entry} (h : e.links.join l = e.links) : joinLink l e = e := by
  simp [joinLink, h]

/-- A link that an entry has seen joins nothing. -/
theorem modEntry_joinLink_self {i : EntrySlot} {l : LinkId} {s : State}
    (h : ∀ e, s.entryAt i = some e → e.links.join l = e.links) : modEntry i (joinLink l) s = s := by
  rw [modEntry]
  split
  · rfl
  · next e he => rw [joinLink_self (h e he), putEntry_self he]

theorem links_only_join (l : LinkId) : (LinksSeen.only l).join l = LinksSeen.only l := by
  cases l
  · rfl
  · rfl

theorem joinLink_gathered (i : EntrySlot) (l : LinkId) (e : Entry) (inc : Incoming) (segs : List Segment) (s : State) :
    modEntry i (joinLink l) (gathered i e inc segs s) = s.setDir { s.dir with
      entries := s.dir.entries.set i (some { e with
        incoming := some inc
        links := e.links.join l
        changed := e.changed || decide (e.links.join l ≠ e.links) })
      segs := segs } := by
  have hat : (gathered i e inc segs s).entryAt i = some { e with incoming := some inc } := by
    simp [gathered, State.entryAt]
  rw [modEntry_some hat, State.putEntry, gathered]
  simp [joinLink, State.setDir]

/-! ### The start of a revision on a prepared entry (R92, R94, R106) -/

/-- The state `s` with the entry `e` in slot `i` and the segments `segs`. -/
def prepared (i : EntrySlot) (e : Entry) (segs : List Segment) (s : State) : State :=
  s.setDir { s.dir with entries := s.dir.entries.set i (some e), segs := segs }

theorem entryAt_prepared (i : EntrySlot) (e : Entry) (segs : List Segment) (s : State) (j : EntrySlot) :
    (prepared i e segs s).entryAt j = if i = j then some e else s.entryAt j :=
  State.entryAt_putEntry (s.setSegs segs) i j (some e)

theorem gathered_prepared (i : EntrySlot) (e e' : Entry) (inc : Incoming) (segs old : List Segment) (s : State)
    (h : ({ e' with incoming := some inc } : Entry) = { e with incoming := some inc }) :
    gathered i e' inc segs (prepared i e' old s) = gathered i e inc segs s := by
  simp [gathered, prepared, State.setDir, h]

/-- A revision started on the prepared entry, by its part count. -/
theorem startRevision_prepared {i : EntrySlot} {e e' : Entry} {old : List Segment} (p : Page) (g : Governing) (s : State)
    (hl : old.length < 160)
    (h : ∀ inc : Incoming, ({ e' with incoming := some inc } : Entry) = { e with incoming := some inc }) :
    startRevision i p g (prepared i e' old s) =
      if p.partCount = 1 then
        some (complete i g (gathered i e (startedRevision p g s.now) (old ++ [⟨i, .incoming, p.partIndex, p.text⟩]) s),
          .storedDone)
      else some (gathered i e (startedRevision p g s.now) (old ++ [⟨i, .incoming, p.partIndex, p.text⟩]) s,
        .storedMore) := by
  have hat : (prepared i e' old s).entryAt i = some e' := (entryAt_prepared i e' old s i).trans (if_pos rfl)
  rw [startRevision_free i p g e' _ hat hl, gathered_prepared i e e' _ _ _ s (h _)]
  rfl

/-- The page of a revision that starts, once its link is joined: the part stored, or the revision completed. -/
theorem joined_startRevision_prepared {i : EntrySlot} {e e' : Entry} {old : List Segment} (p : Page) (g : Governing)
    (s t : State) (hl : old.length < 160)
    (h : ∀ inc : Incoming, ({ e' with incoming := some inc } : Entry) = { e with incoming := some inc }) :
    (p.partCount ≠ 1 → joinUnlessFull i p (orFull t (startRevision i p g (prepared i e' old s))) =
      (s.setDir { s.dir with
        entries := s.dir.entries.set i (some { e with
          incoming := some (startedRevision p g s.now)
          links := e.links.join p.link
          changed := e.changed || decide (e.links.join p.link ≠ e.links) })
        segs := old ++ [⟨i, .incoming, p.partIndex, p.text⟩] }, .storedMore)) ∧
    (p.partCount = 1 → p.partIndex = 1 → e.state ≠ .cancelled → ∃ u,
      joinUnlessFull i p (orFull t (startRevision i p g (prepared i e' old s))) = (u, .storedDone) ∧
      CompletedBy i e p g (pageDescriptive p) (old ++ [⟨i, .incoming, p.partIndex, p.text⟩]) s u) := by
  rw [startRevision_prepared p g s hl h]
  refine ⟨fun hc => ?_, fun hc hp hs => ?_⟩
  · rw [if_neg hc, orFull, joinUnlessFull_joins (by simp), joinLink_gathered]
  · rw [if_pos hc, orFull, joinUnlessFull_joins (by simp)]
    exact ⟨_, rfl, completedBy_complete i e _ p g _ _ s hs (if_pos hp) rfl rfl⟩

section
variable {p : Page} {g : Governing} {i : EntrySlot} {e : Entry} {s : State}

theorem dropIncoming_eq (he : s.entryAt i = some e) : dropIncoming i s = prepared i { e with incoming := none }
    (s.dir.segs.filter (fun x => !(decide (x.slot = i) && decide (x.group = .incoming)))) s := by
  have hat : (releaseGroup i .incoming s).entryAt i = some e := he
  rw [dropIncoming, modEntry_some hat]
  rfl

theorem revive_eq (he : s.entryAt i = some e) :
    modEntry i (reviveEntry g s.now) s = prepared i (reviveEntry g s.now e) s.dir.segs s := by
  rw [modEntry_some he]
  rfl

theorem prepared_self (he : s.entryAt i = some e) : prepared i e s.dir.segs s = s := putEntry_self he

/-- The entry as a starting revision finds it: without its superseded parts. -/
theorem startOrRestart_eq (he : s.entryAt i = some e) : startOrRestart i e p g s =
    orFull s (startRevision i p g (prepared i { e with incoming := none }
      (if e.incoming.isSome then
        s.dir.segs.filter (fun x => !(decide (x.slot = i) && decide (x.group = .incoming))) else s.dir.segs) s)) := by
  rw [startOrRestart]
  cases hi : e.incoming with
  | none =>
    have hself : ({ e with incoming := none } : Entry) = e := by rw [← hi]
    rw [hself, if_neg (by simp), if_neg (by simp), prepared_self he]
  | some inc => rw [if_pos Option.isSome_some, if_pos Option.isSome_some, restartRevision, dropIncoming_eq he]

/-- An ISSUE newer than both revisions of a live entry starts a revision. -/
theorem workPage_newer (h : s.entryOfKey (pageKey p) = some (i, e)) (ha : p.action = .issue) (hc : e.cancel = none)
    (h1 : newerThan p.revision (e.current.map (·.revision)) = true)
    (h2 : newerThan p.revision (e.incoming.map (·.revision)) = true) :
    workPage p g s = joinUnlessFull i p (startOrRestart i e p g s) := by
  have hother : ∀ inc, e.incoming = some inc → p.revision ≠ inc.revision := by
    intro inc hi
    rw [hi] at h2
    exact newer_ne _ _ h2
  rw [workPage_hit h, workHit_issueLive i e p g s ha hc, issueAtLive_other i e p g s hother,
    if_neg (by simp [newerThan_not_same _ _ h1]), if_pos (by simp [h1, h2])]

/-- An ISSUE newer than a tombstone revives it. -/
theorem workPage_revives (h : s.entryOfKey (pageKey p) = some (i, e)) (ha : p.action = .issue) {k : CancelMark}
    (hc : e.cancel = some k) (hn : newer p.revision k.revision = true) :
    workPage p g s = joinUnlessFull i p
      (orFull s (startRevision i p g (prepared i (reviveEntry g s.now e) s.dir.segs s))) := by
  rw [workPage_hit h, workHit_issueTombstone i e p g s ha hc, issueAtTombstone, if_neg (newer_ne _ _ hn), if_pos hn,
    revive_eq (entryOfKey_spec h).1]

theorem allPartsPresent_joinPart {inc : Incoming} :
    allPartsPresent (joinPart p inc).parts (joinPart p inc).partCount = true ↔
      ∀ k, 1 ≤ k → k ≤ inc.partCount → k = p.partIndex ∨ k ∈ inc.parts := by
  rw [allPartsPresent_iff]
  simp [joinPart, or_comm]

/-- A part joins the revision under assembly, a segment free. -/
theorem storePart_free (he : s.entryAt i = some e) (hl : s.dir.segs.length < 160) {inc : Incoming}
    (hc : p.partCount = inc.partCount) (hp : p.partIndex ∉ inc.parts) : storePart i inc p g s =
      if allPartsPresent (joinPart p inc).parts (joinPart p inc).partCount then
        (complete i g (gathered i e (joinPart p inc) (s.dir.segs ++ [⟨i, .incoming, p.partIndex, p.text⟩]) s),
          .storedDone)
      else (gathered i e (joinPart p inc) (s.dir.segs ++ [⟨i, .incoming, p.partIndex, p.text⟩]) s, .storedMore) := by
  have htake : takeSegment i p.partIndex p.text g.cls s = some (putSegment i p.partIndex p.text s) := if_pos hl
  have hat : (putSegment i p.partIndex p.text s).entryAt i = some e := he
  rw [storePart_new i inc p g s hc hp, htake]
  show (if _ then _ else _) = _
  rw [modEntry_some hat]
  rfl

end

/-! ### A start of a revision that finds no segment (R76) -/

theorem full_orFull {s t : State} {r : Option (State × Disposition)}
    (hr : ∀ x, r = some x → x.2 ≠ .full) (i : EntrySlot) (p : Page) :
    joinUnlessFull i p (orFull s r) =
      if (joinUnlessFull i p (orFull t r)).2 = .full then (s, .full) else joinUnlessFull i p (orFull t r) := by
  rw [disposition_joinUnlessFull]
  cases r with
  | none => rw [orFull, orFull, if_pos rfl, joinUnlessFull_full rfl]
  | some x => exact (if_neg (hr x rfl)).symm

theorem startRevision_not_full {i : EntrySlot} {p : Page} {g : Governing} {s : State} (x : State × Disposition)
    (h : startRevision i p g s = some x) : x.2 ≠ .full := by
  rcases startRevision_stored h with hx | hx
  · simp [hx]
  · simp [hx]

/-- What a page finds at its key in a prepared state. -/
theorem entryOfKey_prepared {k : Key} {s : State} {i : EntrySlot} {e e' : Entry} {segs : List Segment}
    (h : s.entryOfKey k = some (i, e)) (hk : e'.key = e.key) : (prepared i e' segs s).entryOfKey k = some (i, e') := by
  obtain ⟨he, hek, hfirst⟩ := entryOfKey_some_iff.1 h
  refine entryOfKey_some_iff.2 ⟨(entryAt_prepared i e' segs s i).trans (if_pos rfl), hk.trans hek, fun j hj y hy => ?_⟩
  rw [entryAt_prepared, if_neg hj.ne'] at hy
  exact hfirst j hj y hy

/-- A page that starts a revision at a live entry without an incoming one. -/
theorem workPage_starts {p : Page} {g : Governing} {i : EntrySlot} {e : Entry} {w : State}
    (h : w.entryOfKey (pageKey p) = some (i, e)) (ha : p.action = .issue) (hc : e.cancel = none)
    (hi : e.incoming = none) (hn : newerThan p.revision (e.current.map (·.revision)) = true) :
    workPage p g w = joinUnlessFull i p (orFull w (startRevision i p g w)) := by
  rw [workPage_newer h ha hc hn (by rw [hi]; rfl), startOrRestart, hi, if_neg (by simp)]

/-- Worked on the prepared state, the page earns the same, but that FULL leaves the state before. -/
theorem workPage_or_full {p : Page} {g : Governing} {i : EntrySlot} {s w : State}
    (hstart : workPage p g w = joinUnlessFull i p (orFull w (startRevision i p g w))) :
    joinUnlessFull i p (orFull s (startRevision i p g w)) =
      if (workPage p g w).2 = .full then (s, .full) else workPage p g w := by
  rw [hstart]
  exact full_orFull startRevision_not_full i p

/-- Settles O60: each case is a start on a prepared entry, or a part that joins. -/
theorem partsAssembleIntoContent : Obligations.PartsAssembleIntoContent := by
  refine ⟨?_, fun p g i e s w h ha => ⟨fun hc hi h1 h2 hw => ?_, fun k hc hcur hinc hn hw => ?_⟩⟩
  · intro p g i e s part links fresh old h ha hl hpart hlinks hfresh hold
    subst hpart hlinks hfresh
    have he := (entryOfKey_spec h).1
    refine ⟨fun inc hc hi hr hcount hp => ?_, fun hc h1 h2 => ?_, fun k revived hc hn hrev => ?_⟩
    · have hwork : workPage p g s = joinUnlessFull i p (storePart i inc p g s) := by
        rw [workPage_hit h, workHit_issueLive i e p g s ha hc, issueAtLive_same i e p g s hi hr]
      rw [hwork, storePart_free he hl hcount hp]
      refine ⟨fun ⟨k, hk1, hk2, hk3, hk4⟩ => ?_, fun d hall hs hd => ?_⟩
      · rw [if_neg, joinUnlessFull_joins (by simp), joinLink_gathered]
        · rfl
        · rw [allPartsPresent_joinPart]
          exact fun hall => (hall k hk1 hk2).elim hk3 hk4
      · rw [if_pos (allPartsPresent_joinPart.2 hall), joinUnlessFull_joins (by simp)]
        exact ⟨_, rfl, completedBy_complete i e _ p g d _ s hs hd hr.symm hcount.symm⟩
    · have hlen : old.length < 160 := by
        rw [hold]
        split
        · exact lt_of_le_of_lt (List.length_filter_le _ _) hl
        · exact hl
      rw [workPage_newer h ha hc h1 h2, startOrRestart_eq he, ← hold]
      exact joined_startRevision_prepared p g s s hlen fun _ => rfl
    · subst hrev
      obtain ⟨hmore, hdone⟩ := joined_startRevision_prepared (e := reviveEntry g s.now e)
        (e' := reviveEntry g s.now e) p g s s hl fun _ => rfl
      rw [workPage_revives h ha hc hn]
      exact ⟨hmore, fun hcount hp => hdone hcount hp (by simp [reviveEntry])⟩
  · subst hw
    have he := (entryOfKey_spec h).1
    have hstart := workPage_starts (g := g) (entryOfKey_prepared (e' := { e with incoming := none })
      (segs := s.dir.segs.filter (fun x => !(decide (x.slot = i) && decide (x.group = .incoming)))) h rfl) ha hc rfl h1
    rw [workPage_newer h ha hc h1 h2, startOrRestart_eq he, if_pos (Option.isSome_iff_ne_none.2 hi)]
    exact workPage_or_full hstart
  · subst hw
    have hstart := workPage_starts (g := g) (entryOfKey_prepared (e' := reviveEntry g s.now e) (segs := s.dir.segs) h rfl)
      ha rfl hinc (by rw [show (reviveEntry g s.now e).current = none from hcur]; rfl)
    rw [workPage_revives h ha hc hn]
    exact workPage_or_full hstart

end Sys2Proof.Machine
end

section
/-! Pages that miss (R72, R73): the allocation of the lowest free slot, an ISSUE worked at the entry just begun, and
cancellations (R103 to R105). -/

namespace Sys2Proof.Machine

/-! ### Allocation (R73) -/

theorem lowestFreeEntry_none_iff (s : State) : s.lowestFreeEntry = none ↔ ∀ j, (s.entryAt j).isSome = true := by
  simp only [State.lowestFreeEntry, List.find?_eq_none, Bool.not_eq_true, Option.isNone_eq_false_iff]
  exact ⟨fun h j => h j (List.mem_finRange j), fun h j _ => h j⟩

theorem lowestFreeEntry_some_iff (s : State) (i : EntrySlot) :
    s.lowestFreeEntry = some i ↔ s.entryAt i = none ∧ ∀ j < i, (s.entryAt j).isSome = true := by
  have hsorted : entrySlotList.Pairwise (· < ·) := List.pairwise_lt_finRange 48
  rw [State.lowestFreeEntry, List.find?_eq_some_iff_append, Option.isNone_iff_eq_none]
  refine and_congr_right fun _ => ⟨?_, fun hfirst => ?_⟩
  · rintro ⟨before, after, hlist, hbefore⟩ j hj
    have hmem : j ∈ entrySlotList := List.mem_finRange j
    rw [hlist] at hmem hsorted
    rcases List.mem_append.1 hmem with h | h
    · simpa [Option.isSome_iff_ne_none] using hbefore j h
    · rcases List.mem_cons.1 h with rfl | h
      · exact absurd hj (lt_irrefl _)
      · exact absurd hj (List.rel_of_pairwise_cons (List.pairwise_append.1 hsorted).2.1 h).asymm
  · have hmem : i ∈ entrySlotList := List.mem_finRange i
    obtain ⟨before, after, hlist⟩ := List.append_of_mem hmem
    refine ⟨before, after, hlist, fun j hj => ?_⟩
    rw [hlist] at hsorted
    simpa [Option.isSome_iff_ne_none] using
      hfirst j ((List.pairwise_append.1 hsorted).2.2 j hj i List.mem_cons_self)

theorem allocate_free {s : State} {i : EntrySlot} (h : s.lowestFreeEntry = some i) (c : AlertClass) :
    allocate c s = some (i, bumpUse i s) := by
  rw [allocate, h]

/-- A new entry in a free slot (R63, R73). -/
theorem placeEntry_free {s : State} {i : EntrySlot} (h : s.entryAt i = none) (e : Entry) :
    placeEntry i e (bumpUse i s) = (s.allocated i).putEntry i (some e) := by
  have hocc : ((bumpUse i s).putEntry i (some e)).occupancy = s.occupancy + 1 := occupancy_putEntry (bumpUse i s) i e h
  rw [placeEntry, reportOccupancy, hocc]
  rfl

/-! ### What the start of a revision leaves of the links seen -/

/-- The entry of a slot has seen these links. -/
def HasLinks (i : EntrySlot) (x : LinksSeen) (j : EntrySlot) (e : Entry) : Prop := j = i → e.links = x

theorem receiptFree_hasLinks (i : EntrySlot) (x : LinksSeen) : ReceiptFree (HasLinks i x) := fun _ _ _ h hj => h hj

theorem requestFree_hasLinks (i : EntrySlot) (x : LinksSeen) : RequestFree (HasLinks i x) := fun _ _ h hj => h hj

/-- A change that keeps the links of every entry. -/
theorem hasLinks_modEntry {i j : EntrySlot} {x : LinksSeen} {s : State} (f : Entry → Entry)
    (hf : ∀ e, (f e).links = e.links) (q : s.everyEntry (HasLinks i x)) : (modEntry j f s).everyEntry (HasLinks i x) :=
  every_modEntry j f s (fun e _ h hj => (hf e).trans (h hj)) q

theorem hasLinks_raiseAlert {i : EntrySlot} {x : LinksSeen} {s : State} (q : s.everyEntry (HasLinks i x)) :
    (raiseAlert i s).everyEntry (HasLinks i x) :=
  every_raiseAlert i s (fun _ _ _ h => h) q

theorem hasLinks_presented {i : EntrySlot} {x : LinksSeen} {s : State} (q : s.everyEntry (HasLinks i x)) :
    (raiseAlert i (modEntry i presentEntry s)).everyEntry (HasLinks i x) :=
  hasLinks_raiseAlert (hasLinks_modEntry presentEntry (fun _ => rfl) q)

theorem hasLinks_heldOrPresented {i : EntrySlot} {x : LinksSeen} {s : State} (k : EventKind) (v : Option HoldReason)
    (q : s.everyEntry (HasLinks i x)) : (match v with
      | none => post k (raiseAlert i (modEntry i presentEntry s))
      | some h => modEntry i (fun e => holdEntry h s.now (resetReminders e)) s).everyEntry (HasLinks i x) := by
  cases v with
  | none => exact hasLinks_presented q
  | some h => exact hasLinks_modEntry _ (fun _ => rfl) q

theorem hasLinks_settleCompletion {i : EntrySlot} {x : LinksSeen} {s : State} (b : EntryState) (v : Verdict)
    (q : s.everyEntry (HasLinks i x)) : (settleCompletion i b v s).everyEntry (HasLinks i x) := by
  cases b with
  | assembling => exact hasLinks_heldOrPresented .newAlert v.hold q
  | active => exact every_retrigger i _ (fun _ _ _ h => h) (hasLinks_modEntry resetReminders (fun _ => rfl) q)
  | held => exact hasLinks_heldOrPresented .alertUpdated v.hold q
  | acknowledged => exact hasLinks_heldOrPresented .alertUpdated v.hold q
  | cancelled => exact q

theorem hasLinks_complete {i : EntrySlot} {x : LinksSeen} (g : Governing) {s : State} (q : s.everyEntry (HasLinks i x)) :
    (complete i g s).everyEntry (HasLinks i x) := by
  unfold complete
  split
  · exact q
  · split
    · exact q
    · split
      · exact q
      · exact hasLinks_settleCompletion _ _ (hasLinks_modEntry _ (fun _ => rfl)
          (s := promoteSegs i (releaseGroup i .current s)) q)

theorem hasLinks_startRevision {i : EntrySlot} {x : LinksSeen} {p : Page} {g : Governing} {s : State}
    {r : State × Disposition} (h : startRevision i p g s = some r) (q : s.everyEntry (HasLinks i x)) :
    r.1.everyEntry (HasLinks i x) := by
  unfold startRevision at h
  split at h
  · cases h
  · next t ht =>
    have htaken := every_takeSegment (receiptFree_hasLinks i x) (requestFree_hasLinks i x) _ _ _ _ _ _ ht q
    have hstarted : (modEntry i (fun e => { e with incoming := some (startedRevision p g t.now) }) t).everyEntry
        (HasLinks i x) := hasLinks_modEntry _ (fun _ => rfl) htaken
    dsimp only at h
    split at h
    · cases h
      exact hasLinks_complete g hstarted
    · cases h
      exact hstarted

/-! ### An ISSUE that misses (R72) -/

/-- The state in which an ISSUE that misses has begun its entry in slot `i`. -/
def begun (p : Page) (g : Governing) (i : EntrySlot) (s : State) : State :=
  (s.allocated i).putEntry i (some (begunEntry p g s.now))

section
variable {p : Page} {g : Governing} {i : EntrySlot} {s : State}

theorem entryAt_begun (j : EntrySlot) :
    (begun p g i s).entryAt j = if i = j then some (begunEntry p g s.now) else s.entryAt j :=
  State.entryAt_putEntry (s.allocated i) i j _

theorem entryOfKey_begun (h : s.entryOfKey (pageKey p) = none) :
    (begun p g i s).entryOfKey (pageKey p) = some (i, begunEntry p g s.now) := by
  refine entryOfKey_some_iff.2 ⟨(entryAt_begun i).trans (if_pos rfl), rfl, fun j hj y hy => ?_⟩
  rw [entryAt_begun, if_neg hj.ne'] at hy
  exact entryOfKey_none_iff.1 h j y hy

theorem begun_undone (hi : s.entryAt i = none) : (begun p g i s).putEntry i none = s.allocated i := by
  have hself : (s.allocated i).putEntry i none = s.allocated i := putEntry_self hi
  rw [← hself, begun]
  simp [State.putEntry, State.setDir]

theorem workMiss_issue (hf : s.lowestFreeEntry = some i) (ha : p.action = .issue) : workMiss p g s =
    (startRevision i p g (begun p g i s)).getD (s.allocated i, .full) := by
  have hi := lowestFreeEntry_free hf
  have hplace : placeEntry i (newEntry p g (bumpUse i s).now) (bumpUse i s) = begun p g i s := placeEntry_free hi _
  rw [workMiss, allocate_free hf]
  simp only [ha, hplace, begun_undone hi]
  cases startRevision i p g (begun p g i s) with
  | none => rfl
  | some r => rfl

/-- The page worked at the entry just begun. -/
theorem workPage_begun (h : s.entryOfKey (pageKey p) = none) (ha : p.action = .issue) : workPage p g (begun p g i s) =
    joinUnlessFull i p (orFull (begun p g i s) (startRevision i p g (begun p g i s))) :=
  workPage_starts (entryOfKey_begun h) ha rfl rfl rfl

/-- With a segment free the page is stored at the entry just begun, or completes it. -/
theorem workPage_begun_free (h : s.entryOfKey (pageKey p) = none) (ha : p.action = .issue)
    (hl : s.dir.segs.length < 160) :
    (p.partCount ≠ 1 → workPage p g (begun p g i s) =
      ((s.allocated i).setDir { (s.allocated i).dir with
        entries := (s.allocated i).dir.entries.set i (some { begunEntry p g s.now with
          incoming := some (startedRevision p g s.now)
          links := (begunEntry p g s.now).links.join p.link
          changed := true })
        segs := s.dir.segs ++ [⟨i, .incoming, p.partIndex, p.text⟩] }, .storedMore)) ∧
    (p.partCount = 1 → p.partIndex = 1 → ∃ u, workPage p g (begun p g i s) = (u, .storedDone) ∧
      CompletedBy i (begunEntry p g s.now) p g (pageDescriptive p)
        (s.dir.segs ++ [⟨i, .incoming, p.partIndex, p.text⟩]) (s.allocated i) u) := by
  obtain ⟨hmore, hdone⟩ := joined_startRevision_prepared (i := i) (e := begunEntry p g s.now)
    (e' := begunEntry p g s.now) p g (s.allocated i) (begun p g i s) hl fun _ => rfl
  rw [workPage_begun h ha]
  exact ⟨hmore, fun hc hp => hdone hc hp (by simp [begunEntry])⟩

/-- The entry just begun has seen the page's link already. -/
theorem joined_begun {r : State × Disposition} (hr : startRevision i p g (begun p g i s) = some r) :
    joinUnlessFull i p r = r := by
  have hlinks : r.1.everyEntry (HasLinks i (LinksSeen.only p.link)) := by
    refine hasLinks_startRevision hr fun j e he hj => ?_
    rw [hj, entryAt_begun, if_pos rfl] at he
    cases he
    rfl
  rw [joinUnlessFull_joins (startRevision_not_full r hr), modEntry_joinLink_self fun e he => ?_]
  rw [hlinks i e he rfl, links_only_join]

theorem workPage_missIssue (h : s.entryOfKey (pageKey p) = none) (hr : s.retiredRecord (pageKey p) = none)
    (hf : s.lowestFreeEntry = some i) (ha : p.action = .issue) : workPage p g s =
      if (workPage p g (begun p g i s)).2 = .full then (s.allocated i, .full) else workPage p g (begun p g i s) := by
  rw [workPage_miss h hr, workMiss_issue hf ha, workPage_begun h ha, disposition_joinUnlessFull]
  cases hstart : startRevision i p g (begun p g i s) with
  | none => exact (if_pos rfl).symm
  | some r =>
    rw [orFull, joined_begun hstart]
    exact (if_neg (startRevision_not_full r hstart)).symm

theorem takeSegment_none {t : State} (hl : 160 ≤ t.dir.segs.length) {part : Nat} {text : List Byte} {c : AlertClass}
    (hv : t.victim (fun v => !decide (v = i) && t.ownsSegment v) c = none) : takeSegment i part text c t = none := by
  rw [takeSegment, if_neg (Nat.not_lt.2 hl), hv]

theorem victim_begun (c : AlertClass) :
    (begun p g i s).victim (fun v => !decide (v = i) && (begun p g i s).ownsSegment v) c =
      s.victim (fun v => !decide (v = i) && s.ownsSegment v) c := by
  refine victim_congr c (fun _ => rfl) fun j hj => ?_
  rw [entryAt_begun, if_neg]
  rintro rfl
  simp at hj

/-- The texts of an entry of one part, in a slot that held none. -/
theorem texts_single {segs : List Segment} (h : ∀ x ∈ segs, x.slot ≠ i) (k : Nat) (text : List Byte) :
    ((segs ++ [(⟨i, .incoming, k, text⟩ : Segment)]).filter
        (fun x : Segment => !(decide (x.slot = i) && decide (x.group = .current)))).map
      (fun x : Segment => if x.slot = i then { x with group := .current } else x) = segs ++ [⟨i, .current, k, text⟩] := by
  have hkeep : segs.filter (fun x => !(decide (x.slot = i) && decide (x.group = .current))) = segs :=
    List.filter_eq_self.2 fun x hx => by simp [h x hx]
  have hsame : segs.map (fun x => if x.slot = i then { x with group := .current } else x) = segs :=
    (List.map_congr_left fun x hx => if_neg (h x hx)).trans (List.map_id segs)
  rw [List.filter_append, List.map_append, hkeep, hsame]
  simp

end

/-- Settles O36: the page is worked at the entry just begun, and O60's start of a revision says what that leaves. -/
theorem singlePartIssueCompletes : Obligations.SinglePartIssueCompletes := by
  refine ⟨?_, ?_, fun s => ⟨lowestFreeEntry_none_iff s, lowestFreeEntry_some_iff s⟩, fun p => ⟨rfl, rfl⟩, ?_⟩
  · intro p g i s h hr hf hslots hl ha hp hc
    obtain ⟨t, ht, hcompleted⟩ := (workPage_begun_free (i := i) (g := g) h ha hl).2 hc hp
    have hpage : workPage p g s = (t, .storedDone) := by
      rw [workPage_missIssue h hr hf ha, ht, if_neg (by simp)]
    have hwork : Work s t := by
      have h := work_workPage p g s
      rwa [hpage] at h
    have hother (j : EntrySlot) (hj : j ≠ i) : t.entryAt j = s.entryAt j := hcompleted.others j hj
    have htexts : t.dir.segs = s.dir.segs ++ [⟨i, .current, 1, p.text⟩] := by
      rw [hcompleted.texts, texts_single hslots, hp]
    have hstate : (begunEntry p g s.now).state ≠ .active := by simp [begunEntry]
    have hlinks : (begunEntry p g s.now).links.join p.link = LinksSeen.only p.link := links_only_join p.link
    cases hv : (s.decideArea p.region g.cls p.area).hold with
    | none =>
      obtain ⟨hat, hevents, hplay, hidle⟩ := hcompleted.presented hstate hv
      exact ⟨t, _, _, hpage, hat, rfl, rfl, rfl, rfl, rfl, rfl, hc, rfl, rfl, rfl, rfl, hlinks, rfl, hcompleted.useCounts,
        htexts, hother, hcompleted.receipts, hcompleted.area, hwork,
        fun _ => ⟨rfl, rfl, rfl, hevents, hplay, fun hi => State.selects_congr (hidle hi) rfl⟩, by simp⟩
    | some r =>
      obtain ⟨hat, hevents, harb⟩ := hcompleted.heldBack hstate r hv
      exact ⟨t, _, _, hpage, hat, rfl, rfl, rfl, rfl, rfl, rfl, hc, rfl, rfl, rfl, rfl, hlinks, rfl, hcompleted.useCounts,
        htexts, hother, hcompleted.receipts, hcompleted.area, hwork, by simp,
        fun x hx => ⟨rfl, hx, rfl, rfl, hevents, harb⟩⟩
  · intro p g i s h hr hf hl ha hc
    have hpage := workPage_missIssue (g := g) h hr hf ha
    rw [(workPage_begun_free h ha hl).1 hc, if_neg (by simp)] at hpage
    have hwork := work_workPage p g s
    rw [hpage] at hwork
    refine ⟨_, hpage, ?_, fun j hj => ?_, rfl, rfl, rfl, rfl, rfl, rfl, rfl, hwork⟩
    · exact (State.entryAt_putEntry_same ((s.allocated i).setSegs _) i _).trans (by simp [begunEntry, LinksSeen.join]; rfl)
    · exact (State.entryAt_putEntry ((s.allocated i).setSegs _) i j _).trans (if_neg (Ne.symm hj))
  · intro p g i s w h hr hf ha hw
    have hpage := workPage_missIssue (g := g) h hr hf ha
    rw [show w = begun p g i s from hw]
    refine ⟨entryOfKey_begun h, fun hne => hpage.trans (if_neg hne), fun hfull => hpage.trans (if_pos hfull),
      fun hl hv => hpage.trans (if_pos ?_)⟩
    have hsegs : (begun p g i s).dir.segs = s.dir.segs := rfl
    have htake : takeSegment i p.partIndex p.text g.cls (begun p g i s) = none := by
      refine takeSegment_none ?_ ?_
      · rw [hsegs]
        exact hl
      · rw [victim_begun]
        exact hv
    rw [workPage_begun h ha, disposition_joinUnlessFull, startRevision, htake]
    rfl

/-! ### Cancellations (R103 to R105) -/

section
variable {p : Page} {g : Governing} {i : EntrySlot} {e : Entry} {s : State}

/-- What the taking of a cancellation leaves in the slots. -/
theorem entryAt_takeCancel (j : EntrySlot) : (takeCancel i p g s).entryAt j =
    if i = j then (s.entryAt j).map (fun e => cancelEntry p g s.now (setRequest none e)) else s.entryAt j := by
  have hstep : (takeCancel i p g s).entryAt j =
      (modEntry i (cancelEntry p g s.now) (releaseAll i (dropRequest i s))).entryAt j := rfl
  have hrel : (releaseAll i (dropRequest i s)).entryAt j = (dropRequest i s).entryAt j := rfl
  rw [hstep, State.entryAt_modEntry, hrel, entryAt_dropRequest, State.entryAt_modEntry]
  by_cases hj : i = j
  · rw [if_pos hj, if_pos hj, if_pos hj, Option.map_map]
    rfl
  · rw [if_neg hj, if_neg hj, if_neg hj]

theorem arb_takeCancel : (takeCancel i p g s).arb = (dropRequest i s).arb := by
  show (modEntry i _ _).arb = _
  rw [State.arb_modEntry]
  rfl

theorem useCounts_takeCancel : (takeCancel i p g s).dir.useCounts = s.dir.useCounts := by
  show (modEntry i _ _).dir.useCounts = _
  rw [State.useCounts_modEntry]
  exact (requestWork_kept (requestWork_dropRequest i s)).2.1

theorem segs_takeCancel : (takeCancel i p g s).dir.segs = s.dir.segs.filter (fun x => !decide (x.slot = i)) := by
  show (modEntry i _ _).dir.segs = _
  rw [State.segs_modEntry, ← (requestWork_kept (requestWork_dropRequest i s)).1]
  rfl

/-- The selection made for the request that went stands with the tombstone. -/
theorem selects_takeCancel (he : s.entryAt i = some e) (hp : s.playsAt i = true) :
    s.selects (takeCancel i p g s) := by
  refine selects_of_same (selects_dropRequest i e s he hp) arb_takeCancel ?_ fun j => .inl ?_
  · rw [useCounts_takeCancel, (requestWork_kept (requestWork_dropRequest i s)).2.1]
  · rw [entryAt_takeCancel, entryAt_dropRequest, State.entryAt_modEntry]
    split
    · rw [Option.map_map, Option.map_map]
      rfl
    · rfl

theorem workPage_cancels (h : s.entryOfKey (pageKey p) = some (i, e)) (ha : p.action = .cancel) (hc : e.cancel = none)
    (h1 : newerThan p.revision (e.current.map (·.revision)) = true)
    (h2 : newerThan p.revision (e.incoming.map (·.revision)) = true) :
    workPage p g s = (modEntry i (joinLink p.link) (takeCancel i p g s), .storedDone) := by
  rw [workPage_hit h, workHit_cancelLive i e p g s ha hc, cancelAtLive_eq,
    if_neg (by simp [newerThan_not_same _ _ h1, newerThan_not_same _ _ h2]), if_pos (by simp [h1, h2]),
    joinUnlessFull_joins (by simp)]

theorem workPage_renews (h : s.entryOfKey (pageKey p) = some (i, e)) (ha : p.action = .cancel) {k : CancelMark}
    (hc : e.cancel = some k) (hn : newer p.revision k.revision = true) : workPage p g s = (s.putEntry i (some { e with
      cancel := some ⟨p.revision, p.carrier⟩, links := e.links.join p.link, changed := true }), .storedDone) := by
  have he := (entryOfKey_spec h).1
  rw [workPage_hit h, workHit_cancelTombstone i e p g s ha hc, cancelAtTombstone, if_neg (newer_ne _ _ hn), if_pos hn,
    joinUnlessFull_joins (by simp), modEntry_modEntry, modEntry_some he]
  rfl

/-- A CANCEL that misses (R72). -/
theorem workMiss_cancel (hf : s.lowestFreeEntry = some i) (ha : p.action = .cancel) : workMiss p g s =
    (post .alertCancelled ((s.allocated i).putEntry i (some (newTombstone p g s.now))), .storedDone) := by
  have hplace : placeEntry i (newTombstone p g (bumpUse i s).now) (bumpUse i s) =
      (s.allocated i).putEntry i (some (newTombstone p g s.now)) := placeEntry_free (lowestFreeEntry_free hf) _
  rw [workMiss, allocate_free hf]
  simp only [ha, hplace]

end

/-- Settles O38: the three ways by `workPage_cancels`, `workPage_renews` and `workMiss_cancel`. -/
theorem cancelMakesTombstone : Obligations.CancelMakesTombstone := by
  refine ⟨fun p g i e s h hc ha h1 h2 => ?_, fun p g i e k s h hc ha hn => workPage_renews h ha hc hn,
    fun p g i s h hr hf ha => ?_⟩
  · have he := (entryOfKey_spec h).1
    have hpage := workPage_cancels (g := g) h ha hc h1 h2
    have hwork := work_workPage p g s
    rw [hpage] at hwork
    obtain ⟨-, -, hretired, hrcpt, harea, -⟩ := requestWork_kept (requestWork_dropRequest i s)
    refine ⟨_, hpage, ?_, fun j hj => ?_, ?_, ?_, ?_, ?_, ?_, ?_, fun hp => ?_, fun hp => ?_, hwork⟩
    · rw [State.entryAt_modEntry_same, entryAt_takeCancel, if_pos rfl, he]
      rfl
    · rw [State.entryAt_modEntry, if_neg (Ne.symm hj), entryAt_takeCancel, if_neg (Ne.symm hj)]
    · rw [State.useCounts_modEntry, useCounts_takeCancel]
    · rw [State.segs_modEntry, segs_takeCancel]
    · rw [State.retired_modEntry]
      show (modEntry i _ _).dir.retired = _
      rw [State.retired_modEntry]
      exact hretired
    · rw [State.rcpt_modEntry]
      show (modEntry i _ _).rcpt = _
      rw [State.rcpt_modEntry]
      exact hrcpt
    · rw [State.area_modEntry]
      show (modEntry i _ _).area = _
      rw [State.area_modEntry]
      exact harea
    · rw [State.host_modEntry]
      exact holds_post .alertCancelled _
    · rw [State.arb_modEntry, arb_takeCancel, arb_dropRequest i s hp]
    · exact selects_joinLink i p.link _ (selects_takeCancel he hp)
  · have hpage := (workPage_miss (g := g) h hr).trans (workMiss_cancel hf ha)
    have hwork := work_workPage p g s
    rw [hpage] at hwork
    refine ⟨_, newTombstone p g s.now, hpage, ?_, rfl, rfl, rfl, rfl, rfl, rfl, rfl, rfl, rfl, rfl, rfl, rfl, rfl, rfl, rfl,
      fun j hj => ?_, rfl, rfl, rfl, rfl, rfl, rfl, rfl, rfl, hwork⟩
    · rw [entryAt_post, State.entryAt_putEntry_same]
    · rw [entryAt_post, State.entryAt_putEntry, if_neg (Ne.symm hj)]
      rfl

end Sys2Proof.Machine
end

section
/-! Entries leaving the directory (R83 to R86) and the eviction order (R73 to R78, Table 23). -/

namespace Sys2Proof.Machine

/-! ### Entries kept but for receipts -/

theorem fields_of_butReceipt {x y : Entry} (h : x.butReceipt = y.butReceipt) :
    x.key = y.key ∧ x.current = y.current ∧ x.incoming = y.incoming ∧ x.cancel = y.cancel := by
  have hkey := congrArg Entry.key h
  have hcurrent := congrArg Entry.current h
  have hincoming := congrArg Entry.incoming h
  have hcancel := congrArg Entry.cancel h
  exact ⟨hkey, hcurrent, hincoming, hcancel⟩

/-- The entry that another slot held before. -/
theorem othersKept_back {i j : EntrySlot} {s t : State} (h : othersKept i s t) (hj : j ≠ i) {y : Entry}
    (hy : t.entryAt j = some y) : ∃ x, s.entryAt j = some x ∧ y.butReceipt = x.butReceipt := by
  have hk := h j hj
  rw [hy, Option.map_some, eq_comm, Option.map_eq_some_iff] at hk
  obtain ⟨x, hx, heq⟩ := hk
  exact ⟨x, hx, heq.symm⟩

/-- The entry that another slot still holds. -/
theorem othersKept_forth {i j : EntrySlot} {s t : State} (h : othersKept i s t) (hj : j ≠ i) {x : Entry}
    (hx : s.entryAt j = some x) : ∃ y, t.entryAt j = some y ∧ y.butReceipt = x.butReceipt := by
  have hk := h j hj
  rw [hx, Option.map_some, Option.map_eq_some_iff] at hk
  exact hk

/-- An identity that no other slot holds is missed once its slot is free. -/
theorem entryOfKey_gone {i : EntrySlot} {s t : State} {k : Key} (h : othersKept i s t) (hi : t.entryAt i = none)
    (hk : ∀ j y, j ≠ i → s.entryAt j = some y → y.key ≠ k) : t.entryOfKey k = none := by
  refine entryOfKey_none_iff.2 fun j y hy => ?_
  have hj : j ≠ i := by
    rintro rfl
    exact absurd (hi.symm.trans hy) (by simp)
  obtain ⟨x, hx, heq⟩ := othersKept_back h hj hy
  rw [(fields_of_butReceipt heq).1]
  exact hk j x hj hx

/-! ### Expiry (R83, R84) -/

theorem exec_expiry {i : EntrySlot} {e : Entry} {x : Nat} {s : State} (he : s.entryAt i = some e)
    (hx : e.expiry = some x) : exec (.expiry i) s = .next (if x ≤ s.now then expireEntry i s else s) := by
  show Host.Outcome.next _ = _
  rw [he]
  simp [hx]

/-- The state whose entry leaves in an expiry: the entry retired, all else as before. -/
theorem retireEntry_kept (i : EntrySlot) (d : Option Discarded) (s : State) :
    (retireEntry i d s).rcpt = s.rcpt ∧ (retireEntry i d s).arb = s.arb ∧ (retireEntry i d s).now = s.now ∧
    (retireEntry i d s).host = s.host ∧ (∀ l, (retireEntry i d s).link l = s.link l) ∧
    (retireEntry i d s).dir.useCounts = s.dir.useCounts ∧ (retireEntry i d s).dir.segs = s.dir.segs := by
  rw [retireEntry_spec]
  exact ⟨rfl, rfl, rfl, rfl, fun l => State.link_setDir s _ l, rfl, rfl⟩

theorem handleOf_retireEntry (i j : EntrySlot) (d : Option Discarded) (s : State) :
    (retireEntry i d s).handleOf j = s.handleOf j := by
  obtain ⟨-, -, -, -, -, huse, -⟩ := retireEntry_kept i d s
  simp only [State.handleOf, huse]

theorem playsAt_retireEntry (i j : EntrySlot) (d : Option Discarded) (s : State) :
    (retireEntry i d s).playsAt j = s.playsAt j := by
  obtain ⟨-, harb, -⟩ := retireEntry_kept i d s
  simp only [State.playsAt, harb, handleOf_retireEntry]

theorem recordGone_expireEntry (i : EntrySlot) (s : State) : RecordGone (s.handleOf i) s (expireEntry i s) := by
  have hgone := recordGone_departEntry i (retireEntry i (s.discardedAt i) s)
  obtain ⟨hrcpt, -, hnow, hhost, hlink, huse, -⟩ := retireEntry_kept i (s.discardedAt i) s
  rw [handleOf_retireEntry] at hgone
  exact hgone.congr hrcpt hlink hnow huse (fun j _ => entryAt_retireEntry _ _ _ _) rfl (by rw [hhost]) rfl (fun _ => rfl)
    (fun _ _ => rfl) rfl id

theorem retiredRevision_spec (e : Entry) : (e.state = .assembling → e.retiredRevision = none) ∧
    (e.state = .cancelled → e.retiredRevision = e.cancel.map (·.revision)) ∧
    (e.state ≠ .assembling → e.state ≠ .cancelled → e.retiredRevision = e.current.map (·.revision)) := by
  unfold Entry.retiredRevision
  cases e.state with
  | assembling => simp
  | active => simp
  | held => simp
  | acknowledged => simp
  | cancelled => simp

/-- The older retired records that an expiry leaves were there before. -/
theorem mem_olderRetired {q : List Retired} {y : Retired} (h : y ∈ if 64 ≤ q.length then q.drop 1 else q) : y ∈ q := by
  split at h
  · exact List.mem_of_mem_drop h
  · exact h

section
variable {p : Page} {g : Governing} {i : EntrySlot} {e : Entry} {s : State}

theorem have_live (h : s.entryOfKey (pageKey p) = some (i, e)) (hc : e.cancel = none) {c : Content}
    (hcur : e.current = some c) (hn : newer p.revision c.revision = true)
    (hd : (workPage p g s).2 = .haveAll ∨ (workPage p g s).2 = .havePart) :
    ∃ inc, e.incoming = some inc ∧ p.action = .issue ∧ p.revision = inc.revision ∧ p.partCount = inc.partCount ∧
      p.partIndex ∈ inc.parts := by
  have hnewer : newerThan p.revision (e.current.map (·.revision)) = true := by
    rw [hcur]
    exact hn
  have hnot := newerThan_not_same _ _ hnewer
  cases ha : p.action with
  | issue =>
    by_cases hsame : ∃ inc, e.incoming = some inc ∧ p.revision = inc.revision
    · obtain ⟨inc, hi, hr⟩ := hsame
      rw [issue_sameRevision h ha hc hi hr] at hd
      by_cases hcount : p.partCount = inc.partCount
      · by_cases hpart : p.partIndex ∈ inc.parts
        · exact ⟨inc, hi, rfl, hr, hcount, hpart⟩
        · rcases (stores_storePart i inc p g s hcount hpart).disposition with hs | hs | hs
          all_goals simp [hs] at hd
      · rw [storePart_conflict i inc p g s hcount] at hd
        simp at hd
    · obtain ⟨-, hstores, hstale⟩ := issue_otherRevision (g := g) h ha hc fun inc hi hr => hsame ⟨inc, hi, hr⟩
      cases hin : newerThan p.revision (e.incoming.map (·.revision)) with
      | true =>
        rcases hstores hnot ⟨hnewer, hin⟩ with hs | hs | hs
        all_goals simp [hs] at hd
      | false =>
        rw [hstale hnot (.inr hin)] at hd
        simp at hd
  | cancel =>
    obtain ⟨hconflict, hdone, hstale⟩ := cancel_live (g := g) h ha hc
    cases hin : newerThan p.revision (e.incoming.map (·.revision)) with
    | true =>
      rw [hdone ⟨hnewer, hin⟩] at hd
      simp at hd
    | false =>
      cases hs : sameAs p.revision (e.incoming.map (·.revision)) with
      | true =>
        rw [hconflict (.inr hs)] at hd
        simp at hd
      | false =>
        rw [hstale hnot hs (.inr hin)] at hd
        simp at hd

theorem have_tombstone (h : s.entryOfKey (pageKey p) = some (i, e)) {k : CancelMark} (hc : e.cancel = some k)
    (hd : (workPage p g s).2 = .haveAll ∨ (workPage p g s).2 = .havePart) : newer p.revision k.revision = false := by
  obtain ⟨-, hdone, hstores, -⟩ := page_tombstone (g := g) h hc
  cases hn : newer p.revision k.revision with
  | false => rfl
  | true =>
    cases ha : p.action with
    | issue =>
      rcases hstores hn ha with hs | hs | hs
      all_goals simp [hs] at hd
    | cancel =>
      rw [hdone hn ha] at hd
      simp at hd

/-- What a page that the entry answers repeats: the revision the entry retires with, or an older one, or a part of the
incoming revision (R84). -/
theorem repeats_of_have (hs : e.Shape) (ha : e.state ≠ .assembling) (h : s.entryOfKey (pageKey p) = some (i, e))
    (hd : (workPage p g s).2 = .haveAll ∨ (workPage p g s).2 = .havePart) :
    ∃ r, e.retiredRevision = some r ∧ (newer p.revision r = false ∨
      ∃ inc, e.incoming = some inc ∧ p.action = .issue ∧ p.revision = inc.revision ∧ p.partCount = inc.partCount ∧
        p.partIndex ∈ inc.parts) := by
  obtain ⟨-, htomb, hlive⟩ := retiredRevision_spec e
  cases hc : e.cancel with
  | some k =>
    have hstate : e.state = .cancelled := by
      have hcancel := hs.cancel
      rw [hc] at hcancel
      exact of_decide_eq_true hcancel.symm
    exact ⟨k.revision, by rw [htomb hstate, hc]; rfl, .inl (have_tombstone h hc hd)⟩
  | none =>
    have hstate : e.state ≠ .cancelled := by
      have hcancel := hs.cancel
      rw [hc] at hcancel
      exact of_decide_eq_false hcancel.symm
    have hcomplete : e.state.complete = true := by
      cases hst : e.state with
      | assembling => exact absurd hst ha
      | active => rfl
      | held => rfl
      | acknowledged => rfl
      | cancelled => exact absurd hst hstate
    obtain ⟨c, hcur⟩ := Option.isSome_iff_exists.1 (hs.current.trans hcomplete)
    refine ⟨c.revision, by rw [hlive ha hstate, hcur]; rfl, ?_⟩
    cases hn : newer p.revision c.revision with
    | false => exact .inl rfl
    | true => exact .inr (have_live h hc hcur hn hd)

/-- In the moment of the expiry such a page earns HAVE-ALL after it too (R84). -/
theorem workPage_expired (hs : e.Shape) (ha : e.state ≠ .assembling) (h : s.entryOfKey (pageKey p) = some (i, e))
    (hkey : ∀ j y, s.entryAt j = some y → y.key = e.key → j = i) (hret : ∀ y ∈ s.dir.retired, y.key ≠ e.key)
    (hd : (workPage p g s).2 = .haveAll ∨ (workPage p g s).2 = .havePart) :
    workPage p g (expireEntry i s) = (expireEntry i s, .haveAll) := by
  obtain ⟨he, hk⟩ := entryOfKey_spec h
  obtain ⟨r, hr, hrep⟩ := repeats_of_have hs ha h hd
  have hretired := retired_expireEntry i e r s he hr
  have hnone : (expireEntry i s).entryOfKey (pageKey p) = none := by
    refine entryOfKey_gone (i := i) (s := s) (fun j hj => ?_) (entryAt_departEntry i _) fun j y hj hy hky => ?_
    · have hkept := othersKept_departEntry i (retireEntry i (s.discardedAt i) s) j hj
      rwa [entryAt_retireEntry] at hkept
    · exact hj (hkey j y hy (hky.trans hk.symm))
  have hfound := retiredRecord_last (expireEntry i s) _ _ hretired fun y hy => hret y (mem_olderRetired hy)
  rw [hk] at hfound
  refine workPage_retired_kept hnone hfound (hrep.imp_right fun ⟨inc, hi, hact, hrev, hcount, hpart⟩ => ?_)
  refine (repeatsDiscarded_iff _ p _).2 ⟨⟨inc.revision, inc.partCount, inc.parts, s.now⟩, ?_, ?_, hact, hrev, hcount, hpart⟩
  · rw [hi]
    rfl
  · exact (work_expireEntry i s).now.symm

end

/-- Settles O31: the expiry is `departEntry` after a retirement; the page that repeats it by `workPage_expired`. -/
theorem expiryRemovesEntry : Obligations.ExpiryRemovesEntry := by
  intro i e x s he hx
  refine ⟨fun hle => ⟨expireEntry i s, ?_, ?_⟩, fun hlt => ?_⟩
  · rw [exec_expiry he hx, if_pos hle]
  · have he' : (retireEntry i (s.discardedAt i) s).entryAt i = some e := by
      rw [entryAt_retireEntry]
      exact he
    obtain ⟨huse, hsegs, hretired, hremoved, harb, hsel, hrcpt⟩ := departEntry_spec i e _ he'
    obtain ⟨krcpt, karb, -, -, -, kuse, ksegs⟩ := retireEntry_kept i (s.discardedAt i) s
    rw [playsAt_retireEntry] at harb hsel
    rw [krcpt, handleOf_retireEntry] at hrcpt
    have hgone := recordGone_expireEntry i s
    obtain ⟨hasm, hcan, hliv⟩ := retiredRevision_spec e
    refine ⟨entryAt_departEntry i _, fun j hj => ?_, huse.trans kuse, hsegs.trans (by rw [ksegs]),
      fun r hr => retired_expireEntry i e r s he hr, fun hr => hretired.trans ?_, hasm, hcan, hliv, hremoved,
      fun hp => (harb hp).trans karb, fun hp => State.selects_congr (hsel hp) (by rw [karb]), hrcpt, hgone,
      fun r hr hu => ?_, work_expireEntry i s, fun p g hs h hkey hret hd => ?_⟩
    · have hkept := othersKept_departEntry i (retireEntry i (s.discardedAt i) s) j hj
      rwa [entryAt_retireEntry] at hkept
    · rw [retireEntry, he]
      simp only [hr]
    · obtain ⟨hid, -, hdone, -⟩ := hgone.failed r hr hu
      exact ⟨hid, hdone⟩
    · refine workPage_expired hs (fun hstate => ?_) h hkey hret hd
      have hexp := hs.expiry
      rw [hx, hstate] at hexp
      simp at hexp
  · rw [exec_expiry he hx, if_neg (Nat.not_le.2 hlt)]

/-! ### The assembly deadline (R85, R86) -/

theorem exec_assemblyDeadline {i : EntrySlot} {e : Entry} {r : Incoming} {s : State} (he : s.entryAt i = some e)
    (hi : e.incoming = some r) (hle : r.deadline ≤ s.now) : exec (.assemblyDeadline i) s =
      .next (if e.state = .assembling then departEntry i s else dropIncoming i s) := by
  show Host.Outcome.next _ = _
  rw [he]
  simp [hi, hle]

/-- Settles O32. -/
theorem assemblyDeadlineDiscardsOrDrops : Obligations.AssemblyDeadlineDiscardsOrDrops := by
  intro i e r s he hi hle
  refine ⟨fun hs => ⟨departEntry i s, ?_, entryAt_departEntry i s, othersKept_departEntry i s, ?_⟩, fun hs => ?_⟩
  · rw [exec_assemblyDeadline he hi hle, if_pos hs]
  · obtain ⟨huse, hsegs, hretired, hremoved, harb, hsel, hrcpt⟩ := departEntry_spec i e s he
    exact ⟨huse, hsegs, hretired, hremoved, harb, hsel, hrcpt, recordGone_departEntry i s, work_departEntry i s⟩
  · rw [exec_assemblyDeadline he hi hle, if_neg hs, dropIncoming_eq he]
    rfl

end Sys2Proof.Machine
end

section
/-! Eviction for a page (R73 to R78): what a victim is, and that a page which needs room is worked as one that finds the room
the victim left. -/

namespace Sys2Proof.Machine

/-! ### The victim (R74, Table 23) -/

theorem num_pos (c : AlertClass) : 1 ≤ c.num := by
  cases c <;> decide

theorem candidateFor_evictable {page : AlertClass} {e : Entry} {x : Nat × Nat} (h : e.candidateFor page = some x) :
    e.cls ≠ .national ∧ (e.state = .cancelled ∨ (e.state = .acknowledged ∧ e.receipt ≠ .queued ∧ e.receipt ≠ .offered) ∨
      e.state = .held ∨ (e.state = .assembling ∧ page.num < e.cls.num)) := by
  unfold Entry.candidateFor at h
  cases hs : e.state with
  | assembling =>
    simp only [hs] at h
    split at h
    · next hnum =>
      refine ⟨fun hc => ?_, .inr (.inr (.inr ⟨rfl, hnum⟩))⟩
      have hone : e.cls.num = 1 := by rw [hc]; rfl
      have hpos := num_pos page
      omega
    · cases h
  | active => simp [hs] at h
  | held =>
    simp only [hs] at h
    split at h
    · cases h
    · next hc => exact ⟨hc, .inr (.inr (.inl rfl))⟩
  | acknowledged =>
    simp only [hs] at h
    split at h
    · cases h
    · next hc =>
      simp only [not_or] at hc
      exact ⟨hc.1, .inr (.inl ⟨rfl, hc.2⟩)⟩
  | cancelled =>
    simp only [hs] at h
    split at h
    · cases h
    · next hc => exact ⟨hc, .inl rfl⟩

theorem candidateFor_none {page : AlertClass} {e : Entry} (h : e.candidateFor page = none) :
    e.state = .active ∨ (e.state = .assembling ∧ e.cls.num ≤ page.num) ∨ e.cls = .national ∨
      (e.state = .acknowledged ∧ (e.receipt = .queued ∨ e.receipt = .offered)) := by
  unfold Entry.candidateFor at h
  cases hs : e.state with
  | assembling =>
    simp only [hs] at h
    split at h
    · cases h
    · next hnum => exact .inr (.inl ⟨rfl, Nat.not_lt.1 hnum⟩)
  | active => exact .inl rfl
  | held =>
    simp only [hs] at h
    split at h
    · next hc => exact .inr (.inr (.inl hc))
    · cases h
  | acknowledged =>
    simp only [hs] at h
    split at h
    · next hc =>
      rcases hc with hc | hc
      · exact .inr (.inr (.inl hc))
      · exact .inr (.inr (.inr ⟨rfl, hc⟩))
    · cases h
  | cancelled =>
    simp only [hs] at h
    split at h
    · next hc => exact .inr (.inr (.inl hc))
    · cases h

theorem candidateFor_cancelled (page : AlertClass) {e : Entry} (h : e.state = .cancelled) (hc : e.cls ≠ .national) :
    e.candidateFor page = some (1, e.restingAt.getD 0) := by
  unfold Entry.candidateFor
  rw [h]
  exact if_neg hc

/-- A victim is a candidate at the first step that has one, the earliest there, of equal ones the lowest slot. -/
theorem victim_spec {s : State} {may : EntrySlot → Bool} {page : AlertClass} {v : EntrySlot}
    (h : s.victim may page = some v) : ∃ x k a, may v = true ∧ s.entryAt v = some x ∧
      x.candidateFor page = some (k, a) ∧ ∀ j y m b, may j = true → s.entryAt j = some y →
        y.candidateFor page = some (m, b) → k < m ∨ (k = m ∧ (a < b ∨ (a = b ∧ v ≤ j))) := by
  rcases victim_cases s may page with ⟨hn, -⟩ | ⟨v', x, k, a, hv, hmay, hx, hcand, hmin⟩
  · exact absurd (hn.symm.trans h) (by simp)
  · obtain rfl : v' = v := Option.some_inj.1 (hv.symm.trans h)
    exact ⟨x, k, a, hmay, hx, hcand, hmin⟩

theorem victim_none_iff (s : State) (may : EntrySlot → Bool) (page : AlertClass) : s.victim may page = none ↔
    ∀ j y, may j = true → s.entryAt j = some y → y.candidateFor page = none := by
  rcases victim_cases s may page with ⟨hn, hnone⟩ | ⟨v, x, k, a, hv, hmay, hx, hcand, -⟩
  · exact ⟨fun _ => hnone, fun _ => hn⟩
  · refine ⟨fun h => absurd (h.symm.trans hv) (by simp), fun h => ?_⟩
    exact absurd ((h v x hmay hx).symm.trans hcand) (by simp)

/-! ### A slot for a page that misses (R73, R75) -/

/-- What an eviction did stands with whatever keeps the retired list, the events and the count. -/
theorem Evicted.after {v : EntrySlot} {x : Entry} {s u t : State} (h : Evicted v x s u)
    (hret : t.dir.retired = u.dir.retired)
    (hrem : EventSet.holds u.host.events .entryRemoved = true → EventSet.holds t.host.events .entryRemoved = true)
    (hcount : t.host.cntG.evictions = u.host.cntG.evictions) (hwork : Work u t) : EvictedFor v x s t where
  retired := hret.trans h.retired
  removed := hrem h.removed
  counted := hcount.trans h.counted
  work := h.work.trans hwork

theorem Evicted.mem_retired {v : EntrySlot} {x : Entry} {s u : State} (h : Evicted v x s u) {y : Retired}
    (hy : y ∈ u.dir.retired) : y ∈ s.dir.retired ∨ y.key = x.key := by
  rw [h.retired] at hy
  split at hy
  · exact .inl hy
  · rcases List.mem_append.1 hy with hy | hy
    · exact .inl (mem_olderRetired hy)
    · rw [List.mem_singleton.1 hy]
      exact .inr rfl

section
variable {p : Page} {g : Governing} {s u : State} {v : EntrySlot} {x : Entry}

/-- A page that missed misses still after the eviction. -/
theorem Evicted.misses (h : Evicted v x s u) (hx : s.entryAt v = some x) (hk : s.entryOfKey (pageKey p) = none)
    (hr : s.retiredRecord (pageKey p) = none) :
    u.entryOfKey (pageKey p) = none ∧ u.retiredRecord (pageKey p) = none := by
  have hkeys := entryOfKey_none_iff.1 hk
  refine ⟨entryOfKey_gone h.others h.free fun j y _ => hkeys j y, retiredRecord_none_iff.2 fun y hy => ?_⟩
  rcases h.mem_retired hy with hy | hy
  · exact retiredRecord_none_iff.1 hr y hy
  · rw [hy]
    exact hkeys v x hx

theorem Evicted.lowestFree (h : Evicted v x s u) (hfull : ∀ j, (s.entryAt j).isSome = true) :
    u.lowestFreeEntry = some v := by
  refine (lowestFreeEntry_some_iff u v).2 ⟨h.free, fun j hj => ?_⟩
  obtain ⟨y, hy⟩ := Option.isSome_iff_exists.1 (hfull j)
  obtain ⟨z, hz, -⟩ := othersKept_forth h.others hj.ne hy
  rw [hz]
  rfl

theorem workMiss_full (hfull : ∀ j, (s.entryAt j).isSome = true) (hv : s.victim (fun _ => true) g.cls = none) :
    workMiss p g s = (s, .full) := by
  rw [workMiss, allocate, lowestFreeEntry_full hfull, hv]

/-- With a victim the page is worked in the room it leaves. -/
theorem workMiss_evicts (hfull : ∀ j, (s.entryAt j).isSome = true) (hv : s.victim (fun _ => true) g.cls = some v)
    (hx : s.entryAt v = some x) : workMiss p g s = workMiss p g (evict v s) := by
  have hs : allocate g.cls s = some (v, bumpUse v (evict v s)) := by
    rw [allocate, lowestFreeEntry_full hfull, hv]
  have hu := allocate_free ((evicted_evict v x s hx).lowestFree hfull) g.cls
  simp only [workMiss, hs, hu]

theorem workPage_evicts (hk : s.entryOfKey (pageKey p) = none) (hr : s.retiredRecord (pageKey p) = none)
    (hfull : ∀ j, (s.entryAt j).isSome = true) (hv : s.victim (fun _ => true) g.cls = some v)
    (hx : s.entryAt v = some x) : workPage p g s = workPage p g (evict v s) := by
  obtain ⟨hk', hr'⟩ := (evicted_evict v x s hx).misses hx hk hr
  rw [workPage_miss hk hr, workPage_miss hk' hr', workMiss_evicts hfull hv hx]

/-- What the page leaves in the room of the victim, when it completes nothing. -/
theorem workPage_inRoom (h : Evicted v x s u) (hk : u.entryOfKey (pageKey p) = none)
    (hr : u.retiredRecord (pageKey p) = none) (hf : u.lowestFreeEntry = some v) (hl : s.dir.segs.length < 160)
    (hp : p.action = .cancel ∨ p.partCount ≠ 1) : ∃ (t : State) (e : Entry), (workPage p g u).1 = t ∧
      (workPage p g u).2 ≠ .full ∧ EvictedFor v x s t ∧ t.entryAt v = some e ∧ e.key = pageKey p ∧
      t.dir.useCounts = s.dir.useCounts.set v (s.dir.useCounts[v] + 1#8) ∧ othersKept v s t ∧
      (∀ y ∈ s.dir.segs, y.slot ≠ v → y ∈ t.dir.segs) ∧
      t.dir.segs.length ≤ (s.dir.segs.filter (fun y => !decide (y.slot = v))).length + 1 := by
  have hothers {t : State} (ht : ∀ j, j ≠ v → t.entryAt j = u.entryAt j) : othersKept v s t := by
    intro j hj
    rw [ht j hj]
    exact h.others j hj
  have hkept (y : Segment) (hy : y ∈ s.dir.segs) (hne : y.slot ≠ v) : y ∈ u.dir.segs := by
    rw [h.segs]
    exact List.mem_filter.2 ⟨hy, by simpa using hne⟩
  by_cases ha : p.action = .cancel
  · obtain ⟨t, e, ht, he, -, hkey, -, -, -, -, -, -, -, -, -, -, -, -, -, hoth, huse, hsegs, hret, hev, hcnt, -, -, -,
      hwork⟩ := cancelMakesTombstone.2.2 p g v u hk hr hf ha
    rw [ht]
    refine ⟨t, e, rfl, by simp, h.after hret (fun hrem => ?_) (by rw [hcnt]) hwork, he, hkey, ?_, hothers hoth,
      fun y hy hne => ?_, ?_⟩
    · rw [hev]
      exact (holds_events_post _ _ _).2 (.inr hrem)
    · rw [huse, h.useCounts]
    · rw [hsegs]
      exact hkept y hy hne
    · rw [hsegs, h.segs]
      exact Nat.le_succ _
  · have hissue : p.action = .issue := by
      cases hact : p.action with
      | issue => rfl
      | cancel => exact absurd hact ha
    have hlu : u.dir.segs.length < 160 := by
      rw [h.segs]
      exact lt_of_le_of_lt (List.length_filter_le _ _) hl
    obtain ⟨t, ht, he, hoth, huse, hsegs, hret, hhost, -, -, -, hwork⟩ :=
      singlePartIssueCompletes.2.1 p g v u hk hr hf hlu hissue (hp.resolve_left ha)
    rw [ht]
    refine ⟨t, _, rfl, by simp, h.after hret (fun hrem => ?_) (by rw [hhost]) hwork, he, rfl, ?_, hothers hoth,
      fun y hy hne => ?_, ?_⟩
    · rw [hhost]
      exact hrem
    · rw [huse, h.useCounts]
    · rw [hsegs]
      exact List.mem_append_left _ (hkept y hy hne)
    · rw [hsegs, h.segs, List.length_append, List.length_singleton]

end

/-! ### A segment for a part (R78) -/

section
variable {p : Page} {g : Governing} {i v : EntrySlot} {e x : Entry} {s u : State}

theorem takeSegment_evicts (hl : 160 ≤ s.dir.segs.length) {c : AlertClass} (part : Nat) (text : List Byte)
    (hv : s.victim (fun j => !decide (j = i) && s.ownsSegment j) c = some v) :
    takeSegment i part text c s = some (putSegment i part text (evict v s)) := by
  rw [takeSegment, if_neg (Nat.not_lt.2 hl), hv]

theorem takeSegment_free (hl : s.dir.segs.length < 160) (c : AlertClass) (part : Nat) (text : List Byte) :
    takeSegment i part text c s = some (putSegment i part text s) :=
  if_pos hl

/-- A victim for a segment is not the receiving entry, and its segments go. -/
theorem segmentVictim {c : AlertClass} (hv : s.victim (fun j => !decide (j = i) && s.ownsSegment j) c = some v) :
    v ≠ i ∧ (s.dir.segs.filter (fun y => !decide (y.slot = v))).length < s.dir.segs.length := by
  obtain ⟨-, -, -, hmay, -⟩ := victim_spec hv
  simp only [Bool.and_eq_true, Bool.not_eq_true', decide_eq_false_iff_not, State.ownsSegment, List.any_eq_true,
    decide_eq_true_iff] at hmay
  obtain ⟨hne, y, hy, hslot⟩ := hmay
  exact ⟨hne, List.length_filter_lt_length_iff_exists.2 ⟨y, hy, by simp [hslot]⟩⟩

/-- The page's entry once another entry has left: the same but for its receipt. -/
theorem Evicted.finds (h : Evicted v x s u) (hne : v ≠ i) {k : Key} (hk : s.entryOfKey k = some (i, e)) :
    ∃ e', u.entryOfKey k = some (i, e') ∧ e'.butReceipt = e.butReceipt := by
  obtain ⟨he, hek, hfirst⟩ := entryOfKey_some_iff.1 hk
  obtain ⟨e', he', heq⟩ := othersKept_forth h.others hne.symm he
  refine ⟨e', entryOfKey_some_iff.2 ⟨he', (fields_of_butReceipt heq).1.trans hek, fun j hj y hy => ?_⟩, heq⟩
  have hjv : j ≠ v := by
    rintro rfl
    exact absurd (h.free.symm.trans hy) (by simp)
  obtain ⟨z, hz, hzeq⟩ := othersKept_back h.others hjv hy
  rw [(fields_of_butReceipt hzeq).1]
  exact hfirst j hj z hz

/-- A part that joins takes its segment from where it finds one. -/
theorem storePart_congr {inc : Incoming} (hc : p.partCount = inc.partCount) (hp : p.partIndex ∉ inc.parts)
    {t : State} (hs : takeSegment i p.partIndex p.text g.cls s = some t)
    (hu : takeSegment i p.partIndex p.text g.cls u = some t) : storePart i inc p g s = storePart i inc p g u := by
  rw [storePart_new i inc p g s hc hp, storePart_new i inc p g u hc hp, hs, hu]
  rfl

theorem startRevision_congr (h : takeSegment i p.partIndex p.text g.cls s = takeSegment i p.partIndex p.text g.cls u) :
    startRevision i p g s = startRevision i p g u := by
  rw [startRevision, startRevision, h]

theorem orFull_congr {t : State} (hs : takeSegment i p.partIndex p.text g.cls s = some t)
    (hu : takeSegment i p.partIndex p.text g.cls u = some t) :
    orFull s (startRevision i p g s) = orFull u (startRevision i p g u) := by
  have hstart : ∃ r, startRevision i p g u = some r := by
    rw [startRevision, hu]
    dsimp only
    split
    · exact ⟨_, rfl⟩
    · exact ⟨_, rfl⟩
  obtain ⟨r, hr⟩ := hstart
  rw [startRevision_congr (hs.trans hu.symm), hr]
  rfl

/-- The page joins a part of the revision under assembly. -/
theorem workPage_part (hk : s.entryOfKey (pageKey p) = some (i, e)) (hc : e.cancel = none) (ha : p.action = .issue)
    {inc : Incoming} (hi : e.incoming = some inc) (hr : p.revision = inc.revision) :
    workPage p g s = joinUnlessFull i p (storePart i inc p g s) := by
  rw [workPage_hit hk, workHit_issueLive i e p g s ha hc, issueAtLive_same i e p g s hi hr]

/-- A page that needs a segment, and finds none: by the two ways it can need one. -/
theorem workPage_noSegment (hk : s.entryOfKey (pageKey p) = some (i, e)) (hc : e.cancel = none) (ha : p.action = .issue)
    (hneed : (∃ inc, e.incoming = some inc ∧ p.revision = inc.revision ∧ p.partCount = inc.partCount ∧
        p.partIndex ∉ inc.parts) ∨
      (e.incoming = none ∧ newerThan p.revision (e.current.map (·.revision)) = true))
    (htake : takeSegment i p.partIndex p.text g.cls s = none) : workPage p g s = (s, .full) := by
  rcases hneed with ⟨inc, hi, hr, hcount, hp⟩ | ⟨hi, hn⟩
  · rw [workPage_part hk hc ha hi hr, storePart_new i inc p g s hcount hp, htake]
    rfl
  · rw [workPage_starts hk ha hc hi hn, startRevision, htake]
    rfl

/-- A page that needs a segment is worked as one that finds the segments of the victim free. -/
theorem workPage_segmentFrom (hk : s.entryOfKey (pageKey p) = some (i, e)) (hc : e.cancel = none) (ha : p.action = .issue)
    (hneed : (∃ inc, e.incoming = some inc ∧ p.revision = inc.revision ∧ p.partCount = inc.partCount ∧
        p.partIndex ∉ inc.parts) ∨
      (e.incoming = none ∧ newerThan p.revision (e.current.map (·.revision)) = true))
    {e' : Entry} (hk' : u.entryOfKey (pageKey p) = some (i, e')) (heq : e'.butReceipt = e.butReceipt) {t : State}
    (hs : takeSegment i p.partIndex p.text g.cls s = some t) (hu : takeSegment i p.partIndex p.text g.cls u = some t) :
    workPage p g s = workPage p g u := by
  obtain ⟨-, hcur, hinc, hcan⟩ := fields_of_butReceipt heq
  rcases hneed with ⟨inc, hi, hr, hcount, hp⟩ | ⟨hi, hn⟩
  · rw [workPage_part hk hc ha hi hr, workPage_part hk' (hcan.trans hc) ha (hinc.trans hi) hr,
      storePart_congr hcount hp hs hu]
  · rw [workPage_starts hk ha hc hi hn, workPage_starts hk' ha (hcan.trans hc) (hinc.trans hi) (by rwa [hcur]),
      orFull_congr hs hu]

/-- A part in the middle of its revision, in a segment of the victim. -/
theorem workPage_partEvicts (hk : s.entryOfKey (pageKey p) = some (i, e)) (hc : e.cancel = none) (ha : p.action = .issue)
    {inc : Incoming} (hi : e.incoming = some inc) (hr : p.revision = inc.revision) (hcount : p.partCount = inc.partCount)
    (hp : p.partIndex ∉ inc.parts) (hmore : ∃ k, 1 ≤ k ∧ k ≤ inc.partCount ∧ k ≠ p.partIndex ∧ k ∉ inc.parts) {t : State}
    (hs : takeSegment i p.partIndex p.text g.cls s = some t) : workPage p g s =
      (modEntry i (joinLink p.link) (modEntry i (fun e => { e with incoming := some (joinPart p inc) }) t),
        .storedMore) := by
  obtain ⟨k, hk1, hk2, hk3, hk4⟩ := hmore
  have hnot : ¬ allPartsPresent (joinPart p inc).parts (joinPart p inc).partCount = true := by
    rw [allPartsPresent_joinPart]
    exact fun hall => (hall k hk1 hk2).elim hk3 hk4
  rw [workPage_part hk hc ha hi hr, storePart_new i inc p g s hcount hp, hs]
  show joinUnlessFull i p (if _ then _ else _) = _
  rw [if_neg hnot, joinUnlessFull_joins (by simp)]

end

/-- Settles O33: the victim by `victim_spec`; a page is worked in the room of the victim by `workPage_evicts` and
`workPage_segmentFrom`. -/
theorem victimIsEvictable : Obligations.VictimIsEvictable := by
  refine ⟨fun s may page => ⟨fun v hv => ?_, fun hv j y hmay hy => ?_, fun v x hv hx hcan j y hmay hy hyc hyn => ?_,
    fun v x hv hx => ?_, victim_none_iff s may page⟩, fun p g s hk hr hfull => ⟨fun hv => ?_, fun v x hv hx => ?_,
    fun v x hv hx hl hp => ?_⟩, fun p g i e inc s hk hc hi ha hrev hcount hp hl => ⟨fun hv => ?_,
    fun v x hv hx hmore => ?_⟩, fun p g i e s hk hc ha hl hneed => ⟨fun hv => ?_, fun v x hv hx => ?_⟩⟩
  · obtain ⟨x, k, a, hmay, hx, hcand, -⟩ := victim_spec hv
    exact ⟨hmay, x, hx, candidateFor_evictable hcand⟩
  · exact candidateFor_none ((victim_none_iff s may page).1 hv j y hmay hy)
  · obtain ⟨x', k, a, -, hx', hcand, hmin⟩ := victim_spec hv
    obtain rfl : x = x' := Option.some_inj.1 (hx.symm.trans hx')
    rw [candidateFor_cancelled page hcan (candidateFor_evictable hcand).1] at hcand
    cases hcand
    exact (hmin j y _ _ hmay hy (candidateFor_cancelled page hyc hyn)).resolve_left (lt_irrefl _) |>.2
  · obtain ⟨x', k, a, -, hx', hcand, hmin⟩ := victim_spec hv
    obtain rfl : x = x' := Option.some_inj.1 (hx.symm.trans hx')
    exact ⟨k, a, hcand, hmin⟩
  · rw [workPage_miss hk hr, workMiss_full hfull hv]
  · exact ⟨evict v s, evicted_evict v x s hx, workPage_evicts hk hr hfull hv hx⟩
  · have hev := evicted_evict v x s hx
    obtain ⟨hk', hr'⟩ := hev.misses hx hk hr
    rw [workPage_evicts hk hr hfull hv hx]
    exact workPage_inRoom hev hk' hr' (hev.lowestFree hfull) hl hp
  · exact workPage_noSegment hk hc ha (.inl ⟨inc, hi, hrev, hcount, hp⟩) (takeSegment_none hl hv)
  · have hev := evicted_evict v x s hx
    obtain ⟨hne, -⟩ := segmentVictim hv
    have hpage := workPage_partEvicts (g := g) hk hc ha hi hrev hcount hp hmore
      (takeSegment_evicts hl p.partIndex p.text hv)
    obtain ⟨e', he', -⟩ := othersKept_forth hev.others hne.symm (entryOfKey_spec hk).1
    have hput : (putSegment i p.partIndex p.text (evict v s)).entryAt i = some e' := he'
    refine ⟨_, hpage, hne, hev.after ?_ (fun hrem => ?_) ?_ ?_, ?_, ?_, ?_, ?_⟩
    · rw [State.retired_modEntry, State.retired_modEntry]
      rfl
    · rw [State.host_modEntry, State.host_modEntry]
      exact hrem
    · rw [State.host_modEntry, State.host_modEntry]
      rfl
    · exact (work_setSegs _ _).trans ((work_modEntry _ _ _).trans (work_modEntry _ _ _))
    · rw [State.entryAt_modEntry, if_neg hne.symm, State.entryAt_modEntry, if_neg hne.symm]
      exact hev.free
    · rw [State.useCounts_modEntry, State.useCounts_modEntry]
      exact hev.useCounts
    · rw [State.segs_modEntry, State.segs_modEntry]
      exact congrArg (· ++ _) hev.segs
    · rw [State.entryAt_modEntry_same, State.entryAt_modEntry_same, hput]
      rfl
  · exact workPage_noSegment hk hc ha hneed (takeSegment_none hl.ge hv)
  · have hev := evicted_evict v x s hx
    obtain ⟨hne, hlt⟩ := segmentVictim hv
    have hlu : (evict v s).dir.segs.length < 160 := by
      rw [hev.segs]
      exact hlt.trans_le hl.le
    obtain ⟨e', hk', heq⟩ := hev.finds hne hk
    exact ⟨hne, evict v s, hev, hlu, workPage_segmentFrom hk hc ha hneed hk' heq
      (takeSegment_evicts hl.ge p.partIndex p.text hv) (takeSegment_free hlu _ _ _)⟩

end Sys2Proof.Machine
end

section
/-! The area decision (R115 to R123): the test of cell tags bit by bit, the polygon test by its edges and its widened box. -/

namespace Sys2Proof.Machine

/-! ### The test of cell tags (R6, R117, R118) -/

/-- An entry of a cell list covers a tag when its first bits are the tag's. -/
theorem covers_iff {e : PrefixEntry} (h : e.len ≤ 32) (tag : Tag) :
    e.covers tag = true ↔ ∀ k < e.len, tag.getMsbD k = e.base.getMsbD k := by
  rw [PrefixEntry.covers, decide_eq_true_iff]
  constructor
  · intro heq k hk
    have hbit := congrArg (fun x : Tag => x.getMsbD (32 - e.len + k)) heq
    have hlt : 32 - e.len + k < 32 := by omega
    simpa [BitVec.getMsbD_ushiftRight, hlt] using hbit
  · intro hbits
    refine BitVec.eq_of_getMsbD_eq fun i hi => ?_
    rw [BitVec.getMsbD_ushiftRight, BitVec.getMsbD_ushiftRight]
    by_cases hlow : i < 32 - e.len
    · simp [hlow]
    · simp [hlow, hbits (i - (32 - e.len)) (by omega)]

theorem witness_iff (k : Link) (region : Nat) (tag : Tag) : k.witness region = some tag ↔
    k.state = .up ∧ ∃ network district, k.serving = .service network region tag district := by
  rw [Link.witness]
  by_cases hup : k.state = .up
  · rw [if_pos hup]
    cases k.serving with
    | absent => simp
    | noService => simp
    | service network r cell district =>
      by_cases hr : r = region
      · simp [hr, hup]
      · simp [hr]
  · simp [hup]

theorem mem_witnesses {s : State} {region : Nat} {tag : Tag} :
    tag ∈ s.witnesses region ↔ ∃ l, (s.link l).witness region = some tag := by
  rw [State.witnesses, List.mem_append, Option.mem_toList, Option.mem_toList]
  constructor
  · rintro (h | h)
    · exact ⟨.la, h⟩
    · exact ⟨.lb, h⟩
  · rintro ⟨l, h⟩
    cases l with
    | la => exact .inl h
    | lb => exact .inr h

theorem witnesses_isEmpty {s : State} {region : Nat} :
    (s.witnesses region).isEmpty = true ↔ ∀ l, (s.link l).witness region = none := by
  rw [List.isEmpty_iff, List.eq_nil_iff_forall_not_mem]
  simp only [mem_witnesses, not_exists, Option.eq_none_iff_forall_ne_some]
  exact forall_comm

section
variable {s : State} {region : Nat} {es : List PrefixEntry}

theorem areaDecision_noWitness (h : ∀ l, (s.link l).witness region = none) :
    s.areaDecision region (some (.cells es)) = .undecided :=
  if_pos (witnesses_isEmpty.2 h)

theorem areaDecision_covered {l : LinkId} {tag : Tag} {e : PrefixEntry} (hw : (s.link l).witness region = some tag)
    (he : e ∈ es) (hc : e.covers tag = true) : s.areaDecision region (some (.cells es)) = .inside := by
  show cellTest _ _ = _
  rw [cellTest, if_neg, if_pos]
  · exact List.any_eq_true.2 ⟨tag, mem_witnesses.2 ⟨l, hw⟩, List.any_eq_true.2 ⟨e, he, hc⟩⟩
  · rw [witnesses_isEmpty]
    exact fun hnone => absurd ((hnone l).symm.trans hw) (by simp)

theorem areaDecision_uncovered {l : LinkId} {tag : Tag} (hw : (s.link l).witness region = some tag)
    (hnot : ∀ l tag e, (s.link l).witness region = some tag → e ∈ es → ¬ e.covers tag = true) :
    s.areaDecision region (some (.cells es)) = .outside := by
  show cellTest _ _ = _
  rw [cellTest, if_neg, if_neg]
  · rw [List.any_eq_true]
    rintro ⟨t, ht, hany⟩
    obtain ⟨m, hm⟩ := mem_witnesses.1 ht
    obtain ⟨e, he, hc⟩ := List.any_eq_true.1 hany
    exact hnot m t e hm he hc
  · rw [witnesses_isEmpty]
    exact fun hnone => absurd ((hnone l).symm.trans hw) (by simp)

theorem usablePosition_stale {pos : Position} (h : s.area.position = some pos)
    (hs : s.host.settings.staleLimit < (s.now - pos.setAt) / 1000 + pos.fixAge) : s.usablePosition = none := by
  rw [State.usablePosition, h]
  exact if_pos (decide_eq_true hs)

theorem usablePosition_fresh {pos : Position} (h : s.area.position = some pos)
    (hs : (s.now - pos.setAt) / 1000 + pos.fixAge ≤ s.host.settings.staleLimit) : s.usablePosition = some pos := by
  have hnot : ¬ pos.stale s.now s.host.settings.staleLimit = true := by
    rw [Position.stale, decide_eq_true_iff]
    exact Nat.not_lt.2 hs
  rw [State.usablePosition, h]
  exact if_neg hnot

end

/-! ### The polygon test (R119 to R123) -/

/-- When an edge counts, by the latitudes of its ends. -/
theorem edgeCounts_iff (p i j : Point) : edgeCounts p (i, j) = true ↔
    (i.y ≤ p.y ∧ p.y < j.y ∧ (p.x - i.x) * (j.y - i.y) < (p.y - i.y) * (j.x - i.x)) ∨
    (j.y ≤ p.y ∧ p.y < i.y ∧ (p.y - i.y) * (j.x - i.x) < (p.x - i.x) * (j.y - i.y)) := by
  rw [edgeCounts]
  by_cases hi : p.y < i.y
  · by_cases hj : p.y < j.y
    · simp [hi, hj, Int.not_le.2 hi, Int.not_le.2 hj]
    · have hij : ¬ i.y < j.y := by omega
      simp [hi, hj, hij, Int.not_lt.1 hj]
  · by_cases hj : p.y < j.y
    · have hij : i.y < j.y := by omega
      simp [hi, hj, hij, Int.not_lt.1 hi]
    · simp [hi, hj]

/-- The longitude margin over a table of bands (R122, Table 29). -/
theorem lonMargin_eq (mlat : Nat) (lat : Int) : lonMargin mlat lat =
    match [1008, 962, 886, 784, 658, 512, 350, 177][lat.natAbs / 1000000]? with
    | some c => min ((mlat * 1024 + (c - 1)) / c) 36000000
    | none => 36000000 := by
  rw [lonMargin]
  generalize lat.natAbs / 1000000 = band
  match band with
  | 0 | 1 | 2 | 3 | 4 | 5 | 6 | 7 => rfl
  | _ + 8 => simp [lonFactor]

/-- The widened box, vertex by vertex (R123). -/
theorem inWidenedBox_iff (p a : Point) (r : List Point) (mlat mlon : Nat) :
    inWidenedBox p a (a :: r) mlat mlon = true ↔
      (∃ v ∈ a :: r, v.x - mlon ≤ p.x) ∧ (∃ v ∈ a :: r, p.x ≤ v.x + mlon) ∧
      (∃ v ∈ a :: r, v.y - mlat ≤ p.y) ∧ (∃ v ∈ a :: r, p.y ≤ v.y + mlat) := by
  have hleast (f : Point → Int) (m b : Int) :
      leastOf (f a) ((a :: r).map f) - m ≤ b ↔ ∃ v ∈ a :: r, f v - m ≤ b := by
    rw [sub_le_iff_le_add, leastOf_le]
    simp
  have hgreatest (f : Point → Int) (m b : Int) :
      b ≤ greatestOf (f a) ((a :: r).map f) + m ↔ ∃ v ∈ a :: r, b ≤ f v + m := by
    rw [← sub_le_iff_le_add, le_greatestOf]
    simp
  simp only [inWidenedBox, Bool.and_eq_true, decide_eq_true_iff, and_assoc]
  exact and_congr (hleast Point.x mlon p.x) (and_congr (hgreatest Point.x mlon p.x)
    (and_congr (hleast Point.y mlat p.y) (hgreatest Point.y mlat p.y)))

section
variable {pos : Position} {near : Nat} {v0 : Vertex} {rest : List Vertex} {x : Int → Int} {at_ : Nat → Vertex}
  {counts : Nat → Bool}

/-- The number of counting edges, edge by edge (R7, R120). -/
theorem countP_edgeCounts (hx : ∀ y, x y = unwrapLon v0.lon y)
    (hat : ∀ k, at_ k = (v0 :: rest).getD (k % (rest.length + 1)) v0)
    (hcounts : ∀ k, counts k = true ↔
      ((at_ k).lat ≤ pos.lat ∧ pos.lat < (at_ (k + 1)).lat ∧
        (x pos.lon - x (at_ k).lon) * ((at_ (k + 1)).lat - (at_ k).lat) <
          (pos.lat - (at_ k).lat) * (x (at_ (k + 1)).lon - x (at_ k).lon)) ∨
      ((at_ (k + 1)).lat ≤ pos.lat ∧ pos.lat < (at_ k).lat ∧
        (pos.lat - (at_ k).lat) * (x (at_ (k + 1)).lon - x (at_ k).lon) <
          (x pos.lon - x (at_ k).lon) * ((at_ (k + 1)).lat - (at_ k).lat))) :
    (edgesOf ((v0 :: rest).map (unwrapPoint v0.lon))).countP (edgeCounts (unwrapPoint v0.lon ⟨pos.lat, pos.lon⟩)) =
      (List.range (rest.length + 1)).countP counts := by
  have hpoint (k : Nat) : ((v0 :: rest).map (unwrapPoint v0.lon)).getD (k % (rest.length + 1)) (unwrapPoint v0.lon v0) =
      unwrapPoint v0.lon (at_ k) := by
    rw [hat, List.getD_map]
  rw [List.map_cons, edgesOf_eq, List.countP_map, List.length_map]
  refine List.countP_congr fun k _ => ?_
  rw [← List.map_cons, Function.comp_apply, hpoint, hpoint, edgeCounts_iff, hcounts]
  simp only [unwrapPoint, hx]

theorem polygonTest_eq : polygonTest pos near (v0 :: rest) =
    if (edgesOf ((v0 :: rest).map (unwrapPoint v0.lon))).countP (edgeCounts (unwrapPoint v0.lon ⟨pos.lat, pos.lon⟩)) % 2
        = 1 then .inside
    else if inWidenedBox (unwrapPoint v0.lon ⟨pos.lat, pos.lon⟩) (unwrapPoint v0.lon v0)
      ((v0 :: rest).map (unwrapPoint v0.lon)) (latMargin (marginRadius pos.radius near))
      (lonMargin (latMargin (marginRadius pos.radius near)) pos.lat) then .near
    else .outside := by
  simp only [polygonTest, crossingInside, decide_eq_true_eq]

end

/-- Settles O42: the tests by `covers_iff`, `edgeCounts_iff` and `inWidenedBox_iff`. -/
theorem areaDecisionByTests : Obligations.AreaDecisionByTests := by
  refine ⟨fun s region c area es vs => ⟨fun hc => ?_, fun hc => ?_, rfl, rfl, areaDecision_noWitness, ?_, ?_, rfl,
    fun pos hpos => ⟨fun hs => ?_, fun hs => ?_⟩, fun policy => ⟨rfl, rfl, rfl, rfl, rfl⟩, rfl, rfl, rfl, rfl,
    fun l tag => witness_iff (s.link l) region tag⟩, ?_⟩
  · rw [State.decideArea, if_neg (by simp [hc])]
  · rw [State.decideArea, if_pos hc]
  · rintro ⟨l, tag, e, hw, he, hlen, hbits⟩
    exact areaDecision_covered hw he ((covers_iff hlen tag).2 hbits)
  · rintro ⟨l, tag, hw⟩ hnot
    refine areaDecision_uncovered hw fun m t e hm he hc => ?_
    obtain ⟨hlen, k, hk, hne⟩ := hnot m t e hm he
    exact hne ((covers_iff hlen t).1 hc k hk)
  · exact areaDecision_polygon_unusable (usablePosition_stale hpos hs) region vs false
  · rw [State.areaDecision, usablePosition_fresh hpos hs]
    rfl
  · intro pos near v0 rest x at_ counts mlat mlon hx hat hcounts hmlat hmlon
    have hlat : mlat = (latMargin (marginRadius pos.radius near) : Nat) := hmlat
    have hlon : mlon = (lonMargin (latMargin (marginRadius pos.radius near)) pos.lat : Nat) := by
      rw [hlat] at hmlon
      exact hmlon.trans (congrArg Nat.cast (lonMargin_eq _ _).symm)
    have hcount := countP_edgeCounts (pos := pos) (v0 := v0) (rest := rest) (x := x) hx hat hcounts
    have hbox : inWidenedBox (unwrapPoint v0.lon ⟨pos.lat, pos.lon⟩) (unwrapPoint v0.lon v0)
        ((v0 :: rest).map (unwrapPoint v0.lon)) (latMargin (marginRadius pos.radius near))
        (lonMargin (latMargin (marginRadius pos.radius near)) pos.lat) = true ↔
        (∃ v ∈ v0 :: rest, x v.lon - mlon ≤ x pos.lon) ∧ (∃ v ∈ v0 :: rest, x pos.lon ≤ x v.lon + mlon) ∧
        (∃ v ∈ v0 :: rest, v.lat - mlat ≤ pos.lat) ∧ (∃ v ∈ v0 :: rest, pos.lat ≤ v.lat + mlat) := by
      have hx' : x = unwrapLon v0.lon := funext hx
      rw [List.map_cons, inWidenedBox_iff, ← List.map_cons, hx', hlat, hlon]
      simp only [List.mem_map, exists_exists_and_eq_and, unwrapPoint]
    rw [polygonTest_eq, hcount]
    rcases Nat.mod_two_eq_zero_or_one ((List.range (rest.length + 1)).countP counts) with hpar | hpar
    · rw [if_neg (by simp [hpar])]
      by_cases hin : inWidenedBox (unwrapPoint v0.lon ⟨pos.lat, pos.lon⟩) (unwrapPoint v0.lon v0)
        ((v0 :: rest).map (unwrapPoint v0.lon)) (latMargin (marginRadius pos.radius near))
        (lonMargin (latMargin (marginRadius pos.radius near)) pos.lat) = true
      · rw [if_pos hin]
        exact ⟨by simp [hpar], ⟨fun _ => ⟨hpar, hbox.1 hin⟩, fun _ => rfl⟩, by simp⟩
      · rw [if_neg hin]
        exact ⟨by simp [hpar], ⟨by simp, fun h => absurd (hbox.2 h.2) hin⟩, by simp⟩
    · rw [if_pos hpar]
      exact ⟨by simp [hpar], ⟨by simp, fun h => absurd (hpar.symm.trans h.1) (by simp)⟩, by simp⟩

end Sys2Proof.Machine
end

section
/-! WRITE-SETTINGS (R183, R184): the record read, and what the arbiter does at once under new settings (R139, R144). -/

namespace Sys2Proof.Machine

/-! ### The settings record (R183, Table 51) -/

theorem readFlag_of_le {v : Nat} (h : v ≤ 1) : readFlag v = some (decide (v = 1)) := by
  rw [readFlag_iff]
  rcases Nat.le_one_iff_eq_zero_or_eq_one.1 h with rfl | rfl
  · exact .inl ⟨rfl, rfl⟩
  · exact .inr ⟨rfl, rfl⟩

/-- The settings of a record whose on-off fields are sound. -/
def settingsOf (b : List Byte) : Settings where
  enable2 := decide (fieldAt b 1 1 = 1)
  enable3 := decide (fieldAt b 2 1 = 1)
  enable4 := decide (fieldAt b 3 1 = 1)
  enable5 := decide (fieldAt b 4 1 = 1)
  nearPolicy := if decide (fieldAt b 5 1 = 1) then .hold else .present
  nearDistance := fieldAt b 6 2
  staleLimit := clamp 30 3600 (fieldAt b 8 2)
  attentionLength := clamp 4 30 (fieldAt b 10 1)
  minimumPlay := min (clamp 1 10 (fieldAt b 11 1)) (clamp 4 30 (fieldAt b 10 1))
  maximumPlay := clamp 1 30 (fieldAt b 12 1)
  toneEnable := decide (fieldAt b 13 1 = 1)
  vibrationEnable := decide (fieldAt b 14 1 = 1)

theorem readSettingsRecord_sound {b : List Byte} (h : ∀ k ∈ [1, 2, 3, 4, 5, 13, 14], fieldAt b k 1 ≤ 1) :
    readSettingsRecord b = some (settingsOf b, decide ((settingsOf b).staleLimit ≠ fieldAt b 8 2 ∨
      (settingsOf b).attentionLength ≠ fieldAt b 10 1 ∨ (settingsOf b).minimumPlay ≠ fieldAt b 11 1 ∨
      (settingsOf b).maximumPlay ≠ fieldAt b 12 1)) := by
  have hflag (k : Nat) (hk : k ∈ [1, 2, 3, 4, 5, 13, 14]) := readFlag_of_le (h k hk)
  rw [readSettingsRecord, hflag 1 (by simp), hflag 2 (by simp), hflag 3 (by simp), hflag 4 (by simp), hflag 5 (by simp),
    hflag 13 (by simp), hflag 14 (by simp)]
  rfl

/-- An on-off field other than 0 or 1 refuses the record whole. -/
theorem readSettingsRecord_refused {b : List Byte} (h : ∃ k ∈ [1, 2, 3, 4, 5, 13, 14], 1 < fieldAt b k 1) :
    readSettingsRecord b = none := by
  obtain ⟨k, hk, hlt⟩ := h
  have hnone := readFlag_eq_none hlt
  unfold readSettingsRecord
  split
  · next h1 h2 h3 h4 h5 h13 h14 =>
    simp only [List.mem_cons, List.not_mem_nil, or_false] at hk
    rcases hk with rfl | rfl | rfl | rfl | rfl | rfl | rfl
    · exact absurd (hnone.symm.trans h1) (by simp)
    · exact absurd (hnone.symm.trans h2) (by simp)
    · exact absurd (hnone.symm.trans h3) (by simp)
    · exact absurd (hnone.symm.trans h4) (by simp)
    · exact absurd (hnone.symm.trans h5) (by simp)
    · exact absurd (hnone.symm.trans h13) (by simp)
    · exact absurd (hnone.symm.trans h14) (by simp)
  · rfl

theorem minimumPlay_settingsOf (b : List Byte) :
    (settingsOf b).minimumPlay = min (max 1 (min 10 (fieldAt b 11 1))) (settingsOf b).attentionLength := by
  show min (clamp 1 10 _) _ = _
  rw [clamp_eq _ (by decide)]
  rfl

theorem minimumPlay_pos (b : List Byte) : 0 < (settingsOf b).minimumPlay := by
  have hatt : (settingsOf b).attentionLength = max 4 (min 30 (fieldAt b 10 1)) := clamp_eq _ (by decide)
  rw [minimumPlay_settingsOf, hatt]
  omega

theorem flagByte_clamped {p q r t : Prop} [Decidable p] [Decidable q] [Decidable r] [Decidable t] :
    flagByte (decide (¬ p ∨ ¬ q ∨ ¬ r ∨ ¬ t)) = if p ∧ q ∧ r ∧ t then 0#8 else 1#8 := by
  by_cases h : p ∧ q ∧ r ∧ t
  · obtain ⟨hp, hq, hr, ht⟩ := h
    simp [hp, hq, hr, ht, flagByte]
  · have hor : ¬ p ∨ ¬ q ∨ ¬ r ∨ ¬ t := by tauto
    rw [if_neg h, decide_eq_true hor]
    rfl

/-! ### Silenced requests that a lowered minimum play ends (R144) -/

theorem request_heardEntry (n : Nat) (k : RequestKind) (e : Entry) : (heardEntry n k e).request = e.request := by
  cases k with
  | alert => rw [heardEntry_alert]
  | reminder => rfl

/-- What the end of a silenced request that has reached the minimum play makes of its entry. -/
def State.endEntry (s : State) (e : Entry) : Entry :=
  match e.request with
  | none => e
  | some r => if s.silencedEndDue r then heardEntry s.now r.kind { e with request := none } else e

theorem endEntry_due {s : State} {e : Entry} {r : Request} (hr : e.request = some r) (h : s.silencedEndDue r = true) :
    s.endEntry e = heardEntry s.now r.kind { e with request := none } := by
  rw [State.endEntry, hr]
  exact if_pos h

theorem endEntry_kept {s : State} {e : Entry} (h : ∀ r, e.request = some r → ¬ s.silencedEndDue r = true) :
    s.endEntry e = e := by
  rw [State.endEntry]
  split
  · rfl
  · next r hr => exact if_neg (h r hr)

theorem silencedEndDue_congr {s t : State} (h : t.host = s.host) (r : Request) :
    t.silencedEndDue r = s.silencedEndDue r := by
  rw [State.silencedEndDue, State.silencedEndDue, State.minimumMs, State.minimumMs, h]

theorem silencedWaitingEnd_none {s : State} {i : EntrySlot} (hw : s.waitingRequest i = none) :
    silencedWaitingEnd i s = s := by
  rw [silencedWaitingEnd, hw]

theorem silencedWaitingEnd_some {s : State} {i : EntrySlot} {r : Request} (hw : s.waitingRequest i = some r) :
    silencedWaitingEnd i s = if s.silencedEndDue r then hearRequest i r.kind s else s := by
  rw [silencedWaitingEnd, hw]

theorem entryAt_silencedWaitingEnd (i : EntrySlot) (s : State) (j : EntrySlot) :
    (silencedWaitingEnd i s).entryAt j = if i = j then s.changedWaiting State.endEntry i else s.entryAt j := by
  cases hw : s.waitingRequest i with
  | none =>
    rw [silencedWaitingEnd_none hw, State.changedWaiting, hw]
    split
    · next h => rw [h]
    · rfl
  | some r =>
    obtain ⟨e, he, hr⟩ := waitingRequest_spec hw
    have hchanged : s.changedWaiting State.endEntry i = some (s.endEntry e) := by
      rw [State.changedWaiting, hw, he]
      rfl
    rw [silencedWaitingEnd_some hw, hchanged]
    by_cases hd : s.silencedEndDue r = true
    · rw [if_pos hd, entryAt_hearRequest, endEntry_due hr hd]
      split
      · next h =>
        rw [← h, he]
        rfl
      · rfl
    · have hkept : s.endEntry e = e := endEntry_kept fun r' hr' => by
        rw [hr, Option.some_inj] at hr'
        rwa [← hr']
      rw [if_neg hd, hkept]
      split
      · next h => rw [← h, he]
      · rfl

theorem slotWork_silencedWaitingEnd : SlotWork silencedWaitingEnd State.endEntry where
  work i s := by
    unfold silencedWaitingEnd
    split
    · exact RequestWork.refl s
    · split
      · exact requestWork_hearRequest _ _ _
      · exact RequestWork.refl s
  arb i s := by
    unfold silencedWaitingEnd
    split
    · rfl
    · split
      · exact arb_hearRequest _ _ _
      · rfl
  slot := entryAt_silencedWaitingEnd
  same s t hh hn := by
    funext e
    simp only [State.endEntry, silencedEndDue_congr hh, hn]
  idle s e hr := endEntry_kept fun r hr' => absurd (hr.symm.trans hr') (by simp)

/-- Every silenced request that has reached the minimum play is removed, the playing one last. -/
def silencedEnds (s : State) : State := silencedPlayingEnd (onEverySlot silencedWaitingEnd s)

section
variable {s : State} {p : Play} {e : Entry} {r : Request}

theorem silencedEnds_idle (h : s.playingRequest = none) : silencedEnds s = onEverySlot silencedWaitingEnd s := by
  rw [silencedEnds, silencedPlayingEnd, slotWork_silencedWaitingEnd.playingRequest_onEverySlot, h]

theorem silencedEnds_playing (h : s.playingRequest = some (p, e, r)) : silencedEnds s =
    if s.silencedEndDue r then finishPlay p r (onEverySlot silencedWaitingEnd s)
    else onEverySlot silencedWaitingEnd s := by
  rw [silencedEnds, silencedPlayingEnd, slotWork_silencedWaitingEnd.playingRequest_onEverySlot, h]
  simp only [silencedEndDue_congr (slotWork_silencedWaitingEnd.work_onEverySlot s).host]

theorem requestWork_silencedEnds (s : State) : RequestWork s (silencedEnds s) := by
  refine (slotWork_silencedWaitingEnd.work_onEverySlot s).trans ?_
  show RequestWork _ (silencedPlayingEnd _)
  unfold silencedPlayingEnd
  split
  · exact RequestWork.refl _
  · split
    · exact requestWork_finishPlay _ _ _
    · exact RequestWork.refl _

theorem entryAt_silencedEnds (s : State) (i : EntrySlot) :
    (silencedEnds s).entryAt i = (s.entryAt i).map s.endEntry := by
  refine slotWork_silencedWaitingEnd.entryAt_all silencedEnds_idle (fun p e r h j => ?_) i
  obtain ⟨-, hn, hr⟩ := playingRequest_spec h
  have hkept : (onEverySlot silencedWaitingEnd s).entryAt p.handle.slot = some e :=
    (slotWork_silencedWaitingEnd.entryAt_playing (playsAt_of_playingRequest h)).trans (named_entryAt hn)
  rw [silencedEnds_playing h]
  by_cases hd : s.silencedEndDue r = true
  · rw [if_pos hd, entryAt_finishPlay, entryAt_hearRequest, endEntry_due hr hd,
      (slotWork_silencedWaitingEnd.work_onEverySlot s).now]
    split
    · next hj =>
      rw [← hj, hkept]
      rfl
    · rfl
  · have hsame : s.endEntry e = e := endEntry_kept fun r' hr' => by
      rw [hr, Option.some_inj] at hr'
      rwa [← hr']
    rw [if_neg hd, hsame]
    split
    · next hj => rw [← hj, hkept]
    · rfl

theorem selects_silencedEnds {t : State} (h : s.playingRequest = some (p, e, r)) (hd : s.silencedEndDue r = true)
    (ht : t = silencedEnds s) : s.selects t := by
  obtain ⟨u, hu⟩ : ∃ u, u = onEverySlot silencedWaitingEnd s := ⟨_, rfl⟩
  have harb : u.arb = s.arb := by rw [hu, slotWork_silencedWaitingEnd.arb_onEverySlot]
  rw [ht, silencedEnds_playing h, if_pos hd, ← hu]
  exact selects_finishPlay p r (congrArg Arbiter.pointers harb)

/-- A play whose request does not end goes on. -/
theorem silencedEnds_goesOn (h : s.playingRequest = some (p, e, r)) (hd : ¬ s.silencedEndDue r = true) :
    (silencedEnds s).arb = s.arb ∧ (silencedEnds s).playingRequest = some (p, e, r) := by
  rw [silencedEnds_playing h, if_neg hd, slotWork_silencedWaitingEnd.playingRequest_onEverySlot]
  exact ⟨slotWork_silencedWaitingEnd.arb_onEverySlot s, h⟩

end

/-! ### The arbiter under new settings (R139, R144) -/

/-- A lowered minimum play ends the request (R144). -/
def State.ends (s : State) (old : Settings) (r : Request) : Prop :=
  s.host.settings.minimumPlay < old.minimumPlay ∧ r.silenced = true ∧ s.host.settings.minimumPlay * 1000 ≤ r.played

/-- The state once a lowered minimum play has ended what it ends. -/
def endedUnder (old : Settings) (s : State) : State :=
  if s.host.settings.minimumPlay < old.minimumPlay then silencedEnds s else s

section
variable {s : State} {old : Settings} {p : Play} {e : Entry} {r : Request}

theorem requestWork_endedUnder (old : Settings) (s : State) : RequestWork s (endedUnder old s) := by
  rw [endedUnder]
  split
  · exact requestWork_silencedEnds s
  · exact RequestWork.refl s

theorem ends_iff : s.ends old r ↔ s.host.settings.minimumPlay < old.minimumPlay ∧ s.silencedEndDue r = true := by
  rw [silencedEndDue_iff]
  exact Iff.rfl

theorem arbiterMeets_eq : arbiterMeets old s =
    if s.host.settings.minimumPlay ≠ old.minimumPlay ∨ s.host.settings.maximumPlay ≠ old.maximumPlay then
      comparePlay (endedUnder old s)
    else endedUnder old s := by
  have hhost := (requestWork_endedUnder old s).host
  rw [← hhost]
  rfl

theorem entryAt_comparePlay (s : State) (i : EntrySlot) : (comparePlay s).entryAt i = s.entryAt i := by
  rw [comparePlay]
  split
  · rfl
  · split
    · exact entryAt_preempt s i
    · split
      · exact entryAt_yieldTurn _ _ s i
      · rfl

theorem requestWork_comparePlay (s : State) : RequestWork s (comparePlay s) := by
  unfold comparePlay
  split
  · exact RequestWork.refl s
  · split
    · exact (requestWork_setArb _ _).trans (requestWork_select _)
    · split
      · exact (requestWork_setArb _ _).trans (requestWork_selectFrom _ _)
      · exact RequestWork.refl s

theorem requestWork_arbiterMeets (old : Settings) (s : State) : RequestWork s (arbiterMeets old s) := by
  rw [arbiterMeets_eq]
  split
  · exact (requestWork_endedUnder old s).trans (requestWork_comparePlay _)
  · exact requestWork_endedUnder old s

theorem entryAt_arbiterMeets (old : Settings) (s : State) (i : EntrySlot) :
    (arbiterMeets old s).entryAt i = (endedUnder old s).entryAt i := by
  rw [arbiterMeets_eq]
  split
  · exact entryAt_comparePlay _ i
  · rfl

theorem entryAt_endedUnder_ends {i : EntrySlot} (he : s.entryAt i = some e) (hr : e.request = some r)
    (h : s.ends old r) : (endedUnder old s).entryAt i = some (heardEntry s.now r.kind { e with request := none }) := by
  obtain ⟨hlow, hd⟩ := ends_iff.1 h
  rw [endedUnder, if_pos hlow, entryAt_silencedEnds, he, Option.map_some, endEntry_due hr hd]

theorem entryAt_endedUnder_kept {i : EntrySlot} (he : s.entryAt i = some e)
    (h : ∀ r, e.request = some r → ¬ s.ends old r) : (endedUnder old s).entryAt i = some e := by
  rw [endedUnder]
  split
  · next hlow =>
    rw [entryAt_silencedEnds, he, Option.map_some, endEntry_kept fun r hr hd => h r hr (ends_iff.2 ⟨hlow, hd⟩)]
  · exact he

theorem entryAt_endedUnder_none {i : EntrySlot} (he : s.entryAt i = none) : (endedUnder old s).entryAt i = none := by
  rw [endedUnder]
  split
  · rw [entryAt_silencedEnds, he]
    rfl
  · exact he

theorem endedUnder_idle (h : s.playingRequest = none) :
    (endedUnder old s).arb = s.arb ∧ (endedUnder old s).playingRequest = none := by
  rw [endedUnder]
  split
  · rw [silencedEnds_idle h, slotWork_silencedWaitingEnd.playingRequest_onEverySlot]
    exact ⟨slotWork_silencedWaitingEnd.arb_onEverySlot s, h⟩
  · exact ⟨rfl, h⟩

theorem endedUnder_goesOn (h : s.playingRequest = some (p, e, r)) (hn : ¬ s.ends old r) :
    (endedUnder old s).arb = s.arb ∧ (endedUnder old s).playingRequest = some (p, e, r) := by
  rw [endedUnder]
  split
  · next hlow => exact silencedEnds_goesOn h fun hd => hn (ends_iff.2 ⟨hlow, hd⟩)
  · exact ⟨rfl, h⟩

/-- The requests that still wait once the ended ones are removed. -/
theorem waitingRequest_endedUnder (harb : (endedUnder old s).arb = s.arb) (i : EntrySlot) (q : Request) :
    (endedUnder old s).waitingRequest i = some q ↔ s.waitingRequest i = some q ∧ ¬ s.ends old q := by
  have hplays : (endedUnder old s).playsAt i = s.playsAt i := by
    simp only [State.playsAt, harb, (requestWork_endedUnder old s).handleOf]
  cases hp : s.playsAt i with
  | true => simp [waitingRequest_playing hp, waitingRequest_playing (hplays.trans hp)]
  | false =>
    cases he : s.entryAt i with
    | none => simp [State.waitingRequest, he, entryAt_endedUnder_none (old := old) he]
    | some e =>
      rw [waitingRequest_of he hp]
      by_cases hq : ∃ r, e.request = some r ∧ s.ends old r
      · obtain ⟨r, hr, hends⟩ := hq
        rw [waitingRequest_of (entryAt_endedUnder_ends he hr hends) (hplays.trans hp), request_heardEntry, hr]
        simp only [reduceCtorEq, Option.some_inj, false_iff, not_and, not_not]
        rintro rfl
        exact hends
      · have hnot : ∀ r, e.request = some r → ¬ s.ends old r := fun r hr hends => hq ⟨r, hr, hends⟩
        rw [waitingRequest_of (entryAt_endedUnder_kept he hnot) (hplays.trans hp)]
        exact ⟨fun h => ⟨h, hnot q h⟩, fun h => h.1⟩

theorem comparePlay_idle (h : s.playingRequest = none) : comparePlay s = s := by
  rw [comparePlay, h]

theorem comparePlay_playing (h : s.playingRequest = some (p, e, r)) : comparePlay s =
    if s.preemptionDue p r then preempt s else if s.yieldsNow p r then yieldTurn p r s else s := by
  rw [comparePlay, h]

/-- A play just selected is at none of its points. -/
theorem comparePlay_selected {u : State} (h : u.selects s) (hm : 0 < s.host.settings.minimumPlay) :
    comparePlay s = s := by
  cases hp : s.playingRequest with
  | none => exact comparePlay_idle hp
  | some x =>
    obtain ⟨q, e, r⟩ := x
    obtain ⟨hplay, -, -⟩ := playingRequest_spec hp
    have hturn : q.turn = 0 := by
      unfold State.selects State.selectsFrom at h
      rw [hplay] at h
      exact h.2.2.2.1
    have hpos : 0 < s.minimumMs := Nat.mul_pos hm (by decide)
    rw [comparePlay_playing hp, if_neg, if_neg (by simp [yieldsNow_fresh r hpos hturn])]
    rw [preemptionDue_iff, hturn]
    exact fun hc => absurd hc.2.2.1 (Nat.not_le.2 hpos)

theorem selects_arbiterMeets {t : State} (h : s.playingRequest = some (p, e, r)) (hends : s.ends old r)
    (hm : 0 < s.host.settings.minimumPlay) (ht : t = arbiterMeets old s) : s.selects t := by
  obtain ⟨hlow, hd⟩ := ends_iff.1 hends
  obtain ⟨u, hu⟩ : ∃ u, u = endedUnder old s := ⟨_, rfl⟩
  have hsel : s.selects u := selects_silencedEnds h hd (hu.trans (if_pos hlow))
  have hhost : u.host = s.host := by
    rw [hu]
    exact (requestWork_endedUnder old s).host
  rw [ht, arbiterMeets_eq, if_pos (.inl hlow.ne), ← hu, comparePlay_selected hsel (by rwa [hhost])]
  exact hsel

/-- What `comparePlay` does at a play, by the two points of R139: `a` says that the play is preempted, `b` that it yields. -/
theorem comparePlay_points {a b : Prop} (h : s.playingRequest = some (p, e, r))
    (ha : a ↔ s.minimumMs ≤ p.turn ∧ ∃ i q, s.waitingRequest i = some q ∧ q.level.rank < r.level.rank)
    (hb : b ↔ (s.minimumMs + s.maximumMs ≤ p.turn ∨ r.kind = .reminder ∧ r.level ≠ .trickle ∧ s.minimumMs ≤ p.turn ∧
      Config.freeEarlyYield s.freeCtr s.now = true) ∧ ∃ i q, s.waitingRequest i = some q ∧ q.level = r.level) :
    (0 < r.remaining ∧ r.silenced = false ∧ (a ∨ b) → PlaysOther p (comparePlay s) ∧
      (a → s.selects (comparePlay s)) ∧ (¬ a → s.selectsFrom (s.yieldStart p r) (comparePlay s))) ∧
    (¬ (0 < r.remaining ∧ r.silenced = false ∧ (a ∨ b)) → comparePlay s = s) := by
  have hpre : s.preemptionDue p r = true ↔ 0 < r.remaining ∧ r.silenced = false ∧ a := by
    rw [preemptionDue_iff, ha]
  have hyield : s.yieldsNow p r = true ↔ 0 < r.remaining ∧ r.silenced = false ∧ b := by
    rw [yieldsNow_iff, hb]
    exact ⟨fun ⟨ht, h0, hs, hw⟩ => ⟨h0, hs, ht, hw⟩, fun ⟨h0, hs, ht, hw⟩ => ⟨ht, h0, hs, hw⟩⟩
  rw [comparePlay_playing h]
  refine ⟨fun ⟨h0, hs, hab⟩ => ?_, fun hnot => ?_⟩
  · by_cases hA : a
    · rw [if_pos (hpre.2 ⟨h0, hs, hA⟩)]
      exact ⟨playsOther_preempt h (ha.1 hA).2, fun _ => selects_preempt s, fun hnot => absurd hA hnot⟩
    · have hB : b := hab.resolve_left hA
      rw [if_neg (fun hc => hA (hpre.1 hc).2.2), if_pos (hyield.2 ⟨h0, hs, hB⟩)]
      exact ⟨playsOther_yieldTurn h (hb.1 hB).2, fun hpos => absurd hpos hA, fun _ => selectsFrom_yieldTurn s p r⟩
  · rw [if_neg, if_neg]
    · intro hc
      obtain ⟨h0, hs, hB⟩ := hyield.1 hc
      exact hnot ⟨h0, hs, .inr hB⟩
    · intro hc
      obtain ⟨h0, hs, hA⟩ := hpre.1 hc
      exact hnot ⟨h0, hs, .inl hA⟩

/-- What new limits do to a play whose request does not end: it is compared with its points among the requests left. -/
theorem arbiterMeets_points {left early : Request → Prop} {a b : Prop} (h : s.playingRequest = some (p, e, r))
    (hn : ¬ s.ends old r) (hleft : ∀ q, left q ↔ ¬ s.ends old q ∧ ∃ i, s.waitingRequest i = some q)
    (hearly : early r ↔ r.kind = .reminder ∧ r.level ≠ .trickle ∧ Config.freeEarlyYield s.freeCtr s.now = true)
    (ha : a ↔ s.minimumMs ≤ p.turn ∧ ∃ q, left q ∧ q.level.rank < r.level.rank)
    (hb : b ↔ (s.minimumMs + s.maximumMs ≤ p.turn ∨ early r ∧ s.minimumMs ≤ p.turn) ∧ ∃ q, left q ∧ q.level = r.level)
    {t : State} (ht : t = arbiterMeets old s) {changed : Prop}
    (hc : changed ↔ s.host.settings.minimumPlay ≠ old.minimumPlay ∨ s.host.settings.maximumPlay ≠ old.maximumPlay) :
    (changed ∧ 0 < r.remaining ∧ r.silenced = false ∧ (a ∨ b) → PlaysOther p t ∧ (a → s.selects t) ∧
      (¬ a → s.selectsFrom (s.yieldStart p r) t)) ∧
    (¬ (changed ∧ 0 < r.remaining ∧ r.silenced = false ∧ (a ∨ b)) → t.arb = s.arb) := by
  obtain ⟨harb, hplay⟩ := endedUnder_goesOn h hn
  have hwork := requestWork_endedUnder old s
  have hwaits := waitingRequest_endedUnder harb
  obtain ⟨u, hu⟩ : ∃ u, u = endedUnder old s := ⟨_, rfl⟩
  rw [← hu] at harb hplay hwork hwaits
  have hmin : u.minimumMs = s.minimumMs := by rw [State.minimumMs, State.minimumMs, hwork.host]
  have hmax : u.maximumMs = s.maximumMs := by rw [State.maximumMs, State.maximumMs, hwork.host]
  have hfree : u.freeCtr = s.freeCtr := by rw [hwork]
  have hexists (c : Request → Prop) : (∃ q, left q ∧ c q) ↔ ∃ i q, u.waitingRequest i = some q ∧ c q := by
    constructor
    · rintro ⟨q, hq, hcq⟩
      obtain ⟨hends, i, hi⟩ := (hleft q).1 hq
      exact ⟨i, q, (hwaits i q).2 ⟨hi, hends⟩, hcq⟩
    · rintro ⟨i, q, hq, hcq⟩
      obtain ⟨hi, hends⟩ := (hwaits i q).1 hq
      exact ⟨q, (hleft q).2 ⟨hends, i, hi⟩, hcq⟩
  have hyieldStart : u.yieldStart p r = s.yieldStart p r := by
    funext lv
    rw [State.yieldStart, State.yieldStart, State.pointer, State.pointer, harb]
  obtain ⟨hdue, hnotdue⟩ := comparePlay_points (a := a) (b := b) hplay
    (by rw [ha, hexists, hmin])
    (by
      rw [hb, hexists, hmin, hmax, hearly, hfree, hwork.now]
      exact and_congr_left' (or_congr_right
        ⟨fun ⟨⟨hk, hl, hf⟩, hm⟩ => ⟨hk, hl, hm, hf⟩, fun ⟨hk, hl, hm, hf⟩ => ⟨⟨hk, hl, hf⟩, hm⟩⟩))
  rw [arbiterMeets_eq, ← hu] at ht
  refine ⟨fun ⟨hchanged, hrest⟩ => ?_, fun hnot => ?_⟩
  · rw [if_pos (hc.1 hchanged)] at ht
    obtain ⟨hother, hsel, hyield⟩ := hdue hrest
    rw [hyieldStart] at hyield
    rw [← ht] at hother hsel hyield
    exact ⟨hother, fun hA => State.selects_congr (hsel hA) (congrArg Arbiter.pointers harb),
      fun hA => State.selectsFrom_congr (hyield hA) (congrArg Arbiter.pointers harb)⟩
  · by_cases hchanged : changed
    · rw [if_pos (hc.1 hchanged), hnotdue fun hrest => hnot ⟨hchanged, hrest⟩] at ht
      rw [ht, harb]
    · rw [if_neg fun hcond => hchanged (hc.2 hcond)] at ht
      rw [ht, harb]

theorem arb_arbiterMeets_idle (h : s.playingRequest = none) : (arbiterMeets old s).arb = s.arb := by
  obtain ⟨harb, hplay⟩ := endedUnder_idle (old := old) h
  rw [arbiterMeets_eq, comparePlay_idle hplay]
  split
  · exact harb
  · exact harb

theorem arbiterMeets_same (hmin : s.host.settings.minimumPlay = old.minimumPlay)
    (hmax : s.host.settings.maximumPlay = old.maximumPlay) : arbiterMeets old s = s := by
  rw [arbiterMeets_eq, if_neg (by simp [hmin, hmax]), endedUnder, if_neg (by simp [hmin])]

/-! ### The settings triggers (R124, R184) -/

theorem slotsWhere_congr {t : State} {q : Entry → Bool} (h : ∀ i, (t.entryAt i).any q = (s.entryAt i).any q) :
    t.slotsWhere q = s.slotsWhere q :=
  List.filter_congr fun i _ => h i

/-- The end of a request leaves what a trigger selects by. -/
theorem selected_heardEntry (old new : Settings) (n : Nat) (k : RequestKind) (e : Entry) :
    (decide ((heardEntry n k { e with request := none }).state = .held) &&
      selectedBySettings old new (heardEntry n k { e with request := none })) =
    (decide (e.state = .held) && selectedBySettings old new e) := by
  cases k with
  | alert => rw [heardEntry_alert]; rfl
  | reminder => rfl

theorem any_arbiterMeets {q : Entry → Bool} (hq : ∀ n k e, q (heardEntry n k { e with request := none }) = q e)
    (i : EntrySlot) : ((arbiterMeets old s).entryAt i).any q = (s.entryAt i).any q := by
  rw [entryAt_arbiterMeets]
  cases he : s.entryAt i with
  | none => rw [entryAt_endedUnder_none he]
  | some e =>
    by_cases h : ∃ r, e.request = some r ∧ s.ends old r
    · obtain ⟨r, hr, hends⟩ := h
      rw [entryAt_endedUnder_ends he hr hends]
      exact hq _ _ _
    · rw [entryAt_endedUnder_kept he fun r hr hends => h ⟨r, hr, hends⟩]

theorem area_trigger_arbiterMeets (new : Settings) :
    (trigger (selectedBySettings old new) (arbiterMeets old s)).area = (trigger (selectedBySettings old new) s).area := by
  have hwork := requestWork_arbiterMeets old s
  have hslots : (arbiterMeets old s).slotsWhere (fun e => decide (e.state = .held) && selectedBySettings old new e) =
      s.slotsWhere (fun e => decide (e.state = .held) && selectedBySettings old new e) :=
    slotsWhere_congr (any_arbiterMeets (selected_heardEntry old new))
  have harea : (arbiterMeets old s).area = s.area := by rw [hwork]
  have hhandles : (arbiterMeets old s).handleOf = s.handleOf := funext hwork.handleOf
  rw [trigger, trigger, hslots, harea, hhandles]
  rfl

theorem selectedBySettings_iff (old new : Settings) (e : Entry) : selectedBySettings old new e = true ↔
    (e.hold = some .optedOut ∧ old.enabled e.cls = false ∧ new.enabled e.cls = true) ∨
    (e.hold = some .near ∧ old.nearPolicy = .hold ∧ new.nearPolicy = .present) := by
  simp [selectedBySettings, and_assoc]

end

theorem exec_writeSettings {body : List Byte} {s : State} (h : s.portIdle) (hl : body.length = 15) :
    exec (.writeSettings (framed body)) s =
      .next ((writeSettingsWork body (s.taken 15)).1.answered (writeSettingsWork body (s.taken 15)).2) := by
  show Host.Outcome.next _ = _
  rw [transact_framed 0x0B 15 writeSettingsWork body s h hl (by decide)]

/-- Settles O54: the record by `readSettingsRecord_sound`, the arbiter by the lemmas about `arbiterMeets` on the state with
the new settings in place. -/
theorem writeSettingsClampsOrRefuses : Obligations.WriteSettingsClampsOrRefuses := by
  intro body s h hl
  refine ⟨fun hbad => ?_, fun hgood => ?_⟩
  · rw [exec_writeSettings h hl, writeSettingsWork, readSettingsRecord_refused hbad]
    rfl
  · obtain ⟨g, hg⟩ : ∃ g, g = settingsOf body := ⟨_, rfl⟩
    obtain ⟨w, hw⟩ : ∃ w, w = (s.taken 15).setHost { (s.taken 15).host with settings := g } := ⟨_, rfl⟩
    obtain ⟨v, hv⟩ : ∃ v, v = arbiterMeets s.host.settings w := ⟨_, rfl⟩
    have hwork : RequestWork w v := hv ▸ requestWork_arbiterMeets _ w
    have harea := area_trigger_arbiterMeets (s := w) (old := s.host.settings) g
    obtain ⟨q, hq⟩ : ∃ q, trigger (selectedBySettings s.host.settings g) v = v.setArea { v.area with redecide := q } :=
      ⟨_, rfl⟩
    rw [← hv, hq] at harea
    have hset : w.host.settings = g := by rw [hw]; rfl
    have hpos : 0 < w.host.settings.minimumPlay := by
      rw [hset, hg]
      exact minimumPlay_pos body
    have hat (i : EntrySlot) : v.entryAt i = (endedUnder s.host.settings w).entryAt i := by
      rw [hv, entryAt_arbiterMeets]
    have hflag := flagByte_clamped (p := g.staleLimit = fieldAt body 8 2) (q := g.attentionLength = fieldAt body 10 1)
      (r := g.minimumPlay = fieldAt body 11 1) (t := g.maximumPlay = fieldAt body 12 1)
    obtain ⟨hsegs, -, hretired, hrcpt, -, hhost⟩ := requestWork_kept hwork
    have hexec : exec (.writeSettings (framed body)) s = .next ((v.setArea { v.area with redecide := q }).answered
        ⟨.ok, settingsBytes g ++ [if g.staleLimit = fieldAt body 8 2 ∧ g.attentionLength = fieldAt body 10 1 ∧
          g.minimumPlay = fieldAt body 11 1 ∧ g.maximumPlay = fieldAt body 12 1 then 0#8 else 1#8]⟩) := by
      rw [exec_writeSettings h hl, writeSettingsWork, readSettingsRecord_sound hgood, ← hflag, ← hq, hv, hw, hg]
      rfl
    refine ⟨v.setArea { v.area with redecide := q }, g, hexec, ?_, ?_, ?_, ?_, ?_, ?_, ?_, ?_, ?_, ?_, ?_, ?_, ?_, ?_,
      selectedBySettings_iff _ g, fun hmin hmax => ?_, fun l => ?_, ?_, ?_, ?_, ?_,
      fun ends left early changed hends hleft hearly hchanged => ?_⟩
    · show v.host = _
      rw [hhost, hw]
      rfl
    · rw [hg]; exact decide_eq_true_iff
    · rw [hg]; exact decide_eq_true_iff
    · rw [hg]; exact decide_eq_true_iff
    · rw [hg]; exact decide_eq_true_iff
    · rw [hg]
      by_cases hf : fieldAt body 5 1 = 1
      · simp [settingsOf, hf]
      · simp [settingsOf, hf]
    · rw [hg]; rfl
    · rw [hg]; exact clamp_eq _ (by decide)
    · rw [hg]; exact clamp_eq _ (by decide)
    · rw [hg]; exact minimumPlay_settingsOf body
    · rw [hg]; exact clamp_eq _ (by decide)
    · rw [hg]; exact decide_eq_true_iff
    · rw [hg]; exact decide_eq_true_iff
    · rw [harea, hw]
      rfl
    · have hsame : v = w := by rw [hv, arbiterMeets_same (by rw [hset, hmin]) (by rw [hset, hmax])]
      rw [hsame, hw]
      exact ⟨rfl, rfl⟩
    · rw [State.link_setArea, hwork, hw]
      cases l
      · rfl
      · rfl
    · show v.prof = _
      rw [hwork, hw]
      rfl
    · show v.rcpt = _
      rw [hrcpt, hw]
      rfl
    · show v.dir.segs = _
      rw [hsegs, hw]
      rfl
    · show v.dir.retired = _
      rw [hretired, hw]
      rfl
    · have hends' (r : Request) : ends r ↔ w.ends s.host.settings r := by
        rw [hends, State.ends, hset]
      have hpr : w.playingRequest = s.playingRequest := by rw [hw]; rfl
      have harb : w.arb = s.arb := by rw [hw]; rfl
      have hentry (i : EntrySlot) : w.entryAt i = s.entryAt i := by rw [hw]; rfl
      have hwait (i : EntrySlot) : w.waitingRequest i = s.waitingRequest i := by rw [hw]; rfl
      have hnow : w.now = s.now := by rw [hw]; rfl
      have hctr : w.freeCtr = s.freeCtr := by rw [hw]; rfl
      refine ⟨fun i e r he hr hend => ?_, fun i e he hnone => ?_, fun i he => ?_, fun hp => ?_, fun p e r hp =>
        ⟨fun hend => ?_, fun hnot => ?_⟩⟩
      · rw [← hnow]
        exact (hat i).trans (entryAt_endedUnder_ends ((hentry i).trans he) hr ((hends' r).1 hend))
      · exact (hat i).trans (entryAt_endedUnder_kept ((hentry i).trans he)
          fun r hr hend => hnone r hr ((hends' r).2 hend))
      · exact (hat i).trans (entryAt_endedUnder_none ((hentry i).trans he))
      · show v.arb = _
        rw [hv, arb_arbiterMeets_idle (hpr.trans hp), harb]
      · have hsel : w.selects v := selects_arbiterMeets (hpr.trans hp) ((hends' r).1 hend) hpos hv
        exact State.selects_congr (t := v.setArea _) hsel (by rw [harb])
      · have hmin : w.minimumMs = g.minimumPlay * 1000 := by rw [State.minimumMs, hset]
        have hmax : w.maximumMs = g.maximumPlay * 1000 := by rw [State.maximumMs, hset]
        have hstart : w.yieldStart p r = s.yieldStart p r := by rw [hw]; rfl
        obtain ⟨hdue, hkept⟩ := arbiterMeets_points (left := left) (early := early) (changed := changed)
          (hpr.trans hp) (fun hend => hnot ((hends' r).2 hend)) (fun x => by simp only [hleft, hends', hwait])
          (by rw [hearly, hctr, hnow]) (by rw [hmin]) (by rw [hmin, hmax]) hv (by rw [hchanged, hset])
        refine ⟨fun hcond => ?_, fun hcond => ?_⟩
        · obtain ⟨hother, hsel, hyield⟩ := hdue hcond
          rw [hstart] at hyield
          exact ⟨hother, fun hA => State.selects_congr (t := v.setArea _) (hsel hA) (by rw [harb]),
            fun hA => State.selectsFrom_congr (t := v.setArea _) (hyield hA) (by rw [harb])⟩
        · exact (hkept hcond).trans harb

end Sys2Proof.Machine
end
